-- ==== Sys2Proof/Word.lean ====
section
/-! DEFINITION. Bytes, and the plainest arithmetic of the manual's section 4.2 (integers, clamping, saturation).
Quantities (pressures, times, loads) are natural numbers or integers in the manual's units; only what a partner
sees byte by byte is a bit vector. -/

namespace Sys2Proof

/-- One byte of a frame, a telegram, an inertial sample or a result record (12, byte layouts). -/
abbrev Byte := BitVec 8

/-- "Clamped" (section 4.2): an input outside `lo..hi` is replaced by the nearer end. -/
def clamp (lo hi x : Nat) : Nat := max lo (min x hi)

/-- "Saturating" (section 4.2): the sum stays at the bound `hi`. -/
def satAdd (hi a b : Nat) : Nat := min hi (a + b)

end Sys2Proof
end

