-- ==== Sys2Proof/Machine/Checks.lean ====
section
/-! DEFINITION. Byte order (chapter 12: high byte first, two's complement) and the check values of R184. -/

namespace Sys2Proof.Machine

/-- The low byte of a number. -/
def byteOf (n : Nat) : Byte := BitVec.ofNat 8 n

/-- A number as two bytes, high byte first (chapter 12). -/
def bytes16 (n : Nat) : List Byte := [byteOf (n / 256), byteOf n]

/-- A number as three bytes, high byte first. -/
def bytes24 (n : Nat) : List Byte := byteOf (n / 65536) :: bytes16 n

/-- A number as four bytes, high byte first. -/
def bytes32 (n : Nat) : List Byte := byteOf (n / 16777216) :: bytes24 n

/-- A signed number as one byte in two's complement. -/
def bytesS8 (n : Int) : List Byte := [BitVec.ofInt 8 n]

/-- A signed number as two bytes in two's complement, high byte first. -/
def bytesS16 (n : Int) : List Byte := bytes16 (BitVec.ofInt 16 n).toNat

/-- Byte `i` of a list of bytes as a number; 0 past its end. -/
def byteAt (bs : List Byte) (i : Nat) : Nat := (bs.getD i 0#8).toNat

/-- Bytes `i` and `i + 1`, high byte first, as a number. -/
def wordAt (bs : List Byte) (i : Nat) : Nat := byteAt bs i * 256 + byteAt bs (i + 1)

/-- Bytes `i` to `i + 3`, high byte first, as a number. -/
def longAt (bs : List Byte) (i : Nat) : Nat := wordAt bs i * 65536 + wordAt bs (i + 2)

/-- Bytes `i` and `i + 1` as a signed number. -/
def signedWordAt (bs : List Byte) (i : Nat) : Int := (BitVec.ofNat 16 (wordAt bs i)).toInt

/-- `n` shifts of the CRC-8 register, polynomial x^8 + x^2 + x + 1 (R184). -/
def crc8Shift (c : Byte) : Nat → Byte
  | 0 => c
  | n + 1 => crc8Shift (if c.msb then (c <<< 1) ^^^ 0x07#8 else c <<< 1) n

/-- CRC-8 of R184 from a starting register value: each byte most significant bit first, no final inversion. -/
def crc8From : Byte → List Byte → Byte
  | c, [] => c
  | c, b :: bs => crc8From (crc8Shift (c ^^^ b) 8) bs

/-- CRC-8 of R184: initial value 0. -/
def crc8 (bs : List Byte) : Byte := crc8From 0#8 bs

/-- `n` shifts of the CRC-16 register, polynomial x^16 + x^12 + x^5 + 1 (R184). -/
def crc16Shift (c : BitVec 16) : Nat → BitVec 16
  | 0 => c
  | n + 1 => crc16Shift (if c.msb then (c <<< 1) ^^^ 0x1021#16 else c <<< 1) n

/-- CRC-16 of R184 from a starting register value. -/
def crc16From : BitVec 16 → List Byte → BitVec 16
  | c, [] => c
  | c, b :: bs => crc16From (crc16Shift (c ^^^ (b.setWidth 16 <<< 8)) 8) bs

/-- CRC-16 of R184: initial value 0xFFFF, no final inversion. -/
def crc16 (bs : List Byte) : Nat := (crc16From 0xFFFF#16 bs).toNat

/-- The bytes of calibration words in the order R184 takes them: high byte then low byte of each word. -/
def bytesOfWords : List Nat → List Byte
  | [] => []
  | w :: ws => bytes16 w ++ bytesOfWords ws

/-- The sum of bytes modulo 256. -/
def byteSum : List Byte → Byte
  | [] => 0#8
  | b :: bs => b + byteSum bs

/-- The telegram check of R184: the complement of the 8-bit sum of bytes 0 to 6. -/
def telegramCheck (bs : List Byte) : Byte := ~~~ (byteSum (bs.take 7))

end Sys2Proof.Machine
end

