-- ==== Sys2Proof/Syntax.lean ====
section
/-! DEFINITION. The commands the block takes: one constructor per row of spec/opcode_table.json, with the operands the
rows' rules name. The table gives no row any bits; the operands of a port command are the argument fields of R179, those
of a Tow Link row are the frame's header and payload (R181), and those of a sensor row are what its line delivers
(R9, R82, R106). Operands are raw: what is outside an accepted set is refused by the meaning (R166), not by the type. -/

namespace Sys2Proof

/-- The four brake channels CH0 to CH3 (section 3.2). -/
inductive Channel where
  | ch0 | ch1 | ch2 | ch3
deriving DecidableEq, Repr

/-- One value for each of CH0 to CH3. -/
structure PerChannel (α : Type) where
  ch0 : α
  ch1 : α
  ch2 : α
  ch3 : α
deriving DecidableEq, Repr

/-- The three axles, front to rear (section 3.1). -/
inductive Axle where
  | ax1 | ax2 | ax3
deriving DecidableEq, Repr

/-- One value for each of axles 1 to 3. -/
structure PerAxle (α : Type) where
  ax1 : α
  ax2 : α
  ax3 : α
deriving DecidableEq, Repr

/-- The two controller ports: A (primary brake controller) and B (supervisor controller), section 2.1. -/
inductive Port where
  | a | b
deriving DecidableEq, Repr

/-- The two Tow Link ports (chapter 8). -/
inductive LinkPort where
  | up | down
deriving DecidableEq, Repr

/-- Left and right of the vehicle (section 3.5). -/
inductive Side where
  | left | right
deriving DecidableEq, Repr

/-- What one pressure sample set brings to the Sensor Front End and the Wheel Speed Unit (R9, R42, R67): the 13 pressure
inputs in kPa as the transducers give them (a value outside 0..1100 is an invalid reading, R14), whether each
wheel-sensor circuit is found closed, and whether the lift-axle input shows raised. -/
structure SampleSet where
  delivery : PerChannel Int
  control : Int
  supply : Int
  reservoir : Int
  bagLeft : PerAxle Int
  bagRight : PerAxle Int
  wheelClosed : PerChannel Bool
  liftRaised : Bool
deriving DecidableEq, Repr

/-- Credit counts, or credit returns, of the three traffic classes (R142). -/
structure Credits where
  demand : Nat
  status : Nat
  service : Nat
deriving DecidableEq, Repr

/-- A Tow Link frame with its CRC-8 already found good: header fields and payload bytes (R142, R181). -/
structure LinkFrame where
  kind : Nat
  target : Nat
  origin : Nat
  hop : Nat
  returns : Credits
  payload : List Byte
deriving DecidableEq, Repr

/-- The commands of the block: one constructor per row of spec/opcode_table.json. -/
inductive Instr where
  /-- POWER_ON_RESET (R173). -/
  | powerOnReset
  /-- PIN_RESET (R173). -/
  | pinReset
  /-- STARTING_TIMER_EXPIRY (R174). -/
  | startingTimerExpiry
  /-- PRESSURE_SAMPLE (R9), with the sample set taken. -/
  | pressureSample (set : SampleSet)
  /-- TRACKING_TIMEOUT (R13) of a channel. -/
  | trackingTimeout (c : Channel)
  /-- EMERGENCY_ONSET (R15). -/
  | emergencyOnset
  /-- EMERGENCY_RECOVERY (R15). -/
  | emergencyRecovery
  /-- LOW_RESERVOIR_ONSET (R19). -/
  | lowReservoirOnset
  /-- MISMATCH_ONSET (R33). -/
  | mismatchOnset
  /-- MISMATCH_RECOVERY (R34). -/
  | mismatchRecovery
  /-- LINK_AGE_EXPIRY (R29). -/
  | linkAgeExpiry
  /-- CTRL_ENTRY_EXPIRY (R25): the CTRL_A (`p = a`) or CTRL_B (`p = b`) entry of channel `c`. -/
  | ctrlEntryExpiry (p : Port) (c : Channel)
  /-- WHEEL_PULSE (R40) of a channel's sensor, captured `micros` microseconds into the present millisecond. -/
  | wheelPulse (c : Channel) (micros : Nat)
  /-- SKID_FORCED_HOLD (R50). -/
  | skidForcedHold (c : Channel)
  /-- SKID_HOLD_TIMEOUT (R51). -/
  | skidHoldTimeout (c : Channel)
  /-- SKID_REAPPLY_STEP (R52). -/
  | skidReapplyStep (c : Channel)
  /-- LOAD_UPDATE (R59). -/
  | loadUpdate
  /-- TYRE_TELEGRAM (R82): the bytes of the telegram as delivered (R183). -/
  | tyreTelegram (bytes : List Byte)
  /-- LEARN_TIMEOUT (R98). -/
  | learnTimeout
  /-- TYRE_STALE (R92) of a position, 1..12. -/
  | tyreStale (position : Nat)
  /-- INERTIAL_SAMPLE (R106): the bytes of the sample as delivered (R183). -/
  | inertialSample (bytes : List Byte)
  /-- INERTIAL_AGE_EXPIRY (R107). -/
  | inertialAgeExpiry
  /-- ROLLOVER_CALM_TO_QUIET (R115). -/
  | rolloverCalmToQuiet
  /-- PROBE_TIMEOUT (R117). -/
  | probeTimeout
  /-- INTERVENE_END (R120). -/
  | interveneEnd
  /-- RECOVER_STEP (R121). -/
  | recoverStep
  /-- TEST_START (R128). -/
  | testStart
  /-- TEST_HEAD_TIMEOUT (R128). -/
  | testHeadTimeout
  /-- TEST_PULSE_END (R130). -/
  | testPulseEnd
  /-- TEST_SETTLE_END (R130). -/
  | testSettleEnd
  /-- TEST_VENT_END (R131). -/
  | testVentEnd
  /-- CAL_IDLE_TIMEOUT (R162). -/
  | calIdleTimeout
  /-- CAL_SEAL_TIMEOUT (R162). -/
  | calSealTimeout
  /-- WAKE_TIMER_EXPIRY (R177). -/
  | wakeTimerExpiry
  /-- LINE_ACTIVITY (R136) on a Tow Link line. -/
  | lineActivity (l : LinkPort)
  /-- LINE_LOSS (R140) on a Tow Link line. -/
  | lineLoss (l : LinkPort)
  /-- LINK_HOLD_OFF_EXPIRY (R136). -/
  | linkHoldOffExpiry (l : LinkPort)
  /-- SETTLE_EXPIRY (R136), of the upstream port. -/
  | settleExpiry
  /-- DOWNSTREAM_TRAIN_START (R136). -/
  | downstreamTrainStart
  /-- TRAIN_FRAME_SEND (R137). -/
  | trainFrameSend (l : LinkPort)
  /-- TRAIN_ATTEMPT_TIMEOUT (R137). -/
  | trainAttemptTimeout (l : LinkPort)
  /-- TRAIN_FRAME_RECEIVED (R137). -/
  | trainFrameReceived (l : LinkPort) (f : LinkFrame)
  /-- LINK_BAD_FRAME (R141): a frame with a failed CRC-8 or a header that R182 counts as bad. -/
  | linkBadFrame (l : LinkPort)
  /-- ERROR_COUNT_DECAY (R141). -/
  | errorCountDecay (l : LinkPort)
  /-- CREDIT_RETURN_TIMEOUT (R143). -/
  | creditReturnTimeout (l : LinkPort)
  /-- CREDIT_STALL (R143). -/
  | creditStall (l : LinkPort)
  /-- DEMAND_FRAME_RECEIVED (R145), on the upstream port. -/
  | demandFrameReceived (f : LinkFrame)
  /-- DEMAND_SLOT_SEND (R145). -/
  | demandSlotSend
  /-- STATUS_FRAME_RECEIVED (R149), on the downstream port. -/
  | statusFrameReceived (f : LinkFrame)
  /-- STATUS_QUEUE_SEND (R146). -/
  | statusQueueSend
  /-- OWN_PERIODIC_STATUS (R147). -/
  | ownPeriodicStatus
  /-- SERVICE_REQ_RECEIVED (R150), on the upstream port. -/
  | serviceReqReceived (f : LinkFrame)
  /-- SERVICE_REQ_PROCESS (R150). -/
  | serviceReqProcess
  /-- SERVICE_RESP_RECEIVED (R150), on the downstream port. -/
  | serviceRespReceived (f : LinkFrame)
  /-- SERVICE_RESP_JOIN (R150). -/
  | serviceRespJoin
  /-- SERVICE_QUEUE_SEND (R143) of a port's SERVICE queue. -/
  | serviceQueueSend (l : LinkPort)
  /-- BAD_COMMAND_FRAME (R165): a port frame with a failed CRC-8 or an unknown command code. -/
  | badCommandFrame (p : Port)
  /-- NONE (R165). -/
  | noCommand (p : Port)
  /-- POST_APPLY (R24). -/
  | postApply (p : Port) (mask level lifetime : Nat)
  /-- POST_LIMIT (R24). -/
  | postLimit (p : Port) (mask level lifetime : Nat)
  /-- WITHDRAW (R26). -/
  | withdraw (p : Port) (mask : Nat)
  /-- RESTORE (R7). -/
  | restore (p : Port) (mask : Nat)
  /-- FORCE_BACKUP (R6). -/
  | forceBackup (p : Port) (mask : Nat)
  /-- REQUEST_TEST (R126). -/
  | requestTest (p : Port) (channel : Nat)
  /-- CANCEL_TEST (R127). -/
  | cancelTest (p : Port) (channel : Nat)
  /-- TYRE_LEARN (R96). -/
  | tyreLearn (p : Port) (position : Nat)
  /-- TYRE_ASSIGN (R100). -/
  | tyreAssign (p : Port) (position sensor : Nat)
  /-- TYRE_ADOPT (R101). -/
  | tyreAdopt (p : Port) (position index : Nat)
  /-- TYRE_CLEAR (R102). -/
  | tyreClear (p : Port) (position : Nat)
  /-- LINK_ENABLE (R139). -/
  | linkEnable (p : Port)
  /-- LINK_DISABLE (R139). -/
  | linkDisable (p : Port)
  /-- STANDBY (R175). -/
  | standby (p : Port)
  /-- CAL_BEGIN (R157). -/
  | calBegin (p : Port)
  /-- CAL_POINTER (R158). -/
  | calPointer (p : Port) (index : Nat)
  /-- CAL_WRITE (R158): the count byte and the words that follow it. -/
  | calWrite (p : Port) (count : Nat) (words : List Nat)
  /-- CAL_READ (R158). -/
  | calRead (p : Port) (index count : Nat)
  /-- CAL_SEAL (R159). -/
  | calSeal (p : Port)
  /-- CAL_CONFIRM (R160). -/
  | calConfirm (p : Port) (check : Nat)
  /-- CAL_ABANDON (R161). -/
  | calAbandon (p : Port)
  /-- READ (R167): table, index and part. -/
  | read (p : Port) (table index part : Nat)
  /-- READ_ATTENTION (R170): a READ of the table ATTENTION. -/
  | readAttention (p : Port) (index part : Nat)
  /-- CLEAR_FAULTS (R169). -/
  | clearFaults (p : Port)
  /-- PORT_SYNC (R171). -/
  | portSync (p : Port)
  /-- ON_TIME_END (R11) of a channel's pulsed valve. -/
  | onTimeEnd (c : Channel)
  /-- FRAME_OF_KIND_NOT_RECEIVED (R144). -/
  | frameOfKindNotReceived (l : LinkPort) (f : LinkFrame)
  /-- UNKNOWN_KIND_FRAME (R182). -/
  | unknownKindFrame (l : LinkPort) (f : LinkFrame)
deriving DecidableEq, Repr

end Sys2Proof
end

