-- ==== Sys2Proof/Machine/CalWords.lean ====
section
/-! DEFINITION. The word map of the Active Calibration (R153), its default set, and seal validation (R155). A calibration
is its 69 words; every consumer reads its values through the names below (R153). -/

namespace Sys2Proof.Machine

/-- The number of words of a calibration (R153). -/
def calSize : Nat := 69

/-- The default words of one axle's table: P0..P4 and L0..L4 (R153, R79). -/
def defaultAxleWords : List Nat := [50, 150, 250, 350, 450, 200, 400, 600, 800, 1000]

/-- The default words of one acceptance window: not enabled, base 0, mask 0 (R153). -/
def defaultWindowWords : List Nat := [0, 0, 0, 0, 0]

/-- The default set of R153, words 0 to 68. Word 67 holds 4: rollover enabled alone (section 12.4). -/
def defaultWords : List Nat :=
  defaultAxleWords ++ defaultAxleWords ++ defaultAxleWords ++
  [900, 2700, 1024, 50, 800, 900, 800, 900, 800, 900] ++
  defaultWindowWords ++ defaultWindowWords ++ defaultWindowWords ++ defaultWindowWords ++
  [100, 3250, 400, 300, 800, 120, 400, 4, 0]

/-- Word `i` of a set; a word above index 68 reads as 0 (R158). -/
def calWord (ws : List Nat) (i : Nat) : Nat := ws.getD i 0

/-- The index of the first word of an axle's table (R153). -/
def axleBase : Axle → Nat
  | .ax1 => 0
  | .ax2 => 10
  | .ax3 => 20

/-- P`k` of an axle, in kPa (R153). -/
def calP (ws : List Nat) (x : Axle) (k : Nat) : Nat := calWord ws (axleBase x + k)

/-- L`k` of an axle, in 10 kg (R153). -/
def calL (ws : List Nat) (x : Axle) (k : Nat) : Nat := calWord ws (axleBase x + 5 + k)

/-- U, the unladen reference (R153). -/
def calU (ws : List Nat) : Nat := calWord ws 30
/-- F, the laden reference (R153). -/
def calF (ws : List Nat) : Nat := calWord ws 31
/-- g_empty (R153). -/
def calGEmpty (ws : List Nat) : Nat := calWord ws 32
/-- p_knee (R153). -/
def calKnee (ws : List Nat) : Nat := calWord ws 33
/-- T_unl of an axle (R153). -/
def calTUnl (ws : List Nat) : Axle → Nat
  | .ax1 => calWord ws 34
  | .ax2 => calWord ws 36
  | .ax3 => calWord ws 38
/-- T_lad of an axle (R153). -/
def calTLad (ws : List Nat) : Axle → Nat
  | .ax1 => calWord ws 35
  | .ax2 => calWord ws 37
  | .ax3 => calWord ws 39
/-- Whether acceptance window `w` is enabled (R153, section 12.4). -/
def calWindowEnabled (ws : List Nat) (w : Nat) : Bool := calWord ws (40 + 5 * w) == 1
/-- The 32-bit base of window `w`, high half at the lower index (section 12.4). -/
def calWindowBase (ws : List Nat) (w : Nat) : Nat := calWord ws (41 + 5 * w) * 65536 + calWord ws (42 + 5 * w)
/-- The 32-bit mask of window `w`, high half at the lower index (section 12.4). -/
def calWindowMask (ws : List Nat) (w : Nat) : Nat := calWord ws (43 + 5 * w) * 65536 + calWord ws (44 + 5 * w)
/-- Teeth of the exciter rings (R153). -/
def calTeeth (ws : List Nat) : Nat := calWord ws 60
/-- Wheel circumference in mm (R153). -/
def calCircumference (ws : List Nat) : Nat := calWord ws 61
/-- A_empty (R153). -/
def calAEmpty (ws : List Nat) : Nat := calWord ws 62
/-- A_laden (R153). -/
def calALaden (ws : List Nat) : Nat := calWord ws 63
/-- LTR_lim (R153). -/
def calLtrLim (ws : List Nat) : Nat := calWord ws 64
/-- The probe pressure (R153). -/
def calProbe (ws : List Nat) : Nat := calWord ws 65
/-- The intervention level I (R153). -/
def calIntervene (ws : List Nat) : Nat := calWord ws 66
/-- Auto-enable, bit 0 of word 67 (section 12.4). -/
def calAutoEnable (ws : List Nat) : Bool := (calWord ws 67).testBit 0
/-- Lift axle fitted, bit 1 of word 67 (section 12.4). -/
def calLiftFitted (ws : List Nat) : Bool := (calWord ws 67).testBit 1
/-- Rollover enabled, bit 2 of word 67 (section 12.4). -/
def calRollEnabled (ws : List Nat) : Bool := (calWord ws 67).testBit 2
/-- The wake timer in minutes, 0 = off (R153). -/
def calWake (ws : List Nat) : Nat := calWord ws 68

/-- The tests of R155 on one word of an axle's table, at offset `k` (0..9) from the table's first word: its accepted range,
P strictly increasing, L non-decreasing. -/
def axleWordOk (w prev : Nat) (k : Nat) : Bool :=
  if k == 0 then decide (w ≤ 1000)
  else if k < 5 then decide (w ≤ 1000) && decide (prev < w)
  else if k == 5 then decide (w ≤ 2000)
  else decide (w ≤ 2000) && decide (prev ≤ w)

/-- The tests of R155 on one word of an acceptance window, at offset `k` from its flag word: the flag is 0 or 1, the base and
the mask are any 16-bit words. -/
def windowWordOk (w k : Nat) : Bool :=
  if k == 0 then decide (w ≤ 1) else decide (w < 65536)

/-- Whether word `i` of a content passes its tests (R155): its accepted range in R153 and the lower-indexed words it
depends on. -/
def sealWordOk (ws : List Nat) (i : Nat) : Bool :=
  let w := calWord ws i
  if i < 30 then axleWordOk w (calWord ws (i - 1)) (i % 10)
  else if i < 40 then
    if i == 30 then decide (w ≤ 5900)
    else if i == 31 then decide (calU ws + 100 ≤ w) && decide (w ≤ 6000)
    else if i == 32 then decide (256 ≤ w) && decide (w ≤ 1024)
    else if i == 33 then decide (20 ≤ w) && decide (w ≤ 100)
    else decide (300 ≤ w) && decide (w ≤ 1100)
  else if i < 60 then windowWordOk w (i % 5)
  else if i == 60 then decide (80 ≤ w) && decide (w ≤ 120)
  else if i == 61 then decide (2800 ≤ w) && decide (w ≤ 3600)
  else if i == 62 then decide (200 ≤ w) && decide (w ≤ 800)
  else if i == 63 then decide (150 ≤ w) && decide (w ≤ calAEmpty ws)
  else if i == 64 then decide (512 ≤ w) && decide (w ≤ 1000)
  else if i == 65 then decide (60 ≤ w) && decide (w ≤ 200)
  else if i == 66 then decide (200 ≤ w) && decide (w ≤ 600)
  else if i == 67 then decide (w < 8)
  else decide (w ≤ 240)

/-- Seal validation (R155): the index of the first failing word, or none for a content that passes. -/
def sealFailure (ws : List Nat) : Option Nat := (List.range calSize).find? (fun i => !sealWordOk ws i)

end Sys2Proof.Machine
end

