-- ==== Sys2Proof/Machine/State.lean ====
section
/-! DEFINITION. The state of the block: every record, table, queue, timer and valve output the manual names, block by block
(section 2.2), the queue of waiting commands, and the model's own bookkeeping fields, each marked as such. Plain data
only. State.reset is the machine after power-on reset (R173 and each chapter's reset table). -/

namespace Sys2Proof

/-- The value of a channel. -/
def PerChannel.get {α : Type} (v : PerChannel α) : Channel → α
  | .ch0 => v.ch0
  | .ch1 => v.ch1
  | .ch2 => v.ch2
  | .ch3 => v.ch3

/-- The values with one channel's replaced. -/
def PerChannel.set {α : Type} (v : PerChannel α) (c : Channel) (x : α) : PerChannel α :=
  match c with
  | .ch0 => { v with ch0 := x }
  | .ch1 => { v with ch1 := x }
  | .ch2 => { v with ch2 := x }
  | .ch3 => { v with ch3 := x }

/-- The same value for every channel. -/
def PerChannel.const {α : Type} (x : α) : PerChannel α := ⟨x, x, x, x⟩

/-- A function applied to every channel's value. -/
def PerChannel.map {α β : Type} (f : α → β) (v : PerChannel α) : PerChannel β := ⟨f v.ch0, f v.ch1, f v.ch2, f v.ch3⟩

/-- The value of an axle. -/
def PerAxle.get {α : Type} (v : PerAxle α) : Axle → α
  | .ax1 => v.ax1
  | .ax2 => v.ax2
  | .ax3 => v.ax3

/-- The values with one axle's replaced. -/
def PerAxle.set {α : Type} (v : PerAxle α) (x : Axle) (y : α) : PerAxle α :=
  match x with
  | .ax1 => { v with ax1 := y }
  | .ax2 => { v with ax2 := y }
  | .ax3 => { v with ax3 := y }

/-- The same value for every axle. -/
def PerAxle.const {α : Type} (x : α) : PerAxle α := ⟨x, x, x⟩

/-- A function applied to every axle's value. -/
def PerAxle.map {α β : Type} (f : α → β) (v : PerAxle α) : PerAxle β := ⟨f v.ax1, f v.ax2, f v.ax3⟩

/-- No credits in any class. -/
def Credits.zero : Credits := ⟨0, 0, 0⟩

end Sys2Proof

namespace Sys2Proof.Machine

/-- Why the block stops with a fault: it never does. No rule of the manual ends the machine, so the type is empty. -/
inductive Fault where
deriving DecidableEq, Repr

/-- Why a command has no meaning. -/
inductive Refusal where
  /-- Raised by exec's arm of a command that has no meaning yet; no arm raises it. Safe: a claim about a refused command
  cannot be proved by running it. -/
  | notModelled (mnemonic : String)
deriving DecidableEq, Repr

/-! ## Shared shapes -/

/-- A sensor reading in its unit, or none for an invalid reading. -/
abbrev Reading := Option Nat

/-- A run measured at samples ("For t ms" of section 4.3): none while no run stands, otherwise the time since its first
sample. A run that is none counts as 0 ms. -/
abbrev Run := Option Nat

/-- The time a run has lasted; 0 where none stands. -/
def runMs (r : Run) : Nat := r.getD 0

/-! ## Standby Controller (R172) -/

/-- The operating state (R172). -/
inductive OpState where
  | starting | running | parked
deriving DecidableEq, Repr

/-- The reset cause (R172). -/
inductive ResetCause where
  | powerOn | pin
deriving DecidableEq, Repr

/-- The wake reason (R172, R178). -/
inductive WakeReason where
  | link | port | tyre | timer | motion
deriving DecidableEq, Repr

/-- The standby record (R172). The wake timer is kept in milliseconds (R177 sets it in minutes). -/
structure StandbyRec where
  opState : OpState
  resetCause : ResetCause
  startingTimer : Nat
  wakeReason : Option WakeReason
  wakeTimer : Option Nat
deriving DecidableEq, Repr

/-! ## Sensor Front End (section 2.2) -/

/-- The latest reading and validity of the 13 pressure inputs, and the lift-axle input. -/
structure FrontEnd where
  delivery : PerChannel Reading
  control : Reading
  supply : Reading
  reservoir : Reading
  bagLeft : PerAxle Reading
  bagRight : PerAxle Reading
  liftInput : Bool
deriving DecidableEq, Repr

/-! ## Wheel Speed Unit (R40, R43, R44) -/

/-- A wheel record (R40). `edgeOffset` is the model's own: how far into the present millisecond the last pulse was captured
(0 once that millisecond has passed). -/
structure WheelRec where
  period : Option Nat
  age : Nat
  speed : Nat
  valid : Bool
  edgeOffset : Nat
deriving DecidableEq, Repr

/-- The Wheel Speed Unit's state. -/
structure WheelUnit where
  wheel : PerChannel WheelRec
  vref : Nat
  gating : Nat
deriving DecidableEq, Repr

/-! ## Channel Controller (R1, R15, R19) -/

/-- The backup causes (R1). -/
inductive Cause where
  | startup | noDemandSource | parked | forced | tracking | deliverySensor | testFault
deriving DecidableEq, Repr

/-- A set of backup causes (R1): one flag for each, so no cause stands more than once. -/
structure CauseSet where
  startup : Bool
  noDemandSource : Bool
  parked : Bool
  forced : Bool
  tracking : Bool
  deliverySensor : Bool
  testFault : Bool
deriving DecidableEq, Repr

/-- The control state (R1, R9). -/
inductive ControlState where
  | vent | applying | holding | venting
deriving DecidableEq, Repr

/-- How an inlet or exhaust valve is driven (R9, R11): closed, held open until something closes it, or open for the rest of
an on-time of so many milliseconds. -/
inductive ValveDrive where
  | closed
  | held
  | pulsed (remaining : Nat)
deriving DecidableEq, Repr

/-- A channel record (R1) with the three valve outputs of the channel. The mode is derived from `causes` (R2); the delivery
pressure is the Front End's. `startupHeld` says whether the condition of the STARTUP cause still lasts (R4). -/
structure ChannelRec where
  causes : CauseSet
  startupHeld : Bool
  setpoint : Nat
  controlState : ControlState
  volumeClass : Option Nat
  tracking : Run
  supplyLimited : Bool
  backupValve : Bool
  inlet : ValveDrive
  exhaust : ValveDrive
deriving DecidableEq, Repr

/-- The emergency record (R15) and the LOW_RESERVOIR measurement (R19). -/
structure SupplyRec where
  emergency : Bool
  onset : Run
  recovery : Run
  lowReservoir : Bool
  lowMeasure : Run
deriving DecidableEq, Repr

/-! ## Demand Resolver (R22, R28, R36, R38) -/

/-- The sources of demand entries (R22). -/
inductive Source where
  | driver | ctrlA | ctrlB | emerg | roll | skid
deriving DecidableEq, Repr

/-- The rollover stages (R113). -/
inductive Stage where
  | off | quiet | watch | probe | intervene | recover
deriving DecidableEq, Repr

/-- The skid states (R46). -/
inductive SkidState where
  | free | release | hold | reapply
deriving DecidableEq, Repr

/-- The detail of a demand entry (R22): the stage of a ROLL entry, the skid state of a SKID entry. -/
inductive Detail where
  | stage (g : Stage)
  | skid (k : SkidState)
deriving DecidableEq, Repr

/-- A demand entry (R22); its source is its key in the table and its mode follows from the source. -/
structure Entry where
  level : Nat
  lifetime : Option Nat
  detail : Option Detail
deriving DecidableEq, Repr

/-- A Demand Table (R22): at most one entry for each source. -/
structure Table where
  driver : Option Entry
  ctrlA : Option Entry
  ctrlB : Option Entry
  emerg : Option Entry
  roll : Option Entry
  skid : Option Entry
deriving DecidableEq, Repr

/-- What the last resolution of a channel used and formed (R27, R38). -/
structure Summary where
  largestApply : Nat
  smallestLimit : Nat
  cap : Nat
  derate : Nat
  raised : Bool
deriving DecidableEq, Repr

/-- The Demand Resolver's tables: Demand Table, applied derate and last resolution of each channel. -/
structure DemandUnit where
  table : PerChannel Table
  applied : PerChannel Nat
  summary : PerChannel Summary
deriving DecidableEq, Repr

/-- The Driver Demand record (R28). -/
structure DriverRec where
  linkLevel : Option Nat
  linkAge : Option Nat
  linkPresent : Bool
  lineLevel : Option Nat
  mismatch : Bool
  onset : Run
  recovery : Run
  demand : Nat
  tractorSpeed : Option Nat
  tractorAge : Option Nat
  tractorAntiLock : Bool
deriving DecidableEq, Repr

/-! ## Anti-Lock Monitor (R46) -/

/-- A skid record (R46). `stepDue` is the model's own: the tests of the last pressure sample were made for this channel and
took no transition, so a step whose timer is complete is due at that sample. -/
structure SkidRec where
  state : SkidState
  held : Option Nat
  timer : Nat
  slip : Option Nat
  forcedCount : Nat
  disabled : Bool
  stepDue : Bool
deriving DecidableEq, Repr

/-! ## Load Estimator (R58) -/

/-- An axle record of the Load Table (R58). -/
structure AxleRec where
  mean : Option Nat
  bagValid : Bool
  instant : Nat
  effective : Nat
  jumpPending : Bool
  overRange : Bool
deriving DecidableEq, Repr

/-- The Load Table (R58). `sinceUpdate` is the model's own: the milliseconds of samples since the last load update. -/
structure LoadTable where
  axle : PerAxle AxleRec
  raised : Bool
  group : Nat
  lambda : Nat
  gain : Nat
  frozen : Bool
  derate : PerChannel Nat
  sinceUpdate : Nat
deriving DecidableEq, Repr

/-! ## Tyre Monitor (R86, R93, R96) -/

/-- The tyre conditions, lowest first (R90). -/
inductive Condition where
  | normal | low | hot | critical | leak
deriving DecidableEq, Repr

/-- The data a position holds (R86): present together, absent together. `ageMs` is the age in milliseconds. -/
structure TyreData where
  pMeas : Nat
  temperature : Int
  pComp : Nat
  leak : Bool
  critical : Bool
  low : Bool
  hot : Bool
  ageMs : Nat
  stale : Bool
  batteryLow : Bool
deriving DecidableEq, Repr

/-- A duplicate memory (R83): the counter of the last telegram accepted and the time since, in milliseconds. -/
structure DupMemory where
  counter : Nat
  age : Nat
deriving DecidableEq, Repr

/-- A position record of the Sensor Table (R86). The condition is derived from the flags (R90) and the learning flag from
the learn record (R96). -/
structure PositionRec where
  sensor : Option Nat
  dup : Option DupMemory
  data : Option TyreData
deriving DecidableEq, Repr

/-- An entry of the Stranger List (R93). -/
structure Stranger where
  sensor : Nat
  pMeas : Nat
  temperature : Int
  counter : Nat
  counterAge : Nat
  hits : Nat
  ageMs : Nat
deriving DecidableEq, Repr

/-- How a learn ended (R96). -/
inductive LearnOutcome where
  | completed | timeout | cancelled
deriving DecidableEq, Repr

/-- A learn in progress: its position and its remaining time in milliseconds (R96). -/
structure LearnRun where
  position : Nat
  remaining : Nat
deriving DecidableEq, Repr

/-- The Tyre Monitor's state. The Sensor Table lists positions 1 to 12 in order; the Stranger List has its most recently
heard entry first. -/
structure TyreUnit where
  positions : List PositionRec
  strangers : List Stranger
  learn : Option LearnRun
  learnOutcome : Option LearnOutcome
  learnedId : Option Nat
  target : PerAxle Nat
  rollFlag : Bool
  worst : Option (Condition × Nat)
deriving DecidableEq, Repr

/-! ## Rollover Monitor (R106, R111, R112, R113) -/

/-- The inertial record (R106). `available` is the availability of the acceleration that a good sample sets and INERTIAL_AGE_EXPIRY
clears, in the millisecond in which the age reaches 50 ms (R107, log entry 16). -/
structure InertialRec where
  accel : Option Int
  counter : Option Nat
  age : Option Nat
  available : Bool
deriving DecidableEq, Repr

/-- The indicator record (R111). -/
structure IndicatorRec where
  ay : Option Int
  sumLeft : Nat
  sumRight : Nat
  ltr : Option Int
  thrBefore : Nat
  thrUsed : Nat
  tyreReduced : Bool
  riskAccel : Option Nat
  riskLtr : Option Nat
  risk : Option Nat
  gating : Nat
deriving DecidableEq, Repr

/-- The stage record (R113). The probed channels are named by their side (R112). -/
structure StageRec where
  stage : Stage
  probed : Option Side
  probeTimer : Nat
  holdOff : Nat
  minTimer : Nat
  calm : Option Nat
  ramp : Nat
  level : PerChannel (Option Nat)
deriving DecidableEq, Repr

/-- The Rollover Monitor's state. -/
structure RollUnit where
  inertial : InertialRec
  indicator : IndicatorRec
  inner : Side
  stage : StageRec
deriving DecidableEq, Repr

/-! ## Response Test Unit (R125, R129, R134) -/

/-- The phases of a test (R130). -/
inductive Phase where
  | pulse | settle | vent
deriving DecidableEq, Repr

/-- The running-test record (R125). -/
structure RunningTest where
  channel : Channel
  port : Port
  phase : Phase
  timer : Nat
  t50 : Option Nat
  pEnd : Nat
  pHold : Nat
deriving DecidableEq, Repr

/-- The holder of the Test Pulse Generator (R129). The running-test record is present exactly while a test holds it. -/
inductive Holder where
  | free
  | test (t : RunningTest)
  | probe
deriving DecidableEq, Repr

/-- An entry of the Test Queue (R125). -/
structure TestRequest where
  channel : Channel
  port : Port
deriving DecidableEq, Repr

/-- Outcomes of a test (R134). -/
inductive TestOutcome where
  | normal | opened | blocked | leaking | aborted | refused
deriving DecidableEq, Repr

/-- Causes of an abort or a refusal (R134). -/
inductive TestCause where
  | demand | motion | backup | rollover | cancelled | notElectronic | timeout
deriving DecidableEq, Repr

/-- A result record (R134). -/
structure TestResult where
  outcome : Option TestOutcome
  cause : Option TestCause
  t50 : Option Nat
  pEnd : Nat
  pHold : Nat
  volumeClass : Option Nat
  port : Option Port
deriving DecidableEq, Repr

/-- The Response Test Unit's state. `headDue` is the model's own: the last pressure sample examined the head of the
queue and found its start or its timeout due, and no time has passed since. -/
structure TestUnit where
  queue : List TestRequest
  headWait : Nat
  headDue : Bool
  holder : Holder
  result : PerChannel TestResult
  leakMark : PerChannel Bool
deriving DecidableEq, Repr

/-! ## Tow Link Controller (R135) -/

/-- The states of a Tow Link port (R135). -/
inductive LinkState where
  | down | settle | train | ready | active
deriving DecidableEq, Repr

/-- The causes of a drop (R135). -/
inductive DropCause where
  | lineLoss | trainFailed | positionRange | linkErrors | creditError | creditStall | disabled | partnerRestart
  | upstreamDown | parked
deriving DecidableEq, Repr

/-- The enable setting of the upstream port (R135). -/
inductive EnableSetting where
  | auto | enabled | disabled
deriving DecidableEq, Repr

/-- A training attempt: its number and its timer (R135, R137). -/
structure Attempt where
  number : Nat
  timer : Nat
deriving DecidableEq, Repr

/-- A port record (R135). The fields from `activity` on are the model's own: whether partner activity is present on the
line; whether a hold-off runs; the time to the next TRAIN frame; the time returns have been owed without a carrier;
the time each class has stood at 0 credits with a frame waiting; the time since the last decay of the error count; and
the frame last put on the line. -/
structure PortRec where
  state : LinkState
  holdOff : Nat
  errorHoldOff : Bool
  settleTimer : Nat
  attempt : Option Attempt
  heard : Bool
  partner : Option Credits
  credits : Credits
  occupied : Credits
  owed : Credits
  errorCount : Nat
  lastDrop : Option DropCause
  activity : Bool
  holdOffRunning : Bool
  sendTimer : Nat
  owedTimer : Nat
  stall : Credits
  decayTimer : Nat
  lastSent : Option LinkFrame
deriving DecidableEq, Repr

/-- A frame of the upstream STATUS queue (R146): forwarded, own periodic, or own event with its count. -/
inductive StatusItem where
  | forwarded (f : LinkFrame)
  | periodic (f : LinkFrame)
  | event (count : Nat) (f : LinkFrame)
deriving DecidableEq, Repr

/-- A frame of the upstream SERVICE queue (R150): an answer of this vehicle, or a forwarded SERVICE_RESP. -/
inductive ServiceItem where
  | answer (f : LinkFrame)
  | forwarded (f : LinkFrame)
deriving DecidableEq, Repr

/-- A SERVICE_RESP waiting for a place in the upstream SERVICE queue, and how long it has waited in ms (R150). -/
structure HeldResp where
  frame : LinkFrame
  waited : Nat
deriving DecidableEq, Repr

/-- The Tow Link Controller's state: the two port records, the upstream port's own fields and the relay record (R135), the
requests and answers held in SERVICE receive slots (R150). `answerWait` (how long the front request has waited for the
upstream SERVICE queue) and `sincePeriodic` (time since the last own periodic frame was built, R147) are the model's own. -/
structure LinkUnit where
  up : PortRec
  down : PortRec
  enable : EnableSetting
  positionFault : Bool
  ownPosition : Option Nat
  statusQueue : List StatusItem
  upService : List ServiceItem
  downService : List LinkFrame
  demandSlot : Option LinkFrame
  heldReqs : List LinkFrame
  heldResps : List HeldResp
  answerWait : Nat
  sincePeriodic : Nat
deriving DecidableEq, Repr

/-! ## Calibration Store (R153, R154, R156) -/

/-- The states of the Staging Record (R156). -/
inductive StagingState where
  | free | opened | sealed | armed
deriving DecidableEq, Repr

/-- How a calibration change ended (R156). -/
inductive CalOutcome where
  | applied | abandoned | timeout | mismatch | discarded
deriving DecidableEq, Repr

/-- The Staging Record (R156). `content` is empty while nothing is staged. -/
structure Staging where
  state : StagingState
  claimant : Option Port
  content : List Nat
  pointer : Nat
  idleTimer : Nat
  sealTimer : Nat
  sealedCheck : Option Nat
  lastOutcome : Option CalOutcome
deriving DecidableEq, Repr

/-- The Calibration Store: the Active Calibration, its generation and check value (R154), and the Staging Record. -/
structure CalStore where
  active : List Nat
  generation : Nat
  check : Nat
  staging : Staging
deriving DecidableEq, Repr

/-! ## Port Interface (R165, R170) -/

/-- The response codes of section 4.5. -/
inductive RespCode where
  | ok | busy | denied | badArg | notNow | already
deriving DecidableEq, Repr

/-- A response (R165): the command code it answers, the response code, and the result record. -/
structure Response where
  command : Nat
  code : RespCode
  record : List Byte
deriving DecidableEq, Repr

/-- An attention record (R170). Port B's has only the first three flags; its other two stay clear. -/
structure Attention where
  newFault : Bool
  testResult : Bool
  calOutcome : Bool
  learnOutcome : Bool
  wakeReason : Bool
deriving DecidableEq, Repr

/-- One controller port: the pending response (R165), the response shifted out by the last transfer, and the attention
record. -/
structure PortUnit where
  pending : Response
  shiftedOut : Option Response
  attention : Attention
deriving DecidableEq, Repr

/-! ## Fault Latch Unit (R168) -/

/-- A fault record (R168): live state and the latches of views A, B and U. -/
structure FaultRec where
  live : Bool
  latchA : Bool
  latchB : Bool
  latchU : Bool
deriving DecidableEq, Repr

/-- The state of the block. -/
structure State where
  pending : List Instr
  standby : StandbyRec
  front : FrontEnd
  wheels : WheelUnit
  channels : PerChannel ChannelRec
  supply : SupplyRec
  demand : DemandUnit
  driver : DriverRec
  skid : PerChannel SkidRec
  load : LoadTable
  tyre : TyreUnit
  roll : RollUnit
  tests : TestUnit
  link : LinkUnit
  cal : CalStore
  portA : PortUnit
  portB : PortUnit
  faults : List FaultRec
deriving DecidableEq, Repr

/-! ## Values after reset -/

/-- The empty cause set. -/
def CauseSet.empty : CauseSet := ⟨false, false, false, false, false, false, false⟩

/-- The empty Demand Table (R27). -/
def Table.empty : Table := ⟨none, none, none, none, none, none⟩

/-- An attention record with every flag clear (R170). -/
def Attention.empty : Attention := ⟨false, false, false, false, false⟩

/-- The response NONE with code OK and an empty record (R165). -/
def Response.idle : Response := ⟨0, .ok, []⟩

/-- The Front End after reset: no reading is valid until the first sample (R21; log entry 4). -/
def FrontEnd.reset : FrontEnd :=
  { delivery := .const none, control := none, supply := none, reservoir := none,
    bagLeft := .const none, bagRight := .const none, liftInput := false }

/-- A wheel record after reset (R40). -/
def WheelRec.reset : WheelRec := { period := none, age := 200000, speed := 0, valid := true, edgeOffset := 0 }

/-- A channel record after reset (R21). -/
def ChannelRec.reset : ChannelRec :=
  { causes := { CauseSet.empty with startup := true }, startupHeld := true, setpoint := 0, controlState := .holding,
    volumeClass := none, tracking := none, supplyLimited := false, backupValve := false,
    inlet := .closed, exhaust := .closed }

/-- The emergency record and the reservoir measurement after reset (R21). -/
def SupplyRec.reset : SupplyRec :=
  { emergency := false, onset := none, recovery := none, lowReservoir := false, lowMeasure := none }

/-- The summary of a channel before its first resolution: what a resolution of the empty table gives (log entry 5). -/
def Summary.reset : Summary := { largestApply := 0, smallestLimit := 1000, cap := 1000, derate := 1024, raised := false }

/-- The Demand Tables after reset (R27, R36). -/
def DemandUnit.reset : DemandUnit :=
  { table := .const Table.empty, applied := .const 1024, summary := .const Summary.reset }

/-- The Driver Demand record after reset and in PARKED (R28). -/
def DriverRec.reset : DriverRec :=
  { linkLevel := none, linkAge := none, linkPresent := false, lineLevel := none, mismatch := false, onset := none,
    recovery := none, demand := 0, tractorSpeed := none, tractorAge := none, tractorAntiLock := false }

/-- A skid record after reset (R46). -/
def SkidRec.reset : SkidRec :=
  { state := .free, held := none, timer := 0, slip := some 0, forcedCount := 0, disabled := false, stepDue := false }

/-- An axle record after reset: L4 of the default table (R58, R79). -/
def AxleRec.reset : AxleRec :=
  { mean := none, bagValid := true, instant := 1000, effective := 1000, jumpPending := false, overRange := false }

/-- The Load Table after reset (R58). -/
def LoadTable.reset : LoadTable :=
  { axle := .const AxleRec.reset, raised := false, group := 3000, lambda := 1024, gain := 1024, frozen := false,
    derate := .const 1024, sinceUpdate := 0 }

/-- An unassigned position (R86). -/
def PositionRec.empty : PositionRec := { sensor := none, dup := none, data := none }

/-- The Tyre Monitor after reset (R86, R88, R93, R96, R103). -/
def TyreUnit.reset : TyreUnit :=
  { positions := List.replicate 12 PositionRec.empty, strangers := [], learn := none, learnOutcome := none,
    learnedId := none, target := .const 900, rollFlag := false, worst := none }

/-- The inertial record after reset (R106). -/
def InertialRec.reset : InertialRec := { accel := none, counter := none, age := none, available := false }

/-- The indicator record after reset (R111). -/
def IndicatorRec.reset : IndicatorRec :=
  { ay := none, sumLeft := 0, sumRight := 0, ltr := none, thrBefore := 300, thrUsed := 300, tyreReduced := false,
    riskAccel := none, riskLtr := none, risk := none, gating := 0 }

/-- The stage record after reset (R113). -/
def StageRec.reset : StageRec :=
  { stage := .quiet, probed := none, probeTimer := 0, holdOff := 0, minTimer := 0, calm := none, ramp := 0,
    level := .const none }

/-- The Rollover Monitor after reset (R106, R111, R112, R113). -/
def RollUnit.reset : RollUnit :=
  { inertial := .reset, indicator := .reset, inner := .left, stage := .reset }

/-- A result record before the first result (R134). DESIGN CHOICE (log entry 54): the requesting port, whose listed values are A and
B alone, is absent. -/
def TestResult.absent : TestResult :=
  { outcome := none, cause := none, t50 := none, pEnd := 0, pHold := 0, volumeClass := none, port := none }

/-- The Response Test Unit after reset (R125, R132, R134). -/
def TestUnit.reset : TestUnit :=
  { queue := [], headWait := 0, headDue := false, holder := .free, result := .const TestResult.absent,
    leakMark := .const false }

/-- A port record after reset (R135). -/
def PortRec.reset : PortRec :=
  { state := .down, holdOff := 0, errorHoldOff := false, settleTimer := 0, attempt := none, heard := false,
    partner := none, credits := .zero, occupied := .zero, owed := .zero, errorCount := 0, lastDrop := none,
    activity := false, holdOffRunning := false, sendTimer := 0, owedTimer := 0, stall := .zero, decayTimer := 0,
    lastSent := none }

/-- The Tow Link Controller after reset (R135). -/
def LinkUnit.reset : LinkUnit :=
  { up := .reset, down := .reset, enable := .auto, positionFault := false, ownPosition := none, statusQueue := [],
    upService := [], downService := [], demandSlot := none, heldReqs := [], heldResps := [], answerWait := 0,
    sincePeriodic := 0 }

/-- The Staging Record after reset (R156). -/
def Staging.reset : Staging :=
  { state := .free, claimant := none, content := [], pointer := 0, idleTimer := 0, sealTimer := 0, sealedCheck := none,
    lastOutcome := none }

/-- The Calibration Store after reset (R154, R156). -/
def CalStore.reset : CalStore :=
  { active := defaultWords, generation := 0, check := crc16 (bytesOfWords defaultWords), staging := .reset }

/-- A controller port after reset (R165, R170). -/
def PortUnit.reset : PortUnit := { pending := .idle, shiftedOut := none, attention := .empty }

/-- The number of faults (R168). -/
def faultCount : Nat := 47

/-- The machine after power-on reset (R173): each block at the values its own chapter gives, no command waiting. -/
def State.reset : State :=
  { pending := [],
    standby := { opState := .starting, resetCause := .powerOn, startingTimer := 0, wakeReason := none, wakeTimer := none },
    front := .reset,
    wheels := { wheel := .const WheelRec.reset, vref := 0, gating := 0 },
    channels := .const ChannelRec.reset,
    supply := .reset,
    demand := .reset,
    driver := .reset,
    skid := .const SkidRec.reset,
    load := .reset,
    tyre := .reset,
    roll := .reset,
    tests := .reset,
    link := .reset,
    cal := .reset,
    portA := .reset,
    portB := .reset,
    faults := List.replicate faultCount ⟨false, false, false, false⟩ }

end Sys2Proof.Machine
end

