-- ==== Sys2Proof/Machine/Ops.lean ====
section
/-! DEFINITION. Named operations over the state's records: block updates, channels and their cause sets, Demand Tables,
controller ports, Tow Link ports, attention flags. Every meaning goes through these. The block has no exception entry:
raising a fault or an attention flag is an effect on the state (R169, R170). -/

namespace Sys2Proof.Machine

/-! ## Block updates -/

/-- The state with its `standby` replaced. -/
def State.setStandby (s : State) (x : StandbyRec) : State := { s with standby := x }

/-- The state with its `front` replaced. -/
def State.setFront (s : State) (x : FrontEnd) : State := { s with front := x }

/-- The state with its `wheels` replaced. -/
def State.setWheels (s : State) (x : WheelUnit) : State := { s with wheels := x }

/-- The state with its `channels` replaced. -/
def State.setChannels (s : State) (x : PerChannel ChannelRec) : State := { s with channels := x }

/-- The state with its `supply` replaced. -/
def State.setSupply (s : State) (x : SupplyRec) : State := { s with supply := x }

/-- The state with its `demand` replaced. -/
def State.setDemand (s : State) (x : DemandUnit) : State := { s with demand := x }

/-- The state with its `driver` replaced. -/
def State.setDriver (s : State) (x : DriverRec) : State := { s with driver := x }

/-- The state with its `skid` replaced. -/
def State.setSkid (s : State) (x : PerChannel SkidRec) : State := { s with skid := x }

/-- The state with its `load` replaced. -/
def State.setLoad (s : State) (x : LoadTable) : State := { s with load := x }

/-- The state with its `tyre` replaced. -/
def State.setTyre (s : State) (x : TyreUnit) : State := { s with tyre := x }

/-- The state with its `roll` replaced. -/
def State.setRoll (s : State) (x : RollUnit) : State := { s with roll := x }

/-- The state with its `tests` replaced. -/
def State.setTests (s : State) (x : TestUnit) : State := { s with tests := x }

/-- The state with its `link` replaced. -/
def State.setLink (s : State) (x : LinkUnit) : State := { s with link := x }

/-- The state with its `cal` replaced. -/
def State.setCal (s : State) (x : CalStore) : State := { s with cal := x }

/-- The state with its `portA` replaced. -/
def State.setPortA (s : State) (x : PortUnit) : State := { s with portA := x }

/-- The state with its `portB` replaced. -/
def State.setPortB (s : State) (x : PortUnit) : State := { s with portB := x }

/-- The state with its `faults` replaced. -/
def State.setFaults (s : State) (x : List FaultRec) : State := { s with faults := x }

/-! ## Channels and axles -/

/-- CH0 to CH3 in order. -/
def allChannels : List Channel := [.ch0, .ch1, .ch2, .ch3]

/-- The number of a channel. -/
def channelNumber : Channel → Nat
  | .ch0 => 0
  | .ch1 => 1
  | .ch2 => 2
  | .ch3 => 3

/-- An operation done for CH0, CH1, CH2 and CH3 in that order. DESIGN CHOICE (log entry 47): where one command or event moves
several channels to BACKUP (R2), the order among them is left open, and it decides which heads of the Test Queue are refused at
that moment (R128). -/
def forChannels (f : Channel → State → State) (s : State) : State := f .ch3 (f .ch2 (f .ch1 (f .ch0 s)))

/-- An operation done for axles 1, 2 and 3 in that order. -/
def forAxles (f : Axle → State → State) (s : State) : State := f .ax3 (f .ax2 (f .ax1 s))

/-- CH0 and CH2 are the left channels, CH1 and CH3 the right ones (section 3.2). -/
def channelSide : Channel → Side
  | .ch0 => .left
  | .ch1 => .right
  | .ch2 => .left
  | .ch3 => .right

/-- CH2 and CH3 serve axle 3 (section 3.2). -/
def servesAxle3 : Channel → Bool
  | .ch0 => false
  | .ch1 => false
  | .ch2 => true
  | .ch3 => true

/-- The channel record of a channel. -/
def channelOf (s : State) (c : Channel) : ChannelRec := s.channels.get c

/-- The state with one channel record replaced. -/
def setChannel (s : State) (c : Channel) (r : ChannelRec) : State := s.setChannels (s.channels.set c r)

/-- Whether axle 3 being raised concerns this channel (R37): it serves axle 3, and axle 3 is raised. -/
def raisedChannel (s : State) (c : Channel) : Bool := servesAxle3 c && s.load.raised

/-- Whether an axle is raised: only axle 3 can be (R67). -/
def axleRaised (s : State) : Axle → Bool
  | .ax1 => false
  | .ax2 => false
  | .ax3 => s.load.raised

/-! ## Backup causes (R2) -/

/-- Whether a cause stands in a set. -/
def CauseSet.has (k : CauseSet) : Cause → Bool
  | .startup => k.startup
  | .noDemandSource => k.noDemandSource
  | .parked => k.parked
  | .forced => k.forced
  | .tracking => k.tracking
  | .deliverySensor => k.deliverySensor
  | .testFault => k.testFault

/-- A set with one cause's membership replaced. -/
def CauseSet.put (k : CauseSet) (x : Cause) (b : Bool) : CauseSet :=
  match x with
  | .startup => { k with startup := b }
  | .noDemandSource => { k with noDemandSource := b }
  | .parked => { k with parked := b }
  | .forced => { k with forced := b }
  | .tracking => { k with tracking := b }
  | .deliverySensor => { k with deliverySensor := b }
  | .testFault => { k with testFault := b }

/-- Whether a set holds no cause. -/
def CauseSet.isEmpty (k : CauseSet) : Bool :=
  !(k.startup || k.noDemandSource || k.parked || k.forced || k.tracking || k.deliverySensor || k.testFault)

/-- A channel is ELECTRONIC exactly when its cause set is empty (R2). -/
def electronic (s : State) (c : Channel) : Bool := (channelOf s c).causes.isEmpty

/-! ## Readings -/

/-- A pressure input outside 0..1100 kPa is an invalid reading (R14, section 4.1). -/
def readingOf (raw : Int) : Reading := if 0 ≤ raw ∧ raw ≤ 1100 then some raw.toNat else none

/-! ## Runs measured at samples -/

/-- One more sample of a run: the first sets it to 0, each following one adds 10 ms, up to a bound (R13, R15, R33, R113). -/
def runStep (bound : Nat) : Run → Run
  | none => some 0
  | some t => some (min bound (t + 10))

/-- A run at a sample: continued while its condition holds, ended at the first sample where it does not. -/
def runSample (bound : Nat) (holds : Bool) (r : Run) : Run := if holds then runStep bound r else none

/-! ## Demand Tables (R22) -/

/-- The entry of a source. -/
def Table.get (t : Table) : Source → Option Entry
  | .driver => t.driver
  | .ctrlA => t.ctrlA
  | .ctrlB => t.ctrlB
  | .emerg => t.emerg
  | .roll => t.roll
  | .skid => t.skid

/-- The table with the entry of one source replaced. -/
def Table.put (t : Table) (k : Source) (e : Option Entry) : Table :=
  match k with
  | .driver => { t with driver := e }
  | .ctrlA => { t with ctrlA := e }
  | .ctrlB => { t with ctrlB := e }
  | .emerg => { t with emerg := e }
  | .roll => { t with roll := e }
  | .skid => { t with skid := e }

/-- DRIVER, CTRL_A, EMERG and ROLL entries are APPLY; CTRL_B and SKID entries are LIMIT (R22). -/
def Source.isApply : Source → Bool
  | .driver => true
  | .ctrlA => true
  | .ctrlB => false
  | .emerg => true
  | .roll => true
  | .skid => false

/-- The source a controller port posts under (R24, R26). -/
def portSource : Port → Source
  | .a => .ctrlA
  | .b => .ctrlB

/-- The Demand Table of a channel. -/
def tableOf (s : State) (c : Channel) : Table := s.demand.table.get c

/-- The entry of a source in a channel's table. -/
def entryOf (s : State) (c : Channel) (k : Source) : Option Entry := (tableOf s c).get k

/-- The state with one entry of a channel's table replaced; nothing else changes. -/
def putEntry (s : State) (c : Channel) (k : Source) (e : Option Entry) : State :=
  s.setDemand { s.demand with table := s.demand.table.set c ((tableOf s c).put k e) }

/-! ## Controller ports and attention (R165, R170) -/

/-- A controller port's record. -/
def portOf (s : State) : Port → PortUnit
  | .a => s.portA
  | .b => s.portB

/-- The state with a controller port's record replaced. -/
def setPort (s : State) (p : Port) (u : PortUnit) : State :=
  match p with
  | .a => s.setPortA u
  | .b => s.setPortB u

/-- The other controller port. -/
def otherPort : Port → Port
  | .a => .b
  | .b => .a

/-- The state with an attention record replaced. -/
def setAttention (s : State) (p : Port) (x : Attention) : State := setPort s p { portOf s p with attention := x }

/-- The attention line is asserted while any flag is set (R170). -/
def attentionLine (x : Attention) : Bool :=
  x.newFault || x.testResult || x.calOutcome || x.learnOutcome || x.wakeReason

/-- Raises the test result flag of a port (R134, R170). -/
def raiseTestResult (s : State) (p : Port) : State := setAttention s p { (portOf s p).attention with testResult := true }

/-- Raises the calibration outcome flag of a port (R164, R170). -/
def raiseCalOutcome (s : State) (p : Port) : State := setAttention s p { (portOf s p).attention with calOutcome := true }

/-- Raises the learn outcome flag of Port A (R97, R98, R170). -/
def raiseLearnOutcome (s : State) : State := setAttention s .a { s.portA.attention with learnOutcome := true }

/-- Raises the wake reason flag of Port A (R178, R170). -/
def raiseWakeReason (s : State) : State := setAttention s .a { s.portA.attention with wakeReason := true }

/-- Raises the new-fault-latch flag of a port where asked (R169). -/
def raiseNewFault (s : State) (p : Port) (b : Bool) : State :=
  setAttention s p { (portOf s p).attention with newFault := (portOf s p).attention.newFault || b }

/-- A transfer on a port (R165): the pending response is shifted out, and the new response becomes the pending one. -/
def answer (s : State) (p : Port) (r : Response) : State :=
  setPort s p { portOf s p with shiftedOut := some (portOf s p).pending, pending := r }

/-! ## Tow Link ports -/

/-- A Tow Link port's record. -/
def linkPort (s : State) : LinkPort → PortRec
  | .up => s.link.up
  | .down => s.link.down

/-- The state with a Tow Link port's record replaced. -/
def setLinkPort (s : State) (l : LinkPort) (r : PortRec) : State :=
  match l with
  | .up => s.setLink { s.link with up := r }
  | .down => s.setLink { s.link with down := r }

/-- The traffic classes of the Tow Link (R142): the two SERVICE kinds share one. -/
inductive TrafficClass where
  | demand | status | service
deriving DecidableEq, Repr

/-- The count of a class. -/
def creditOf (k : Credits) : TrafficClass → Nat
  | .demand => k.demand
  | .status => k.status
  | .service => k.service

/-- The counts with one class's replaced. -/
def putCredit (k : Credits) (x : TrafficClass) (n : Nat) : Credits :=
  match x with
  | .demand => { k with demand := n }
  | .status => { k with status := n }
  | .service => { k with service := n }

/-- The receive depths this part advertises (R135): the sizes of its receive slots. -/
def ownDepths : Credits := ⟨1, 4, 2⟩

end Sys2Proof.Machine
end

