-- ==== Sys2Proof/Machine/Operands.lean ====
section
/-! DEFINITION. Operand forms: the arguments of the port commands (R166, R179, R180), the fields of Tow Link frames (R142,
R181, R182), the numbering of one-of-several fields and the byte form of record fields (R180). -/

namespace Sys2Proof.Machine

/-! ## Arguments of port commands -/

/-- A channel mask is accepted when it is not 0 and has none of bits 4 to 7 set (R166, R180). -/
def maskOk (mask : Nat) : Bool := decide (0 < mask) && decide (mask < 16)

/-- Whether a mask names a channel: CH0 to CH3 in bits 0 to 3 (R179). -/
def inMask (mask : Nat) (c : Channel) : Bool := mask.testBit (channelNumber c)

/-- An operation done for each channel a mask names. -/
def forMask (mask : Nat) (f : Channel → State → State) (s : State) : State :=
  forChannels (fun c t => if inMask mask c then f c t else t) s

/-- The channel a channel argument names; none outside 0..3 (R166). -/
def channelArg : Nat → Option Channel
  | 0 => some .ch0
  | 1 => some .ch1
  | 2 => some .ch2
  | 3 => some .ch3
  | _ => none

/-- Whether a tyre position argument lies in 1..12 (R95, R166). -/
def positionOk (n : Nat) : Bool := decide (1 ≤ n) && decide (n ≤ 12)

/-- The level of a post, clamped into 0..1000 kPa (R24). -/
def levelArg (n : Nat) : Nat := min n 1000

/-- The lifetime of a post, clamped into 20..1000 ms (R24). -/
def lifetimeArg (n : Nat) : Nat := clamp 20 1000 n

/-! ## Tyre positions (section 3.3) -/

/-- The channel of a tyre position. -/
def positionChannel (n : Nat) : Channel :=
  match n with
  | 1 => .ch0
  | 2 => .ch0
  | 3 => .ch1
  | 4 => .ch1
  | 5 => .ch0
  | 6 => .ch0
  | 7 => .ch1
  | 8 => .ch1
  | 9 => .ch2
  | 10 => .ch2
  | 11 => .ch3
  | _ => .ch3

/-- The axle of a tyre position. -/
def positionAxle (n : Nat) : Axle := if n ≤ 4 then .ax1 else if n ≤ 8 then .ax2 else .ax3

/-! ## Tow Link frames (R142, R181) -/

/-- The target value of ALL (R181). -/
def targetAll : Nat := 15

/-- The class of a traffic kind: DEMAND 1, STATUS 2, SERVICE_REQ 3, SERVICE_RESP 4 (R142, R181). -/
def kindClass (kind : Nat) : TrafficClass :=
  if kind = 1 then .demand else if kind = 2 then .status else .service

/-- The payload size of a kind (R181): for SERVICE_RESP, 4 plus the record length in its byte 3. -/
def payloadSize (kind : Nat) (payload : List Byte) : Nat :=
  match kind with
  | 0 => 6
  | 1 => 5
  | 2 => 15
  | 3 => 3
  | _ => 4 + byteAt payload 3

/-- Whether a frame of kind 0..4 with a matching CRC-8 is still counted as a bad frame (R182). The DEMAND return field has
one bit (R181), so a return above 1 cannot stand in it. -/
def frameBad (f : LinkFrame) : Bool :=
  decide (1 < f.returns.demand) || decide (4 < f.returns.status) || decide (2 < f.returns.service) ||
  decide (28 < f.payload.length) || decide (f.payload.length ≠ payloadSize f.kind f.payload) ||
  decide (f.target = 0) || (decide (6 < f.target) && decide (f.target ≠ targetAll)) || decide (6 < f.origin)

/-- The frame with its hop count increased by 1 (R144). -/
def hopped (f : LinkFrame) : LinkFrame := { f with hop := f.hop + 1 }

/-- The demand pressure of a DEMAND payload, clamped to 1000 kPa (R145, R181). -/
def demandPressure (f : LinkFrame) : Nat := min 1000 (wordAt f.payload 0)

/-- The tractor speed of a DEMAND payload, clamped to 2000 (R145, R181). -/
def demandSpeed (f : LinkFrame) : Nat := min 2000 (wordAt f.payload 2)

/-- The tractor anti-lock flag: bit 0 of the flags byte (R181). -/
def demandAntiLock (f : LinkFrame) : Bool := (byteAt f.payload 4).testBit 0

/-- The DEMAND frame that is forwarded: hop count increased, clamped values (R145). DESIGN CHOICE (log entry 58): the flags byte
is forwarded as received; R182 says that its other bits are ignored and not whether they are passed on. -/
def forwardedDemand (f : LinkFrame) : LinkFrame :=
  { hopped f with payload := bytes16 (demandPressure f) ++ bytes16 (demandSpeed f) ++ f.payload.drop 4 }

/-- The role byte of a TRAIN payload: TOWING 0, TOWED 1 (R181). -/
def trainRole (f : LinkFrame) : Nat := byteAt f.payload 0
/-- The position offered by a TRAIN payload (R181). -/
def trainOffer (f : LinkFrame) : Nat := byteAt f.payload 1
/-- The depths a TRAIN payload advertises (R181). -/
def trainDepths (f : LinkFrame) : Credits := ⟨byteAt f.payload 2, byteAt f.payload 3, byteAt f.payload 4⟩
/-- The heard-you field of a TRAIN payload; any value but 0 counts as set (R181, log entry 27). -/
def trainHeardYou (f : LinkFrame) : Bool := decide (byteAt f.payload 5 ≠ 0)

/-! ## Numberings (R180: in the order the rule lists the values) -/

/-- Controller ports: A 0, B 1. -/
def portCode : Port → Nat
  | .a => 0
  | .b => 1
/-- Sides: LEFT 0, RIGHT 1 (R112). -/
def sideCode : Side → Nat
  | .left => 0
  | .right => 1
/-- Operating states (R172). -/
def opStateCode : OpState → Nat
  | .starting => 0
  | .running => 1
  | .parked => 2
/-- Reset causes (R172). -/
def resetCauseCode : ResetCause → Nat
  | .powerOn => 0
  | .pin => 1
/-- Wake reasons (R172). -/
def wakeReasonCode : WakeReason → Nat
  | .link => 0
  | .port => 1
  | .tyre => 2
  | .timer => 3
  | .motion => 4
/-- Control states (R1). -/
def controlStateCode : ControlState → Nat
  | .vent => 0
  | .applying => 1
  | .holding => 2
  | .venting => 3
/-- Rollover stages, OFF 0 to RECOVER 5 (R181). -/
def stageCode : Stage → Nat
  | .off => 0
  | .quiet => 1
  | .watch => 2
  | .probe => 3
  | .intervene => 4
  | .recover => 5
/-- Skid states (R46). -/
def skidStateCode : SkidState → Nat
  | .free => 0
  | .release => 1
  | .hold => 2
  | .reapply => 3
/-- Details (R22): for ROLL, PROBE 0, INTERVENE 1, RECOVER 2; for SKID, RELEASE 0, HOLD 1, REAPPLY 2. DESIGN CHOICE (log entry 64): the
numbering starts again with each source; R180 does not say whether the two lists of R22 are one. -/
def detailCode : Detail → Nat
  | .stage g => stageCode g - 3
  | .skid k => skidStateCode k - 1
/-- Tyre conditions, NORMAL 0 to LEAK 4 (R86). -/
def conditionCode : Condition → Nat
  | .normal => 0
  | .low => 1
  | .hot => 2
  | .critical => 3
  | .leak => 4
/-- Learn outcomes (R96). -/
def learnOutcomeCode : LearnOutcome → Nat
  | .completed => 0
  | .timeout => 1
  | .cancelled => 2
/-- Test phases (R125). -/
def phaseCode : Phase → Nat
  | .pulse => 0
  | .settle => 1
  | .vent => 2
/-- Test outcomes (R134). -/
def testOutcomeCode : TestOutcome → Nat
  | .normal => 0
  | .opened => 1
  | .blocked => 2
  | .leaking => 3
  | .aborted => 4
  | .refused => 5
/-- Causes of an abort or refusal (R134). -/
def testCauseCode : TestCause → Nat
  | .demand => 0
  | .motion => 1
  | .backup => 2
  | .rollover => 3
  | .cancelled => 4
  | .notElectronic => 5
  | .timeout => 6
/-- Tow Link port states (R135). -/
def linkStateCode : LinkState → Nat
  | .down => 0
  | .settle => 1
  | .train => 2
  | .ready => 3
  | .active => 4
/-- Drop causes (R135). -/
def dropCauseCode : DropCause → Nat
  | .lineLoss => 0
  | .trainFailed => 1
  | .positionRange => 2
  | .linkErrors => 3
  | .creditError => 4
  | .creditStall => 5
  | .disabled => 6
  | .partnerRestart => 7
  | .upstreamDown => 8
  | .parked => 9
/-- Enable settings (R135). -/
def enableCode : EnableSetting → Nat
  | .auto => 0
  | .enabled => 1
  | .disabled => 2
/-- Staging states (R156). -/
def stagingCode : StagingState → Nat
  | .free => 0
  | .opened => 1
  | .sealed => 2
  | .armed => 3
/-- Calibration outcomes (R156). -/
def calOutcomeCode : CalOutcome → Nat
  | .applied => 0
  | .abandoned => 1
  | .timeout => 2
  | .mismatch => 3
  | .discarded => 4
/-- Response codes (R179). -/
def respCodeNumber : RespCode → Nat
  | .ok => 0
  | .busy => 1
  | .denied => 2
  | .badArg => 3
  | .notNow => 4
  | .already => 5

/-! ## Record fields (R180) -/

/-- A field of one byte. -/
def field8 (n : Nat) : List Byte := [byteOf n]
/-- A field of one byte that may be absent: every bit 1 when absent. -/
def optField8 : Option Nat → List Byte
  | none => [0xFF#8]
  | some n => [byteOf n]
/-- A field of two bytes that may be absent. -/
def optField16 : Option Nat → List Byte
  | none => [0xFF#8, 0xFF#8]
  | some n => bytes16 n
/-- A field of three bytes that may be absent. -/
def optField24 : Option Nat → List Byte
  | none => [0xFF#8, 0xFF#8, 0xFF#8]
  | some n => bytes24 n
/-- A field whose all-ones value is also valid, preceded by a presence byte (R180), two bytes. -/
def preField16 : Option Nat → List Byte
  | none => [0#8, 0#8, 0#8]
  | some n => 1#8 :: bytes16 n
/-- The same, four bytes. -/
def preField32 : Option Nat → List Byte
  | none => [0#8, 0#8, 0#8, 0#8, 0#8]
  | some n => 1#8 :: bytes32 n
/-- The same, one signed byte. -/
def preFieldS8 : Option Int → List Byte
  | none => [0#8, 0#8]
  | some n => 1#8 :: bytesS8 n
/-- The same, two signed bytes. -/
def preFieldS16 : Option Int → List Byte
  | none => [0#8, 0#8, 0#8]
  | some n => 1#8 :: bytesS16 n
/-- A set-or-clear field (R180): numbered in the order its rule lists the values, and every such rule lists "set, clear"
(or the value that holds first), so set is 0 and clear is 1 (log entry 31). -/
def setField (b : Bool) : List Byte := [if b then 0#8 else 1#8]
/-- A present flag or a yes-or-no field: 1 for yes, 0 for no (log entry 31). -/
def yesField (b : Bool) : List Byte := [if b then 1#8 else 0#8]
/-- A number made of flags, the first at bit 0. -/
def maskOf : List Bool → Nat
  | [] => 0
  | b :: bs => (if b then 1 else 0) + 2 * maskOf bs

end Sys2Proof.Machine
end

