-- ==== Sys2Proof/WellFormed.lean ====
section
/-! DEFINITION. Which commands the formats of chapter 12 can carry: every operand within the size of its field, every frame a
good frame of its row. The meanings are total; a command outside these ranges cannot arrive from a line. -/

namespace Sys2Proof

open Sys2Proof.Machine

/-- A number of one byte. -/
def isByte (n : Nat) : Bool := decide (n < 256)

/-- A number of two bytes. -/
def isWord (n : Nat) : Bool := decide (n < 65536)

/-- A list of 16-bit words. -/
def areWords (ws : List Nat) : Bool := ws.all isWord

/-- A header whose fields fit the layout of R181. -/
def headerFits (f : LinkFrame) : Bool :=
  isByte f.kind && decide (f.target < 16) && decide (f.origin < 16) && decide (f.hop < 8) &&
  decide (f.returns.demand < 2) && decide (f.returns.status < 8) && decide (f.returns.service < 4) &&
  decide (f.payload.length < 64)

/-- A good frame of a kind (R182). -/
def goodFrame (kind : Nat) (f : LinkFrame) : Bool := headerFits f && decide (f.kind = kind) && !frameBad f

/-- Whether a Tow Link port receives a traffic kind (R142). -/
def receives (l : LinkPort) (kind : Nat) : Bool :=
  match l with
  | .up => kind == 1 || kind == 3
  | .down => kind == 2 || kind == 4

/-- A good traffic frame of a kind that its port does not receive (R144). -/
def strayFrame (l : LinkPort) (f : LinkFrame) : Bool :=
  headerFits f && !frameBad f && decide (1 ≤ f.kind) && decide (f.kind ≤ 4) && !receives l f.kind

/-- The words a CAL_WRITE of a count carries (R158, R179): none for a count outside 1..6. -/
def wordCount (count : Nat) : Nat := if 1 ≤ count ∧ count ≤ 6 then count else 0

/-- Whether a command can arrive as its format gives it. -/
def wellFormed : Instr → Bool
  | .powerOnReset => true
  | .pinReset => true
  | .startingTimerExpiry => true
  | .pressureSample _ => true
  | .trackingTimeout _ => true
  | .emergencyOnset => true
  | .emergencyRecovery => true
  | .lowReservoirOnset => true
  | .mismatchOnset => true
  | .mismatchRecovery => true
  | .linkAgeExpiry => true
  | .ctrlEntryExpiry _ _ => true
  | .wheelPulse _ micros => decide (micros < 1000)
  | .skidForcedHold _ => true
  | .skidHoldTimeout _ => true
  | .skidReapplyStep _ => true
  | .loadUpdate => true
  | .tyreTelegram bytes => decide (bytes.length = 8)
  | .learnTimeout => true
  | .tyreStale position => positionOk position
  | .inertialSample bytes => decide (bytes.length = 4)
  | .inertialAgeExpiry => true
  | .rolloverCalmToQuiet => true
  | .probeTimeout => true
  | .interveneEnd => true
  | .recoverStep => true
  | .testStart => true
  | .testHeadTimeout => true
  | .testPulseEnd => true
  | .testSettleEnd => true
  | .testVentEnd => true
  | .calIdleTimeout => true
  | .calSealTimeout => true
  | .wakeTimerExpiry => true
  | .lineActivity _ => true
  | .lineLoss _ => true
  | .linkHoldOffExpiry _ => true
  | .settleExpiry => true
  | .downstreamTrainStart => true
  | .trainFrameSend _ => true
  | .trainAttemptTimeout _ => true
  | .trainFrameReceived _ f => goodFrame 0 f
  | .linkBadFrame _ => true
  | .errorCountDecay _ => true
  | .creditReturnTimeout _ => true
  | .creditStall _ => true
  | .demandFrameReceived f => goodFrame 1 f
  | .demandSlotSend => true
  | .statusFrameReceived f => goodFrame 2 f
  | .statusQueueSend => true
  | .ownPeriodicStatus => true
  | .serviceReqReceived f => goodFrame 3 f
  | .serviceReqProcess => true
  | .serviceRespReceived f => goodFrame 4 f
  | .serviceRespJoin => true
  | .serviceQueueSend _ => true
  | .badCommandFrame _ => true
  | .noCommand _ => true
  | .postApply _ mask level lifetime => isByte mask && isWord level && isWord lifetime
  | .postLimit _ mask level lifetime => isByte mask && isWord level && isWord lifetime
  | .withdraw _ mask => isByte mask
  | .restore _ mask => isByte mask
  | .forceBackup _ mask => isByte mask
  | .requestTest _ channel => isByte channel
  | .cancelTest _ channel => isByte channel
  | .tyreLearn _ position => isByte position
  | .tyreAssign _ position sensor => isByte position && decide (sensor < 4294967296)
  | .tyreAdopt _ position index => isByte position && isByte index
  | .tyreClear _ position => isByte position
  | .linkEnable _ => true
  | .linkDisable _ => true
  | .standby _ => true
  | .calBegin _ => true
  | .calPointer _ index => isByte index
  | .calWrite _ count words => isByte count && decide (words.length = wordCount count) && areWords words
  | .calRead _ index count => isByte index && isByte count
  | .calSeal _ => true
  | .calConfirm _ check => isWord check
  | .calAbandon _ => true
  | .read _ table index part => isByte table && isByte index && isByte part && decide (table ≠ 10)
  | .readAttention _ index part => isByte index && isByte part
  | .clearFaults _ => true
  | .portSync _ => true
  | .onTimeEnd _ => true
  | .frameOfKindNotReceived l f => strayFrame l f
  | .unknownKindFrame _ f => headerFits f && decide (4 < f.kind)

end Sys2Proof
end

