-- ==== Sys2Proof/Decode.lean ====
section
/-! DEFINITION. From the bytes of a line to a command and back. spec/opcode_table.json gives no row any bits, so no word of the
table spells a command; what the manual does give bytes is the controller port frame (R165, R179, R180) and the Tow Link
frame (R141, R144, R181, R182), and those are decoded and encoded here. -/

namespace Sys2Proof

open Sys2Proof.Machine

/-- The command that a table word spells: none, since the table gives no row any bits. -/
def decodeTableWord (_nbits _w : Nat) : Option Instr := none

/-! ## Controller port frames (R179) -/

/-- `n` words from byte `i` on. -/
def wordsAt (bs : List Byte) (i : Nat) : Nat → List Nat
  | 0 => []
  | n + 1 => wordAt bs i :: wordsAt bs (i + 2) n

/-- The command of a frame with a good CRC-8, by its code (R179); the arguments follow from byte 1. -/
def decodeCommand (p : Port) (bs : List Byte) : Instr :=
  let a (i : Nat) : Nat := byteAt bs i
  match byteAt bs 0 with
  | 0 => .noCommand p
  | 1 => .postApply p (a 1) (wordAt bs 2) (wordAt bs 4)
  | 2 => .postLimit p (a 1) (wordAt bs 2) (wordAt bs 4)
  | 3 => .withdraw p (a 1)
  | 4 => .restore p (a 1)
  | 5 => .forceBackup p (a 1)
  | 6 => .requestTest p (a 1)
  | 7 => .cancelTest p (a 1)
  | 8 => .tyreLearn p (a 1)
  | 9 => .tyreAssign p (a 1) (longAt bs 2)
  | 10 => .tyreAdopt p (a 1) (a 2)
  | 11 => .tyreClear p (a 1)
  | 12 => .linkEnable p
  | 13 => .linkDisable p
  | 14 => .standby p
  | 15 => .calBegin p
  | 16 => .calPointer p (a 1)
  | 17 => .calWrite p (a 1) (wordsAt bs 2 (wordCount (a 1)))
  | 18 => .calRead p (a 1) (a 2)
  | 19 => .calSeal p
  | 20 => .calConfirm p (wordAt bs 1)
  | 21 => .calAbandon p
  | 22 => if a 1 = 10 then .readAttention p (a 2) (a 3) else .read p (a 1) (a 2) (a 3)
  | 23 => .clearFaults p
  | 24 => .portSync p
  | _ => .badCommandFrame p

/-- The command a frame shifted in on a port carries (R165, R180): 16 bytes with a matching CRC-8 and a known code; any other
frame is a BAD_COMMAND_FRAME. -/
def decodePortFrame (p : Port) (bs : List Byte) : Instr :=
  if bs.length = 16 ∧ bs.getD 15 0#8 = crc8 (bs.take 15) then decodeCommand p bs else .badCommandFrame p

/-- The bytes of a port frame from its code and argument bytes: filled out with bytes of 0, then the CRC-8 (R179). -/
def framed (code : Nat) (args : List Byte) : List Byte :=
  let body := byteOf code :: args ++ List.replicate (14 - args.length) 0#8
  body ++ [crc8 body]

/-- The frame that carries a port command; none for a command that no port frame carries. -/
def encodePortFrame : Instr → Option (List Byte)
  | .noCommand _ => some (framed 0 [])
  | .postApply _ mask level lifetime => some (framed 1 (field8 mask ++ bytes16 level ++ bytes16 lifetime))
  | .postLimit _ mask level lifetime => some (framed 2 (field8 mask ++ bytes16 level ++ bytes16 lifetime))
  | .withdraw _ mask => some (framed 3 (field8 mask))
  | .restore _ mask => some (framed 4 (field8 mask))
  | .forceBackup _ mask => some (framed 5 (field8 mask))
  | .requestTest _ channel => some (framed 6 (field8 channel))
  | .cancelTest _ channel => some (framed 7 (field8 channel))
  | .tyreLearn _ position => some (framed 8 (field8 position))
  | .tyreAssign _ position sensor => some (framed 9 (field8 position ++ bytes32 sensor))
  | .tyreAdopt _ position index => some (framed 10 (field8 position ++ field8 index))
  | .tyreClear _ position => some (framed 11 (field8 position))
  | .linkEnable _ => some (framed 12 [])
  | .linkDisable _ => some (framed 13 [])
  | .standby _ => some (framed 14 [])
  | .calBegin _ => some (framed 15 [])
  | .calPointer _ index => some (framed 16 (field8 index))
  | .calWrite _ count words => some (framed 17 (field8 count ++ bytesOfWords words))
  | .calRead _ index count => some (framed 18 (field8 index ++ field8 count))
  | .calSeal _ => some (framed 19 [])
  | .calConfirm _ check => some (framed 20 (bytes16 check))
  | .calAbandon _ => some (framed 21 [])
  | .read _ table index part => some (framed 22 (field8 table ++ field8 index ++ field8 part))
  | .readAttention _ index part => some (framed 22 (field8 10 ++ field8 index ++ field8 part))
  | .clearFaults _ => some (framed 23 [])
  | .portSync _ => some (framed 24 [])
  | .powerOnReset | .pinReset | .startingTimerExpiry | .pressureSample _ | .trackingTimeout _ | .emergencyOnset
  | .emergencyRecovery | .lowReservoirOnset | .mismatchOnset | .mismatchRecovery | .linkAgeExpiry | .ctrlEntryExpiry _ _
  | .wheelPulse _ _ | .skidForcedHold _ | .skidHoldTimeout _ | .skidReapplyStep _ | .loadUpdate | .tyreTelegram _
  | .learnTimeout | .tyreStale _ | .inertialSample _ | .inertialAgeExpiry | .rolloverCalmToQuiet | .probeTimeout
  | .interveneEnd | .recoverStep | .testStart | .testHeadTimeout | .testPulseEnd | .testSettleEnd | .testVentEnd
  | .calIdleTimeout | .calSealTimeout | .wakeTimerExpiry | .lineActivity _ | .lineLoss _ | .linkHoldOffExpiry _
  | .settleExpiry | .downstreamTrainStart | .trainFrameSend _ | .trainAttemptTimeout _ | .trainFrameReceived _ _
  | .linkBadFrame _ | .errorCountDecay _ | .creditReturnTimeout _ | .creditStall _ | .demandFrameReceived _
  | .demandSlotSend | .statusFrameReceived _ | .statusQueueSend | .ownPeriodicStatus | .serviceReqReceived _
  | .serviceReqProcess | .serviceRespReceived _ | .serviceRespJoin | .serviceQueueSend _ | .badCommandFrame _
  | .onTimeEnd _ | .frameOfKindNotReceived _ _ | .unknownKindFrame _ _ => none

/-- The frame shifted out for a response (R165, R179): code answered, response code, 13 bytes of result record, CRC-8. -/
def encodeResponse (r : Response) : List Byte :=
  let body := byteOf r.command :: byteOf (respCodeNumber r.code) ::
    (r.record.take 13 ++ List.replicate (13 - r.record.length) 0#8)
  body ++ [crc8 body]

/-! ## Tow Link frames (R181) -/

/-- The header and payload bytes of a frame. -/
def linkBody (f : LinkFrame) : List Byte :=
  [byteOf f.kind, byteOf (f.target * 16 + f.origin), byteOf (f.hop + 8 * f.returns.demand + 16 * f.returns.status),
   byteOf (f.returns.service + 4 * f.payload.length)] ++ f.payload

/-- The bytes of a frame on the line. -/
def encodeLinkFrame (f : LinkFrame) : List Byte := linkBody f ++ [crc8 (linkBody f)]

/-- The payload length of a frame's bytes. -/
def linkLength (bs : List Byte) : Nat := byteAt bs 3 / 4

/-- The header fields and the payload of a frame's bytes (R181). DESIGN CHOICE (log entry 57): bit 7 of byte 2, which is sent as 0,
is ignored on reception. -/
def linkFields (bs : List Byte) : LinkFrame :=
  { kind := byteAt bs 0, target := byteAt bs 1 / 16, origin := byteAt bs 1 % 16, hop := byteAt bs 2 % 8,
    returns := { demand := byteAt bs 2 / 8 % 2, status := byteAt bs 2 / 16 % 8, service := byteAt bs 3 % 4 },
    payload := (bs.drop 4).take (linkLength bs) }

/-- The row a good frame of a kind is on a port (R142, R144). -/
def rowOfFrame (l : LinkPort) (f : LinkFrame) : Instr :=
  match l, f.kind with
  | _, 0 => .trainFrameReceived l f
  | .up, 1 => .demandFrameReceived f
  | .down, 2 => .statusFrameReceived f
  | .up, 3 => .serviceReqReceived f
  | .down, 4 => .serviceRespReceived f
  | _, _ => .frameOfKindNotReceived l f

/-- The command a frame received on a Tow Link port is (R141, R182). -/
def decodeLinkFrame (l : LinkPort) (bs : List Byte) : Instr :=
  let n := linkLength bs
  let f := linkFields bs
  if bs.length ≠ 5 + n ∨ bs.getD (4 + n) 0#8 ≠ crc8 (bs.take (4 + n)) then .linkBadFrame l
  else if 4 < f.kind then .unknownKindFrame l f
  else if frameBad f then .linkBadFrame l
  else rowOfFrame l f

end Sys2Proof
end

