-- ==== Sys2Proof/Config.lean ====
section
/-! DEFINITION. What an implementation fixes and the manual does not state. Each is an opaque constant: nothing in Lean can
evaluate it, so every claim that involves it holds whatever it is. -/

namespace Sys2Proof.Config

/-- The vendor identity, part identity and silicon revision of the IDENT record (R167). The manual names these fields
and gives neither their values nor their sizes, so the bytes are free (log entry 3). -/
opaque identity : List Byte

end Sys2Proof.Config
end

