-- ==== Sys2Proof/Machine/Flags.lean ====
section
/-! DEFINITION. The fault flags: the live condition of each of the 47 faults (R168 and the rule it names for each), latching
in the three views (R169), and clearing. -/

namespace Sys2Proof.Machine

/-- Whether the operating state is RUNNING. -/
def isRunning (s : State) : Bool := s.standby.opState == .running

/-- Whether the operating state is PARKED. -/
def isParked (s : State) : Bool := s.standby.opState == .parked

/-- Neither LINK nor LINE is available (R31, R32). -/
def noSource (s : State) : Bool := !s.driver.linkPresent && s.driver.lineLevel.isNone

/-- Whether the acceleration indicator is available (R107): the sample age is present and below 50 ms. -/
def accelAvailable (r : InertialRec) : Bool :=
  match r.age with
  | none => false
  | some a => decide (a < 50)

/-- The live conditions of the six faults of a channel, in the order of R168: TRACKING (R13), DELIVERY_SENSOR (R14),
WHEEL_SENSOR (R42), SKID_DISABLED (R54), TEST_FAULT and TEST_LEAK (R132). DESIGN CHOICE (log entry 62): after a wake TEST_LEAK is
live from the entry into RUNNING on, as R132's condition and R174 say, and not from the first sample after it. -/
def channelLive (s : State) (c : Channel) : List Bool :=
  [(channelOf s c).causes.tracking, isRunning s && (s.front.delivery.get c).isNone,
   isRunning s && !(s.wheels.wheel.get c).valid, (s.skid.get c).disabled, (channelOf s c).causes.testFault,
   isRunning s && s.tests.leakMark.get c]

/-- LOAD_OVERRANGE (R62): RUNNING, and the over-range field of at least one lowered axle set. -/
def overRangeLive (s : State) : Bool :=
  isRunning s && (s.load.axle.ax1.overRange || s.load.axle.ax2.overRange || (s.load.axle.ax3.overRange && !s.load.raised))

/-- The live condition of every fault, in the order of its index (R168). The four event faults are never live. -/
def liveList (s : State) : List Bool :=
  channelLive s .ch0 ++ channelLive s .ch1 ++ channelLive s .ch2 ++ channelLive s .ch3 ++
  [isRunning s && s.front.control.isNone, isRunning s && s.front.supply.isNone, isRunning s && s.front.reservoir.isNone,
   s.supply.lowReservoir, s.supply.emergency, isRunning s && noSource s, s.driver.mismatch] ++
  [isRunning s && s.front.bagLeft.ax1.isNone, isRunning s && s.front.bagRight.ax1.isNone,
   isRunning s && s.front.bagLeft.ax2.isNone, isRunning s && s.front.bagRight.ax2.isNone,
   isRunning s && s.front.bagLeft.ax3.isNone, isRunning s && s.front.bagRight.ax3.isNone] ++
  [overRangeLive s, isRunning s && !accelAvailable s.roll.inertial,
   isRunning s && !accelAvailable s.roll.inertial && s.roll.indicator.ltr.isNone] ++
  [isRunning s && s.link.up.errorHoldOff, false, isRunning s && s.link.down.errorHoldOff, false,
   isRunning s && s.link.positionFault, false, false]

/-- The index of CREDIT_ERROR of a Tow Link port (R168). -/
def creditErrorIndex : LinkPort → Nat
  | .up => 41
  | .down => 43

/-- The index of CAL_MISMATCH (R168). -/
def calMismatchIndex : Nat := 45

/-- The index of CAL_TIMEOUT (R168). -/
def calTimeoutIndex : Nat := 46

/-- A fault record when its live condition is found `live`: going live sets the three latches; going out leaves them
(R169). -/
def latchRec (live : Bool) (r : FaultRec) : FaultRec :=
  if live && !r.live then { live := true, latchA := true, latchB := true, latchU := true } else { r with live := live }

/-- Whether a fault goes live while its latch in a view is clear: a new latch (R169). -/
def newLatch (view : FaultRec → Bool) (live : Bool) (r : FaultRec) : Bool := live && !r.live && !view r

/-- The live states brought up to date, with the latches and the new-fault-latch flags that follow (R169). -/
def refreshFaults (s : State) : State :=
  let newA := (List.zipWith (newLatch FaultRec.latchA) (liveList s) s.faults).any id
  let newB := (List.zipWith (newLatch FaultRec.latchB) (liveList s) s.faults).any id
  raiseNewFault (raiseNewFault (s.setFaults (List.zipWith latchRec (liveList s) s.faults)) .a newA) .b newB

/-- The record of fault `i`. -/
def faultOf (s : State) (i : Nat) : FaultRec := s.faults.getD i ⟨false, false, false, false⟩

/-- An event fault (R168): live and out at the same instant, so it latches in the three views. -/
def latchEvent (i : Nat) (s : State) : State :=
  let r := faultOf s i
  raiseNewFault (raiseNewFault (s.setFaults (s.faults.set i { r with latchA := true, latchB := true, latchU := true }))
    .a (!r.latchA)) .b (!r.latchB)

/-- The three readers' views (R168). -/
inductive View where
  | a | b | u
deriving DecidableEq, Repr

/-- The view of a controller port. -/
def portView : Port → View
  | .a => .a
  | .b => .b

/-- The latch of a view. -/
def viewLatch (v : View) (r : FaultRec) : Bool :=
  match v with
  | .a => r.latchA
  | .b => r.latchB
  | .u => r.latchU

/-- A fault record with the latch of one view set exactly when the fault is live (R169, R171). -/
def clearView (v : View) (r : FaultRec) : FaultRec :=
  match v with
  | .a => { r with latchA := r.live }
  | .b => { r with latchB := r.live }
  | .u => { r with latchU := r.live }

/-- Every latch of one view is cleared, and each fault that is live is latched again, raising no attention (R169). -/
def clearFaultView (v : View) (s : State) : State := s.setFaults (s.faults.map (clearView v))

/-- The number of faults latched in a view (R168, R147). -/
def latchedCount (v : View) (s : State) : Nat := s.faults.countP (viewLatch v)

/-- Whether any fault latched in a view is live (R168, R147). -/
def latchedLive (v : View) (s : State) : Bool := s.faults.any (fun r => viewLatch v r && r.live)

end Sys2Proof.Machine
end

