-- ==== Sys2Proof/Machine/Status.lean ====
section
/-! DEFINITION. Own status frames (R147, R148): the payload built from the state of the device, and how periodic and event
frames join or are rebuilt in the upstream STATUS queue (R146). -/

namespace Sys2Proof.Machine

/-- The skid-active mask (R57): the channels in RELEASE, HOLD or REAPPLY. DESIGN CHOICE (log entry 68): bit c for channel c, as R181
gives it for the channel modes. -/
def skidActiveMask (s : State) : Nat := maskOf (allChannels.map (fun c => (s.skid.get c).state != .free))

/-- The channel modes of a status frame (R181): BACKUP in bit c for channel c. -/
def backupMask (s : State) : Nat := maskOf (allChannels.map (fun c => !electronic s c))

/-- The worst condition byte (R181): absent 0, NORMAL 1 to LEAK 5. -/
def worstConditionByte (s : State) : Nat :=
  match s.tyre.worst with
  | none => 0
  | some (k, _) => conditionCode k + 1

/-- The worst position byte (R181): 0 when absent. -/
def worstPositionByte (s : State) : Nat :=
  match s.tyre.worst with
  | none => 0
  | some (_, n) => n

/-- The payload of an own status frame (R147, R181), built whole from the state: report type (PERIODIC 0, EVENT 1), event
count, then the report. A periodic frame carries event count 0 (log entry 28). -/
def statusPayload (s : State) (report count : Nat) : List Byte :=
  field8 report ++ field8 count ++ field8 (s.link.ownPosition.getD 0) ++ field8 (backupMask s) ++
  field8 (skidActiveMask s) ++ field8 (stageCode s.roll.stage.stage) ++ bytes16 s.load.group ++
  field8 (worstConditionByte s) ++ field8 (worstPositionByte s) ++
  field8 (maskOf [s.supply.lowReservoir, s.supply.emergency]) ++ bytes16 s.cal.generation ++
  field8 (latchedCount .u s) ++ yesField (latchedLive .u s)

/-- A frame built by this part (R144): hop count 0, origin equal to the own position or 0 while it is unknown, target ALL. -/
def ownFrame (s : State) (kind : Nat) (payload : List Byte) : LinkFrame :=
  { kind := kind, target := targetAll, origin := s.link.ownPosition.getD 0, hop := 0, returns := .zero, payload := payload }

/-- Whether an item of the STATUS queue is the own periodic frame. -/
def isPeriodic : StatusItem → Bool
  | .periodic _ => true
  | .forwarded _ => false
  | .event _ _ => false

/-- Whether an item of the STATUS queue is the own event frame. -/
def isEvent : StatusItem → Bool
  | .event _ _ => true
  | .forwarded _ => false
  | .periodic _ => false

/-- The own periodic frame of the present state (R147). -/
def periodicFrame (s : State) : LinkFrame := ownFrame s 2 (statusPayload s 0 0)

/-- The own event frame of the present state with an event count (R148). -/
def eventFrame (s : State) (count : Nat) : LinkFrame := ownFrame s 2 (statusPayload s 1 count)

/-- An item rebuilt in place if it is the own periodic frame (R147). -/
def rebuildPeriodic (f : LinkFrame) (x : StatusItem) : StatusItem := if isPeriodic x then .periodic f else x

/-- An item rebuilt in place if it is the own event frame, its count increased by 1, saturating at 255 (R148). -/
def rebuildEvent (s : State) (x : StatusItem) : StatusItem :=
  match x with
  | .event n _ => .event (satAdd 255 n 1) (eventFrame s (satAdd 255 n 1))
  | .forwarded f => .forwarded f
  | .periodic f => .periodic f

/-- The own periodic frame is queued, or rebuilt in place where one is queued (R147). -/
def queuePeriodic (s : State) : State :=
  let q := s.link.statusQueue
  let q' := if q.any isPeriodic then q.map (rebuildPeriodic (periodicFrame s)) else q ++ [.periodic (periodicFrame s)]
  s.setLink { s.link with statusQueue := q' }

/-- An own event (R148): while the upstream port is ACTIVE, the event frame is queued with count 1, or rebuilt in place
with its count increased; otherwise nothing is queued. The fault summary it carries is brought up to date first. -/
def queueEvent (s : State) : State :=
  let t := refreshFaults s
  if t.link.up.state == .active then
    let q := t.link.statusQueue
    let q' := if q.any isEvent then q.map (rebuildEvent t) else q ++ [.event 1 (eventFrame t 1)]
    t.setLink { t.link with statusQueue := q' }
  else t

end Sys2Proof.Machine
end

