-- ==== Sys2Proof/Machine/ResponseTest.lean ====
section
/-! DEFINITION. The Response Test Unit's shared operations: results, aborts, the head of the queue, the generator
(R125 to R134). -/

namespace Sys2Proof.Machine

/-- The running test, if a test holds the generator (R125, R129). -/
def runningTest (s : State) : Option RunningTest :=
  match s.tests.holder with
  | .test t => some t
  | .free => none
  | .probe => none

/-- Whether a channel is under test (R12). -/
def underTest (s : State) (c : Channel) : Bool :=
  match runningTest s with
  | some t => t.channel == c
  | none => false

/-- A result is stored: it replaces the record of its channel whole and raises the test result flag of its requesting port,
and of no other (R134). -/
def storeResult (c : Channel) (p : Port) (r : TestResult) (s : State) : State :=
  raiseTestResult (s.setTests { s.tests with result := s.tests.result.set c r }) p

/-- The result of an aborted test (R133): the measurements taken up to that moment. -/
def abortedResult (t : RunningTest) (k : TestCause) : TestResult :=
  { outcome := some .aborted, cause := some k, t50 := t.t50, pEnd := t.pEnd, pHold := t.pHold, volumeClass := none,
    port := some t.port }

/-- The valves of a channel whose test was aborted by anything but BACKUP: the exhaust opens and stays open until the next
pressure sample (R133). DESIGN CHOICE (log entry 70): the inlet, open where the test is aborted in PULSE, closes at that moment. -/
def openExhaust (c : Channel) (s : State) : State :=
  setChannel s c { channelOf s c with inlet := .closed, exhaust := .held }

/-- The running test, if there is one, is aborted (R133): the result is stored, the generator freed, and for every cause
but BACKUP the exhaust opens. -/
def abortRunning (k : TestCause) (s : State) : State :=
  match runningTest s with
  | none => s
  | some t =>
    let s1 := storeResult t.channel t.port (abortedResult t k) (s.setTests { s.tests with holder := .free })
    if k == .backup then s1 else openExhaust t.channel s1

/-- The test of one channel, if it runs, is aborted (R133). -/
def abortTestOf (c : Channel) (k : TestCause) (s : State) : State :=
  if underTest s c then abortRunning k s else s

/-- The head leaves the queue; the entry behind it becomes head with its wait timer at 0 and is first examined at the next
sample (R125, R128). DESIGN CHOICE (log entry 65): the timer is 0 too where the queue is left empty. -/
def dropHead (s : State) : State :=
  s.setTests { s.tests with queue := s.tests.queue.tail, headWait := 0, headDue := false }

/-- A result without measurements (R127, R128). -/
def emptyResult (o : TestOutcome) (k : TestCause) (p : Port) : TestResult :=
  { outcome := some o, cause := some k, t50 := none, pEnd := 0, pHold := 0, volumeClass := none, port := some p }

/-- The head, if there is one, is refused with a cause (R128). -/
def refuseHead (k : TestCause) (s : State) : State :=
  match s.tests.queue with
  | [] => s
  | q :: _ => storeResult q.channel q.port (emptyResult .refused k q.port) (dropHead s)

/-- Whether a channel heads the Test Queue. -/
def isHead (s : State) (c : Channel) : Bool :=
  match s.tests.queue with
  | [] => false
  | q :: _ => q.channel == c

/-- The Channel Controller's notice that a channel entered BACKUP (R2, R128, R133): a test of it is aborted, and a head
request for it is refused in RUNNING. -/
def testBackupNotice (c : Channel) (s : State) : State :=
  let s1 := abortTestOf c .backup s
  if isRunning s1 && isHead s1 c then refuseHead .notElectronic s1 else s1

/-- The queue after a set of entries is removed; a new head starts with its wait timer at 0 (R125, R127). DESIGN CHOICE (log entry 65):
the timer is 0 too where the queue is left empty. -/
def keepRequests (keep : TestRequest → Bool) (s : State) : State :=
  let q' := s.tests.queue.filter keep
  if q'.head? == s.tests.queue.head? then s.setTests { s.tests with queue := q' }
  else s.setTests { s.tests with queue := q', headWait := 0, headDue := false }

end Sys2Proof.Machine
end

