-- ==== Sys2Proof/Machine/Demand.lean ====
section
/-! DEFINITION. The Demand Resolver's shared operations: resolution (R37, R38), posting and withdrawing entries (R23), the load
curve (R75) and the DRIVER entry (R35), applied derates (R36). -/

namespace Sys2Proof.Machine

/-- The reservoir cap (R18): the reading limited to 1000 kPa, or 1000 kPa with an invalid reading. -/
def reservoirCap (s : State) : Nat := min 1000 (s.front.reservoir.getD 1000)

/-- The level of an entry, 0 where there is none. -/
def levelOr0 : Option Entry → Nat
  | none => 0
  | some e => e.level

/-- The level of a LIMIT entry, or a bound where there is none. -/
def limitOr (bound : Nat) : Option Entry → Nat
  | none => bound
  | some e => e.level

/-- The largest APPLY level of a table, 0 when it holds none (R37). -/
def largestApply (t : Table) : Nat :=
  max (max (levelOr0 t.driver) (levelOr0 t.ctrlA)) (max (levelOr0 t.emerg) (levelOr0 t.roll))

/-- The smallest LIMIT level of a table, the reservoir cap counted as a LIMIT (R37). -/
def smallestLimit (cap : Nat) (t : Table) : Nat := min cap (min (limitOr cap t.ctrlB) (limitOr cap t.skid))

/-- The largest APPLY level a resolution of channel `c` finds: 0 for CH2 and CH3 while axle 3 is raised (R37, R38). -/
def applyLevel (s : State) (c : Channel) : Nat := if raisedChannel s c then 0 else largestApply (tableOf s c)

/-- The setpoint a resolution of channel `c` forms (R37). -/
def resolvedLevel (s : State) (c : Channel) : Nat := min (applyLevel s c) (smallestLimit (reservoirCap s) (tableOf s c))

/-- The applied derate after a resolution that forms setpoint `sp` (R36): it follows the current derate while the setpoint
is 0 and keeps its value while the setpoint is above 0. -/
def appliedAfter (s : State) (c : Channel) (sp : Nat) : Nat :=
  if sp = 0 then s.load.derate.get c else s.demand.applied.get c

/-- The results of a resolution written to the channel record and the resolver's own record (R20, R36, R38). -/
def writeResolution (c : Channel) (s : State) : State :=
  let sp := resolvedLevel s c
  let d := appliedAfter s c sp
  let s1 := setChannel s c { channelOf s c with setpoint := sp, supplyLimited := decide (reservoirCap s < applyLevel s c) }
  s1.setDemand { s1.demand with
    applied := s.demand.applied.set c d,
    summary := s.demand.summary.set c
      { largestApply := applyLevel s c, smallestLimit := smallestLimit (reservoirCap s) (tableOf s c),
        cap := reservoirCap s, derate := d, raised := s.load.raised } }

/-- Resolution of a channel (R37, R38): the results are handed on, and a rise of the setpoint from 0 aborts a running test of
the channel with cause DEMAND in the same step (R133). -/
def resolve (c : Channel) (s : State) : State :=
  if (channelOf s c).setpoint = 0 ∧ 0 < resolvedLevel s c then abortTestOf c .demand (writeResolution c s)
  else writeResolution c s

/-- Resolution of all four channels (R38). -/
def resolveAll (s : State) : State := forChannels resolve s

/-- A post (R23): the source's entry is inserted or replaced whole, its level clamped to 1000, and the channel is
resolved. -/
def post (c : Channel) (k : Source) (e : Entry) (s : State) : State :=
  resolve c (putEntry s c k (some { e with level := min 1000 e.level }))

/-- A withdrawal or an expiry (R22, R23): the source's entry, if there is one, is removed and the channel is resolved. -/
def withdraw (c : Channel) (k : Source) (s : State) : State :=
  match entryOf s c k with
  | none => s
  | some _ => resolve c (putEntry s c k none)

/-- The load curve (R75) for a knee and a gain. -/
def curveOf (knee gain x : Nat) : Nat := if x ≤ knee then x else knee + ((x - knee) * gain + 512) / 1024

/-- The load curve with p_knee and g as they stand (R76). -/
def curve (s : State) (x : Nat) : Nat := curveOf (calKnee s.cal.active) s.load.gain x

/-- The DRIVER level of a channel (R35): the load curve of D, times the applied derate. -/
def driverLevel (s : State) (c : Channel) : Nat := curve s s.driver.demand * s.demand.applied.get c / 1024

/-- The DRIVER entry of a channel is posted while D is 15 kPa or above and withdrawn below (R35); a post whose level equals
the level held is not made. -/
def updateDriver (c : Channel) (s : State) : State :=
  if 15 ≤ s.driver.demand then
    if (entryOf s c .driver).map Entry.level = some (driverLevel s c) then s
    else post c .driver { level := driverLevel s c, lifetime := none, detail := none } s
  else withdraw c .driver s

/-- The level of an EMERG entry (R16): the load curve of 800 kPa, with no derate. -/
def emergLevel (s : State) : Nat := curve s 800

/-- The EMERG entry of a channel is posted (R15, R16). -/
def postEmerg (c : Channel) (s : State) : State :=
  post c .emerg { level := emergLevel s, lifetime := none, detail := none } s

/-- Whether every channel's resolved setpoint is 0. -/
def setpointsZero (s : State) : Bool := allChannels.all (fun c => decide ((channelOf s c).setpoint = 0))

/-- The DRIVER level of a channel's table; a channel with no DRIVER entry counts as 0 (R115). -/
def driverEntryLevel (s : State) (c : Channel) : Nat := levelOr0 (entryOf s c .driver)

end Sys2Proof.Machine
end

