-- ==== Sys2Proof/Machine/Channel.lean ====
section
/-! DEFINITION. Backup causes and channel modes (R2 to R5), the return of a skid state to FREE (R48), and the Driver Demand
record: forming D (R31), the loss of both sources (R32), the end of a mismatch (R34), the loss of LINK (R29). -/

namespace Sys2Proof.Machine

/-- A channel that is not FREE returns to FREE (R48, R53): its SKID entry is withdrawn, the held level becomes absent and the
state timer 0; the forced-hold count stays. The return queues an own event frame (R57). -/
def freeSkid (c : Channel) (s : State) : State :=
  let k := s.skid.get c
  if k.state = .free then s
  else queueEvent (withdraw c .skid
    (s.setSkid (s.skid.set c { k with state := .free, held := none, timer := 0, stepDue := false })))

/-- A channel moves to BACKUP (R2): valves de-energised, control state HOLDING, tracking timer 0; then the notices to the
Response Test Unit and the Anti-Lock Monitor, and the own event frame. The test is aborted first: the event that reaches it
is the entry into BACKUP (R133), not a rise of the setpoint that the removal of the SKID entry may bring (log entry 33). -/
def enterBackup (c : Channel) (s : State) : State :=
  let s1 := setChannel s c { channelOf s c with
    backupValve := false, inlet := .closed, exhaust := .closed, controlState := .holding, tracking := none }
  queueEvent (freeSkid c (testBackupNotice c s1))

/-- A cause is added (R2): a cause already held changes nothing; the first cause of a set moves the channel to BACKUP. -/
def addCause (k : Cause) (c : Channel) (s : State) : State :=
  let r := channelOf s c
  if r.causes.has k then s
  else
    let s1 := setChannel s c { r with causes := r.causes.put k true }
    if r.causes.isEmpty then enterBackup c s1 else s1

/-- A channel moves to ELECTRONIC (R3): the backup valve is energised, the other two stay closed until the first control
sample, the tracking timer starts from 0, and an own event frame is queued. -/
def enterElectronic (c : Channel) (s : State) : State :=
  queueEvent (setChannel s c { channelOf s c with
    backupValve := true, inlet := .closed, exhaust := .closed, tracking := none })

/-- The cause set of a channel is replaced by what remains of it; removing the last cause moves the channel to ELECTRONIC
(R3). -/
def keepCauses (k : CauseSet) (c : Channel) (s : State) : State :=
  let r := channelOf s c
  let s1 := setChannel s c { r with causes := k }
  if !r.causes.isEmpty && k.isEmpty then enterElectronic c s1 else s1

/-- STARTUP is added to a channel, and its condition begins (R4). -/
def addStartup (c : Channel) (s : State) : State :=
  addCause .startup c (setChannel s c { channelOf s c with startupHeld := true })

/-- The automatic causes whose condition still holds at a sample (R4, R5); held causes stay. -/
def remainingCauses (s : State) (c : Channel) : CauseSet :=
  let r := channelOf s c
  { r.causes with
    startup := r.causes.startup && r.startupHeld,
    noDemandSource := r.causes.noDemandSource && noSource s,
    parked := r.causes.parked && isParked s }

/-- At a sample with D below 15 kPa every automatic cause whose condition has ended is removed (R5). -/
def removeAutomatic (c : Channel) (s : State) : State :=
  if s.driver.demand < 15 then keepCauses (remainingCauses s c) c s else s

/-- Whether the larger of the two levels is taken (R31): a mismatch is in effect, and no recovery run has reached 2000 ms. A run
that has reached it ends the mismatch before the table is read (R34); the flag itself is cleared by MISMATCH_RECOVERY. -/
def selectHigh (d : DriverRec) : Bool := d.mismatch && decide (runMs d.recovery < 2000)

/-- D from the present values of the record (R31). -/
def demandOf (d : DriverRec) : Nat :=
  match d.linkPresent, d.lineLevel with
  | true, some y => if selectHigh d then max (d.linkLevel.getD 0) y else d.linkLevel.getD 0
  | true, none => d.linkLevel.getD 0
  | false, some y => y
  | false, none => 0

/-- The Driver Demand record with a mismatch ended and both timers at 0 (R34). -/
def endMismatch (d : DriverRec) : DriverRec := { d with mismatch := false, onset := none, recovery := none }

/-- The record once LINK or LINE is found absent: a mismatch ends and the onset run ends (R33, R34). -/
def settleMismatch (d : DriverRec) : DriverRec :=
  if d.linkPresent && d.lineLevel.isSome then d else endMismatch d

/-- D is formed anew (R31): a mismatch ends first where a source is absent (R34); with neither source, D is 0 and
NO_DEMAND_SOURCE is added to every channel (R32); the new D is handed to the DRIVER entries (R35). -/
def formDemand (s : State) : State :=
  let d := settleMismatch s.driver
  let s1 := s.setDriver { d with demand := demandOf d }
  let s2 := if noSource s1 then forChannels (addCause .noDemandSource) s1 else s1
  forChannels updateDriver s2

/-- LINK becomes absent (R29), and D is formed anew. -/
def loseLink (s : State) : State :=
  if s.driver.linkPresent then formDemand (s.setDriver { s.driver with linkPresent := false }) else s

end Sys2Proof.Machine
end

