-- ==== Sys2Proof/Machine/Wake.lean ====
section
/-! DEFINITION. Waking from PARKED (R178). -/

namespace Sys2Proof.Machine

/-- A wake event (R178). In PARKED it records its reason, raises Port A's wake reason flag, makes the wake timer absent and
enters STARTING with STARTUP added to every channel (R4). In any other state it is not a wake and changes nothing. -/
def wake (r : WakeReason) (s : State) : State :=
  if isParked s then
    let s1 := s.setStandby { s.standby with
      opState := .starting, startingTimer := 0, wakeReason := some r, wakeTimer := none }
    forChannels addStartup (raiseWakeReason s1)
  else s

end Sys2Proof.Machine
end

