-- ==== Sys2Proof/Machine/Tyre.lean ====
section
/-! DEFINITION. The Tyre Monitor: telegram intake (R82 to R85), flags and conditions (R89 to R91), the Stranger List (R94),
learning and assignment (R95 to R102), and the effects on the rest of the device (R77, R78, R103, R104). -/

namespace Sys2Proof.Machine

/-! ## The Sensor Table -/

/-- The record of a position, 1..12; an unassigned record for any other number. -/
def positionOf (s : State) (n : Nat) : PositionRec := s.tyre.positions.getD (n - 1) PositionRec.empty

/-- The Sensor Table with the record of a position replaced; nothing is handed on. -/
def putPosition (n : Nat) (r : PositionRec) (s : State) : State :=
  s.setTyre { s.tyre with positions := s.tyre.positions.set (n - 1) r }

/-- The condition of data (R90): the highest of its set flags, in the order LEAK, CRITICAL, HOT, LOW; NORMAL with none. -/
def dataCondition (d : TyreData) : Condition :=
  if d.leak then .leak else if d.critical then .critical else if d.hot then .hot else if d.low then .low else .normal

/-- The condition of a position record; absent while it holds no data (R90). -/
def recCondition (r : PositionRec) : Option Condition := r.data.map dataCondition

/-- The condition of a position. -/
def positionCondition (s : State) (n : Nat) : Option Condition := recCondition (positionOf s n)

/-- Positions 1 to 12. -/
def allPositions : List Nat := [1, 2, 3, 4, 5, 6, 7, 8, 9, 10, 11, 12]

/-- CRITICAL or LEAK (R77, R90). -/
def isSevere : Option Condition → Bool
  | some .critical => true
  | some .leak => true
  | some .normal => false
  | some .low => false
  | some .hot => false
  | none => false

/-- LOW, CRITICAL or LEAK (R103). -/
def isSoft : Option Condition → Bool
  | some .low => true
  | some .critical => true
  | some .leak => true
  | some .normal => false
  | some .hot => false
  | none => false

/-- The position that holds an ID, if any. -/
def holderOf (s : State) (id : Nat) : Option Nat := allPositions.find? (fun n => (positionOf s n).sensor == some id)

/-- Whether the Stranger List holds an ID. -/
def inStrangers (s : State) (id : Nat) : Bool := s.tyre.strangers.any (fun e => e.sensor == id)

/-! ## Effects of a condition change (R90) -/

/-- The current derate of a channel (R77): 768 if at least one of its positions is CRITICAL or LEAK. -/
def derateOf (s : State) (c : Channel) : Nat :=
  if allPositions.any (fun n => positionChannel n == c && isSevere (positionCondition s n)) then 768 else 1024

/-- The current derate of a channel is formed anew and handed to the applied derate, which follows it while the channel's
setpoint is 0 (R36, R78). -/
def formDerate (c : Channel) (s : State) : State :=
  let d := derateOf s c
  let s1 := s.setLoad { s.load with derate := s.load.derate.set c d }
  if (channelOf s c).setpoint = 0 then s1.setDemand { s1.demand with applied := s1.demand.applied.set c d } else s1

/-- The rollover tyre flag is formed anew (R103): a position of a lowered axle is LOW, CRITICAL or LEAK. -/
def formRollFlag (s : State) : State :=
  s.setTyre { s.tyre with
    rollFlag := allPositions.any (fun n => !axleRaised s (positionAxle n) && isSoft (positionCondition s n)) }

/-- The worse of two findings (R104): the higher condition, the one found first where they are equal. -/
def worseOf (x y : Option (Condition × Nat)) : Option (Condition × Nat) :=
  match x, y with
  | none, b => b
  | a, none => a
  | some (k, n), some (j, m) => if conditionCode k < conditionCode j then some (j, m) else some (k, n)

/-- The worst condition and the lowest position that holds it (R104). -/
def worstOf (s : State) : Option (Condition × Nat) :=
  allPositions.foldl (fun w n => worseOf w ((positionCondition s n).map (fun k => (k, n)))) none

/-- The worst condition is formed anew (R104). -/
def formWorst (s : State) : State := s.setTyre { s.tyre with worst := worstOf s }

/-- The effects of a new entry into CRITICAL or LEAK (R104): an own event frame, and in PARKED a wake of reason TYRE. -/
def newEntry (s : State) : State := wake .tyre (queueEvent s)

/-- A position record is written, and a change of its condition is handed on (R90): the derate of its channel, the rollover
tyre flag, the worst condition, and the effects of a new entry. -/
def writePosition (n : Nat) (r : PositionRec) (s : State) : State :=
  let old := positionCondition s n
  let new := recCondition r
  let s1 := putPosition n r s
  if old = new then s1
  else
    let s2 := formWorst (formRollFlag (formDerate (positionChannel n) s1))
    if isSevere new && !isSevere old then newEntry s2 else s2

/-! ## Pressure, flags (R87, R89, R91) -/

/-- The compensated pressure (R87): (p_meas + 100) × 293 / (T + 273) − 100, the quotient truncated, clamped to 0..1275. -/
def compensated (pMeas : Nat) (t : Int) : Nat := min 1275 (((pMeas + 100) * 293) / (t + 273).toNat - 100)

/-- A threshold of R89: target × factor / 1024, truncated. -/
def threshold (target factor : Nat) : Nat := target * factor / 1024

/-- A flag evaluated on its own (R89): set if its set condition holds, else cleared if its clear condition holds, else kept. -/
def flagNext (setCond clearCond old : Bool) : Bool := if setCond then true else if clearCond then false else old

/-- The critical flag at a pressure and a target (R89). -/
def criticalNext (p target : Nat) (old : Bool) : Bool :=
  flagNext (decide (p < threshold target 819)) (decide (threshold target 840 ≤ p)) old

/-- The low flag at a pressure and a target (R89). -/
def lowNext (p target : Nat) (old : Bool) : Bool :=
  flagNext (decide (p < threshold target 922)) (decide (threshold target 942 ≤ p)) old

/-- The hot flag at a temperature (R89). -/
def hotNext (t : Int) (old : Bool) : Bool := flagNext (decide (95 ≤ t)) (decide (t ≤ 85)) old

/-- Whether leak's set condition holds (R89): a fall of 15 kPa or more within 120 s of the previous telegram, or the
rapid-loss flag. -/
def leakSet (previous : Option TyreData) (pComp : Nat) (rapid : Bool) : Bool :=
  rapid || match previous with
    | none => false
    | some d => decide (d.ageMs / 1000 ≤ 120) && decide (pComp + 15 ≤ d.pComp)

/-- The fields of a telegram (R82). -/
structure Telegram where
  sensor : Nat
  counter : Nat
  learn : Bool
  rapidLoss : Bool
  batteryLow : Bool
  pMeas : Nat
  tempCode : Nat
deriving DecidableEq, Repr

/-- The fields of a telegram's bytes (R183). -/
def telegramOf (bs : List Byte) : Telegram :=
  { sensor := longAt bs 0, counter := byteAt bs 4 % 16, learn := (byteAt bs 4).testBit 4,
    rapidLoss := (byteAt bs 4).testBit 5, batteryLow := (byteAt bs 4).testBit 6,
    pMeas := byteAt bs 5 * 5, tempCode := byteAt bs 6 }

/-- The temperature of a telegram in °C (R82). -/
def telegramTemp (t : Telegram) : Int := (t.tempCode : Int) - 40

/-- Whether a telegram passes R82: eight bytes, a matching check, a temperature code of at most 165. -/
def telegramGood (bs : List Byte) : Bool :=
  decide (bs.length = 8) && decide (bs.getD 7 0#8 = telegramCheck bs) && decide (byteAt bs 6 ≤ 165)

/-- The data of a position after a telegram (R87, R89), from the data it held and its axle's target. -/
def dataAfter (previous : Option TyreData) (target : Nat) (t : Telegram) : TyreData :=
  let p := compensated t.pMeas (telegramTemp t)
  let old (f : TyreData → Bool) : Bool := (previous.map f).getD false
  { pMeas := t.pMeas, temperature := telegramTemp t, pComp := p,
    leak := flagNext (leakSet previous p t.rapidLoss) (decide (threshold target 973 ≤ p)) (old TyreData.leak),
    critical := criticalNext p target (old TyreData.critical),
    low := lowNext p target (old TyreData.low),
    hot := hotNext (telegramTemp t) (old TyreData.hot),
    ageMs := 0, stale := false, batteryLow := t.batteryLow }

/-- The target of a position's axle as it stands (R88, R89). -/
def positionTarget (s : State) (n : Nat) : Nat := s.tyre.target.get (positionAxle n)

/-- A telegram taken for a position (R87). -/
def takeForPosition (n : Nat) (t : Telegram) (s : State) : State :=
  let r := positionOf s n
  writePosition n { r with
    dup := some ⟨t.counter, 0⟩,
    data := some (dataAfter r.data (positionTarget s n) t) } s

/-- Data re-evaluated against a target (R91): critical and low as in R89, leak against its clear condition alone. -/
def reevaluated (target : Nat) (d : TyreData) : TyreData :=
  { d with
    critical := criticalNext d.pComp target d.critical,
    low := lowNext d.pComp target d.low,
    leak := d.leak && !decide (threshold target 973 ≤ d.pComp) }

/-- Re-evaluation of a position (R91); a position holding no data is passed over. -/
def reevaluate (n : Nat) (s : State) : State :=
  match (positionOf s n).data with
  | none => s
  | some d => writePosition n { positionOf s n with data := some (reevaluated (positionTarget s n) d) } s

/-- The target of an axle (R88): T_unl + (T_lad − T_unl) × λ / 1024, truncated toward zero. -/
def targetOf (s : State) (x : Axle) : Nat :=
  let unl : Int := calTUnl s.cal.active x
  let lad : Int := calTLad s.cal.active x
  (unl + ((lad - unl) * (s.load.lambda : Int)).tdiv 1024).toNat

/-- The targets are formed anew and every position holding data is re-evaluated (R88, R91). DESIGN CHOICE (log entry 61): the positions
are taken in the order 1 to 12, which R91 leaves open. -/
def formTargets (s : State) : State :=
  let s1 := s.setTyre { s.tyre with target := ⟨targetOf s .ax1, targetOf s .ax2, targetOf s .ax3⟩ }
  allPositions.foldl (fun t n => reevaluate n t) s1

/-! ## The Stranger List (R94) -/

/-- The entry a telegram makes, with a hit count (R94). -/
def strangerOf (t : Telegram) (hits : Nat) : Stranger :=
  { sensor := t.sensor, pMeas := t.pMeas, temperature := telegramTemp t, counter := t.counter, counterAge := 0,
    hits := hits, ageMs := 0 }

/-- The Stranger List without an ID. -/
def withoutStranger (id : Nat) (l : List Stranger) : List Stranger := l.filter (fun e => e.sensor != id)

/-- The Stranger List after a stranger's telegram (R94): an ID already in the list moves to the front with its hit count
increased; a new ID is inserted at the front, the back entry of a full list of 8 being removed first. -/
def strangersAfter (t : Telegram) (l : List Stranger) : List Stranger :=
  match l.find? (fun e => e.sensor == t.sensor) with
  | some e => strangerOf t (satAdd 255 e.hits 1) :: withoutStranger t.sensor l
  | none => strangerOf t 1 :: l.take 7

/-- A telegram dispatched to the Stranger List (R94). -/
def takeStranger (t : Telegram) (s : State) : State :=
  s.setTyre { s.tyre with strangers := strangersAfter t s.tyre.strangers }

/-! ## The move rule, learning (R97 to R99) -/

/-- A position made unassigned, with its data cleared (R99, R102). -/
def unassign (n : Nat) (s : State) : State := writePosition n PositionRec.empty s

/-- The move rule (R99): an ID about to be written into position `n` is taken out of any other position and out of the
Stranger List. -/
def takeOut (id n : Nat) (s : State) : State :=
  let s1 := allPositions.foldl (fun t m => if m ≠ n ∧ (positionOf t m).sensor = some id then unassign m t else t) s
  s1.setTyre { s1.tyre with strangers := withoutStranger id s1.tyre.strangers }

/-- A learn in progress ends with an outcome (R97, R98); the learned ID is present for a completed learn alone. -/
def endLearn (o : LearnOutcome) (id : Option Nat) (s : State) : State :=
  s.setTyre { s.tyre with learn := none, learnOutcome := some o, learnedId := id }

/-- A learn at a position is cancelled by a command that names it (R98). -/
def cancelLearnAt (n : Nat) (s : State) : State :=
  match s.tyre.learn with
  | none => s
  | some r => if r.position = n then raiseLearnOutcome (endLearn .cancelled none s) else s

/-- A position takes an ID with data of its own (R97, R101): its old data is cleared, then the new data fills it. The condition
is derived and handed on after each of the two (R90), so a severe reading in a position that held one is a new entry. -/
def fillPosition (n id : Nat) (dup : DupMemory) (d : TyreData) (s : State) : State :=
  writePosition n { sensor := some id, dup := some dup, data := some d }
    (writePosition n { sensor := some id, dup := none, data := none } s)

/-- A telegram completes the learn at position `n` (R97): the position's data is cleared and filled from the telegram, as from a
first telegram. -/
def completeLearn (n : Nat) (t : Telegram) (s : State) : State :=
  let s1 := takeOut t.sensor n s
  let s2 := fillPosition n t.sensor ⟨t.counter, 0⟩ (dataAfter none (positionTarget s1 n) t) s1
  raiseLearnOutcome (endLearn .completed (some t.sensor) s2)

/-! ## Intake (R83 to R85) -/

/-- The duplicate memory kept for an ID (R83): that of its position, or that of its Stranger List entry. -/
def dupMemory (s : State) (id : Nat) : Option DupMemory :=
  match holderOf s id with
  | some n => (positionOf s n).dup
  | none => (s.tyre.strangers.find? (fun e => e.sensor == id)).map (fun e => ⟨e.counter, e.counterAge⟩)

/-- Whether a telegram is a duplicate (R83). -/
def isDuplicate (s : State) (t : Telegram) : Bool :=
  match dupMemory s t.sensor with
  | none => false
  | some d => d.counter == t.counter && decide (d.age < 2000)

/-- Whether a window matches an ID (R84): enabled, and equal to the base wherever the mask holds a 1. -/
def windowMatches (ws : List Nat) (id w : Nat) : Bool :=
  calWindowEnabled ws w && ((id &&& calWindowMask ws w) == (calWindowBase ws w &&& calWindowMask ws w))

/-- Whether an ID is accepted (R84): a window matches, or no window is enabled. -/
def isAccepted (ws : List Nat) (id : Nat) : Bool :=
  [0, 1, 2, 3].any (windowMatches ws id) || !([0, 1, 2, 3].any (calWindowEnabled ws))

/-- The learning position a telegram completes, by case 1 of R85. -/
def learnTarget (s : State) (t : Telegram) : Option Nat :=
  match s.tyre.learn with
  | none => none
  | some r => if t.learn && (positionOf s r.position).sensor != some t.sensor then some r.position else none

/-- The dispatch of an accepted telegram (R85): the first case that applies. -/
def dispatchTelegram (t : Telegram) (s : State) : State :=
  match learnTarget s t with
  | some n => completeLearn n t s
  | none =>
    match holderOf s t.sensor with
    | some n => takeForPosition n t s
    | none => takeStranger t s

/-- A telegram as delivered (R82 to R85): a dropped one changes nothing. -/
def takeTelegram (bs : List Byte) (s : State) : State :=
  let t := telegramOf bs
  if telegramGood bs && !isDuplicate s t && isAccepted s.cal.active t.sensor then dispatchTelegram t s else s

/-! ## Commands on positions (R96, R100 to R102) -/

/-- A learn begins on a position (R96). -/
def beginLearn (n : Nat) (s : State) : State :=
  s.setTyre { s.tyre with learn := some ⟨n, 120000⟩, learnOutcome := none, learnedId := none }

/-- TYRE_ASSIGN of an ID the position does not hold (R100). -/
def assignSensor (n id : Nat) (s : State) : State :=
  writePosition n { sensor := some id, dup := none, data := none } (takeOut id n (cancelLearnAt n s))

/-- The data an adopted entry fills a position with (R101): critical, low and hot as at a first telegram; leak and
battery-low clear; the entry's age, stale if it is 600 s or more. -/
def adoptedData (target : Nat) (e : Stranger) : TyreData :=
  let p := compensated e.pMeas e.temperature
  { pMeas := e.pMeas, temperature := e.temperature, pComp := p, leak := false,
    critical := criticalNext p target false, low := lowNext p target false, hot := hotNext e.temperature false,
    ageMs := e.ageMs, stale := decide (600 ≤ e.ageMs / 1000), batteryLow := false }

/-- TYRE_ADOPT of a Stranger List entry into a position (R101). -/
def adoptStranger (n : Nat) (e : Stranger) (s : State) : State :=
  let s1 := takeOut e.sensor n (cancelLearnAt n s)
  fillPosition n e.sensor ⟨e.counter, e.counterAge⟩ (adoptedData (positionTarget s1 n) e) s1

/-- TYRE_CLEAR of a position (R102). -/
def clearPosition (n : Nat) (s : State) : State := unassign n (cancelLearnAt n s)

/-! ## Ageing (R92) -/

/-- Stale is set for a position whose age has reached 600 s. -/
def setStale (n : Nat) (s : State) : State :=
  match (positionOf s n).data with
  | none => s
  | some d => putPosition n { positionOf s n with data := some { d with stale := true } } s

end Sys2Proof.Machine
end

