-- ==== Sys2Proof/Machine/Load.lean ====
section
/-! DEFINITION. The Load Estimator (R58 to R74): axle loads from bag pressures, the effective-load filter, the lift axle, the
group load, the laden fraction and the load gain. -/

namespace Sys2Proof.Machine

/-- Axles 1, 2 and 3. -/
def allAxles : List Axle := [.ax1, .ax2, .ax3]

/-- The mean bag pressure (R60): present when both readings of the axle are valid. -/
def bagMean (s : State) (x : Axle) : Option Nat :=
  match s.front.bagLeft.get x, s.front.bagRight.get x with
  | some l, some r => some ((l + r) / 2)
  | some _, none => none
  | none, some _ => none
  | none, none => none

/-- A load on the segment from point `k` to point `k + 1`, the quotient rounded to nearest (R61). -/
def segmentLoad (ws : List Nat) (x : Axle) (k m : Nat) : Nat :=
  let width := calP ws x (k + 1) - calP ws x k
  calL ws x k + ((calL ws x (k + 1) - calL ws x k) * (m - calP ws x k) + width / 2) / width

/-- The instant load read from an axle's table (R61). -/
def tableLoad (ws : List Nat) (x : Axle) (m : Nat) : Nat :=
  if m ≤ calP ws x 0 then calL ws x 0
  else if calP ws x 4 ≤ m then calL ws x 4
  else if m < calP ws x 1 then segmentLoad ws x 0 m
  else if m < calP ws x 2 then segmentLoad ws x 1 m
  else if m < calP ws x 3 then segmentLoad ws x 2 m
  else segmentLoad ws x 3 m

/-- The instant load of an axle (R61, R63): L4 while its bag state is INVALID. -/
def instantLoad (ws : List Nat) (x : Axle) : Option Nat → Nat
  | none => calL ws x 4
  | some m => tableLoad ws x m

/-- The over-range field (R62). -/
def overRangeOf (ws : List Nat) (x : Axle) : Option Nat → Bool
  | none => false
  | some m => decide (calP ws x 4 < m)

/-- An axle record with mean, bag state, instant load and over-range formed from the latest bag readings (R60 to R63). -/
def measureAxle (s : State) (x : Axle) (r : AxleRec) : AxleRec :=
  let m := bagMean s x
  { r with mean := m, bagValid := m.isSome, instant := instantLoad s.cal.active x m,
           overRange := overRangeOf s.cal.active x m }

/-- Jump pending after a load update (R63); never set for a raised axle 3. -/
def jumpAfter (raised wasValid nowValid old : Bool) : Bool :=
  if nowValid || raised then false else if wasValid then true else old

/-- One step of the effective-load filter (R64): an eighth of the gap, at least one unit while the gap is not 0. -/
def filterStep (instant effective : Nat) : Nat :=
  let d : Int := (instant : Int) - (effective : Int)
  let q := d.tdiv 8
  let step : Int := if q = 0 then (if 0 < d then 1 else if d < 0 then -1 else 0) else q
  ((effective : Int) + step).toNat

/-- The effective load of a lowered axle after an update (R64 to R66): kept while frozen, jumped to the instant load while a
jump is pending, filtered otherwise. -/
def effectiveAfter (frozen : Bool) (r : AxleRec) : AxleRec :=
  if frozen then r
  else if r.jumpPending then { r with effective := r.instant, jumpPending := false }
  else { r with effective := filterStep r.instant r.effective }

/-- An axle record after a load update (R59, steps 1 to 3). DESIGN CHOICE (log entry 49): the bag state of "the previous load
update" (R63) is the one last written, so a lowering (R69) or an apply (R70) since then counts as that update. -/
def updateAxle (s : State) (frozen : Bool) (x : Axle) (r : AxleRec) : AxleRec :=
  let m := measureAxle s x r
  let j := { m with jumpPending := jumpAfter (axleRaised s x) r.bagValid m.bagValid r.jumpPending }
  if axleRaised s x then { j with effective := 0 } else effectiveAfter frozen j

/-- The laden fraction (R72). -/
def ladenFraction (ws : List Nat) (g : Nat) : Nat := min 1024 ((g - calU ws) * 1024 / (calF ws - calU ws))

/-- The load gain (R73). -/
def loadGain (ws : List Nat) (lambda : Nat) : Nat := calGEmpty ws + (1024 - calGEmpty ws) * lambda / 1024

/-- The sum of the three effective loads (R71). -/
def groupLoad (a : PerAxle AxleRec) : Nat := a.ax1.effective + a.ax2.effective + a.ax3.effective

/-- G, λ and g formed anew from the effective loads (R71 to R73). -/
def formGroup (ws : List Nat) (l : LoadTable) : LoadTable :=
  let g := groupLoad l.axle
  let lam := ladenFraction ws g
  { l with group := g, lambda := lam, gain := loadGain ws lam }

/-- G, λ and g are formed and handed on (R71 to R74): the Tyre Monitor re-forms targets and flags; every other consumer reads
the Load Table when it needs it. -/
def handOnLoads (s : State) : State := formTargets (s.setLoad (formGroup s.cal.active s.load))

/-- The filter is frozen while some channel's resolved setpoint is above 0 (R65). -/
def filterFrozen (s : State) : Bool := !setpointsZero s

/-- The axle records after a load update. -/
def updatedAxles (s : State) : PerAxle AxleRec :=
  ⟨updateAxle s (filterFrozen s) .ax1 s.load.axle.ax1, updateAxle s (filterFrozen s) .ax2 s.load.axle.ax2,
   updateAxle s (filterFrozen s) .ax3 s.load.axle.ax3⟩

/-- A load update (R59): axles, filter, group, handing on, and the EMERG level re-formed while the emergency is set (R16). -/
def loadUpdate (s : State) : State :=
  let s1 := handOnLoads (s.setLoad { s.load with axle := updatedAxles s, frozen := filterFrozen s, sinceUpdate := 0 })
  if s1.supply.emergency then forChannels postEmerg s1 else s1

/-! ## The lift axle (R67 to R69) and the calibration apply (R70) -/

/-- The raised state of axle 3 as the calibration and the lift-axle input give it (R67). -/
def raisedNow (s : State) : Bool := calLiftFitted s.cal.active && s.front.liftInput

/-- The consumers of a change of the raised state (R67): all channels are resolved, the rollover tyre flag is formed anew. -/
def handOnRaised (s : State) : State := formRollFlag (resolveAll s)

/-- Axle 3 becomes raised (R68). The new λ reaches the Tyre Monitor before the channels are resolved (log entry 50). -/
def raiseAxle (s : State) : State :=
  let r := s.load.axle.ax3
  handOnRaised (handOnLoads (s.setLoad { s.load with
    raised := true, axle := s.load.axle.set .ax3 { r with effective := 0, jumpPending := false } }))

/-- Axle 3 becomes lowered (R69). DESIGN CHOICE (log entry 50): R67, R69 and R74 do not order the handing on of λ against the
resolution of the channels; the model hands λ on and re-evaluates the tyres first, so a lowering that raises a setpoint from 0
latches the derate of the re-evaluated tyres. -/
def lowerAxle (s : State) : State :=
  let r := measureAxle s .ax3 s.load.axle.ax3
  handOnRaised (handOnLoads (s.setLoad { s.load with
    raised := false, axle := s.load.axle.set .ax3 { r with effective := r.instant, jumpPending := false } }))

/-- The raised field formed anew at a sample (R67). -/
def formRaised (s : State) : State :=
  if raisedNow s = s.load.raised then s else if raisedNow s then raiseAxle s else lowerAxle s

/-- An axle record after a calibration apply (R70). -/
def reloadAxle (s : State) (raised : Bool) (r : AxleRec) (x : Axle) : AxleRec :=
  let m := measureAxle s x r
  { m with effective := if raised && x == .ax3 then 0 else m.instant, jumpPending := false }

/-- The Load Estimator at a calibration apply (R70), the new words being in force. -/
def reloadLoads (s : State) : State :=
  let up := raisedNow s
  let a := s.load.axle
  let s1 := s.setLoad { s.load with
    raised := up,
    axle := ⟨reloadAxle s up a.ax1 .ax1, reloadAxle s up a.ax2 .ax2, reloadAxle s up a.ax3 .ax3⟩ }
  if up = s.load.raised then handOnLoads s1 else handOnRaised (handOnLoads s1)

end Sys2Proof.Machine
end

