-- ==== Sys2Proof/Machine/AntiLock.lean ====
section
/-! DEFINITION. The Wheel Speed Unit (R40 to R45) and the Anti-Lock Monitor (R46 to R56). -/

namespace Sys2Proof.Machine

/-! ## Wheel speeds -/

/-- A captured pulse (R40), `micros` microseconds into the present millisecond. The time since the previous pulse is the
pulse age plus what has passed of the present millisecond, at least 1 µs. -/
def pulseRec (micros : Nat) (w : WheelRec) : WheelRec :=
  let m := min 999 micros
  let elapsed := max 1 (w.age + m - w.edgeOffset)
  if elapsed < 200000 then { w with period := some elapsed, age := 0, edgeOffset := m }
  else { w with period := none, age := 0, edgeOffset := m }

/-- The wheel speed of a valid sensor (R41). -/
def speedOf (ws : List Nat) (w : WheelRec) : Nat :=
  match w.period with
  | none => 0
  | some p => if 200000 ≤ w.age then 0 else min 2000 (calCircumference ws * 36000 / (calTeeth ws * max p w.age))

/-- A wheel record with its timing cleared (R42). -/
def restartWheel (w : WheelRec) (valid : Bool) : WheelRec :=
  { w with period := none, age := 200000, speed := 0, valid := valid, edgeOffset := 0 }

/-- A wheel record at a pressure sample (R41, R42): an open circuit clears the timing; a circuit found closed again starts
from a cleared record, so that two further pulses are needed for a speed. -/
def sampleWheel (ws : List Nat) (closed : Bool) (w : WheelRec) : WheelRec :=
  if !closed then restartWheel w false
  else if !w.valid then restartWheel w true
  else { w with speed := speedOf ws w }

/-- The wheel speed as it counts for v_ref: 0 for an open sensor. -/
def countedSpeed (w : WheelRec) : Nat := if w.valid then w.speed else 0

/-- v_ref at a sample from the wheel records of that sample and the previous v_ref (R43). -/
def vrefOf (w : PerChannel WheelRec) (previous : Nat) : Nat :=
  if w.ch0.valid || w.ch1.valid || w.ch2.valid || w.ch3.valid then
    max (max (max (countedSpeed w.ch0) (countedSpeed w.ch1)) (max (countedSpeed w.ch2) (countedSpeed w.ch3))) (previous - 4)
  else 0

/-- The gating speed (R44). -/
def gatingOf (w : PerChannel WheelRec) (vref : Nat) (d : DriverRec) : Nat :=
  if w.ch0.valid || w.ch1.valid || w.ch2.valid || w.ch3.valid then vref
  else
    match d.tractorSpeed, d.tractorAge with
    | some v, some a => if a < 100 then v else 0
    | some _, none => 0
    | none, some _ => 0
    | none, none => 0

/-- The wheel records at a sample. -/
def sampledWheels (s : State) (closed : PerChannel Bool) : PerChannel WheelRec :=
  let ws := s.cal.active
  let w := s.wheels.wheel
  ⟨sampleWheel ws closed.ch0 w.ch0, sampleWheel ws closed.ch1 w.ch1, sampleWheel ws closed.ch2 w.ch2,
   sampleWheel ws closed.ch3 w.ch3⟩

/-- The Wheel Speed Unit at a pressure sample (R41 to R45). -/
def sampleWheels (closed : PerChannel Bool) (s : State) : State :=
  let w := sampledWheels s closed
  let v := vrefOf w s.wheels.vref
  s.setWheels { wheel := w, vref := v, gating := gatingOf w v s.driver }

/-! ## Slip and watching -/

/-- The slip of a channel (R47). -/
def slipOf (vref : Nat) (w : WheelRec) : Option Nat :=
  if !w.valid then none else if vref < 50 then some 0 else some ((vref - w.speed) * 1024 / vref)

/-- The slip of a channel is formed (R47). -/
def formSlip (c : Channel) (s : State) : State :=
  s.setSkid (s.skid.set c { s.skid.get c with slip := slipOf s.wheels.vref (s.wheels.wheel.get c) })

/-- Whether a channel is held by a rollover probe (R56). -/
def heldByProbe (s : State) (c : Channel) : Bool := s.roll.stage.probed == some (channelSide c)

/-- Whether a channel is watched (R48). -/
def watched (s : State) (c : Channel) : Bool :=
  electronic s c && (s.wheels.wheel.get c).valid && (s.front.delivery.get c).isSome && !(s.skid.get c).disabled &&
  !heldByProbe s c

/-- The largest APPLY level handed by the channel's last resolution (R38, R49). -/
def lastApply (s : State) (c : Channel) : Nat := (s.demand.summary.get c).largestApply

/-- The slip last formed of a channel; an absent slip counts as 0, so it meets no slip condition. -/
def slipLevel (s : State) (c : Channel) : Nat := (s.skid.get c).slip.getD 0

/-! ## Transitions of the skid cycle -/

/-- The SKID entry of a skid state (R46). -/
def skidEntry (k : SkidState) (level : Nat) : Entry := { level := level, lifetime := none, detail := some (.skid k) }

/-- A channel enters RELEASE (R49, R52): level 0, held level absent, timer 0. -/
def enterRelease (c : Channel) (s : State) : State :=
  post c .skid (skidEntry .release 0)
    (s.setSkid (s.skid.set c { s.skid.get c with state := .release, held := none, timer := 0, stepDue := false }))

/-- The pressure a hold is taken at (R50): the delivery reading limited to 1000 kPa. -/
def holdLevel (s : State) (c : Channel) : Nat := min 1000 ((s.front.delivery.get c).getD 0)

/-- A channel enters HOLD with a forced-hold count (R50). -/
def enterHold (count : Nat) (c : Channel) (s : State) : State :=
  post c .skid (skidEntry .hold (holdLevel s c))
    (s.setSkid (s.skid.set c { s.skid.get c with
      state := .hold, held := some (holdLevel s c), timer := 0, forcedCount := count, stepDue := false }))

/-- A channel enters REAPPLY, or takes a step in it, at a held level (R51, R52). -/
def enterReapply (level : Nat) (c : Channel) (s : State) : State :=
  post c .skid (skidEntry .reapply level)
    (s.setSkid (s.skid.set c { s.skid.get c with state := .reapply, held := some level, timer := 0, stepDue := false }))

/-- Whether the cycle of a watched channel ends outside the order of the steps (R53). -/
def cycleEnds (s : State) (c : Channel) : Bool :=
  let k := s.skid.get c
  decide (lastApply s c = 0) ||
    match k.held with
    | none => false
    | some h => decide (lastApply s c ≤ h)

/-- One more sample in a skid state: its timer grows by 10 ms, saturating at 600. -/
def skidTick (c : Channel) (s : State) : State :=
  s.setSkid (s.skid.set c { s.skid.get c with timer := min 600 ((s.skid.get c).timer + 10) })

/-- No transition was taken at this sample: a step whose timer is complete is due. -/
def markStep (c : Channel) (s : State) : State := s.setSkid (s.skid.set c { s.skid.get c with stepDue := true })

/-- The step of a watched channel at a pressure sample, but for the transitions that a timer alone gives (R49 to R53). The
cycle ends of R53 are tested first. DESIGN CHOICE (log entry 48): in FREE the state timer stays 0; R46 calls it the time in
the present state, and R49 gives FREE no growth. -/
def stepWatched (c : Channel) (s : State) : State :=
  match (s.skid.get c).state with
  | .free =>
    if 205 ≤ slipLevel s c ∧ 50 ≤ s.wheels.vref ∧ 0 < lastApply s c then queueEvent (enterRelease c s) else s
  | .release =>
    let t := skidTick c s
    if cycleEnds s c then freeSkid c s else if slipLevel s c < 102 then enterHold 0 c t else markStep c t
  | .hold =>
    let t := skidTick c s
    if cycleEnds s c then freeSkid c s
    else if slipLevel s c < 51 then enterReapply (((s.skid.get c).held).getD 0) c t
    else markStep c t
  | .reapply =>
    let t := skidTick c s
    if cycleEnds s c then freeSkid c s else if 205 ≤ slipLevel s c then enterRelease c t else markStep c t

/-- The Anti-Lock Monitor's step of a channel at a sample (R48): a channel not watched returns to FREE. -/
def skidSample (c : Channel) (s : State) : State := if watched s c then stepWatched c s else freeSkid c s

/-- Anti-lock is disabled on a channel (R54): the cycle is dropped, and the disabling queues its own event frame. -/
def disableAntiLock (c : Channel) (s : State) : State :=
  queueEvent (freeSkid c (s.setSkid (s.skid.set c { s.skid.get c with forcedCount := 3, disabled := true })))

/-- A forced hold (R50): the count increases by 1; below 3 the channel enters HOLD, at 3 anti-lock is disabled. -/
def forcedHold (c : Channel) (s : State) : State :=
  let n := (s.skid.get c).forcedCount + 1
  if n < 3 then enterHold n c s else disableAntiLock c s

/-- A reapply step (R52): the cycle ends where the stepped level is at or above the largest APPLY level. -/
def reapplyStep (c : Channel) (s : State) : State :=
  let level := ((s.skid.get c).held).getD 0 + 20
  if lastApply s c ≤ level then freeSkid c s else enterReapply level c s

/-- Whether a step of a channel in skid state `k` whose timer must reach `t` is due (R50 to R52). -/
def skidDue (k : SkidState) (t : Nat) (s : State) (c : Channel) : Bool :=
  let r := s.skid.get c
  r.stepDue && (r.state == k) && decide (t ≤ r.timer)

/-- RESTORE re-enables anti-lock (R55). DESIGN CHOICE (log entry 59): a watched channel in mid-cycle keeps its skid state, held level
and SKID entry, since R7 has RESTORE do no more than re-enable; R55 has the next sample start from FREE, which is so of a channel
that was disabled. -/
def reenableAntiLock (c : Channel) (s : State) : State :=
  s.setSkid (s.skid.set c { s.skid.get c with forcedCount := 0, disabled := false })

end Sys2Proof.Machine
end

