-- ==== Sys2Proof/Machine/Rollover.lean ====
section
/-! DEFINITION. The Rollover Monitor: the inertial record (R106, R107), the indicators and the sides (R108 to R112), the stages
(R113 to R123). -/

namespace Sys2Proof.Machine

/-! ## The inertial line -/

/-- The lateral acceleration of a sample's bytes (R183). -/
def sampleAccel (bs : List Byte) : Int := signedWordAt bs 0

/-- The counter of a sample's bytes: bits 0 to 3 of byte 2 (R183). -/
def sampleCounter (bs : List Byte) : Nat := byteAt bs 2 % 16

/-- Whether an inertial sample is good (R106): four bytes, a matching CRC-8, an acceleration in range, a counter that differs
from the last one. -/
def inertialGood (r : InertialRec) (bs : List Byte) : Bool :=
  decide (bs.length = 4) && decide (bs.getD 3 0#8 = crc8 (bs.take 3)) &&
  decide (-1500 ≤ sampleAccel bs) && decide (sampleAccel bs ≤ 1500) && decide (r.counter ≠ some (sampleCounter bs))

/-- An inertial sample is taken (R106): a bad one changes no field. -/
def takeInertial (bs : List Byte) (s : State) : State :=
  if inertialGood s.roll.inertial bs then
    s.setRoll { s.roll with inertial :=
      { accel := some (sampleAccel bs), counter := some (sampleCounter bs), age := some 0, available := true } }
  else s

/-! ## Indicators (R108 to R111) -/

/-- The readings of one side's bags on the lowered axles (R108). -/
def loweredBags (s : State) (bags : PerAxle Reading) : List Reading :=
  if s.load.raised then [bags.ax1, bags.ax2] else [bags.ax1, bags.ax2, bags.ax3]

/-- The sum of bag readings. DESIGN CHOICE (log entry 52): an invalid reading counts as 0; R108 and R111 do not say what the sums
show where a counted bag is invalid. -/
def bagSum : List Reading → Nat
  | [] => 0
  | r :: rs => r.getD 0 + bagSum rs

/-- The load transfer ratio (R108): absent while a bag of a lowered axle is invalid, 0 where every counted bag reads 0. -/
def ltrOf (s : State) : Option Int :=
  let l := loweredBags s s.front.bagLeft
  let r := loweredBags s s.front.bagRight
  if (l ++ r).any Option.isNone then none
  else
    let sl : Int := bagSum l
    let sr : Int := bagSum r
    some (if sr + sl = 0 then 0 else ((sr - sl) * 1024).tdiv (sr + sl))

/-- The acceleration threshold before the tyre reduction (R109). -/
def thresholdOf (ws : List Nat) (lambda : Nat) : Nat := calAEmpty ws - (calAEmpty ws - calALaden ws) * lambda / 1024

/-- a_y (R107): the last acceleration while the acceleration indicator is available. -/
def lateral (r : InertialRec) : Option Int := if accelAvailable r then r.accel else none

/-- The larger of the available risk figures, limited to 2047 (R110). -/
def riskIndex : Option Nat → Option Nat → Option Nat
  | none, none => none
  | some a, none => some (min 2047 a)
  | none, some b => some (min 2047 b)
  | some a, some b => some (min 2047 (max a b))

/-- The indicator record of a sample (R108 to R111). -/
def indicatorsOf (s : State) : IndicatorRec :=
  let ws := s.cal.active
  let thr := thresholdOf ws s.load.lambda
  let used := if s.tyre.rollFlag then thr - thr / 8 else thr
  let ay := lateral s.roll.inertial
  let ltr := ltrOf s
  let ra := ay.map (fun a => a.natAbs * 1024 / used)
  let rt := ltr.map (fun t => t.natAbs * 1024 / calLtrLim ws)
  { ay := ay, sumLeft := bagSum (loweredBags s s.front.bagLeft), sumRight := bagSum (loweredBags s s.front.bagRight),
    ltr := ltr, thrBefore := thr, thrUsed := used, tyreReduced := s.tyre.rollFlag, riskAccel := ra, riskLtr := rt,
    risk := riskIndex ra rt, gating := s.wheels.gating }

/-- The side that a sign points to: positive LEFT, negative RIGHT; none for 0 or an absent value (R112). -/
def signSide : Option Int → Option Side
  | none => none
  | some a => if 0 < a then some .left else if a < 0 then some .right else none

/-- The inner side (R112): by a_y, else by LTR, else as it was. -/
def innerOf (i : IndicatorRec) (previous : Side) : Side :=
  match signSide i.ay with
  | some x => x
  | none => (signSide i.ltr).getD previous

/-- The indicators and the inner side are formed (R108 to R112). -/
def formIndicators (s : State) : State :=
  let i := indicatorsOf s
  s.setRoll { s.roll with indicator := i, inner := innerOf i s.roll.inner }

/-! ## Stage transitions -/

/-- R of the last sample at which it was formed, 0 where it is absent. -/
def riskNow (s : State) : Nat := s.roll.indicator.risk.getD 0

/-- Whether a channel lies on a side. -/
def onSide (x : Side) (c : Channel) : Bool := channelSide c == x

/-- The stage record replaced. -/
def setStage (r : StageRec) (s : State) : State := s.setRoll { s.roll with stage := r }

/-- The Test Pulse Generator is given back by the probe, if it holds it (R129). -/
def freeGenerator (s : State) : State :=
  match s.tests.holder with
  | .probe => s.setTests { s.tests with holder := .free }
  | .free => s
  | .test _ => s

/-- A ROLL entry of a level and a stage (R116, R119, R121). -/
def rollEntry (g : Stage) (level : Nat) : Entry := { level := level, lifetime := none, detail := some (.stage g) }

/-- A channel's ROLL level is recorded and its ROLL entry posted. -/
def postRoll (g : Stage) (level : Nat) (c : Channel) (s : State) : State :=
  let r := s.roll.stage
  post c .roll (rollEntry g level) (setStage { r with level := r.level.set c (some level) } s)

/-- Every ROLL entry is withdrawn and every ROLL level made absent (R122). -/
def withdrawRoll (s : State) : State :=
  forChannels (fun c t => withdraw c .roll t) (setStage { s.roll.stage with level := .const none } s)

/-- The stage passes to OFF (R114). -/
def stageOff (s : State) : State :=
  let s1 := setStage { s.roll.stage with
    stage := .off, probed := none, probeTimer := 0, minTimer := 0, ramp := 0, calm := none } s
  queueEvent (withdrawRoll (freeGenerator s1))

/-- The stage passes to another that posts nothing and starts no timer: OFF to QUIET (R114), QUIET to WATCH and WATCH to
QUIET (R115). The calm timer is made absent. -/
def plainStage (g : Stage) (s : State) : State :=
  queueEvent (setStage { s.roll.stage with stage := g, calm := none } s)

/-- A channel under the probe: held at FREE and given the probe pressure (R56, R116). -/
def probeChannel (c : Channel) (s : State) : State :=
  if onSide s.roll.inner c then postRoll .probe (calProbe s.cal.active) c (freeSkid c s) else s

/-- The stage enters PROBE (R116): a running test is aborted, the generator taken, the inner channels held and given the probe
pressure. -/
def enterProbe (s : State) : State :=
  let s1 := abortRunning .rollover s
  let s2 := s1.setTests { s1.tests with holder := .probe }
  let s3 := setStage { s2.roll.stage with
    stage := .probe, probed := some s2.roll.inner, probeTimer := 0, calm := none } s2
  queueEvent (forChannels probeChannel s3)

/-- The stage passes from PROBE to WATCH (R117, R118). -/
def probeToWatch (s : State) : State :=
  let s1 := setStage { s.roll.stage with
    stage := .watch, probed := none, probeTimer := 0, holdOff := 1000, calm := none } s
  queueEvent (withdrawRoll (freeGenerator s1))

/-- The ROLL level of a channel in INTERVENE (R119, R120): I on the outer channels, I / 2 on the inner ones. -/
def interveneLevel (s : State) (c : Channel) : Nat :=
  if onSide s.roll.inner c then calIntervene s.cal.active / 2 else calIntervene s.cal.active

/-- The stage enters INTERVENE (R119). -/
def enterIntervene (s : State) : State :=
  let s1 := setStage { s.roll.stage with
    stage := .intervene, probed := none, probeTimer := 0, minTimer := 0, ramp := 0, calm := none } s
  queueEvent (forChannels (fun c t => postRoll .intervene (interveneLevel t c) c t) (freeGenerator s1))

/-- In INTERVENE a channel whose level differs from that of the present inner side is posted again (R120). -/
def followSide (c : Channel) (s : State) : State :=
  if s.roll.stage.level.get c = some (interveneLevel s c) then s else postRoll .intervene (interveneLevel s c) c s

/-- The stage enters RECOVER (R121): the present levels are posted again with detail RECOVER. -/
def enterRecover (s : State) : State :=
  let s1 := setStage { s.roll.stage with stage := .recover, ramp := 0, calm := none } s
  queueEvent (forChannels (fun c t => postRoll .recover ((t.roll.stage.level.get c).getD 0) c t) s1)

/-- One channel's part of a RECOVER step (R121): its level falls by 50 kPa, with a floor of 0; a level that is 0 stays. -/
def lowerRoll (c : Channel) (s : State) : State :=
  let l := (s.roll.stage.level.get c).getD 0
  if l = 0 then s else postRoll .recover (l - 50) c s

/-- Whether every ROLL level has come down to 0. -/
def rollDone (s : State) : Bool := allChannels.all (fun c => decide ((s.roll.stage.level.get c).getD 0 = 0))

/-- A RECOVER step and, where it leaves all four levels at 0, the end of the recovery (R121). -/
def stepRecover (s : State) : State :=
  let s1 := forChannels lowerRoll (setStage { s.roll.stage with ramp := 0 } s)
  if rollDone s1 then
    queueEvent (withdrawRoll (setStage { s1.roll.stage with
      stage := if 716 ≤ riskNow s1 then .watch else .quiet, calm := none } s1))
  else s1

/-! ## The stage machine at a sample (R113 to R121) -/

/-- Whether a channel belongs to a lowered axle for the slip tests (R115, R117). -/
def onLowered (s : State) (c : Channel) : Bool := !raisedChannel s c

/-- Whether a channel shows wheel lift: a slip of 307 or more; an absent slip shows none (R115, R117). -/
def shows307 (s : State) (c : Channel) : Bool := decide (307 ≤ slipLevel s c)

/-- R is 1024 or above and the gating speed is 200 or above (R115, R117, R121). -/
def riskAtLimit (s : State) : Bool := decide (1024 ≤ riskNow s) && decide (200 ≤ s.wheels.gating)

/-- Test 2 of R115: a braked inner wheel of a lowered axle slips as a lifted one. -/
def brakedLift (s : State) : Bool :=
  decide (870 ≤ riskNow s) && decide (200 ≤ s.wheels.gating) &&
  allChannels.any (fun c => onSide s.roll.inner c && onLowered s c && decide (50 ≤ driverEntryLevel s c) && shows307 s c)

/-- Test 3 of R115: a probe may start. -/
def mayProbe (s : State) : Bool :=
  decide (870 ≤ riskNow s) && decide (200 ≤ s.wheels.gating) && decide (s.roll.stage.holdOff = 0) &&
  allChannels.all (fun c => !onSide s.roll.inner c || (electronic s c && decide (driverEntryLevel s c < 50)))

/-- Whether a channel is one of the probed ones. -/
def isProbed (s : State) (c : Channel) : Bool := heldByProbe s c

/-- Test 1 of R117: a probed channel of a lowered axle shows lift. -/
def probeLift (s : State) : Bool := allChannels.any (fun c => isProbed s c && onLowered s c && shows307 s c)

/-- Test 3 of R117, but for the time: the probe can no longer tell lift. -/
def probeSpoiled (s : State) : Bool :=
  decide (s.wheels.gating < 200) || decide (riskNow s < 614) || !(s.roll.stage.probed == some s.roll.inner) ||
  allChannels.any (fun c => isProbed s c && (!electronic s c || decide (50 ≤ driverEntryLevel s c)))

/-- The calm timer at a sample in WATCH or INTERVENE (R113). -/
def calmAfter (s : State) : Run := runSample 500 (decide (riskNow s < 614)) s.roll.stage.calm

/-- The tests of the present stage, but for those that a timer alone meets (R115, R117, R120, R121). -/
def stageTests (s : State) : State :=
  let r := s.roll.stage
  match r.stage with
  | .off => plainStage .quiet s
  | .quiet => if 716 ≤ riskNow s then plainStage .watch s else s
  | .watch =>
    let t := setStage { r with calm := calmAfter s } s
    if riskAtLimit s then enterIntervene t
    else if brakedLift s then enterIntervene t
    else if mayProbe s then enterProbe t
    else t
  | .probe =>
    let t := setStage { r with probeTimer := min 300 (r.probeTimer + 10) } s
    if probeLift s then enterIntervene t
    else if riskAtLimit s then enterIntervene t
    else if probeSpoiled s then probeToWatch t
    else t
  | .intervene =>
    forChannels followSide (setStage { r with minTimer := min 500 (r.minTimer + 10), calm := calmAfter s } s)
  | .recover =>
    if riskAtLimit s then enterIntervene s else setStage { r with ramp := min 100 (r.ramp + 10) } s

/-- The stage machine at a sample in RUNNING (R113, R114): the OFF test first, then the tests of the stage. -/
def stageSample (s : State) : State :=
  let blocked := !calRollEnabled s.cal.active || s.roll.indicator.risk.isNone
  if blocked then (if s.roll.stage.stage = .off then s else stageOff s) else stageTests s

/-- The hold-off falls by 10 ms at every sample (R118). -/
def fallHoldOff (s : State) : State := setStage { s.roll.stage with holdOff := s.roll.stage.holdOff - 10 } s

/-- The Rollover Monitor at a pressure sample (R113, R118, R123). -/
def sampleRollover (s : State) : State :=
  let s1 := fallHoldOff s
  match s1.standby.opState with
  | .parked => s1
  | .starting => formIndicators s1
  | .running => stageSample (formIndicators s1)

/-- The remaining conditions of R120 for leaving INTERVENE. -/
def interveneOver (s : State) : Bool :=
  let r := s.roll.stage
  decide (500 ≤ r.minTimer) && (decide (500 ≤ runMs r.calm) || decide (s.wheels.gating < 200))

end Sys2Proof.Machine
end

