-- ==== Sys2Proof/Machine/Records.lean ====
section
/-! DEFINITION. The records of the READ tables (R167), each a list of bytes in the form of R180: fields in the order of the rule
that defines the record, each in the fewest whole bytes. A list of varying length fills its unused places with 0xFF. -/

namespace Sys2Proof.Machine

/-- The reader of a table: a port, or the towing vehicle with view U (R167). -/
abbrev Reader := View

/-- The channel of a number 0..3. -/
def channelAt (n : Nat) : Channel :=
  match n with
  | 0 => .ch0
  | 1 => .ch1
  | 2 => .ch2
  | _ => .ch3

/-- The cause set as one byte, in the order of R1 (log entry 32). -/
def causeBits (k : CauseSet) : Nat :=
  maskOf [k.startup, k.noDemandSource, k.parked, k.forced, k.tracking, k.deliverySensor, k.testFault]

/-- CHANNEL (R1, R57): the channel record, the wheel record, slip, the skid record, v_ref and the gating speed. -/
def channelRecord (s : State) (c : Channel) : List Byte :=
  let r := channelOf s c
  let w := s.wheels.wheel.get c
  let k := s.skid.get c
  field8 (if r.causes.isEmpty then 0 else 1) ++ field8 (causeBits r.causes) ++ bytes16 r.setpoint ++
  optField16 (s.front.delivery.get c) ++ field8 (controlStateCode r.controlState) ++ optField8 r.volumeClass ++
  bytes16 (runMs r.tracking) ++ setField r.supplyLimited ++
  optField24 w.period ++ bytes24 w.age ++ bytes16 w.speed ++ field8 (if w.valid then 0 else 1) ++
  optField16 k.slip ++
  field8 (skidStateCode k.state) ++ optField16 k.held ++ bytes16 k.timer ++ optField16 k.slip ++
  field8 k.forcedCount ++ setField k.disabled ++
  bytes16 s.wheels.vref ++ bytes16 s.wheels.gating

/-- The sources in the order of R27. -/
def sourceAt (n : Nat) : Source :=
  match n with
  | 0 => .driver
  | 1 => .ctrlA
  | 2 => .ctrlB
  | 3 => .emerg
  | 4 => .roll
  | _ => .skid

/-- A Demand Table entry as a record (R27): present flag; if present, mode, level, remaining lifetime and detail. -/
def entryRecord (k : Source) : Option Entry → List Byte
  | none => yesField false
  | some e =>
    yesField true ++ field8 (if k.isApply then 0 else 1) ++ bytes16 e.level ++ optField16 e.lifetime ++
    optField8 (e.detail.map detailCode)

/-- The Driver Demand record (R28). LINK present has the values true, false in that order. -/
def driverRecord (d : DriverRec) : List Byte :=
  optField16 d.linkLevel ++ preField16 d.linkAge ++ setField d.linkPresent ++ optField16 d.lineLevel ++
  setField d.mismatch ++ bytes16 (runMs d.onset) ++ bytes16 (runMs d.recovery) ++ bytes16 d.demand ++
  optField16 d.tractorSpeed ++ preField16 d.tractorAge ++ setField d.tractorAntiLock

/-- A resolution summary (R27). -/
def summaryRecord (m : Summary) : List Byte :=
  bytes16 m.largestApply ++ bytes16 m.smallestLimit ++ bytes16 m.cap ++ bytes16 m.derate ++ setField m.raised

/-- DEMAND (R27). -/
def demandRecord (s : State) (i : Nat) : Option (List Byte) :=
  if i < 24 then some (entryRecord (sourceAt (i % 6)) (entryOf s (channelAt (i / 6)) (sourceAt (i % 6))))
  else if i = 24 then some (driverRecord s.driver)
  else if i ≤ 28 then some (summaryRecord (s.demand.summary.get (channelAt (i - 25))))
  else none

/-- An axle record of the LOAD table (R81). -/
def axleRecord (s : State) (x : Axle) : List Byte :=
  let r := s.load.axle.get x
  optField16 (s.front.bagLeft.get x) ++ optField16 (s.front.bagRight.get x) ++ optField16 r.mean ++
  field8 (if r.bagValid then 0 else 1) ++ bytes16 r.instant ++ bytes16 r.effective ++ setField r.jumpPending ++
  setField r.overRange

/-- The first position of a channel in CRITICAL or LEAK (R81). -/
def firstSevere (s : State) (c : Channel) : Option Nat :=
  allPositions.find? (fun n => positionChannel n == c && isSevere (positionCondition s n))

/-- LOAD (R81). DESIGN CHOICE (log entry 60): the current derate, for which R58 lists the values 768 and 1024, is sent as a number of
two bytes, not as a one-of-several field (R180). -/
def loadRecord (s : State) (i : Nat) : Option (List Byte) :=
  match i with
  | 0 => some (axleRecord s .ax1)
  | 1 => some (axleRecord s .ax2)
  | 2 => some (axleRecord s .ax3 ++ setField s.load.raised)
  | 3 =>
    some (bytes16 s.load.group ++ bytes16 s.load.lambda ++ bytes16 s.load.gain ++ setField s.load.frozen ++
      field8 (calKnee s.cal.active) ++ bytes16 (calGEmpty s.cal.active) ++ bytes16 s.cal.generation)
  | _ =>
    if i ≤ 7 then some (bytes16 (s.load.derate.get (channelAt (i - 4))) ++ optField8 (firstSevere s (channelAt (i - 4))))
    else none

/-- A position record of the TYRE table (R86, R105), with its channel and the target of its axle. -/
def positionRecord (s : State) (n : Nat) : List Byte :=
  let r := positionOf s n
  let flag (f : TyreData → Bool) : Bool := (r.data.map f).getD false
  preField32 r.sensor ++ optField8 (r.dup.map DupMemory.counter) ++ optField16 (r.dup.map DupMemory.age) ++
  optField16 (r.data.map TyreData.pMeas) ++ preFieldS8 (r.data.map TyreData.temperature) ++
  optField16 (r.data.map TyreData.pComp) ++
  setField (flag TyreData.leak) ++ setField (flag TyreData.critical) ++ setField (flag TyreData.low) ++
  setField (flag TyreData.hot) ++
  optField8 ((recCondition r).map conditionCode) ++ preField16 (r.data.map (fun d => d.ageMs / 1000)) ++
  setField (flag TyreData.stale) ++ setField (flag TyreData.batteryLow) ++
  setField (s.tyre.learn.map LearnRun.position == some n) ++
  field8 (channelNumber (positionChannel n)) ++ bytes16 (positionTarget s n)

/-- The remaining time of a learn in whole seconds, a started second counting whole (R96). -/
def learnSeconds (r : LearnRun) : Nat := (r.remaining + 999) / 1000

/-- The learn record and the axle targets (R96, R105). -/
def learnRecord (s : State) : List Byte :=
  field8 (if s.tyre.learn.isSome then 1 else 0) ++ optField8 (s.tyre.learn.map LearnRun.position) ++
  optField8 (s.tyre.learn.map learnSeconds) ++ optField8 (s.tyre.learnOutcome.map learnOutcomeCode) ++
  preField32 s.tyre.learnedId ++
  bytes16 s.tyre.target.ax1 ++ bytes16 s.tyre.target.ax2 ++ bytes16 s.tyre.target.ax3

/-- The number of positions with a property. -/
def countPositions (s : State) (f : PositionRec → Bool) : Nat := allPositions.countP (fun n => f (positionOf s n))

/-- Whether a position record is stale. -/
def recStale (r : PositionRec) : Bool := (r.data.map TyreData.stale).getD false

/-- TYRE (R105). DESIGN CHOICE (log entry 51): the worst condition of index 13 is numbered in the order of R86, NORMAL 0 to LEAK 4;
R104 lists the same values the other way round. -/
def tyreRecord (s : State) (i : Nat) : Option (List Byte) :=
  if i < 12 then some (positionRecord s (i + 1))
  else if i = 12 then some (learnRecord s)
  else if i = 13 then
    some (optField8 (s.tyre.worst.map (fun w => conditionCode w.1)) ++ optField8 (s.tyre.worst.map Prod.snd) ++
      setField s.tyre.rollFlag ++ field8 (countPositions s (fun r => r.sensor.isSome)) ++
      field8 (countPositions s recStale))
  else none

/-- An entry of the Stranger List (R93, R105). -/
def strangerRecord : Option Stranger → List Byte
  | none => yesField false
  | some e =>
    yesField true ++ bytes32 e.sensor ++ bytes16 e.pMeas ++ bytesS8 e.temperature ++ field8 e.counter ++
    bytes16 e.counterAge ++ field8 e.hits ++ bytes16 (e.ageMs / 1000)

/-- STRANGER (R105). -/
def strangersRecord (s : State) (i : Nat) : Option (List Byte) :=
  if i < 8 then some (strangerRecord s.tyre.strangers[i]?)
  else if i = 8 then some (field8 s.tyre.strangers.length)
  else none

/-- ROLL (R124). -/
def rollRecord (s : State) (i : Nat) : Option (List Byte) :=
  let r := s.roll.stage
  let n := s.roll.indicator
  let e := s.roll.inertial
  match i with
  | 0 =>
    some (field8 (stageCode r.stage) ++ optField8 (r.probed.map sideCode) ++ bytes16 r.probeTimer ++ bytes16 r.holdOff ++
      bytes16 r.minTimer ++ optField16 r.calm ++ field8 r.ramp ++ optField16 r.level.ch0 ++ optField16 r.level.ch1 ++
      optField16 r.level.ch2 ++ optField16 r.level.ch3 ++ field8 (sideCode s.roll.inner) ++
      setField (calRollEnabled s.cal.active))
  | 1 =>
    some (preFieldS16 n.ay ++ bytes16 n.sumLeft ++ bytes16 n.sumRight ++ preFieldS16 n.ltr ++ bytes16 n.thrBefore ++
      bytes16 n.thrUsed ++ setField n.tyreReduced ++ optField16 n.riskAccel ++ optField16 n.riskLtr ++
      optField16 n.risk ++ bytes16 n.gating)
  | 2 => some (preFieldS16 e.accel ++ optField8 e.counter ++ optField8 e.age ++ yesField (accelAvailable e))
  | _ => none

/-- Three credit fields, absent together. -/
def creditsRecord : Option Credits → List Byte
  | none => [0xFF#8, 0xFF#8, 0xFF#8]
  | some k => field8 k.demand ++ field8 k.status ++ field8 k.service

/-- A port record of the Tow Link (R135). -/
def portRecord (r : PortRec) : List Byte :=
  field8 (linkStateCode r.state) ++ bytes16 r.holdOff ++ setField r.errorHoldOff ++ field8 r.settleTimer ++
  optField8 (r.attempt.map Attempt.number) ++ optField16 (r.attempt.map Attempt.timer) ++ setField r.heard ++
  creditsRecord r.partner ++ creditsRecord (some r.credits) ++ creditsRecord (some r.occupied) ++
  creditsRecord (some r.owed) ++ field8 r.errorCount ++ optField8 (r.lastDrop.map dropCauseCode)

/-- The frame of an item of the STATUS queue. -/
def itemFrame : StatusItem → LinkFrame
  | .forwarded f => f
  | .periodic f => f
  | .event _ f => f

/-- Origin and report type of a queued status frame (R152). -/
def itemRecord (x : StatusItem) : List Byte := field8 (itemFrame x).origin ++ field8 (byteAt (itemFrame x).payload 0)

/-- Bytes filled up to a size with 0xFF: the unused places of a list. -/
def padTo (n : Nat) (bs : List Byte) : List Byte := bs ++ List.replicate (n - bs.length) 0xFF#8

/-- LINK (R152). -/
def linkRecord (s : State) (i : Nat) : Option (List Byte) :=
  match i with
  | 0 => some (portRecord s.link.up ++ field8 (enableCode s.link.enable) ++ setField s.link.positionFault)
  | 1 => some (portRecord s.link.down)
  | 2 =>
    some (optField8 s.link.ownPosition ++ padTo 12 (s.link.statusQueue.flatMap itemRecord) ++
      field8 s.link.upService.length ++ field8 s.link.downService.length ++ yesField s.link.demandSlot.isSome)
  | _ => none

/-- A result record with its channel's leak mark (R134). -/
def resultRecord (s : State) (c : Channel) : List Byte :=
  let r := s.tests.result.get c
  optField8 (r.outcome.map testOutcomeCode) ++ optField8 (r.cause.map testCauseCode) ++ optField8 r.t50 ++
  bytes16 r.pEnd ++ bytes16 r.pHold ++ optField8 r.volumeClass ++ optField8 (r.port.map portCode) ++
  setField (s.tests.leakMark.get c)

/-- An entry of the Test Queue (R134). -/
def requestRecord (q : TestRequest) : List Byte := field8 (channelNumber q.channel) ++ field8 (portCode q.port)

/-- The generator holder, with the running-test record while a test holds it (R134). -/
def holderRecord : Holder → List Byte
  | .free => field8 0
  | .test t =>
    field8 1 ++ field8 (channelNumber t.channel) ++ field8 (portCode t.port) ++ field8 (phaseCode t.phase) ++
    bytes16 t.timer ++ optField8 t.t50
  | .probe => field8 2

/-- TEST (R134). -/
def testRecord (s : State) (i : Nat) : Option (List Byte) :=
  if i < 4 then some (resultRecord s (channelAt i))
  else if i = 4 then
    some (padTo 8 (s.tests.queue.flatMap requestRecord) ++ field8 s.tests.queue.length ++ bytes16 s.tests.headWait)
  else if i = 5 then some (holderRecord s.tests.holder)
  else none

/-- The Staging Record as a record (R156, R164). -/
def stagingRecord (g : Staging) : List Byte :=
  field8 (stagingCode g.state) ++ optField8 (g.claimant.map portCode) ++ field8 g.pointer ++ bytes16 g.idleTimer ++
  bytes16 g.sealTimer ++ preField16 g.sealedCheck ++ optField8 (g.lastOutcome.map calOutcomeCode)

/-- CAL_ACTIVE (R164). -/
def calRecord (s : State) (i : Nat) : Option (List Byte) :=
  if i ≤ 68 then some (bytes16 (calWord s.cal.active i))
  else if i = 69 then some (bytes16 s.cal.generation ++ bytes16 s.cal.check)
  else if i = 70 then some (stagingRecord s.cal.staging)
  else none

/-- FAULTS in a reader's view (R168). -/
def faultRecord (v : View) (s : State) (i : Nat) : Option (List Byte) :=
  if i < faultCount then some (setField (faultOf s i).live ++ setField (viewLatch v (faultOf s i)))
  else if i = faultCount then some (field8 (latchedCount v s) ++ yesField (latchedLive v s))
  else none

/-- ATTENTION (R170): five flags for Port A, three for Port B. -/
def attentionRecord (p : Port) (x : Attention) : List Byte :=
  let three := setField x.newFault ++ setField x.testResult ++ setField x.calOutcome
  match p with
  | .a => three ++ setField x.learnOutcome ++ setField x.wakeReason
  | .b => three

/-- The number of a reader: A 0, B 1, U 2 (R167). -/
def readerCode : View → Nat
  | .a => 0
  | .b => 1
  | .u => 2

/-- The minutes that remain on the wake timer, a started minute counting whole (R172). DESIGN CHOICE (log entry 56): in the
millisecond in which the timer has run out and its row is not yet taken, 0. -/
def wakeMinutes (ms : Nat) : Nat := (ms + 59999) / 60000

/-- RESET (R172). -/
def resetRecord (s : State) : List Byte :=
  let r := s.standby
  field8 (resetCauseCode r.resetCause) ++ field8 (opStateCode r.opState) ++ field8 r.startingTimer ++
  optField8 (r.wakeReason.map wakeReasonCode) ++ optField8 (r.wakeTimer.map wakeMinutes)

/-- The number of the table ATTENTION (R167, R179). -/
def attentionTable : Nat := 10

/-- The record a table and an index select for a reader (R167), ATTENTION apart; none for a table outside the list or an
index out of range. -/
def tableRecord (v : Reader) (s : State) (table i : Nat) : Option (List Byte) :=
  match table with
  | 0 => if i < 4 then some (channelRecord s (channelAt i)) else none
  | 1 => demandRecord s i
  | 2 => loadRecord s i
  | 3 => tyreRecord s i
  | 4 => strangersRecord s i
  | 5 => rollRecord s i
  | 6 => linkRecord s i
  | 7 => testRecord s i
  | 8 => calRecord s i
  | 9 => faultRecord v s i
  | 11 => if i = 0 then some (Config.identity ++ field8 (readerCode v)) else none
  | 12 => if i = 0 then some (resetRecord s) else none
  | _ => none

/-- The size of the result record of one response frame (R179, R180). -/
def partSize : Nat := 13

/-- Part `n` of a record (R180): 13 bytes, the last part filled out with bytes of 0; none for a part past the end. -/
def recordPart (bs : List Byte) (n : Nat) : Option (List Byte) :=
  if n * partSize < bs.length then
    let part := (bs.drop (n * partSize)).take partSize
    some (part ++ List.replicate (partSize - part.length) 0#8)
  else none

end Sys2Proof.Machine
end

