-- ==== Sys2Proof/Machine/Link.lean ====
section
/-! DEFINITION. The Tow Link Controller (R135 to R151): port states and training, credits, the demand, status and service
relays. -/

namespace Sys2Proof.Machine

/-! ## Counting by class -/

/-- Whether no count is above 0. -/
def noCredits (k : Credits) : Bool := decide (k = Credits.zero)

/-- Two triples of counts added. -/
def addCredits (a b : Credits) : Credits := ⟨a.demand + b.demand, a.status + b.status, a.service + b.service⟩

/-- Whether every count of the first triple is at most that of the second. -/
def creditsLe (a b : Credits) : Bool :=
  decide (a.demand ≤ b.demand) && decide (a.status ≤ b.status) && decide (a.service ≤ b.service)

/-- Depths clamped into their ranges (R137): DEMAND 1..2, STATUS 1..8, SERVICE 1..4. -/
def clampDepths (k : Credits) : Credits := ⟨clamp 1 2 k.demand, clamp 1 8 k.status, clamp 1 4 k.service⟩

/-- Whether some class advertises a depth of 0 (R137). -/
def zeroDepth (k : Credits) : Bool := decide (k.demand = 0) || decide (k.status = 0) || decide (k.service = 0)

/-- The partner depths of a port; 0 while they are absent. -/
def partnerDepths (r : PortRec) : Credits := r.partner.getD Credits.zero

/-! ## Sending (R143) -/

/-- A frame put on a port's line: it carries every return owed (each lies within its field's range), and none stays owed. -/
def sendFrame (l : LinkPort) (f : LinkFrame) (s : State) : State :=
  let r := linkPort s l
  setLinkPort s l { r with owed := Credits.zero, owedTimer := 0, lastSent := some { f with returns := r.owed } }

/-- A traffic frame sent (R143): one credit of its class is spent. -/
def sendTraffic (l : LinkPort) (x : TrafficClass) (f : LinkFrame) (s : State) : State :=
  let r := linkPort s l
  sendFrame l f (setLinkPort s l { r with credits := putCredit r.credits x (creditOf r.credits x - 1) })

/-- Whether a port may send a frame of a class (R143): ACTIVE, with a credit of it. -/
def maySend (s : State) (l : LinkPort) (x : TrafficClass) : Bool :=
  ((linkPort s l).state == .active) && decide (0 < creditOf (linkPort s l).credits x)

/-- The position a port offers in its TRAIN frames (R137, R181): the own position + 1 downstream, 0 upstream. -/
def offeredPosition (s : State) : LinkPort → Nat
  | .up => 0
  | .down => s.link.ownPosition.getD 0 + 1

/-- The role byte of a port's TRAIN frames (R137, R181): TOWING 0 from the downstream port, TOWED 1 from the upstream one. -/
def ownRole : LinkPort → Nat
  | .up => 1
  | .down => 0

/-- A TRAIN frame of this part with a heard-you field (R137, R181). -/
def trainFrame (s : State) (l : LinkPort) (heardYou : Bool) : LinkFrame :=
  ownFrame s 0 (field8 (ownRole l) ++ field8 (offeredPosition s l) ++ field8 ownDepths.demand ++
    field8 ownDepths.status ++ field8 ownDepths.service ++ field8 (if heardYou then 1 else 0))

/-- A TRAIN frame sent. -/
def sendTrain (l : LinkPort) (heardYou : Bool) (s : State) : State := sendFrame l (trainFrame s l heardYou) s

/-! ## Receive slots (R143) -/

/-- Returns owed increased by one of a class, up to this part's depth. -/
def oweReturn (l : LinkPort) (x : TrafficClass) (s : State) : State :=
  let r := linkPort s l
  setLinkPort s l { r with owed := putCredit r.owed x (min (creditOf ownDepths x) (creditOf r.owed x + 1)) }

/-- A receive slot of a class taken. -/
def takeSlot (l : LinkPort) (x : TrafficClass) (s : State) : State :=
  let r := linkPort s l
  setLinkPort s l { r with occupied := putCredit r.occupied x (creditOf r.occupied x + 1) }

/-- A receive slot of a class freed: its return is owed from that moment (R135). -/
def freeSlot (l : LinkPort) (x : TrafficClass) (s : State) : State :=
  let r := linkPort s l
  oweReturn l x (setLinkPort s l { r with occupied := putCredit r.occupied x (creditOf r.occupied x - 1) })

/-- Whether a receive slot of a class is free. -/
def slotFree (s : State) (l : LinkPort) (x : TrafficClass) : Bool :=
  decide (creditOf (linkPort s l).occupied x < creditOf ownDepths x)

/-! ## Entering DOWN (R140) -/

/-- A port record on entering DOWN. -/
def downRec (cause : DropCause) (holdOff : Nat) (errorHold : Bool) (r : PortRec) : PortRec :=
  { r with
    state := .down, holdOff := holdOff, errorHoldOff := errorHold, attempt := none, heard := false, partner := none,
    credits := Credits.zero, occupied := Credits.zero, owed := Credits.zero, errorCount := 0, lastDrop := some cause,
    holdOffRunning := decide (0 < holdOff), sendTimer := 0, owedTimer := 0, stall := Credits.zero }

/-- Whether an item of the STATUS queue is of this vehicle. -/
def isOwnItem : StatusItem → Bool
  | .forwarded _ => false
  | .periodic _ => true
  | .event _ _ => true

/-- Whether an item of the upstream SERVICE queue is an answer of this vehicle. -/
def isAnswer : ServiceItem → Bool
  | .answer _ => true
  | .forwarded _ => false

/-- The downstream port enters DOWN (R140): its waiting frames are discarded, and the forwarded frames that hold its receive
slots leave the upstream queues unsent. -/
def dropDown (cause : DropCause) (holdOff : Nat) (errorHold : Bool) (s : State) : State :=
  s.setLink { s.link with
    down := downRec cause holdOff errorHold s.link.down,
    demandSlot := none, downService := [], heldResps := [],
    statusQueue := s.link.statusQueue.filter isOwnItem,
    upService := s.link.upService.filter isAnswer }

/-- The upstream port enters DOWN (R140): its queues and held requests are discarded, the own position becomes unknown, LINK
becomes absent (R29), and the downstream port follows with cause UPSTREAM_DOWN. -/
def dropUp (cause : DropCause) (holdOff : Nat) (errorHold : Bool) (s : State) : State :=
  let s1 := s.setLink { s.link with
    up := downRec cause holdOff errorHold s.link.up,
    statusQueue := [], upService := [], heldReqs := [], answerWait := 0, ownPosition := none }
  let s2 := loseLink s1
  if s2.link.down.state = .down then s2 else dropDown .upstreamDown 0 false s2

/-- A port enters DOWN from any other state (R140); a port already DOWN is left as it is. -/
def enterDown (l : LinkPort) (cause : DropCause) (holdOff : Nat) (errorHold : Bool) (s : State) : State :=
  if (linkPort s l).state = .down then s
  else
    match l with
    | .up => dropUp cause holdOff errorHold s
    | .down => dropDown cause holdOff errorHold s

/-- A credit violation (R143): CREDIT_ERROR is latched and the port enters DOWN. -/
def creditError (l : LinkPort) (s : State) : State :=
  enterDown l .creditError 5000 false (latchEvent (creditErrorIndex l) s)

/-- A bad frame (R141, R182): counted in TRAIN, READY and ACTIVE; a count of 8 brings the port down. -/
def countBad (l : LinkPort) (s : State) : State :=
  let r := linkPort s l
  match r.state with
  | .down => s
  | .settle => s
  | .train => bump r
  | .ready => bump r
  | .active => bump r
where
  /-- The count increased, or the port sent DOWN with cause LINK_ERRORS. -/
  bump (r : PortRec) : State :=
    if 8 ≤ r.errorCount + 1 then enterDown l .linkErrors 5000 true s
    else setLinkPort s l { r with errorCount := r.errorCount + 1 }

/-! ## Bringing a link up (R136 to R139) -/

/-- A port in DOWN enters SETTLE (R136). -/
def enterSettle (l : LinkPort) (s : State) : State :=
  setLinkPort s l { linkPort s l with state := .settle, settleTimer := 0 }

/-- Whether a port in DOWN may enter SETTLE (R136): activity on its line, no hold-off, operating state not PARKED. -/
def maySettle (s : State) (l : LinkPort) : Bool :=
  let r := linkPort s l
  r.state == .down && r.activity && decide (r.holdOff = 0) && !r.holdOffRunning && !isParked s

/-- A port starts an attempt (R137): attempt timer 0, heard partner clear, the first TRAIN frame due at once. -/
def startAttempt (l : LinkPort) (n : Nat) (s : State) : State :=
  setLinkPort s l { linkPort s l with attempt := some ⟨n, 0⟩, heard := false, sendTimer := 0 }

/-- A port enters TRAIN (R137). -/
def enterTrain (l : LinkPort) (s : State) : State :=
  startAttempt l 1 (setLinkPort s l { linkPort s l with state := .train })

/-- The number of the attempt that runs; 3 where none does. -/
def attemptNumber (r : PortRec) : Nat :=
  match r.attempt with
  | none => 3
  | some a => a.number

/-- An attempt fails (R137). -/
def failAttempt (l : LinkPort) (s : State) : State :=
  let n := attemptNumber (linkPort s l)
  if n < 3 then startAttempt l (n + 1) s else enterDown l .trainFailed 5000 false s

/-- A port enters ACTIVE (R139): credits at the partner depths, receive slots empty; the upstream port builds its first
periodic frame (R147). -/
def enterActive (l : LinkPort) (s : State) : State :=
  let r := linkPort s l
  let s1 := setLinkPort s l { r with
    state := .active, credits := partnerDepths r, occupied := Credits.zero, stall := Credits.zero }
  match l with
  | .down => s1
  | .up => queuePeriodic (refreshFaults (s1.setLink { s1.link with sincePeriodic := 0 }))

/-- Whether the upstream port may pass from READY to ACTIVE (R139). -/
def linkAllowed (s : State) : Bool :=
  match s.link.enable with
  | .enabled => true
  | .auto => calAutoEnable s.cal.active
  | .disabled => false

/-- The upstream port in READY is tested (R139). -/
def testReady (s : State) : State := if s.link.up.state = .ready ∧ linkAllowed s then enterActive .up s else s

/-- An attempt completes (R137 to R139): the partner depths are taken, the upstream port takes the position offered, the
closing TRAIN frame is sent, and the port enters READY, the downstream port ACTIVE. DESIGN CHOICE (log entry 63): the attempt is absent
from completion on; R140 makes it absent on entering DOWN and no rule says what it holds in READY and ACTIVE. -/
def completeTraining (l : LinkPort) (f : LinkFrame) (s : State) : State :=
  let s1 := setLinkPort s l { linkPort s l with
    state := .ready, attempt := none, heard := true, partner := some (clampDepths (trainDepths f)) }
  match l with
  | .up =>
    testReady (sendTrain .up true
      (s1.setLink { s1.link with ownPosition := some (trainOffer f), positionFault := false }))
  | .down => enterActive .down (sendTrain .down true s1)

/-- A position offered outside 1..6 ends training on the upstream port (R138). -/
def positionRange (s : State) : State :=
  let s1 := enterDown .up .positionRange 5000 false s
  s1.setLink { s1.link with positionFault := true }

/-- The role a port expects of its partner (R137): TOWING 0 upstream, TOWED 1 downstream. -/
def expectedRole : LinkPort → Nat
  | .up => 0
  | .down => 1

/-- Whether the position of a TRAIN frame ends training on a port (R137). -/
def offerBad (l : LinkPort) (f : LinkFrame) : Bool :=
  match l with
  | .up => !(decide (1 ≤ trainOffer f) && decide (trainOffer f ≤ 6))
  | .down => false

/-- A TRAIN frame of the expected role received in TRAIN (R137). -/
def trainInTraining (l : LinkPort) (f : LinkFrame) (s : State) : State :=
  if offerBad l f then positionRange s
  else if zeroDepth (trainDepths f) then failAttempt l s
  else if trainHeardYou f then completeTraining l f s
  else setLinkPort s l { linkPort s l with heard := true }

/-- Whether a frame's credit returns would bring a class above the partner depth (R143). -/
def returnsExceed (r : PortRec) (f : LinkFrame) : Bool := !creditsLe (addCredits r.credits f.returns) (partnerDepths r)

/-- The stall timers once the transmit credits are `k` (R143): a class that holds a credit has not had 0 credits. -/
def stallAfter (k stall : Credits) : Credits :=
  let left (n t : Nat) : Nat := if 0 < n then 0 else t
  ⟨left k.demand stall.demand, left k.status stall.status, left k.service stall.service⟩

/-- A good frame's credit returns added to the transmit credits (R143); a class that gains a credit starts its stall time anew. -/
def addReturns (l : LinkPort) (f : LinkFrame) (s : State) : State :=
  let r := linkPort s l
  let k := addCredits r.credits f.returns
  setLinkPort s l { r with credits := k, stall := stallAfter k r.stall }

/-- A TRAIN frame of the expected role received in ACTIVE, its returns already taken: heard-you clear is a restart of the
partner (R140). -/
def trainInActive (l : LinkPort) (f : LinkFrame) (s : State) : State :=
  if trainHeardYou f then s else enterDown l .partnerRestart 0 false s

/-- A TRAIN frame received with a good check (R137, R140, R143). -/
def receiveTrain (l : LinkPort) (f : LinkFrame) (s : State) : State :=
  if frameBad f then countBad l s
  else
    let mine := decide (trainRole f = expectedRole l)
    match (linkPort s l).state with
    | .down => s
    | .settle => s
    | .train => if mine then trainInTraining l f s else s
    | .ready =>
      if !mine then s else if trainHeardYou f then sendTrain l true s else enterDown l .partnerRestart 0 false s
    | .active =>
      if returnsExceed (linkPort s l) f then creditError l s
      else if mine then trainInActive l f (addReturns l f s)
      else addReturns l f s

/-! ## Receiving traffic (R143, R144) -/

/-- A good traffic frame of a class (R143). In ACTIVE its returns are taken first, then it takes a receive slot and is handled;
without a free slot it breaks the credit agreement. In READY it is discarded and its credit owed back at once. -/
def receiveTraffic (l : LinkPort) (x : TrafficClass) (f : LinkFrame) (handle : State → State) (s : State) : State :=
  if frameBad f then countBad l s
  else
    match (linkPort s l).state with
    | .down => s
    | .settle => s
    | .train => s
    | .ready => oweReturn l x s
    | .active =>
      if returnsExceed (linkPort s l) f then creditError l s
      else if slotFree s l x then handle (takeSlot l x (addReturns l f s))
      else creditError l (addReturns l f s)

/-- Whether a frame's target is ALL. -/
def toAll (f : LinkFrame) : Bool := f.target == targetAll

/-- Whether a frame's target is this part's own position. -/
def toOwn (s : State) (f : LinkFrame) : Bool := s.link.ownPosition == some f.target

/-- Whether a frame's target lies above this part's own position, ALL not counted. -/
def toAbove (s : State) (f : LinkFrame) : Bool := !toAll f && decide (s.link.ownPosition.getD 0 < f.target)

/-- A DEMAND frame consumed (R29). -/
def consumeDemand (f : LinkFrame) (s : State) : State :=
  formDemand (s.setDriver { s.driver with
    linkLevel := some (demandPressure f), linkAge := some 0, linkPresent := true,
    tractorSpeed := some (demandSpeed f), tractorAge := some 0, tractorAntiLock := demandAntiLock f })

/-- A DEMAND frame offered downstream (R145): dropped where the downstream port is not ACTIVE or the hop count is 7. -/
def forwardDemand (f : LinkFrame) (s : State) : State :=
  if s.link.down.state = .active ∧ f.hop < 7 then s.setLink { s.link with demandSlot := some (forwardedDemand f) } else s

/-- A DEMAND frame in its receive slot is processed in one step (R145), and the slot frees. -/
def relayDemand (f : LinkFrame) (s : State) : State :=
  let s1 := if toAll f || toOwn s f then consumeDemand f s else s
  let s2 := if toAll f || toAbove s f then forwardDemand f s1 else s1
  freeSlot .up .demand s2

/-- A STATUS frame in its receive slot (R149): it joins the upstream STATUS queue, or is dropped at a hop count of 7. -/
def relayStatus (f : LinkFrame) (s : State) : State :=
  if f.hop < 7 then s.setLink { s.link with statusQueue := s.link.statusQueue ++ [.forwarded (hopped f)] }
  else freeSlot .down .status s

/-- A SERVICE_REQ frame in its receive slot is held (R150). -/
def holdRequest (f : LinkFrame) (s : State) : State :=
  s.setLink { s.link with heldReqs := s.link.heldReqs ++ [f],
                          answerWait := if s.link.heldReqs.isEmpty then 0 else s.link.answerWait }

/-- A SERVICE_RESP frame in its receive slot waits for a place (R150), or is dropped at a hop count of 7 (R144). -/
def holdResponse (f : LinkFrame) (s : State) : State :=
  if f.hop < 7 then s.setLink { s.link with heldResps := s.link.heldResps ++ [⟨f, 0⟩] }
  else freeSlot .down .service s

/-! ## Sending from the queues (R145, R146, R150) -/

/-- The downstream DEMAND slot sends its frame (R145). -/
def sendDemandSlot (s : State) : State :=
  match s.link.demandSlot with
  | none => s
  | some f =>
    if maySend s .down .demand then sendTraffic .down .demand f (s.setLink { s.link with demandSlot := none }) else s

/-- The head of the upstream STATUS queue leaves (R146); a forwarded frame frees its downstream receive slot. -/
def sendStatusHead (s : State) : State :=
  match s.link.statusQueue with
  | [] => s
  | x :: rest =>
    if maySend s .up .status then
      let s1 := sendTraffic .up .status (itemFrame x) (s.setLink { s.link with statusQueue := rest })
      if isOwnItem x then s1 else freeSlot .down .status s1
    else s

/-- The frame of an item of the upstream SERVICE queue. -/
def serviceFrame : ServiceItem → LinkFrame
  | .answer f => f
  | .forwarded f => f

/-- The head of a port's SERVICE queue leaves (R143, R150); a forwarded answer frees its downstream receive slot. -/
def sendServiceHead (l : LinkPort) (s : State) : State :=
  match l with
  | .up =>
    match s.link.upService with
    | [] => s
    | x :: rest =>
      if maySend s .up .service then
        let s1 := sendTraffic .up .service (serviceFrame x) (s.setLink { s.link with upService := rest })
        if isAnswer x then s1 else freeSlot .down .service s1
      else s
  | .down =>
    match s.link.downService with
    | [] => s
    | f :: rest =>
      if maySend s .down .service then sendTraffic .down .service f (s.setLink { s.link with downService := rest }) else s

/-! ## Service requests (R150, R151) -/

/-- What becomes of a held request (R150). -/
inductive RequestAction where
  | answer
  | forward
  | drop
  | noRoute
  | badTarget
deriving DecidableEq, Repr

/-- The action a request's target asks for (R150). DESIGN CHOICE (log entry 69): it goes by the downstream port's state at the moment the
request is processed, so one that R140 would have answered NO_ROUTE is forwarded where the port is ACTIVE again by then. -/
def requestAction (s : State) (f : LinkFrame) : RequestAction :=
  if toOwn s f then .answer
  else if toAbove s f then
    if s.link.down.state = .active then (if f.hop < 7 then .forward else .drop) else .noRoute
  else .badTarget

/-- The answer frame of a request (R151, R181): table, index, result code, record length and record. -/
def answerFrame (s : State) (f : LinkFrame) (code : Nat) (record : List Byte) : LinkFrame :=
  ownFrame s 4 (field8 (byteAt f.payload 1) ++ field8 (byteAt f.payload 2) ++ field8 code ++ field8 record.length ++ record)

/-- The tables a service read reaches: those of R167 but ATTENTION, FAULTS in view U (R151). -/
def serviceRecord (s : State) (f : LinkFrame) : Option (List Byte) :=
  (tableRecord .u s (byteAt f.payload 1) (byteAt f.payload 2)).map (fun r => r.take 24)

/-- The answer to a request for this vehicle (R151): READ 0, CLEAR_FAULTS 1; any other request is answered BAD_ARG. -/
def ownAnswer (s : State) (f : LinkFrame) : LinkFrame :=
  match byteAt f.payload 0 with
  | 0 =>
    match serviceRecord s f with
    | some r => answerFrame s f 0 r
    | none => answerFrame s f 1 []
  | 1 => answerFrame s f 0 []
  | _ => answerFrame s f 1 []

/-- The other effect of a request for this vehicle: CLEAR_FAULTS clears view U (R151, R169). -/
def serviceEffect (f : LinkFrame) (s : State) : State :=
  if byteAt f.payload 0 = 1 then clearFaultView .u s else s

/-- A frame joins the upstream SERVICE queue. -/
def joinService (x : ServiceItem) (s : State) : State := s.setLink { s.link with upService := s.link.upService ++ [x] }

/-- The front request leaves, and its receive slot frees (R150). -/
def dropRequest (s : State) : State :=
  freeSlot .up .service (s.setLink { s.link with heldReqs := s.link.heldReqs.tail, answerWait := 0 })

/-- Whether the upstream SERVICE queue has room (R135: up to 2 frames). -/
def upRoom (s : State) : Bool := decide (s.link.upService.length < 2)

/-- Whether the downstream SERVICE queue has room. -/
def downRoom (s : State) : Bool := decide (s.link.downService.length < 2)

/-- Whether an answer of this vehicle has its turn at the upstream SERVICE queue (R150): room, and no forwarded answer that
began waiting before it or with it. -/
def answerTurn (s : State) : Bool :=
  upRoom s &&
    match s.link.heldResps with
    | [] => true
    | h :: _ => decide (h.waited < s.link.answerWait)

/-- Whether the front request can be processed, for its action (R150). -/
def requestReady (s : State) : RequestAction → Bool
  | .answer => answerTurn s
  | .noRoute => answerTurn s
  | .badTarget => answerTurn s
  | .forward => downRoom s
  | .drop => true

/-- The front request is processed (R150, R151). -/
def processRequest (s : State) (f : LinkFrame) : State :=
  match requestAction s f with
  | .answer => dropRequest (joinService (.answer (ownAnswer s f)) (serviceEffect f s))
  | .noRoute => dropRequest (joinService (.answer (answerFrame s f 2 [])) s)
  | .badTarget => dropRequest (joinService (.answer (answerFrame s f 1 [])) s)
  | .forward => dropRequest (s.setLink { s.link with downService := s.link.downService ++ [hopped f] })
  | .drop => dropRequest s

/-- The front held request, if it can be processed. -/
def readyRequest (s : State) : Option LinkFrame :=
  match s.link.heldReqs with
  | [] => none
  | f :: _ => if requestReady s (requestAction s f) then some f else none

/-- Whether the front request waits for the upstream SERVICE queue. -/
def answerWaits (s : State) : Bool :=
  match s.link.heldReqs with
  | [] => false
  | f :: _ =>
    match requestAction s f with
    | .answer => true
    | .noRoute => true
    | .badTarget => true
    | .forward => false
    | .drop => false

/-- The front waiting SERVICE_RESP, if it has its turn (R150): room, and no answer of this vehicle that began waiting
earlier. -/
def readyResponse (s : State) : Option LinkFrame :=
  match s.link.heldResps with
  | [] => none
  | h :: _ => if upRoom s && !(answerWaits s && decide (h.waited < s.link.answerWait)) then some h.frame else none

/-- The front waiting SERVICE_RESP joins the upstream SERVICE queue (R150). -/
def joinResponse (f : LinkFrame) (s : State) : State :=
  joinService (.forwarded (hopped f)) (s.setLink { s.link with heldResps := s.link.heldResps.tail })

/-! ## Timed conditions -/

/-- Whether a frame of a class waits to be sent on a port. -/
def frameWaits (s : State) (l : LinkPort) (x : TrafficClass) : Bool :=
  match l, x with
  | .up, .demand => false
  | .up, .status => !s.link.statusQueue.isEmpty
  | .up, .service => !s.link.upService.isEmpty
  | .down, .demand => s.link.demandSlot.isSome
  | .down, .status => false
  | .down, .service => !s.link.downService.isEmpty

/-- Whether a class of a port stands still: no credit, and a frame waiting (R143). -/
def standsStill (s : State) (l : LinkPort) (x : TrafficClass) : Bool :=
  ((linkPort s l).state == .active) && decide (creditOf (linkPort s l).credits x = 0) && frameWaits s l x

/-- Whether a class of a port has stalled for 500 ms (R143). -/
def stalled (s : State) (l : LinkPort) (x : TrafficClass) : Bool :=
  standsStill s l x && decide (500 ≤ creditOf (linkPort s l).stall x)

/-- Whether some class of a port has stalled. -/
def anyStalled (s : State) (l : LinkPort) : Bool := stalled s l .demand || stalled s l .status || stalled s l .service

/-- Whether a port's owed returns have waited 20 ms for a carrier (R143). -/
def returnsDue (s : State) (l : LinkPort) : Bool :=
  let r := linkPort s l
  (r.state == .ready || r.state == .active) && !noCredits r.owed && decide (20 ≤ r.owedTimer)

/-- Whether a port that trains is due to send its TRAIN frame (R137). -/
def trainDue (s : State) (l : LinkPort) : Bool :=
  let r := linkPort s l
  r.state == .train && decide (r.sendTimer = 0) &&
    match r.attempt with
    | none => false
    | some a => decide (a.timer < 300)

/-- Whether a port's attempt has run out (R137). -/
def attemptOver (s : State) (l : LinkPort) : Bool :=
  let r := linkPort s l
  r.state == .train &&
    match r.attempt with
    | none => false
    | some a => decide (300 ≤ a.timer)

end Sys2Proof.Machine
end

