-- ==== Sys2Proof/Machine/Calibration.lean ====
section
/-! DEFINITION. The Calibration Store (R156 to R164): the safe point, the apply, and the returns of the Staging Record to FREE. -/

namespace Sys2Proof.Machine

/-- The Staging Record replaced. -/
def setStaging (g : Staging) (s : State) : State := s.setCal { s.cal with staging := g }

/-- The Staging Record returned to FREE with an outcome (R156): claimant absent, staged content discarded; the other fields
keep what they last held. -/
def freeStaging (o : CalOutcome) (g : Staging) : Staging :=
  { g with state := .free, claimant := none, content := [], lastOutcome := some o }

/-- The record returns to FREE and raises the calibration outcome flag of both ports (R164). -/
def returnFree (o : CalOutcome) (s : State) : State :=
  raiseCalOutcome (raiseCalOutcome (setStaging (freeStaging o s.cal.staging) s) .a) .b

/-- The record returns to FREE by a PORT_SYNC of port `p`: the flag is raised on the other port alone (R161, R164). -/
def discardBySync (p : Port) (s : State) : State :=
  raiseCalOutcome (setStaging (freeStaging .discarded s.cal.staging) s) (otherPort p)

/-- The rollover stage is QUIET or OFF (R115, R128, R163). -/
def stageCalm (s : State) : Bool := s.roll.stage.stage == .quiet || s.roll.stage.stage == .off

/-- The trailer is at a safe point (R163). -/
def safePoint (s : State) : Bool :=
  decide (s.driver.demand < 15) && setpointsZero s && stageCalm s && (runningTest s).isNone

/-- The generation after an apply (R154): the step after 65535 gives 1. -/
def nextGeneration (n : Nat) : Nat := if n = 65535 then 1 else n + 1

/-- The wake timer for the calibration in force (R177): its minutes in milliseconds, absent where the word is 0. -/
def wakeTimerOf (ws : List Nat) : Option Nat := if calWake ws = 0 then none else some (calWake ws * 60000)

/-- A calibration applied in PARKED restarts the wake timer (R177). -/
def restartWakeTimer (s : State) : State :=
  if isParked s then s.setStandby { s.standby with wakeTimer := wakeTimerOf s.cal.active } else s

/-- The staged words replace the Active Calibration whole (R163, step 1). -/
def takeStaged (s : State) : State :=
  let g := s.cal.staging
  s.setCal { s.cal with
    active := g.content, generation := nextGeneration s.cal.generation, check := g.sealedCheck.getD s.cal.check }

/-- The apply (R163): the words are taken, the record returns to FREE, and the consumers re-initialise. DESIGN CHOICE (log entry 67):
the consumers go in the order in which R163 lists them, so the tyres are re-evaluated before an upstream port in READY is tested. -/
def applyCal (s : State) : State :=
  restartWakeTimer (testReady (reloadLoads (returnFree .applied (takeStaged s))))

/-- The safe-point test of an armed set (R163), made on entering ARMED and at each pressure sample after. -/
def tryApply (s : State) : State := if s.cal.staging.state = .armed ∧ safePoint s then applyCal s else s

/-- A timeout of the Staging Record (R162). -/
def timeoutStaging (s : State) : State := returnFree .timeout (latchEvent calTimeoutIndex s)

/-- Staged words written in order from the pointer (R158): past index 68 each remaining word is ignored and the pointer
stays. -/
def writeWords (content : List Nat) (pointer : Nat) : List Nat → List Nat × Nat
  | [] => (content, pointer)
  | w :: ws =>
    if pointer ≤ 68 then writeWords (content.set pointer (w % 65536)) (pointer + 1) ws
    else writeWords content pointer ws

/-- Staged words read from an index on (R158): a word above index 68 reads as 0. -/
def readWords (content : List Nat) (index : Nat) : Nat → List Byte
  | 0 => []
  | n + 1 => bytes16 (calWord content index) ++ readWords content (index + 1) n

end Sys2Proof.Machine
end

