-- ==== Sys2Proof/Machine/Standby.lean ====
section
/-! DEFINITION. The Standby Controller: resets (R173), the entry into RUNNING (R174), entry into PARKED (R175, R176). -/

namespace Sys2Proof.Machine

/-- The machine after a reset of a cause (R173). What lies outside the part stands as it did: the commands that wait, and
the partners' activity on the two Tow Link lines. -/
def resetState (k : ResetCause) (s : State) : State :=
  { State.reset with
    pending := s.pending,
    standby := { State.reset.standby with resetCause := k },
    link := { LinkUnit.reset with
      up := { PortRec.reset with activity := s.link.up.activity },
      down := { PortRec.reset with activity := s.link.down.activity } } }

/-- The start-up check of a channel on entering RUNNING (R4): with a valid delivery reading the condition of STARTUP ends, with
an invalid one DELIVERY_SENSOR is added. -/
def startupCheck (c : Channel) (s : State) : State :=
  if (s.front.delivery.get c).isSome then setChannel s c { channelOf s c with startupHeld := false }
  else addCause .deliverySensor c s

/-- The operating state becomes RUNNING (R174). -/
def enterRunning (s : State) : State :=
  let s1 := s.setStandby { s.standby with opState := .running, startingTimer := 0 }
  let s2 := forChannels startupCheck s1
  let s3 := s2.setSupply { s2.supply with onset := none, recovery := none, lowMeasure := none }
  loadUpdate s3

/-- The four Demand Tables are emptied in one step, and each channel is then resolved (R27). -/
def emptyTables (s : State) : State := resolveAll (s.setDemand { s.demand with table := .const Table.empty })

/-- A Tow Link port on entering PARKED (R140). -/
def parkPort (l : LinkPort) (s : State) : State :=
  let r := linkPort s l
  if r.state = .down then
    setLinkPort s l { r with lastDrop := some .parked, holdOff := 0, errorHoldOff := false, holdOffRunning := false }
  else enterDown l .parked 0 false s

/-- Entry into PARKED (R176). -/
def enterParked (s : State) : State :=
  let s1 := s.setStandby { s.standby with opState := .parked, wakeTimer := wakeTimerOf s.cal.active }
  let s2 := forChannels (addCause .parked) s1
  let s3 := emptyTables ((s2.setDriver DriverRec.reset).setSupply SupplyRec.reset)
  let s4 := if s3.roll.stage.stage = .off then s3 else stageOff s3
  let s5 := parkPort .down (parkPort .up s4)
  s5.setLink { s5.link with positionFault := false }

/-- The reasons STANDBY is refused for, numbered 0 to 6 (R175, R179): the first that applies, or none. -/
def standbyRefusal (s : State) : Option Nat :=
  if !isRunning s then some 0
  else if s.link.up.state ≠ .down then some 1
  else if s.wheels.vref ≠ 0 then some 2
  else if !setpointsZero s then some 3
  else if (runningTest s).isSome || !s.tests.queue.isEmpty then some 4
  else if s.tyre.learn.isSome then some 5
  else if attentionLine s.portA.attention then some 6
  else none

end Sys2Proof.Machine
end

