-- ==== Sys2Proof/Machine/ChamberTest.lean ====
section
/-! DEFINITION. The course of a chamber response test (R128 to R132): start, phases, classification and its effects. -/

namespace Sys2Proof.Machine

/-- The delivery reading of a channel, 0 where it is invalid (a channel under test has a valid one, R133). -/
def deliveryLevel (s : State) (c : Channel) : Nat := (s.front.delivery.get c).getD 0

/-- The running-test record replaced. -/
def setTest (t : RunningTest) (s : State) : State := s.setTests { s.tests with holder := .test t }

/-- The state in which the generator is FREE. -/
def generatorFree (s : State) : Bool :=
  match s.tests.holder with
  | .free => true
  | .test _ => false
  | .probe => false

/-- Whether the delivery reading of a channel is valid and at most a bound. -/
def deliveryAtMost (s : State) (c : Channel) (n : Nat) : Bool :=
  match s.front.delivery.get c with
  | none => false
  | some d => decide (d ≤ n)

/-- The start conditions of R128, case 3, for a channel. -/
def canStart (s : State) (c : Channel) : Bool :=
  generatorFree s && electronic s c && decide ((channelOf s c).setpoint = 0) && deliveryAtMost s c 10 &&
  decide (s.wheels.vref = 0) && stageCalm s

/-- The running-test record of a test that starts (R130): sample 0. -/
def firstPhase (q : TestRequest) : RunningTest :=
  { channel := q.channel, port := q.port, phase := .pulse, timer := 0, t50 := none, pEnd := 0, pHold := 0 }

/-- A test starts (R128 to R130, R12): the entry leaves the queue, the generator is taken, the inlet opens, the control state
shows HOLDING and the tracking timer is held at 0. -/
def startTest (q : TestRequest) (s : State) : State :=
  let s1 := setTest (firstPhase q) (dropHead s)
  setChannel s1 q.channel { channelOf s1 q.channel with
    inlet := .held, exhaust := .closed, controlState := .holding, tracking := none }

/-- The head of the queue, if the last sample found its start due and the start conditions still hold. -/
def startableHead (s : State) : Option TestRequest :=
  match s.tests.queue with
  | [] => none
  | q :: _ => if s.tests.headDue && decide (s.tests.headWait < 10000) && canStart s q.channel then some q else none

/-- Whether the last sample found that the head has waited too long (R128, case 2). -/
def headOverdue (s : State) : Bool := s.tests.headDue && decide (10000 ≤ s.tests.headWait)

/-- The end of PULSE (R130): p_end is taken and the inlet closes. -/
def endPulse (t : RunningTest) (s : State) : State :=
  setTest { t with phase := .settle, pEnd := deliveryLevel s t.channel }
    (setChannel s t.channel { channelOf s t.channel with inlet := .closed })

/-- The end of SETTLE (R130): p_hold is taken and the exhaust opens. -/
def endSettle (t : RunningTest) (s : State) : State :=
  setTest { t with phase := .vent, pHold := deliveryLevel s t.channel }
    (setChannel s t.channel { channelOf s t.channel with exhaust := .held })

/-- The volume class of a NORMAL outcome (R131). -/
def classOf : Option Nat → Nat
  | none => 6
  | some t => if t ≤ 30 then 1 else if t ≤ 50 then 2 else if t ≤ 70 then 3 else if t ≤ 100 then 4 else 5

/-- The outcome of a test's measurements (R131): the first line that applies. -/
def outcomeOf (t : RunningTest) : TestOutcome :=
  if t.t50 = none ∧ t.pEnd < 20 then .opened
  else if t.t50 = some 10 then .blocked
  else if t.pHold + 40 < t.pEnd then .leaking
  else .normal

/-- The result record of a test that ran to its end (R134). -/
def finishedResult (t : RunningTest) : TestResult :=
  { outcome := some (outcomeOf t), cause := none, t50 := t.t50, pEnd := t.pEnd, pHold := t.pHold,
    volumeClass := if outcomeOf t = .normal then some (classOf t.t50) else none, port := some t.port }

/-- The leak mark of a channel written. -/
def setLeak (c : Channel) (b : Bool) (s : State) : State :=
  s.setTests { s.tests with leakMark := s.tests.leakMark.set c b }

/-- The volume class of a channel written (R8). -/
def setClass (c : Channel) (v : Option Nat) (s : State) : State := setChannel s c { channelOf s c with volumeClass := v }

/-- The effects of an outcome on its channel (R132). -/
def outcomeEffect (t : RunningTest) (s : State) : State :=
  match outcomeOf t with
  | .normal => setLeak t.channel false (setClass t.channel (some (classOf t.t50)) s)
  | .opened => addCause .testFault t.channel (setLeak t.channel false (setClass t.channel none s))
  | .blocked => addCause .testFault t.channel (setLeak t.channel false (setClass t.channel none s))
  | .leaking => setLeak t.channel true s
  | .aborted => s
  | .refused => s

/-- The end of VENT (R131, R132): the result is stored, the generator freed, and the outcome acts on the channel. -/
def endVent (t : RunningTest) (s : State) : State :=
  outcomeEffect t (storeResult t.channel t.port (finishedResult t) (s.setTests { s.tests with holder := .free }))

/-- Whether a phase of the running test has come to its end at the last sample (R130). -/
def phaseOver (s : State) (t : RunningTest) : Bool :=
  match t.phase with
  | .pulse => decide (150 ≤ t.timer)
  | .settle => decide (250 ≤ t.timer)
  | .vent => decide (250 < t.timer) && (deliveryAtMost s t.channel 10 || decide (750 ≤ t.timer))

/-- The running test, if it stands in a phase that has come to its end. -/
def testOver (k : Phase) (s : State) : Option RunningTest :=
  match runningTest s with
  | none => none
  | some t => if t.phase = k ∧ phaseOver s t then some t else none

/-- The longest a phase timer runs in a phase (R130). DESIGN CHOICE (log entry 53): the timer is 0 at sample 0 and runs on through
SETTLE and VENT; R130 does not say whether it starts again with each phase. -/
def phaseBound : Phase → Nat
  | .pulse => 150
  | .settle => 250
  | .vent => 750

/-- t50 after a sample at `timer` (R130): the first sample of PULSE with a reading of 50 kPa or more. -/
def t50After (s : State) (t : RunningTest) (timer : Nat) : Option Nat :=
  if t.phase = .pulse ∧ t.t50 = none ∧ 50 ≤ deliveryLevel s t.channel then some timer else t.t50

/-- The running test at a pressure sample (R130, R133): aborted with cause MOTION where v_ref is above 0; otherwise its timer
grows by 10 ms and t50 is looked for. -/
def sampleTest (s : State) : State :=
  match runningTest s with
  | none => s
  | some t =>
    if 0 < s.wheels.vref then abortRunning .motion s
    else
      let timer := min (phaseBound t.phase) (t.timer + 10)
      setTest { t with timer := timer, t50 := t50After s t timer } s

/-- At a sample the head alone is looked at (R128): the entries behind it stand back until the next sample, so an entry that
becomes head at this one is first examined at the next, and at most one entry leaves the head. -/
def headAlone (s : State) : State := s.setTests { s.tests with queue := s.tests.queue.take 1 }

/-- The entries that stood behind the head at a sample move up again behind what is left of it (R125, R128). -/
def rejoinQueue (behind : List TestRequest) (s : State) : State :=
  s.setTests { s.tests with queue := s.tests.queue ++ behind }

/-- The head of the queue at a pressure sample in RUNNING (R128): refused where its channel is in BACKUP; otherwise its timeout
or its start is found due, or it waits for a later sample. -/
def sampleHead (s : State) : State :=
  match s.tests.queue with
  | [] => s
  | q :: _ =>
    if !electronic s q.channel then refuseHead .notElectronic s
    else s.setTests { s.tests with headDue := decide (10000 ≤ s.tests.headWait) || canStart s q.channel }

end Sys2Proof.Machine
end

