-- ==== Sys2Proof/Machine/Sample.lean ====
section
/-! DEFINITION. A pressure sample (every 10 ms, R9): readings, wheel speeds and slip, driver demand and resolution, control
samples, supervision, tests, anti-lock, rollover, the armed calibration. What a rule lets happen in either order within a
sample happens here in the order of pressureSample. -/

namespace Sys2Proof.Machine

/-- The Sensor Front End takes a sample set (section 2.2, R14). -/
def frontOf (x : SampleSet) : FrontEnd :=
  { delivery := x.delivery.map readingOf, control := readingOf x.control, supply := readingOf x.supply,
    reservoir := readingOf x.reservoir, bagLeft := x.bagLeft.map readingOf, bagRight := x.bagRight.map readingOf,
    liftInput := x.liftRaised }

/-! ## Delivery sensors (R4, R14) -/

/-- A channel's delivery reading at a sample outside STARTING: invalid after valid adds DELIVERY_SENSOR (R14); a valid one ends
the condition of STARTUP (R4). -/
def checkDelivery (before : PerChannel Reading) (c : Channel) (s : State) : State :=
  if s.standby.opState = .starting then s
  else if (s.front.delivery.get c).isSome then setChannel s c { channelOf s c with startupHeld := false }
  else if (before.get c).isSome then addCause .deliverySensor c s
  else s

/-! ## The Driver Demand record at a sample (R30, R33, R34) -/

/-- LINE level from a control-line reading (R30). -/
def lineOf : Reading → Option Nat
  | none => none
  | some p => some (if p < 15 then 0 else min 1000 p)

/-- The difference of two levels. -/
def levelGap (a b : Nat) : Nat := (a - b) + (b - a)

/-- The onset and recovery runs at a sample (R33, R34). -/
def mismatchRuns (d : DriverRec) : DriverRec :=
  match d.linkPresent, d.lineLevel with
  | true, some y =>
    let gap := levelGap y (d.linkLevel.getD 0)
    if d.mismatch then { d with recovery := runSample 2000 (decide (gap ≤ 30)) d.recovery }
    else { d with onset := runSample 500 (decide (100 < gap)) d.onset }
  | true, none => { d with onset := none }
  | false, some _ => { d with onset := none }
  | false, none => { d with onset := none }

/-- The Demand Resolver at a sample outside PARKED (R28, R30 to R35). -/
def sampleDriver (s : State) : State :=
  if isParked s then s
  else formDemand (s.setDriver (mismatchRuns { s.driver with lineLevel := lineOf s.front.control }))

/-! ## Control samples (R9, R10, R13) -/

/-- The volume factor k (R10). -/
def volumeFactor : Option Nat → Nat
  | some 1 => 4
  | some 2 => 6
  | some 3 => 8
  | some 4 => 10
  | some 5 => 12
  | some 6 => 14
  | _ => 8

/-- The on-time of a pulse for an error of so many kPa (R10). -/
def onTime (k err : Nat) : Nat := 1 + err * k / 64

/-- A valve opened for an on-time; 10 ms or more holds it open for the whole interval (R10). -/
def pulseOf (k err : Nat) : ValveDrive := if 10 ≤ onTime k err then .held else .pulsed (onTime k err)

/-- Whether a tracking error is present at a control sample (R13). -/
def trackingError (r : ChannelRec) (err : Int) : Bool :=
  decide (60 < err.natAbs) && decide (0 < r.setpoint) && !r.supplyLimited

/-- A channel record after a control sample with delivery pressure `d` (R9 to R11, R13). -/
def controlRec (d : Nat) (r : ChannelRec) : ChannelRec :=
  let err : Int := (r.setpoint : Int) - (d : Int)
  let k := volumeFactor r.volumeClass
  let t := { r with tracking := runSample 400 (trackingError r err) r.tracking }
  if r.setpoint = 0 then { t with controlState := .vent, inlet := .closed, exhaust := .held }
  else if 10 < err then { t with controlState := .applying, inlet := pulseOf k err.natAbs, exhaust := .closed }
  else if err < -10 then { t with controlState := .venting, inlet := .closed, exhaust := pulseOf k err.natAbs }
  else { t with controlState := .holding, inlet := .closed, exhaust := .closed }

/-- The control sample of a channel (R9, R12): taken while the channel is ELECTRONIC, with a valid reading, and was not under
test at this sample. -/
def controlSample (tested : Option Channel) (c : Channel) (s : State) : State :=
  if electronic s c && !(tested == some c) then
    match s.front.delivery.get c with
    | none => s
    | some d => setChannel s c (controlRec d (channelOf s c))
  else s

/-! ## Supply and reservoir supervision (R15, R17, R19) -/

/-- The onset and recovery measurements at a sample (R15, R17). -/
def supplyRuns (r : Reading) (e : SupplyRec) : SupplyRec :=
  match r with
  | none => { e with onset := none, recovery := none }
  | some p =>
    if e.emergency then { e with recovery := runSample 1000 (decide (400 ≤ p)) e.recovery }
    else { e with onset := runSample 200 (decide (p < 250)) e.onset }

/-- Whether a sample ends LOW_RESERVOIR (R19). -/
def reservoirBack (r : Reading) (e : SupplyRec) : Bool :=
  e.lowReservoir &&
    match r with
    | none => false
    | some p => decide (500 ≤ p)

/-- The LOW_RESERVOIR measurement at a sample (R19). -/
def reservoirRun (r : Reading) (e : SupplyRec) : SupplyRec :=
  match r with
  | none => { e with lowMeasure := none }
  | some p => { e with lowMeasure := runSample 1000 (!e.lowReservoir && decide (p < 450)) e.lowMeasure }

/-- Supply and reservoir supervision at a sample in RUNNING (R15 to R19). -/
def sampleSupply (s : State) : State :=
  if !isRunning s then s
  else
    let e := reservoirRun s.front.reservoir (supplyRuns s.front.supply s.supply)
    if reservoirBack s.front.reservoir e then queueEvent (s.setSupply { e with lowReservoir := false, lowMeasure := none })
    else s.setSupply e

/-- The sample grid of the load updates (R59): 10 ms more since the last one. -/
def sampleLoadClock (s : State) : State :=
  if isRunning s then s.setLoad { s.load with sinceUpdate := min 100 (s.load.sinceUpdate + 10) } else s

/-! ## The whole sample -/

/-- Readings, wheel speeds, slips, the raised state and the delivery sensors of a sample. -/
def sampleSensors (x : SampleSet) (s : State) : State :=
  let s1 := forChannels formSlip (sampleWheels x.wheelClosed (s.setFront (frontOf x)))
  let s2 := if isParked s1 then s1 else formRaised s1
  forChannels (checkDelivery s.front.delivery) s2

/-- Driver demand, resolution and the removal of automatic causes (R31, R38, R5). -/
def sampleDemand (s : State) : State := forChannels removeAutomatic (resolveAll (sampleDriver s))

/-- The monitors of a sample after its control samples: tests, supply, anti-lock, rollover, the head of the Test Queue. -/
def sampleMonitors (s : State) : State :=
  let s1 := sampleRollover (forChannels skidSample (sampleSupply (sampleTest s)))
  if isRunning s1 then sampleHead s1 else s1

/-- A pressure sample up to the control samples: readings, speeds and demand, the head of the Test Queue alone in view. -/
def sampleResolved (x : SampleSet) (s : State) : State := sampleDemand (sampleSensors x (headAlone s))

/-- A pressure sample up to the safe-point test of an armed set. -/
def sampleBeforeApply (x : SampleSet) (s : State) : State :=
  let tested := (runningTest s).map RunningTest.channel
  rejoinQueue s.tests.queue.tail (sampleMonitors (forChannels (controlSample tested) (sampleResolved x s)))

/-- A pressure sample (R9). -/
def pressureSample (x : SampleSet) (s : State) : State :=
  refreshFaults (sampleLoadClock (tryApply (sampleBeforeApply x s)))

end Sys2Proof.Machine
end

