-- ==== Sys2Proof/Machine/Clock.lean ====
section
/-! DEFINITION. The passing of one millisecond (log entry 1): every timer, age and lifetime that "grows as time passes" or
"counts down" moves by one; nothing else happens. What a timer brings about when it completes is a row of the table. -/

namespace Sys2Proof.Machine

/-- A number that is present moved by a function. -/
def mapNat (f : Nat → Nat) : Option Nat → Option Nat
  | none => none
  | some n => some (f n)

/-- The standby timers (R174, R177). -/
def tickStandby (r : StandbyRec) : StandbyRec :=
  { r with
    startingTimer := if r.opState = .starting then satAdd 200 r.startingTimer 1 else r.startingTimer,
    wakeTimer := mapNat (fun n => n - 1) r.wakeTimer }

/-- A pulse age (R40). -/
def tickWheel (w : WheelRec) : WheelRec := { w with age := min 200000 (w.age + 1000 - w.edgeOffset), edgeOffset := 0 }

/-- The rest of an on-time (R11). -/
def tickValve : ValveDrive → ValveDrive
  | .closed => .closed
  | .held => .held
  | .pulsed n => .pulsed (n - 1)

/-- A channel's valves. -/
def tickChannel (r : ChannelRec) : ChannelRec := { r with inlet := tickValve r.inlet, exhaust := tickValve r.exhaust }

/-- The remaining lifetime of an entry (R25). -/
def tickEntry : Option Entry → Option Entry
  | none => none
  | some e => some { e with lifetime := mapNat (fun n => n - 1) e.lifetime }

/-- The lifetimes of a table (R25). -/
def tickTable (t : Table) : Table := { t with ctrlA := tickEntry t.ctrlA, ctrlB := tickEntry t.ctrlB }

/-- The ages of the Driver Demand record (R29). -/
def tickDriver (d : DriverRec) : DriverRec :=
  { d with linkAge := mapNat (satAdd 65535 1) d.linkAge, tractorAge := mapNat (satAdd 65535 1) d.tractorAge }

/-- The longest age of tyre data and of a stranger, in milliseconds: 65535 s (R92). -/
def maxAgeMs : Nat := 65535000

/-- A duplicate memory (R83). -/
def tickDup (d : DupMemory) : DupMemory := { d with age := satAdd 2000 d.age 1 }

/-- The age of a position's data (R92). -/
def tickData (d : TyreData) : TyreData := { d with ageMs := satAdd maxAgeMs d.ageMs 1 }

/-- The ages of a position (R92). -/
def tickPosition (r : PositionRec) : PositionRec := { r with dup := r.dup.map tickDup, data := r.data.map tickData }

/-- The ages of a stranger (R93). -/
def tickStranger (e : Stranger) : Stranger :=
  { e with counterAge := satAdd 2000 e.counterAge 1, ageMs := satAdd maxAgeMs e.ageMs 1 }

/-- The remaining time of a learn (R96). -/
def tickLearn (r : LearnRun) : LearnRun := { r with remaining := r.remaining - 1 }

/-- The Tyre Monitor's ages. -/
def tickTyre (t : TyreUnit) : TyreUnit :=
  { t with positions := t.positions.map tickPosition, strangers := t.strangers.map tickStranger,
           learn := t.learn.map tickLearn }

/-- The inertial sample age (R107). -/
def tickInertial (r : InertialRec) : InertialRec := { r with age := mapNat (satAdd 50 1) r.age }

/-- The head wait timer (R125); the marks of the last sample lapse. -/
def tickTests (t : TestUnit) : TestUnit :=
  { t with headWait := if t.queue.isEmpty then t.headWait else satAdd 10000 t.headWait 1, headDue := false }

/-- The stall timer of one class: it runs while the class stands still (R143). DESIGN CHOICE (log entry 66): it is looked at once a
millisecond, so it runs on where the waiting frame leaves unsent and another joins within one millisecond. -/
def tickStall (s : State) (l : LinkPort) (x : TrafficClass) : Nat :=
  if standsStill s l x then satAdd 500 (creditOf (linkPort s l).stall x) 1 else 0

/-- An attempt timer (R137). -/
def tickAttempt (a : Attempt) : Attempt := { a with timer := satAdd 300 a.timer 1 }

/-- The timers of a Tow Link port (R136, R137, R141, R143). -/
def tickPort (s : State) (l : LinkPort) : PortRec :=
  let r := linkPort s l
  { r with
    holdOff := r.holdOff - 1,
    settleTimer := if r.state = .settle then satAdd 200 r.settleTimer 1 else r.settleTimer,
    attempt := r.attempt.map tickAttempt,
    sendTimer := r.sendTimer - 1,
    owedTimer := if noCredits r.owed then 0 else satAdd 20 r.owedTimer 1,
    stall := ⟨tickStall s l .demand, tickStall s l .status, tickStall s l .service⟩,
    decayTimer := satAdd 125 r.decayTimer 1 }

/-- A waiting SERVICE_RESP (R150). -/
def tickHeld (h : HeldResp) : HeldResp := { h with waited := h.waited + 1 }

/-- The Tow Link Controller's timers. -/
def tickLink (s : State) : LinkUnit :=
  { s.link with
    up := tickPort s .up, down := tickPort s .down, heldResps := s.link.heldResps.map tickHeld,
    answerWait := if answerWaits s then s.link.answerWait + 1 else 0,
    sincePeriodic := if s.link.up.state = .active then satAdd 100 s.link.sincePeriodic 1 else s.link.sincePeriodic }

/-- The timers of the Staging Record (R162). -/
def tickStaging (g : Staging) : Staging :=
  { g with
    idleTimer := if g.state = .opened then satAdd 30000 g.idleTimer 1 else g.idleTimer,
    sealTimer := if g.state = .sealed then satAdd 5000 g.sealTimer 1 else g.sealTimer }

/-- The mark of the last sample lapses. -/
def tickSkid (k : SkidRec) : SkidRec := { k with stepDue := false }

/-- One millisecond passes. -/
def tick (s : State) : State :=
  { s with
    standby := tickStandby s.standby,
    wheels := { s.wheels with wheel := s.wheels.wheel.map tickWheel },
    channels := s.channels.map tickChannel,
    demand := { s.demand with table := s.demand.table.map tickTable },
    driver := tickDriver s.driver,
    skid := s.skid.map tickSkid,
    tyre := tickTyre s.tyre,
    roll := { s.roll with inertial := tickInertial s.roll.inertial },
    tests := tickTests s.tests,
    link := tickLink s,
    cal := { s.cal with staging := tickStaging s.cal.staging } }

end Sys2Proof.Machine
end

