-- ==== Sys2Proof/Machine/Due.lean ====
section
/-! DEFINITION. When each timed row of the table is due: the condition its rule gives, read from the state. A timed row taken
while it is not due changes nothing (log entry 2). -/

namespace Sys2Proof.Machine

/-- An event that comes about only while its condition holds; the live faults are then brought up to date. -/
def whenDue (due : Bool) (event : State → State) (s : State) : State := if due then refreshFaults (event s) else s

/-- STARTING ends when its timer has reached 200 ms (R174). -/
def startingOver (s : State) : Bool := s.standby.opState == .starting && decide (200 ≤ s.standby.startingTimer)

/-- The wake timer has run out in PARKED (R177). -/
def wakeTimerOver (s : State) : Bool := isParked s && s.standby.wakeTimer == some 0

/-- The tracking timer of an ELECTRONIC channel has reached 400 ms (R13). -/
def trackingOver (s : State) (c : Channel) : Bool := electronic s c && decide (400 ≤ runMs (channelOf s c).tracking)

/-- The onset time has reached 200 ms (R15). -/
def emergencyDue (s : State) : Bool := isRunning s && !s.supply.emergency && decide (200 ≤ runMs s.supply.onset)

/-- The recovery time has reached 1000 ms (R15). -/
def recoveryDue (s : State) : Bool := isRunning s && s.supply.emergency && decide (1000 ≤ runMs s.supply.recovery)

/-- The LOW_RESERVOIR measurement has reached 1000 ms (R19). -/
def lowReservoirDue (s : State) : Bool :=
  isRunning s && !s.supply.lowReservoir && decide (1000 ≤ runMs s.supply.lowMeasure)

/-- Both demand sources are at hand. -/
def bothSources (s : State) : Bool := s.driver.linkPresent && s.driver.lineLevel.isSome

/-- The onset timer of a mismatch has reached 500 ms (R33). -/
def mismatchDue (s : State) : Bool := bothSources s && !s.driver.mismatch && decide (500 ≤ runMs s.driver.onset)

/-- The recovery timer of a mismatch has reached 2000 ms (R34). -/
def agreementDue (s : State) : Bool := bothSources s && s.driver.mismatch && decide (2000 ≤ runMs s.driver.recovery)

/-- LINK age has reached 100 ms (R29). -/
def linkAged (s : State) : Bool := s.driver.linkPresent && decide (100 ≤ s.driver.linkAge.getD 65535)

/-- The remaining lifetime of a port's entry has run out (R25). -/
def entryExpired (s : State) (p : Port) (c : Channel) : Bool :=
  match entryOf s c (portSource p) with
  | none => false
  | some e => e.lifetime == some 0

/-- Whether a valve's on-time has ended (R11). -/
def pulseOver : ValveDrive → Bool
  | .closed => false
  | .held => false
  | .pulsed n => decide (n = 0)

/-- A pulsed valve of a channel has reached the end of its on-time (R11). -/
def onTimeOver (s : State) (c : Channel) : Bool := pulseOver (channelOf s c).inlet || pulseOver (channelOf s c).exhaust

/-- A load update is due: 100 ms of samples in RUNNING since the last one (R59). -/
def loadDue (s : State) : Bool := isRunning s && decide (100 ≤ s.load.sinceUpdate)

/-- The learn's remaining time has run out (R98). -/
def learnOver (s : State) : Bool :=
  match s.tyre.learn with
  | none => false
  | some r => decide (r.remaining = 0)

/-- The age of a position's data has reached 600 s (R92). -/
def staleDue (s : State) (n : Nat) : Bool :=
  match (positionOf s n).data with
  | none => false
  | some d => decide (600 ≤ d.ageMs / 1000) && !d.stale

/-- The inertial sample age has reached 50 ms (R107). -/
def inertialAged (s : State) : Bool := s.roll.inertial.available && decide (50 ≤ s.roll.inertial.age.getD 50)

/-- The calm timer has reached 300 ms in WATCH (R115). -/
def calmOver (s : State) : Bool :=
  isRunning s && s.roll.stage.stage == .watch && decide (300 ≤ runMs s.roll.stage.calm)

/-- The probe timer has reached 300 ms (R117). -/
def probeOver (s : State) : Bool :=
  isRunning s && s.roll.stage.stage == .probe && decide (300 ≤ s.roll.stage.probeTimer)

/-- An intervention has run its course (R120). -/
def interveneDue (s : State) : Bool := isRunning s && s.roll.stage.stage == .intervene && interveneOver s

/-- A RECOVER step is due (R121). -/
def recoverDue (s : State) : Bool := isRunning s && s.roll.stage.stage == .recover && decide (100 ≤ s.roll.stage.ramp)

/-- The idle timer has reached 30000 ms in OPEN (R162). -/
def idleOver (s : State) : Bool := s.cal.staging.state == .opened && decide (30000 ≤ s.cal.staging.idleTimer)

/-- The seal timer has reached 5000 ms in SEALED (R162). -/
def sealOver (s : State) : Bool := s.cal.staging.state == .sealed && decide (5000 ≤ s.cal.staging.sealTimer)

/-- A Tow Link port's hold-off has run out (R136). -/
def holdOffOver (s : State) (l : LinkPort) : Bool :=
  (linkPort s l).holdOffRunning && decide ((linkPort s l).holdOff = 0)

/-- The upstream settle timer has reached 200 ms (R136). -/
def settleOver (s : State) : Bool := s.link.up.state == .settle && decide (200 ≤ s.link.up.settleTimer)

/-- The downstream port may enter TRAIN (R136). -/
def downstreamMayTrain (s : State) : Bool :=
  s.link.down.state == .settle && decide (200 ≤ s.link.down.settleTimer) && s.link.ownPosition.isSome &&
  s.link.up.state == .active

/-- 125 ms since the last decay of the error count (R141). -/
def decayDue (s : State) (l : LinkPort) : Bool := decide (125 ≤ (linkPort s l).decayTimer)

/-- 100 ms since the last own periodic frame was built, in ACTIVE (R147). -/
def periodicDue (s : State) : Bool := s.link.up.state == .active && decide (100 ≤ s.link.sincePeriodic)

/-- Activity on a line that a port in DOWN takes up: it settles, or, upstream in PARKED, wakes the part (R136, R140). -/
def activityDue (s : State) (l : LinkPort) : Bool :=
  maySettle s l || (isParked s && l == .up && s.link.up.activity)

/-- The head of the upstream STATUS queue can leave (R146). -/
def statusSendable (s : State) : Bool := maySend s .up .status && !s.link.statusQueue.isEmpty

/-- The downstream DEMAND slot can send (R145). -/
def demandSendable (s : State) : Bool := maySend s .down .demand && s.link.demandSlot.isSome

/-- The head of a SERVICE queue can leave (R143, R150). -/
def serviceSendable (s : State) (l : LinkPort) : Bool := maySend s l .service && frameWaits s l .service

end Sys2Proof.Machine
end

