-- ==== Sys2Proof/Machine/EstimatorFamily.lean ====
section
/-! DEFINITION. The meanings of the rows of load estimation and the tyre monitor that no port sends (chapters 4 and 5). -/

namespace Sys2Proof.Machine

/-- LOAD_UPDATE (R59). -/
def execLoadUpdate (s : State) : Host.Outcome State Fault Refusal := .next (whenDue (loadDue s) loadUpdate s)

/-- TYRE_TELEGRAM (R82): taken in every operating state. -/
def execTyreTelegram (bytes : List Byte) (s : State) : Host.Outcome State Fault Refusal :=
  .next (refreshFaults (takeTelegram bytes s))

/-- LEARN_TIMEOUT (R98): the learn ends with outcome TIMEOUT, and Port A is told. -/
def execLearnTimeout (s : State) : Host.Outcome State Fault Refusal :=
  .next (whenDue (learnOver s) (fun t => raiseLearnOutcome (endLearn .timeout none t)) s)

/-- TYRE_STALE (R92). -/
def execTyreStale (position : Nat) (s : State) : Host.Outcome State Fault Refusal :=
  .next (whenDue (positionOk position && staleDue s position) (setStale position) s)

end Sys2Proof.Machine
end

