-- ==== Sys2Proof/Machine/LinkFamily.lean ====
section
/-! DEFINITION. The meanings of the rows of the Tow Link (chapter 8). -/

namespace Sys2Proof.Machine

/-- The activity level of a port's line recorded. -/
def setActivity (l : LinkPort) (b : Bool) (s : State) : State := setLinkPort s l { linkPort s l with activity := b }

/-- LINE_ACTIVITY (R136, R140): partner activity stands on a line. In PARKED it wakes the part on the upstream line and is
ignored on the downstream one; otherwise a port in DOWN without a hold-off enters SETTLE. -/
def execLineActivity (l : LinkPort) (s : State) : Host.Outcome State Fault Refusal :=
  let s1 := setActivity l true s
  let s2 := if isParked s1 then (match l with | .up => wake .link s1 | .down => s1)
            else if maySettle s1 l then enterSettle l s1 else s1
  .next (refreshFaults s2)

/-- LINE_LOSS (R140): the activity on a line is lost; a port that is not DOWN enters DOWN without a hold-off. -/
def execLineLoss (l : LinkPort) (s : State) : Host.Outcome State Fault Refusal :=
  .next (refreshFaults (enterDown l .lineLoss 0 false (setActivity l false s)))

/-- The hold-off of a port has run out (R136): the error hold-off flag is cleared, and a port with activity enters SETTLE. -/
def endHoldOff (l : LinkPort) (s : State) : State :=
  let s1 := setLinkPort s l { linkPort s l with holdOffRunning := false, errorHoldOff := false }
  if maySettle s1 l then enterSettle l s1 else s1

/-- LINK_HOLD_OFF_EXPIRY (R136). -/
def execLinkHoldOffExpiry (l : LinkPort) (s : State) : Host.Outcome State Fault Refusal :=
  .next (whenDue (holdOffOver s l) (endHoldOff l) s)

/-- SETTLE_EXPIRY (R136): the upstream port enters TRAIN. -/
def execSettleExpiry (s : State) : Host.Outcome State Fault Refusal := .next (whenDue (settleOver s) (enterTrain .up) s)

/-- DOWNSTREAM_TRAIN_START (R136): the downstream port enters TRAIN. -/
def execDownstreamTrainStart (s : State) : Host.Outcome State Fault Refusal :=
  .next (whenDue (downstreamMayTrain s) (enterTrain .down) s)

/-- A TRAIN frame of an attempt goes out (R137): heard-you equals heard partner, and the next is due 20 ms later. -/
def sendAttemptFrame (l : LinkPort) (s : State) : State :=
  let s1 := sendTrain l (linkPort s l).heard s
  setLinkPort s1 l { linkPort s1 l with sendTimer := 20 }

/-- TRAIN_FRAME_SEND (R137). -/
def execTrainFrameSend (l : LinkPort) (s : State) : Host.Outcome State Fault Refusal :=
  .next (whenDue (trainDue s l) (sendAttemptFrame l) s)

/-- TRAIN_ATTEMPT_TIMEOUT (R137). -/
def execTrainAttemptTimeout (l : LinkPort) (s : State) : Host.Outcome State Fault Refusal :=
  .next (whenDue (attemptOver s l) (failAttempt l) s)

/-- TRAIN_FRAME_RECEIVED (R137). -/
def execTrainFrameReceived (l : LinkPort) (f : LinkFrame) (s : State) : Host.Outcome State Fault Refusal :=
  .next (refreshFaults (receiveTrain l { f with kind := 0 } s))

/-- LINK_BAD_FRAME (R141, R182). -/
def execLinkBadFrame (l : LinkPort) (s : State) : Host.Outcome State Fault Refusal := .next (refreshFaults (countBad l s))

/-- The error count falls by 1, with a floor of 0 (R141). -/
def decayErrors (l : LinkPort) (s : State) : State :=
  let r := linkPort s l
  setLinkPort s l { r with errorCount := r.errorCount - 1, decayTimer := 0 }

/-- ERROR_COUNT_DECAY (R141). -/
def execErrorCountDecay (l : LinkPort) (s : State) : Host.Outcome State Fault Refusal :=
  .next (whenDue (decayDue s l) (decayErrors l) s)

/-- CREDIT_RETURN_TIMEOUT (R143): a TRAIN frame with heard-you set carries the returns. -/
def execCreditReturnTimeout (l : LinkPort) (s : State) : Host.Outcome State Fault Refusal :=
  .next (whenDue (returnsDue s l) (sendTrain l true) s)

/-- CREDIT_STALL (R143). -/
def execCreditStall (l : LinkPort) (s : State) : Host.Outcome State Fault Refusal :=
  .next (whenDue (anyStalled s l) (enterDown l .creditStall 0 false) s)

/-- DEMAND_FRAME_RECEIVED (R145). -/
def execDemandFrameReceived (f : LinkFrame) (s : State) : Host.Outcome State Fault Refusal :=
  let g := { f with kind := 1 }
  .next (refreshFaults (receiveTraffic .up .demand g (relayDemand g) s))

/-- DEMAND_SLOT_SEND (R145). -/
def execDemandSlotSend (s : State) : Host.Outcome State Fault Refusal := .next (whenDue (demandSendable s) sendDemandSlot s)

/-- STATUS_FRAME_RECEIVED (R149). -/
def execStatusFrameReceived (f : LinkFrame) (s : State) : Host.Outcome State Fault Refusal :=
  let g := { f with kind := 2 }
  .next (refreshFaults (receiveTraffic .down .status g (relayStatus g) s))

/-- STATUS_QUEUE_SEND (R146). -/
def execStatusQueueSend (s : State) : Host.Outcome State Fault Refusal := .next (whenDue (statusSendable s) sendStatusHead s)

/-- The own periodic status frame is built anew (R147). -/
def buildPeriodic (s : State) : State := queuePeriodic (s.setLink { s.link with sincePeriodic := 0 })

/-- OWN_PERIODIC_STATUS (R147). -/
def execOwnPeriodicStatus (s : State) : Host.Outcome State Fault Refusal := .next (whenDue (periodicDue s) buildPeriodic s)

/-- SERVICE_REQ_RECEIVED (R150). -/
def execServiceReqReceived (f : LinkFrame) (s : State) : Host.Outcome State Fault Refusal :=
  let g := { f with kind := 3 }
  .next (refreshFaults (receiveTraffic .up .service g (holdRequest g) s))

/-- SERVICE_REQ_PROCESS (R150, R151). -/
def execServiceReqProcess (s : State) : Host.Outcome State Fault Refusal :=
  match readyRequest s with
  | none => .next s
  | some f => .next (refreshFaults (processRequest s f))

/-- SERVICE_RESP_RECEIVED (R150). -/
def execServiceRespReceived (f : LinkFrame) (s : State) : Host.Outcome State Fault Refusal :=
  let g := { f with kind := 4 }
  .next (refreshFaults (receiveTraffic .down .service g (holdResponse g) s))

/-- SERVICE_RESP_JOIN (R150). -/
def execServiceRespJoin (s : State) : Host.Outcome State Fault Refusal :=
  match readyResponse s with
  | none => .next s
  | some f => .next (refreshFaults (joinResponse f s))

/-- SERVICE_QUEUE_SEND (R143, R150). -/
def execServiceQueueSend (l : LinkPort) (s : State) : Host.Outcome State Fault Refusal :=
  .next (whenDue (serviceSendable s l) (sendServiceHead l) s)

/-- FRAME_OF_KIND_NOT_RECEIVED (R144): a good traffic frame of a kind its port does not receive. The slot it took frees at
once, so its credit is owed back. -/
def execFrameOfKindNotReceived (l : LinkPort) (f : LinkFrame) (s : State) : Host.Outcome State Fault Refusal :=
  .next (refreshFaults (receiveTraffic l (kindClass f.kind) f (freeSlot l (kindClass f.kind)) s))

/-- A frame of an unknown kind (R182): dropped and not counted; in ACTIVE its returns are taken under R143. -/
def receiveUnknown (l : LinkPort) (f : LinkFrame) (s : State) : State :=
  if (linkPort s l).state = .active then
    (if returnsExceed (linkPort s l) f then creditError l s else addReturns l f s)
  else s

/-- UNKNOWN_KIND_FRAME (R182). -/
def execUnknownKindFrame (l : LinkPort) (f : LinkFrame) (s : State) : Host.Outcome State Fault Refusal :=
  .next (refreshFaults (receiveUnknown l f s))

end Sys2Proof.Machine
end

