-- ==== Sys2Proof/Machine/PortFrame.lean ====
section
/-! DEFINITION. A transfer on a controller port (R165, R166): the checks every command passes, its answer, and the wake a transfer
gives in PARKED (R178). -/

namespace Sys2Proof.Machine

/-- The answer to a command: response code and result record (R165). -/
structure Reply where
  code : RespCode
  record : List Byte
deriving DecidableEq, Repr

/-- An answer with an empty record. -/
def plainReply (k : RespCode) : Reply := ⟨k, []⟩

/-- What a command does once decoded: its answer, and the state it leaves. -/
abbrev Action := State → Reply × State

/-- A command refused: the answer alone (R166: a refused command changes no state). -/
def refuse (k : RespCode) : Action := fun s => (plainReply k, s)

/-- A command answered OK that acts on the state. -/
def accept (f : State → State) : Action := fun s => (plainReply .ok, f s)

/-- A command taken from one port alone; from the other it is answered DENIED (R166, check 1). -/
def takenFrom (q p : Port) (act : Action) : Action := if p = q then act else refuse .denied

/-- A command whose argument must lie in its accepted set; otherwise it is answered BAD_ARG (R166, check 2). -/
def withArgument (good : Bool) (act : Action) : Action := if good then act else refuse .badArg

/-- A command that a present condition prevents is answered with a code (R166, check 3). -/
def unlessState (bad : State → Bool) (k : RespCode) (act : Action) : Action :=
  fun s => if bad s then refuse k s else act s

/-- A command that names a channel (R126, R127). -/
def withChannel (n : Nat) (act : Channel → Action) : Action :=
  match channelArg n with
  | none => refuse .badArg
  | some c => act c

/-- A transfer that carries a command of a code (R165): the command acts in the state in which the transfer arrives, its
response becomes pending, and in PARKED the transfer is a wake of reason PORT (R178). -/
def transfer (p : Port) (command : Nat) (act : Action) (s : State) : State :=
  let r := act s
  let s1 := answer r.2 p { command := command, code := r.1.code, record := r.1.record }
  refreshFaults (if isParked s then wake .port s1 else s1)

end Sys2Proof.Machine
end

