-- ==== Sys2Proof/Machine/PortCalFamily.lean ====
section
/-! DEFINITION. The CAL_ commands (R156 to R161). -/

namespace Sys2Proof.Machine

/-- Whether a claimant is present and is not the sender (R156). -/
def otherClaims (p : Port) (s : State) : Bool :=
  match s.cal.staging.claimant with
  | none => false
  | some q => !(q == p)

/-- Whether the sender is the claimant. -/
def isClaimant (p : Port) (s : State) : Bool := s.cal.staging.claimant == some p

/-- Whether the Staging Record is in a state. -/
def stagingIs (k : StagingState) (s : State) : Bool := s.cal.staging.state == k

/-- The idle timer set to 0 by a command of the claimant in OPEN, whatever its answer (R158, R159). -/
def touchIdle (p : Port) (s : State) : State :=
  if stagingIs .opened s && isClaimant p s then setStaging { s.cal.staging with idleTimer := 0 } s else s

/-- A command that restarts the idle timer first. -/
def touching (p : Port) (act : Action) : Action := fun s => act (touchIdle p s)

/-- The record opened for a port as an edit of the set in force (R157). -/
def openStaging (p : Port) (s : State) : State :=
  setStaging { s.cal.staging with
    state := .opened, claimant := some p, content := s.cal.active, pointer := 0, idleTimer := 0, sealedCheck := none } s

/-- CAL_BEGIN (R157): BUSY outside FREE. -/
def execCalBegin (p : Port) (s : State) : Host.Outcome State Fault Refusal :=
  .next (transfer p 15 (unlessState (fun t => !stagingIs .free t) .busy (accept (openStaging p))) s)

/-- The pointer written (R158). -/
def setPointer (index : Nat) (s : State) : State := setStaging { s.cal.staging with pointer := index } s

/-- CAL_POINTER (R158). -/
def execCalPointer (p : Port) (index : Nat) (s : State) : Host.Outcome State Fault Refusal :=
  .next (transfer p 16 (touching p (unlessState (otherClaims p) .denied (withArgument (decide (index ≤ 255))
    (unlessState (fun t => !stagingIs .opened t) .notNow (accept (setPointer index)))))) s)

/-- Whether a count lies in 1..6 (R158). -/
def countOk (n : Nat) : Bool := decide (1 ≤ n) && decide (n ≤ 6)

/-- Words written at the pointer (R158): the answer carries the pointer as left. -/
def writeAction (words : List Nat) : Action := fun s =>
  let g := s.cal.staging
  let r := writeWords g.content g.pointer words
  (⟨.ok, field8 r.2⟩, setStaging { g with content := r.1, pointer := r.2 } s)

/-- CAL_WRITE (R158). -/
def execCalWrite (p : Port) (count : Nat) (words : List Nat) (s : State) : Host.Outcome State Fault Refusal :=
  .next (transfer p 17 (touching p (unlessState (otherClaims p) .denied (withArgument (countOk count)
    (unlessState (fun t => !stagingIs .opened t) .notNow (writeAction (words.take count)))))) s)

/-- Staged words returned (R158). -/
def readStagedAction (index count : Nat) : Action := fun s => (⟨.ok, readWords s.cal.staging.content index count⟩, s)

/-- CAL_READ (R158): taken from either port. -/
def execCalRead (p : Port) (index count : Nat) (s : State) : Host.Outcome State Fault Refusal :=
  .next (transfer p 18 (touching p (withArgument (decide (index ≤ 255) && countOk count)
    (unlessState (stagingIs .free) .notNow (readStagedAction index count)))) s)

/-- The record sealed (R159): the check value formed, the seal timer at 0. -/
def sealStaging (s : State) : State :=
  let g := s.cal.staging
  setStaging { g with state := .sealed, sealTimer := 0, sealedCheck := some (crc16 (bytesOfWords g.content)) } s

/-- Seal validation and the seal (R159): on failure the answer carries the index of the failing word, on success the check
value. -/
def sealAction : Action := fun s =>
  match sealFailure s.cal.staging.content with
  | some i => (⟨.badArg, field8 i⟩, s)
  | none => (⟨.ok, bytes16 (crc16 (bytesOfWords s.cal.staging.content))⟩, sealStaging s)

/-- CAL_SEAL (R159). -/
def execCalSeal (p : Port) (s : State) : Host.Outcome State Fault Refusal :=
  .next (transfer p 19 (touching p (unlessState (otherClaims p) .denied
    (unlessState (fun t => !stagingIs .opened t) .notNow sealAction))) s)

/-- The record armed, and the safe-point test made at once (R160, R163). -/
def armStaging (s : State) : State := tryApply (setStaging { s.cal.staging with state := .armed } s)

/-- A seal discarded for a check value that does not match (R160). -/
def mismatchStaging (s : State) : State := returnFree .mismatch (latchEvent calMismatchIndex s)

/-- The comparison of CAL_CONFIRM in SEALED (R160). -/
def confirmAction (check : Nat) : Action := fun s =>
  if s.cal.staging.sealedCheck = some check then accept armStaging s
  else (plainReply .badArg, mismatchStaging s)

/-- CAL_CONFIRM (R160): DENIED from the claimant, NOT_NOW outside SEALED. -/
def execCalConfirm (p : Port) (check : Nat) (s : State) : Host.Outcome State Fault Refusal :=
  .next (transfer p 20 (unlessState (isClaimant p) .denied
    (unlessState (fun t => !stagingIs .sealed t) .notNow (confirmAction check))) s)

/-- CAL_ABANDON (R161): by the claimant in OPEN and SEALED, by either port in ARMED. -/
def execCalAbandon (p : Port) (s : State) : Host.Outcome State Fault Refusal :=
  .next (transfer p 21 (unlessState (fun t => otherClaims p t && !stagingIs .armed t) .denied
    (unlessState (stagingIs .free) .notNow (accept (returnFree .abandoned)))) s)

end Sys2Proof.Machine
end

