-- ==== Sys2Proof/Machine/PortDemandFamily.lean ====
section
/-! DEFINITION. The port commands on demand, backup and tests (R6, R7, R24, R26, R126, R127). -/

namespace Sys2Proof.Machine

/-- The entry a port command posts (R24): level and lifetime clamped, detail absent. -/
def portEntry (level lifetime : Nat) : Entry :=
  { level := levelArg level, lifetime := some (lifetimeArg lifetime), detail := none }

/-- BAD_COMMAND_FRAME (R165): not taken, answered BAD_ARG with NONE echoed. -/
def execBadCommandFrame (p : Port) (s : State) : Host.Outcome State Fault Refusal :=
  .next (transfer p 0 (refuse .badArg) s)

/-- NONE (R165): answered OK, changes no state. -/
def execNoCommand (p : Port) (s : State) : Host.Outcome State Fault Refusal :=
  .next (transfer p 0 (refuse .ok) s)

/-- POST_APPLY (R24): taken from Port A. -/
def execPostApply (p : Port) (mask level lifetime : Nat) (s : State) : Host.Outcome State Fault Refusal :=
  .next (transfer p 1 (takenFrom .a p (withArgument (maskOk mask) (unlessState isParked .notNow
    (accept (forMask mask (fun c => post c .ctrlA (portEntry level lifetime))))))) s)

/-- POST_LIMIT (R24): taken from Port B. -/
def execPostLimit (p : Port) (mask level lifetime : Nat) (s : State) : Host.Outcome State Fault Refusal :=
  .next (transfer p 2 (takenFrom .b p (withArgument (maskOk mask) (unlessState isParked .notNow
    (accept (forMask mask (fun c => post c .ctrlB (portEntry level lifetime))))))) s)

/-- WITHDRAW (R26): removes the sending port's own entries. -/
def execWithdraw (p : Port) (mask : Nat) (s : State) : Host.Outcome State Fault Refusal :=
  .next (transfer p 3 (withArgument (maskOk mask) (accept (forMask mask (fun c => withdraw c (portSource p))))) s)

/-- D is 15 kPa or above (R7). -/
def driverBraking (s : State) : Bool := decide (15 ≤ s.driver.demand)

/-- The causes a RESTORE leaves on a channel (R7). -/
def restoredCauses (s : State) (c : Channel) : CauseSet :=
  let k := (channelOf s c).causes
  { k with forced := false, tracking := false, testFault := false,
           deliverySensor := k.deliverySensor && (s.front.delivery.get c).isNone }

/-- RESTORE of one channel (R7). -/
def restoreChannel (c : Channel) (s : State) : State := reenableAntiLock c (keepCauses (restoredCauses s c) c s)

/-- RESTORE (R7): taken from Port B. -/
def execRestore (p : Port) (mask : Nat) (s : State) : Host.Outcome State Fault Refusal :=
  .next (transfer p 4 (takenFrom .b p (withArgument (maskOk mask) (unlessState driverBraking .notNow
    (accept (forMask mask restoreChannel))))) s)

/-- FORCE_BACKUP (R6): taken from either port. -/
def execForceBackup (p : Port) (mask : Nat) (s : State) : Host.Outcome State Fault Refusal :=
  .next (transfer p 5 (withArgument (maskOk mask) (accept (forMask mask (addCause .forced)))) s)

/-- Whether a channel stands in the Test Queue. -/
def isQueued (s : State) (c : Channel) : Bool := s.tests.queue.any (fun q => q.channel == c)

/-- A request joins the back of the Test Queue (R125, R126). -/
def enqueueTest (p : Port) (c : Channel) (s : State) : State :=
  s.setTests { s.tests with
    queue := s.tests.queue ++ [⟨c, p⟩],
    headWait := if s.tests.queue.isEmpty then 0 else s.tests.headWait }

/-- REQUEST_TEST (R126). -/
def execRequestTest (p : Port) (channel : Nat) (s : State) : Host.Outcome State Fault Refusal :=
  .next (transfer p 6 (withChannel channel (fun c => unlessState isParked .notNow
    (unlessState (fun t => isQueued t c || underTest t c) .already
      (unlessState (fun t => decide (4 ≤ t.tests.queue.length)) .busy (accept (enqueueTest p c)))))) s)

/-- A queued request is cancelled (R127): its result is ABORTED, CANCELLED. -/
def cancelQueued (c : Channel) (s : State) : State :=
  match s.tests.queue.find? (fun q => q.channel == c) with
  | none => s
  | some q =>
    storeResult c q.port (emptyResult .aborted .cancelled q.port) (keepRequests (fun r => r.channel != c) s)

/-- CANCEL_TEST of a channel (R127): queued, under test, or neither. -/
def cancelTest (c : Channel) (s : State) : State := abortTestOf c .cancelled (cancelQueued c s)

/-- CANCEL_TEST (R127). -/
def execCancelTest (p : Port) (channel : Nat) (s : State) : Host.Outcome State Fault Refusal :=
  .next (transfer p 7 (withChannel channel (fun c => accept (cancelTest c))) s)

end Sys2Proof.Machine
end

