-- ==== Sys2Proof/Machine/PortReadFamily.lean ====
section
/-! DEFINITION. READ, CLEAR_FAULTS and PORT_SYNC (R167, R169 to R171). -/

namespace Sys2Proof.Machine

/-- A part of a record as an answer; a part past its end is answered BAD_ARG (R167). -/
def partReply (record : List Byte) (part : Nat) (after : State → State) : Action := fun s =>
  match recordPart record part with
  | none => refuse .badArg s
  | some bs => (⟨.ok, bs⟩, after s)

/-- READ of ATTENTION (R170): index 0 alone; the record is returned as it stands and every flag of it cleared. -/
def attentionAction (p : Port) (index part : Nat) : Action := fun s =>
  if index = 0 then
    partReply (attentionRecord p (portOf s p).attention) part (fun t => setAttention t p Attention.empty) s
  else refuse .badArg s

/-- READ of any other table (R167): changes no state. -/
def readAction (p : Port) (table index part : Nat) : Action := fun s =>
  match tableRecord (portView p) s table index with
  | none => refuse .badArg s
  | some bs => partReply bs part id s

/-- READ (R167). A READ of the table ATTENTION is the row READ_ATTENTION. -/
def execRead (p : Port) (table index part : Nat) (s : State) : Host.Outcome State Fault Refusal :=
  .next (transfer p 22 (if table = attentionTable then attentionAction p index part else readAction p table index part) s)

/-- READ_ATTENTION (R170). -/
def execReadAttention (p : Port) (index part : Nat) (s : State) : Host.Outcome State Fault Refusal :=
  .next (transfer p 22 (attentionAction p index part) s)

/-- CLEAR_FAULTS (R169): clears the sending port's view. -/
def execClearFaults (p : Port) (s : State) : Host.Outcome State Fault Refusal :=
  .next (transfer p 23 (accept (clearFaultView (portView p))) s)

/-- The Staging Record at a PORT_SYNC (R161, R171): discarded where the sender is the claimant in OPEN or SEALED. -/
def syncStaging (p : Port) (s : State) : State :=
  let g := s.cal.staging
  if g.claimant = some p ∧ (g.state = .opened ∨ g.state = .sealed) then discardBySync p s else s

/-- The learn record at a PORT_SYNC (R98, R171): a learn is cancelled by Port A, without raising its flag. -/
def syncLearn (p : Port) (s : State) : State :=
  match p with
  | .b => s
  | .a => if s.tyre.learn.isSome then endLearn .cancelled none s else s

/-- PORT_SYNC (R171): the sending port's entries, queued tests, staging and learn are dropped, its attention record cleared,
and its view set to the live faults. DESIGN CHOICE (log entry 55): a test of the port's own that the removal of its entries aborts
(R133, DEMAND) raises its test result flag before the record is cleared, so the flag does not survive the sync. -/
def syncPort (p : Port) (s : State) : State :=
  let s1 := forChannels (fun c t => withdraw c (portSource p) t) s
  let s2 := keepRequests (fun q => q.port != p) s1
  let s3 := refreshFaults (syncLearn p (syncStaging p s2))
  clearFaultView (portView p) (setAttention s3 p Attention.empty)

/-- PORT_SYNC (R171): taken from either port in every operating state. -/
def execPortSync (p : Port) (s : State) : Host.Outcome State Fault Refusal :=
  .next (transfer p 24 (accept (syncPort p)) s)

end Sys2Proof.Machine
end

