-- ==== Sys2Proof/Machine/PortTyreFamily.lean ====
section
/-! DEFINITION. The port commands on tyre positions, the Tow Link and standby (R95 to R102, R139, R175). -/

namespace Sys2Proof.Machine

/-- TYRE_LEARN (R96): BUSY while a learn is in progress. -/
def execTyreLearn (p : Port) (position : Nat) (s : State) : Host.Outcome State Fault Refusal :=
  .next (transfer p 8 (takenFrom .a p (withArgument (positionOk position)
    (unlessState (fun t => t.tyre.learn.isSome) .busy (accept (beginLearn position))))) s)

/-- TYRE_ASSIGN (R100): ALREADY where the position holds that ID. -/
def execTyreAssign (p : Port) (position sensor : Nat) (s : State) : Host.Outcome State Fault Refusal :=
  .next (transfer p 9 (takenFrom .a p (withArgument (positionOk position)
    (unlessState (fun t => (positionOf t position).sensor == some sensor) .already
      (accept (assignSensor position sensor))))) s)

/-- TYRE_ADOPT (R101): an index at or past the end of the Stranger List is answered BAD_ARG. -/
def adoptAction (position index : Nat) : Action := fun s =>
  match s.tyre.strangers[index]? with
  | none => refuse .badArg s
  | some e => accept (adoptStranger position e) s

/-- TYRE_ADOPT (R101). -/
def execTyreAdopt (p : Port) (position index : Nat) (s : State) : Host.Outcome State Fault Refusal :=
  .next (transfer p 10 (takenFrom .a p (withArgument (positionOk position) (adoptAction position index))) s)

/-- TYRE_CLEAR (R102). -/
def execTyreClear (p : Port) (position : Nat) (s : State) : Host.Outcome State Fault Refusal :=
  .next (transfer p 11 (takenFrom .a p (withArgument (positionOk position) (accept (clearPosition position)))) s)

/-- LINK_ENABLE (R139): the setting becomes ENABLED, and an upstream port in READY passes to ACTIVE. -/
def enableLink (s : State) : State := testReady (s.setLink { s.link with enable := .enabled })

/-- LINK_DISABLE (R139): the setting becomes DISABLED, and an upstream port that is not DOWN enters DOWN. -/
def disableLink (s : State) : State := enterDown .up .disabled 0 false (s.setLink { s.link with enable := .disabled })

/-- LINK_ENABLE (R139): taken from Port A. -/
def execLinkEnable (p : Port) (s : State) : Host.Outcome State Fault Refusal :=
  .next (transfer p 12 (takenFrom .a p (accept enableLink)) s)

/-- LINK_DISABLE (R139): taken from Port A. -/
def execLinkDisable (p : Port) (s : State) : Host.Outcome State Fault Refusal :=
  .next (transfer p 13 (takenFrom .a p (accept disableLink)) s)

/-- The answer and effect of STANDBY from Port A (R175): NOT_NOW with a reason, or OK and the entry into PARKED. -/
def standbyAction : Action := fun s =>
  match standbyRefusal s with
  | some n => (⟨.notNow, field8 n⟩, s)
  | none => accept enterParked s

/-- STANDBY (R175): taken from Port A. -/
def execStandby (p : Port) (s : State) : Host.Outcome State Fault Refusal :=
  .next (transfer p 14 (takenFrom .a p standbyAction) s)

end Sys2Proof.Machine
end

