-- ==== Sys2Proof/Machine/PressureFamily.lean ====
section
/-! DEFINITION. The meanings of the rows of the pressure channels and the demand resolver (chapters 1 and 2). -/

namespace Sys2Proof.Machine

/-- PRESSURE_SAMPLE (R9). -/
def execPressureSample (x : SampleSet) (s : State) : Host.Outcome State Fault Refusal := .next (pressureSample x s)

/-- TRACKING_TIMEOUT (R13): TRACKING is added. -/
def execTrackingTimeout (c : Channel) (s : State) : Host.Outcome State Fault Refusal :=
  .next (whenDue (trackingOver s c) (addCause .tracking c) s)

/-- The emergency is set (R15): EMERG entries in all four tables and an own event frame. -/
def setEmergency (s : State) : State :=
  queueEvent (forChannels postEmerg (s.setSupply { s.supply with emergency := true, onset := none, recovery := none }))

/-- EMERGENCY_ONSET (R15, R16). -/
def execEmergencyOnset (s : State) : Host.Outcome State Fault Refusal := .next (whenDue (emergencyDue s) setEmergency s)

/-- The emergency is cleared (R15): the EMERG entries are withdrawn, and an own event frame is queued. -/
def clearEmergency (s : State) : State :=
  queueEvent (forChannels (fun c t => withdraw c .emerg t)
    (s.setSupply { s.supply with emergency := false, onset := none, recovery := none }))

/-- EMERGENCY_RECOVERY (R15). -/
def execEmergencyRecovery (s : State) : Host.Outcome State Fault Refusal :=
  .next (whenDue (recoveryDue s) clearEmergency s)

/-- LOW_RESERVOIR goes live (R19). -/
def setLowReservoir (s : State) : State :=
  queueEvent (s.setSupply { s.supply with lowReservoir := true, lowMeasure := none })

/-- LOW_RESERVOIR_ONSET (R19). -/
def execLowReservoirOnset (s : State) : Host.Outcome State Fault Refusal :=
  .next (whenDue (lowReservoirDue s) setLowReservoir s)

/-- The mismatch flag is set and D is formed anew by select-high (R33). -/
def setMismatch (s : State) : State := formDemand (s.setDriver { s.driver with mismatch := true, recovery := none })

/-- MISMATCH_ONSET (R33). -/
def execMismatchOnset (s : State) : Host.Outcome State Fault Refusal := .next (whenDue (mismatchDue s) setMismatch s)

/-- The mismatch ends and D is formed anew (R34). -/
def clearMismatch (s : State) : State := formDemand (s.setDriver (endMismatch s.driver))

/-- MISMATCH_RECOVERY (R34). -/
def execMismatchRecovery (s : State) : Host.Outcome State Fault Refusal := .next (whenDue (agreementDue s) clearMismatch s)

/-- LINK_AGE_EXPIRY (R29): LINK becomes absent and D is formed anew. -/
def execLinkAgeExpiry (s : State) : Host.Outcome State Fault Refusal := .next (whenDue (linkAged s) loseLink s)

/-- CTRL_ENTRY_EXPIRY (R25): the entry is removed and the channel resolved. -/
def execCtrlEntryExpiry (p : Port) (c : Channel) (s : State) : Host.Outcome State Fault Refusal :=
  .next (whenDue (entryExpired s p c) (withdraw c (portSource p)) s)

/-- A valve closed if its on-time has ended. -/
def closeEnded (v : ValveDrive) : ValveDrive := if pulseOver v then .closed else v

/-- A pulsed valve closes at the end of its on-time (R11). -/
def endOnTime (c : Channel) (s : State) : State :=
  let r := channelOf s c
  setChannel s c { r with inlet := closeEnded r.inlet, exhaust := closeEnded r.exhaust }

/-- ON_TIME_END (R11). -/
def execOnTimeEnd (c : Channel) (s : State) : Host.Outcome State Fault Refusal :=
  .next (whenDue (onTimeOver s c) (endOnTime c) s)

end Sys2Proof.Machine
end

