-- ==== Sys2Proof/Machine/ResetFamily.lean ====
section
/-! DEFINITION. The meanings of the reset, start-up and wake rows. -/

namespace Sys2Proof.Machine

/-- POWER_ON_RESET (R173): every block takes its reset values, cause POWER_ON. -/
def execPowerOnReset (s : State) : Host.Outcome State Fault Refusal := .next (resetState .powerOn s)

/-- PIN_RESET (R173): every block takes its reset values, cause PIN. -/
def execPinReset (s : State) : Host.Outcome State Fault Refusal := .next (resetState .pin s)

/-- STARTING_TIMER_EXPIRY (R174). -/
def execStartingTimerExpiry (s : State) : Host.Outcome State Fault Refusal := .next (whenDue (startingOver s) enterRunning s)

/-- WAKE_TIMER_EXPIRY (R177). -/
def execWakeTimerExpiry (s : State) : Host.Outcome State Fault Refusal := .next (whenDue (wakeTimerOver s) (wake .timer) s)

end Sys2Proof.Machine
end

