-- ==== Sys2Proof/Machine/RolloverFamily.lean ====
section
/-! DEFINITION. The meanings of the rows of rollover prevention that stand outside the pressure sample (chapter 6). -/

namespace Sys2Proof.Machine

/-- INERTIAL_SAMPLE (R106): taken in every operating state. -/
def execInertialSample (bytes : List Byte) (s : State) : Host.Outcome State Fault Refusal :=
  .next (refreshFaults (takeInertial bytes s))

/-- The acceleration indicator becomes unavailable (R107). -/
def loseInertial (s : State) : State :=
  s.setRoll { s.roll with inertial := { s.roll.inertial with available := false } }

/-- INERTIAL_AGE_EXPIRY (R107). -/
def execInertialAgeExpiry (s : State) : Host.Outcome State Fault Refusal := .next (whenDue (inertialAged s) loseInertial s)

/-- ROLLOVER_CALM_TO_QUIET (R115): WATCH passes to QUIET. -/
def execRolloverCalmToQuiet (s : State) : Host.Outcome State Fault Refusal :=
  .next (whenDue (calmOver s) (plainStage .quiet) s)

/-- PROBE_TIMEOUT (R117): PROBE passes to WATCH. -/
def execProbeTimeout (s : State) : Host.Outcome State Fault Refusal := .next (whenDue (probeOver s) probeToWatch s)

/-- INTERVENE_END (R120): INTERVENE passes to RECOVER. -/
def execInterveneEnd (s : State) : Host.Outcome State Fault Refusal := .next (whenDue (interveneDue s) enterRecover s)

/-- RECOVER_STEP (R121): the ROLL levels fall by 50 kPa. -/
def execRecoverStep (s : State) : Host.Outcome State Fault Refusal := .next (whenDue (recoverDue s) stepRecover s)

end Sys2Proof.Machine
end

