-- ==== Sys2Proof/Machine/TestFamily.lean ====
section
/-! DEFINITION. The meanings of the rows of the chamber response test and the calibration timeouts that no port sends (chapters 7
and 9). -/

namespace Sys2Proof.Machine

/-- TEST_START (R128): the head examined at the last sample starts. -/
def execTestStart (s : State) : Host.Outcome State Fault Refusal :=
  match startableHead s with
  | none => .next s
  | some q => .next (refreshFaults (startTest q s))

/-- TEST_HEAD_TIMEOUT (R128): the head has waited 10 s and is refused. -/
def execTestHeadTimeout (s : State) : Host.Outcome State Fault Refusal :=
  .next (whenDue (headOverdue s) (refuseHead .timeout) s)

/-- TEST_PULSE_END (R130). -/
def execTestPulseEnd (s : State) : Host.Outcome State Fault Refusal :=
  match testOver .pulse s with
  | none => .next s
  | some t => .next (refreshFaults (endPulse t s))

/-- TEST_SETTLE_END (R130). -/
def execTestSettleEnd (s : State) : Host.Outcome State Fault Refusal :=
  match testOver .settle s with
  | none => .next s
  | some t => .next (refreshFaults (endSettle t s))

/-- TEST_VENT_END (R131, R132). -/
def execTestVentEnd (s : State) : Host.Outcome State Fault Refusal :=
  match testOver .vent s with
  | none => .next s
  | some t => .next (refreshFaults (endVent t s))

/-- CAL_IDLE_TIMEOUT (R162). -/
def execCalIdleTimeout (s : State) : Host.Outcome State Fault Refusal := .next (whenDue (idleOver s) timeoutStaging s)

/-- CAL_SEAL_TIMEOUT (R162). -/
def execCalSealTimeout (s : State) : Host.Outcome State Fault Refusal := .next (whenDue (sealOver s) timeoutStaging s)

end Sys2Proof.Machine
end

