-- ==== Sys2Proof/Machine/WheelFamily.lean ====
section
/-! DEFINITION. The meanings of the rows of wheel speed and anti-lock (chapter 3). -/

namespace Sys2Proof.Machine

/-- WHEEL_PULSE (R40): the pulse is captured; in PARKED it is a wake of reason MOTION. -/
def execWheelPulse (c : Channel) (micros : Nat) (s : State) : Host.Outcome State Fault Refusal :=
  let w := s.wheels.wheel
  let s1 := s.setWheels { s.wheels with wheel := w.set c (pulseRec micros (w.get c)) }
  .next (refreshFaults (wake .motion s1))

/-- SKID_FORCED_HOLD (R50, R54): RELEASE has lasted 600 ms with slip still at 102 or more. -/
def execSkidForcedHold (c : Channel) (s : State) : Host.Outcome State Fault Refusal :=
  .next (whenDue (skidDue .release 600 s c) (forcedHold c) s)

/-- SKID_HOLD_TIMEOUT (R51): HOLD has lasted 100 ms. -/
def execSkidHoldTimeout (c : Channel) (s : State) : Host.Outcome State Fault Refusal :=
  .next (whenDue (skidDue .hold 100 s c) (enterReapply (((s.skid.get c).held).getD 0) c) s)

/-- SKID_REAPPLY_STEP (R52): 50 ms since the last step. -/
def execSkidReapplyStep (c : Channel) (s : State) : Host.Outcome State Fault Refusal :=
  .next (whenDue (skidDue .reapply 50 s c) (reapplyStep c) s)

end Sys2Proof.Machine
end

