-- ==== Sys2Proof/Machine/Dispatch.lean ====
section
/-! DEFINITION. The meaning of every command: one arm per row of spec/opcode_table.json. -/

namespace Sys2Proof.Machine

/-- What a command does to everything but the queue of waiting commands. -/
def exec (i : Instr) (s : State) : Host.Outcome State Fault Refusal :=
  match i with
  | .powerOnReset => Sys2Proof.Machine.execPowerOnReset s
  | .pinReset => Sys2Proof.Machine.execPinReset s
  | .startingTimerExpiry => Sys2Proof.Machine.execStartingTimerExpiry s
  | .pressureSample set => Sys2Proof.Machine.execPressureSample set s
  | .trackingTimeout c => Sys2Proof.Machine.execTrackingTimeout c s
  | .emergencyOnset => Sys2Proof.Machine.execEmergencyOnset s
  | .emergencyRecovery => Sys2Proof.Machine.execEmergencyRecovery s
  | .lowReservoirOnset => Sys2Proof.Machine.execLowReservoirOnset s
  | .mismatchOnset => Sys2Proof.Machine.execMismatchOnset s
  | .mismatchRecovery => Sys2Proof.Machine.execMismatchRecovery s
  | .linkAgeExpiry => Sys2Proof.Machine.execLinkAgeExpiry s
  | .ctrlEntryExpiry p c => Sys2Proof.Machine.execCtrlEntryExpiry p c s
  | .wheelPulse c micros => Sys2Proof.Machine.execWheelPulse c micros s
  | .skidForcedHold c => Sys2Proof.Machine.execSkidForcedHold c s
  | .skidHoldTimeout c => Sys2Proof.Machine.execSkidHoldTimeout c s
  | .skidReapplyStep c => Sys2Proof.Machine.execSkidReapplyStep c s
  | .loadUpdate => Sys2Proof.Machine.execLoadUpdate s
  | .tyreTelegram bytes => Sys2Proof.Machine.execTyreTelegram bytes s
  | .learnTimeout => Sys2Proof.Machine.execLearnTimeout s
  | .tyreStale position => Sys2Proof.Machine.execTyreStale position s
  | .inertialSample bytes => Sys2Proof.Machine.execInertialSample bytes s
  | .inertialAgeExpiry => Sys2Proof.Machine.execInertialAgeExpiry s
  | .rolloverCalmToQuiet => Sys2Proof.Machine.execRolloverCalmToQuiet s
  | .probeTimeout => Sys2Proof.Machine.execProbeTimeout s
  | .interveneEnd => Sys2Proof.Machine.execInterveneEnd s
  | .recoverStep => Sys2Proof.Machine.execRecoverStep s
  | .testStart => Sys2Proof.Machine.execTestStart s
  | .testHeadTimeout => Sys2Proof.Machine.execTestHeadTimeout s
  | .testPulseEnd => Sys2Proof.Machine.execTestPulseEnd s
  | .testSettleEnd => Sys2Proof.Machine.execTestSettleEnd s
  | .testVentEnd => Sys2Proof.Machine.execTestVentEnd s
  | .calIdleTimeout => Sys2Proof.Machine.execCalIdleTimeout s
  | .calSealTimeout => Sys2Proof.Machine.execCalSealTimeout s
  | .wakeTimerExpiry => Sys2Proof.Machine.execWakeTimerExpiry s
  | .lineActivity l => Sys2Proof.Machine.execLineActivity l s
  | .lineLoss l => Sys2Proof.Machine.execLineLoss l s
  | .linkHoldOffExpiry l => Sys2Proof.Machine.execLinkHoldOffExpiry l s
  | .settleExpiry => Sys2Proof.Machine.execSettleExpiry s
  | .downstreamTrainStart => Sys2Proof.Machine.execDownstreamTrainStart s
  | .trainFrameSend l => Sys2Proof.Machine.execTrainFrameSend l s
  | .trainAttemptTimeout l => Sys2Proof.Machine.execTrainAttemptTimeout l s
  | .trainFrameReceived l f => Sys2Proof.Machine.execTrainFrameReceived l f s
  | .linkBadFrame l => Sys2Proof.Machine.execLinkBadFrame l s
  | .errorCountDecay l => Sys2Proof.Machine.execErrorCountDecay l s
  | .creditReturnTimeout l => Sys2Proof.Machine.execCreditReturnTimeout l s
  | .creditStall l => Sys2Proof.Machine.execCreditStall l s
  | .demandFrameReceived f => Sys2Proof.Machine.execDemandFrameReceived f s
  | .demandSlotSend => Sys2Proof.Machine.execDemandSlotSend s
  | .statusFrameReceived f => Sys2Proof.Machine.execStatusFrameReceived f s
  | .statusQueueSend => Sys2Proof.Machine.execStatusQueueSend s
  | .ownPeriodicStatus => Sys2Proof.Machine.execOwnPeriodicStatus s
  | .serviceReqReceived f => Sys2Proof.Machine.execServiceReqReceived f s
  | .serviceReqProcess => Sys2Proof.Machine.execServiceReqProcess s
  | .serviceRespReceived f => Sys2Proof.Machine.execServiceRespReceived f s
  | .serviceRespJoin => Sys2Proof.Machine.execServiceRespJoin s
  | .serviceQueueSend l => Sys2Proof.Machine.execServiceQueueSend l s
  | .badCommandFrame p => Sys2Proof.Machine.execBadCommandFrame p s
  | .noCommand p => Sys2Proof.Machine.execNoCommand p s
  | .postApply p mask level lifetime => Sys2Proof.Machine.execPostApply p mask level lifetime s
  | .postLimit p mask level lifetime => Sys2Proof.Machine.execPostLimit p mask level lifetime s
  | .withdraw p mask => Sys2Proof.Machine.execWithdraw p mask s
  | .restore p mask => Sys2Proof.Machine.execRestore p mask s
  | .forceBackup p mask => Sys2Proof.Machine.execForceBackup p mask s
  | .requestTest p channel => Sys2Proof.Machine.execRequestTest p channel s
  | .cancelTest p channel => Sys2Proof.Machine.execCancelTest p channel s
  | .tyreLearn p position => Sys2Proof.Machine.execTyreLearn p position s
  | .tyreAssign p position sensor => Sys2Proof.Machine.execTyreAssign p position sensor s
  | .tyreAdopt p position index => Sys2Proof.Machine.execTyreAdopt p position index s
  | .tyreClear p position => Sys2Proof.Machine.execTyreClear p position s
  | .linkEnable p => Sys2Proof.Machine.execLinkEnable p s
  | .linkDisable p => Sys2Proof.Machine.execLinkDisable p s
  | .standby p => Sys2Proof.Machine.execStandby p s
  | .calBegin p => Sys2Proof.Machine.execCalBegin p s
  | .calPointer p index => Sys2Proof.Machine.execCalPointer p index s
  | .calWrite p count words => Sys2Proof.Machine.execCalWrite p count words s
  | .calRead p index count => Sys2Proof.Machine.execCalRead p index count s
  | .calSeal p => Sys2Proof.Machine.execCalSeal p s
  | .calConfirm p check => Sys2Proof.Machine.execCalConfirm p check s
  | .calAbandon p => Sys2Proof.Machine.execCalAbandon p s
  | .read p table index part => Sys2Proof.Machine.execRead p table index part s
  | .readAttention p index part => Sys2Proof.Machine.execReadAttention p index part s
  | .clearFaults p => Sys2Proof.Machine.execClearFaults p s
  | .portSync p => Sys2Proof.Machine.execPortSync p s
  | .onTimeEnd c => Sys2Proof.Machine.execOnTimeEnd c s
  | .frameOfKindNotReceived l f => Sys2Proof.Machine.execFrameOfKindNotReceived l f s
  | .unknownKindFrame l f => Sys2Proof.Machine.execUnknownKindFrame l f s

end Sys2Proof.Machine
end

