-- ==== Sys2Proof/Machine/Idle.lean ====
section
/-! DEFINITION. What the block does when no command waits (log entry 1): it takes the first timed row that is due, or, when none is,
lets one millisecond pass. -/

namespace Sys2Proof.Machine

/-- The rows due at the last pressure sample, with their conditions. -/
def sampleRows (s : State) : List (Bool × Instr) :=
  allChannels.map (fun c => (onTimeOver s c, Instr.onTimeEnd c)) ++
  allChannels.map (fun c => (trackingOver s c, Instr.trackingTimeout c)) ++
  [(emergencyDue s, .emergencyOnset), (recoveryDue s, .emergencyRecovery), (lowReservoirDue s, .lowReservoirOnset),
   (mismatchDue s, .mismatchOnset), (agreementDue s, .mismatchRecovery)] ++
  allChannels.map (fun c => (skidDue .release 600 s c, Instr.skidForcedHold c)) ++
  allChannels.map (fun c => (skidDue .hold 100 s c, Instr.skidHoldTimeout c)) ++
  allChannels.map (fun c => (skidDue .reapply 50 s c, Instr.skidReapplyStep c)) ++
  [((testOver .pulse s).isSome, .testPulseEnd), ((testOver .settle s).isSome, .testSettleEnd),
   ((testOver .vent s).isSome, .testVentEnd), (calmOver s, .rolloverCalmToQuiet), (probeOver s, .probeTimeout),
   (interveneDue s, .interveneEnd), (recoverDue s, .recoverStep), (headOverdue s, .testHeadTimeout),
   ((startableHead s).isSome, .testStart), (loadDue s, .loadUpdate)]

/-- The rows due as time passes, Tow Link apart. -/
def timeRows (s : State) : List (Bool × Instr) :=
  [(startingOver s, .startingTimerExpiry), (linkAged s, .linkAgeExpiry)] ++
  allChannels.map (fun c => (entryExpired s .a c, Instr.ctrlEntryExpiry .a c)) ++
  allChannels.map (fun c => (entryExpired s .b c, Instr.ctrlEntryExpiry .b c)) ++
  [(learnOver s, .learnTimeout)] ++
  allPositions.map (fun n => (staleDue s n, Instr.tyreStale n)) ++
  [(inertialAged s, .inertialAgeExpiry), (idleOver s, .calIdleTimeout), (sealOver s, .calSealTimeout),
   (wakeTimerOver s, .wakeTimerExpiry)]

/-- The rows due on one Tow Link port. -/
def portRows (s : State) (l : LinkPort) : List (Bool × Instr) :=
  [(holdOffOver s l, .linkHoldOffExpiry l), (activityDue s l, .lineActivity l),
   (attemptOver s l, .trainAttemptTimeout l), (trainDue s l, .trainFrameSend l), (decayDue s l, .errorCountDecay l)]

/-- The rows due on the Tow Link: port states first, then the queues, then what waits for lack of a frame or a credit. -/
def linkRows (s : State) : List (Bool × Instr) :=
  portRows s .up ++ portRows s .down ++
  [(settleOver s, .settleExpiry), (downstreamMayTrain s, .downstreamTrainStart),
   ((readyRequest s).isSome, .serviceReqProcess), ((readyResponse s).isSome, .serviceRespJoin),
   (periodicDue s, .ownPeriodicStatus), (statusSendable s, .statusQueueSend), (demandSendable s, .demandSlotSend),
   (serviceSendable s .up, .serviceQueueSend .up), (serviceSendable s .down, .serviceQueueSend .down),
   (returnsDue s .up, .creditReturnTimeout .up), (returnsDue s .down, .creditReturnTimeout .down),
   (anyStalled s .up, .creditStall .up), (anyStalled s .down, .creditStall .down)]

/-- The first timed row that is due, if any. -/
def nextDue (s : State) : Option Instr :=
  ((sampleRows s ++ timeRows s ++ linkRows s).find? (fun r => r.1)).map Prod.snd

/-- The sample age that has reached 50 ms makes the acceleration unavailable at that moment (R107, INERTIAL_AGE_EXPIRY). -/
def expireInertial (s : State) : State := whenDue (inertialAged s) loseInertial s

/-- LINK age that has reached 100 ms makes LINK absent and forms D anew at that moment (R29, LINK_AGE_EXPIRY). -/
def expireLink (s : State) : State := whenDue (linkAged s) loseLink s

/-- One millisecond passes. Where it brings the sample age to 50 ms or LINK age to 100 ms, what follows falls together with it: no
command finds the acceleration available, or LINK present, at that age (log entry 16). -/
def passMillisecond (s : State) : State := expireLink (expireInertial (tick s))

/-- The block with no command waiting. -/
def idle (s : State) : Host.Outcome State Fault Refusal :=
  match nextDue s with
  | some c => exec c s
  | none => .next (passMillisecond s)

end Sys2Proof.Machine
end

