-- ==== Sys2Proof/Safety.lean ====
section
/-! DEFINITION. The terms that claims use: a safe step; the parts of the state and what it means that only some of them
change; and the invariants of the machine, each the standing property that a rule of the manual gives a table, a record or a
valve. -/

namespace Sys2Proof

open Sys2Proof.Machine

/-- The step from a state answers a next state. -/
def SafeStep (s : Machine.State) : Prop := ∃ t, Machine.step s = .next t

/-! ## Parts of the state -/

/-- A part of the state that a command may leave unchanged while it changes another. -/
inductive Part where
  /-- The queue of waiting commands. -/
  | pending
  /-- The standby record. -/
  | standby
  /-- The readings of the Sensor Front End. -/
  | front
  /-- The wheel record of a channel. -/
  | wheel (c : Channel)
  /-- v_ref and the gating speed. -/
  | speeds
  /-- The cause set of a channel, and whether the condition of STARTUP lasts. -/
  | causes (c : Channel)
  /-- The resolved setpoint and the supply-limited flag of a channel. -/
  | setpoint (c : Channel)
  /-- The control state, the tracking timer and the three valves of a channel. -/
  | valves (c : Channel)
  /-- The volume class of a channel. -/
  | volume (c : Channel)
  /-- The emergency record and the reservoir measurement. -/
  | supply
  /-- The entry of a source in a channel's Demand Table. -/
  | entry (c : Channel) (k : Source)
  /-- The applied derate of a channel and what its last resolution used. -/
  | resolution (c : Channel)
  /-- The Driver Demand record. -/
  | driver
  /-- The skid record of a channel. -/
  | skid (c : Channel)
  /-- The axle records, the frozen field and the time since the last load update. -/
  | axles
  /-- The raised field of axle 3. -/
  | raised
  /-- Group load, laden fraction and load gain. -/
  | group
  /-- The current derate of a channel. -/
  | derate (c : Channel)
  /-- The Sensor Table. -/
  | positions
  /-- The Stranger List. -/
  | strangers
  /-- The learn record. -/
  | learn
  /-- The target pressures of the axles. -/
  | targets
  /-- The rollover tyre flag. -/
  | rollFlag
  /-- The worst condition and its position. -/
  | worst
  /-- The inertial record. -/
  | inertial
  /-- The indicator record. -/
  | indicator
  /-- The inner side. -/
  | inner
  /-- The stage record. -/
  | stage
  /-- The Test Queue, the head wait timer and the mark of the last sample. -/
  | testQueue
  /-- The holder of the Test Pulse Generator, with the running test. -/
  | holder
  /-- The result record of a channel. -/
  | result (c : Channel)
  /-- The leak mark of a channel. -/
  | leakMark (c : Channel)
  /-- The record of a Tow Link port. -/
  | linkPort (l : LinkPort)
  /-- The enable setting and the position fault. -/
  | linkSetting
  /-- The own position. -/
  | ownPosition
  /-- The upstream STATUS queue. -/
  | statusQueue
  /-- The upstream SERVICE queue. -/
  | upService
  /-- The downstream SERVICE queue. -/
  | downService
  /-- The downstream DEMAND slot. -/
  | demandSlot
  /-- The held service requests and how long the front one has waited. -/
  | heldReqs
  /-- The waiting service answers of the partner. -/
  | heldResps
  /-- The time since the last own periodic frame was built. -/
  | sincePeriodic
  /-- The Active Calibration with its generation and check value. -/
  | calActive
  /-- The Staging Record. -/
  | staging
  /-- The pending response of a controller port and the response last shifted out. -/
  | response (p : Port)
  /-- The attention record of a controller port. -/
  | attention (p : Port)
  /-- The fault records. -/
  | faults
deriving DecidableEq, Repr

/-- A part is the same in two states. -/
def samePart (s t : State) : Part → Prop
  | .pending => t.pending = s.pending
  | .standby => t.standby = s.standby
  | .front => t.front = s.front
  | .wheel c => t.wheels.wheel.get c = s.wheels.wheel.get c
  | .speeds => t.wheels.vref = s.wheels.vref ∧ t.wheels.gating = s.wheels.gating
  | .causes c =>
    (channelOf t c).causes = (channelOf s c).causes ∧ (channelOf t c).startupHeld = (channelOf s c).startupHeld
  | .setpoint c =>
    (channelOf t c).setpoint = (channelOf s c).setpoint ∧ (channelOf t c).supplyLimited = (channelOf s c).supplyLimited
  | .valves c =>
    (channelOf t c).controlState = (channelOf s c).controlState ∧ (channelOf t c).tracking = (channelOf s c).tracking ∧
    (channelOf t c).backupValve = (channelOf s c).backupValve ∧ (channelOf t c).inlet = (channelOf s c).inlet ∧
    (channelOf t c).exhaust = (channelOf s c).exhaust
  | .volume c => (channelOf t c).volumeClass = (channelOf s c).volumeClass
  | .supply => t.supply = s.supply
  | .entry c k => entryOf t c k = entryOf s c k
  | .resolution c =>
    t.demand.applied.get c = s.demand.applied.get c ∧ t.demand.summary.get c = s.demand.summary.get c
  | .driver => t.driver = s.driver
  | .skid c => t.skid.get c = s.skid.get c
  | .axles => t.load.axle = s.load.axle ∧ t.load.frozen = s.load.frozen ∧ t.load.sinceUpdate = s.load.sinceUpdate
  | .raised => t.load.raised = s.load.raised
  | .group => t.load.group = s.load.group ∧ t.load.lambda = s.load.lambda ∧ t.load.gain = s.load.gain
  | .derate c => t.load.derate.get c = s.load.derate.get c
  | .positions => t.tyre.positions = s.tyre.positions
  | .strangers => t.tyre.strangers = s.tyre.strangers
  | .learn => t.tyre.learn = s.tyre.learn ∧ t.tyre.learnOutcome = s.tyre.learnOutcome ∧
    t.tyre.learnedId = s.tyre.learnedId
  | .targets => t.tyre.target = s.tyre.target
  | .rollFlag => t.tyre.rollFlag = s.tyre.rollFlag
  | .worst => t.tyre.worst = s.tyre.worst
  | .inertial => t.roll.inertial = s.roll.inertial
  | .indicator => t.roll.indicator = s.roll.indicator
  | .inner => t.roll.inner = s.roll.inner
  | .stage => t.roll.stage = s.roll.stage
  | .testQueue =>
    t.tests.queue = s.tests.queue ∧ t.tests.headWait = s.tests.headWait ∧ t.tests.headDue = s.tests.headDue
  | .holder => t.tests.holder = s.tests.holder
  | .result c => t.tests.result.get c = s.tests.result.get c
  | .leakMark c => t.tests.leakMark.get c = s.tests.leakMark.get c
  | .linkPort l => Machine.linkPort t l = Machine.linkPort s l
  | .linkSetting => t.link.enable = s.link.enable ∧ t.link.positionFault = s.link.positionFault
  | .ownPosition => t.link.ownPosition = s.link.ownPosition
  | .statusQueue => t.link.statusQueue = s.link.statusQueue
  | .upService => t.link.upService = s.link.upService
  | .downService => t.link.downService = s.link.downService
  | .demandSlot => t.link.demandSlot = s.link.demandSlot
  | .heldReqs => t.link.heldReqs = s.link.heldReqs ∧ t.link.answerWait = s.link.answerWait
  | .heldResps => t.link.heldResps = s.link.heldResps
  | .sincePeriodic => t.link.sincePeriodic = s.link.sincePeriodic
  | .calActive =>
    t.cal.active = s.cal.active ∧ t.cal.generation = s.cal.generation ∧ t.cal.check = s.cal.check
  | .staging => t.cal.staging = s.cal.staging
  | .response p => (portOf t p).pending = (portOf s p).pending ∧ (portOf t p).shiftedOut = (portOf s p).shiftedOut
  | .attention p => (portOf t p).attention = (portOf s p).attention
  | .faults => t.faults = s.faults

/-- From `s` to `t`, every part outside the list is unchanged. -/
def OnlyChanges (l : List Part) (s t : State) : Prop := ∀ q, q ∉ l → samePart s t q

/-- The parts that a list gives for each channel. -/
def everyChannel (f : Channel → List Part) : List Part := allChannels.flatMap f

/-- What the latching of faults may change (R169): fault records and attention flags. -/
def noticeParts : List Part := [.faults, .attention .a, .attention .b]

/-- What an own event may change (R148): the upstream STATUS queue, with the fault states brought up to date. -/
def eventParts : List Part := .statusQueue :: noticeParts

/-- What the abort of a channel's test may change (R133): the generator, the channel's result and valves, attention flags. -/
def abortParts (c : Channel) : List Part := [.holder, .result c, .valves c, .attention .a, .attention .b]

/-- What a resolution of a channel may change (R38): setpoint and resolution record, and a test that the rise aborts. -/
def resolveParts (c : Channel) : List Part := .setpoint c :: .resolution c :: abortParts c

/-- What the return of a channel's skid state to FREE may change (R48, R57). -/
def freeParts (c : Channel) : List Part := .skid c :: .entry c .skid :: (resolveParts c ++ eventParts)

/-- What the addition of a cause to a channel may change (R2). -/
def backupParts (c : Channel) : List Part := .causes c :: .testQueue :: (freeParts c ++ abortParts c)

/-- What a transition of the skid cycle may change. -/
def skidParts (c : Channel) : List Part := .skid c :: .entry c .skid :: resolveParts c

/-- What the posting of a ROLL entry may change. -/
def rollParts (c : Channel) : List Part := .stage :: .entry c .roll :: resolveParts c

/-- What a change of the rollover stage may change: the stage record, ROLL entries and their resolution, the generator, an own
event. -/
def stageParts : List Part := .stage :: .holder :: (everyChannel rollParts ++ eventParts)

/-- What the end of a test may change (R132, R134). -/
def testEndParts (t : RunningTest) : List Part :=
  [.holder, .result t.channel, .attention t.port, .volume t.channel, .leakMark t.channel] ++ backupParts t.channel

/-- What forming D anew may change (R31, R32, R35). -/
def driverParts : List Part := .driver :: everyChannel (fun c => .entry c .driver :: backupParts c)

/-- What a wake may change (R178): nothing outside PARKED. -/
def wakeParts (s : State) : List Part := if isParked s then .standby :: everyChannel backupParts else []

/-- What the writing of a position record may change beside own events and a wake (R90). -/
def recordParts (n : Nat) : List Part :=
  [.positions, .derate (positionChannel n), .resolution (positionChannel n), .rollFlag, .worst]

/-- What the writing of any number of position records may change (R90, R104). -/
def positionParts (s : State) : List Part :=
  [.positions, .rollFlag, .worst] ++ everyChannel (fun c => [.derate c, .resolution c]) ++ eventParts ++ wakeParts s

/-- What forming G, λ and g and handing them on may change (R71 to R74, R88, R91). -/
def loadParts (s : State) : List Part := .group :: .targets :: positionParts s

/-- What the downstream port's entry into DOWN may change (R140). -/
def downDropParts : List Part :=
  [.linkPort .down, .demandSlot, .downService, .heldResps, .statusQueue, .upService]

/-- What a Tow Link port's entry into DOWN may change (R140): the upstream port takes LINK and the downstream port with it. -/
def dropParts : LinkPort → List Part
  | .up => .linkPort .up :: .heldReqs :: .ownPosition :: (downDropParts ++ driverParts)
  | .down => downDropParts

/-- What a port transfer changes beyond its command (R165, R178): the port's responses, and, from PARKED, what a wake does. -/
def transferParts (s : State) (p : Port) : List Part := .response p :: noticeParts ++ wakeParts s

/-! ## A channel in backup, a port answered -/

/-- What R2 leaves of a channel that has just entered BACKUP: valves de-energised, control state HOLDING, tracking timer at 0, its
skid state FREE, no test of it running. -/
def BackedUp (s : State) (c : Channel) : Prop :=
  electronic s c = false ∧ (channelOf s c).backupValve = false ∧ (channelOf s c).inlet = .closed ∧
  (channelOf s c).exhaust = .closed ∧ (channelOf s c).controlState = .holding ∧ (channelOf s c).tracking = none ∧
  (s.skid.get c).state = .free ∧ underTest s c = false

/-- The causes of a channel are those of an earlier state and, besides, those with a property. -/
def AddsCauses (s t : State) (c : Channel) (p : Cause → Bool) : Prop :=
  ∀ k, (channelOf t c).causes.has k = ((channelOf s c).causes.has k || p k)

/-- The setpoint of a channel is what R37 forms from its Demand Table and the reservoir cap. -/
def Resolved (s : State) (c : Channel) : Prop := (channelOf s c).setpoint = resolvedLevel s c

/-- The port has shifted out the response that was pending, and holds a new one (R165). -/
def Answered (s t : State) (p : Port) (command : Nat) (code : RespCode) (record : List Byte) : Prop :=
  (portOf t p).shiftedOut = some (portOf s p).pending ∧ (portOf t p).pending = ⟨command, code, record⟩

/-- An own event has occurred (R148): an event frame waits in the upstream STATUS queue, where the upstream port was ACTIVE when it
occurred. -/
def EventQueued (s t : State) : Prop := s.link.up.state = .active → t.link.statusQueue.any isEvent = true

/-- One own event has just occurred (R148): while the upstream port is ACTIVE, the first event frame joins the back of the STATUS
queue with count 1, and one that waits there is rebuilt in its place with its count increased, up to 255. The frame is that of
the later state; the rest of the queue is as it was. -/
def EventCounted (s t : State) : Prop :=
  let frame (n : Nat) : LinkFrame := ⟨2, 15, t.link.ownPosition.getD 0, 0, Credits.zero, statusPayload t 1 n⟩
  let q := s.link.statusQueue
  (s.link.up.state = .active → q.any isEvent = false → t.link.statusQueue = q ++ [.event 1 (frame 1)]) ∧
  (s.link.up.state = .active → q.any isEvent = true → t.link.statusQueue = q.map (fun x => match x with
    | .event n _ => .event (min 255 (n + 1)) (frame (min 255 (n + 1)))
    | .forwarded f => .forwarded f
    | .periodic f => .periodic f)) ∧
  (s.link.up.state ≠ .active → t.link.statusQueue = q)

/-- A Tow Link port has just entered DOWN from another state (R140): cause, hold-off and flag recorded, the rest of its record and
everything that waited on it gone; the upstream port takes LINK, the own position and the downstream port with it. -/
def Dropped (s t : State) (l : LinkPort) (cause : DropCause) (holdOff : Nat) : Prop :=
  let r := Machine.linkPort t l
  r.state = .down ∧ r.lastDrop = some cause ∧ r.holdOff = holdOff ∧ r.errorHoldOff = decide (cause = .linkErrors) ∧
  r.attempt = none ∧ r.heard = false ∧ r.partner = none ∧ r.credits = Credits.zero ∧ r.occupied = Credits.zero ∧
  r.owed = Credits.zero ∧ r.errorCount = 0 ∧
  match l with
  | .up =>
    t.link.statusQueue = [] ∧ t.link.upService = [] ∧ t.link.heldReqs = [] ∧ t.link.ownPosition = none ∧
    t.driver.linkPresent = false ∧ t.link.down.state = .down ∧
    (s.link.down.state ≠ .down → t.link.down.lastDrop = some .upstreamDown ∧ t.link.demandSlot = none ∧
      t.link.downService = [] ∧ t.link.heldResps = [])
  | .down =>
    t.link.demandSlot = none ∧ t.link.downService = [] ∧ t.link.heldResps = [] ∧
    t.link.statusQueue = s.link.statusQueue.filter isOwnItem ∧ t.link.upService = s.link.upService.filter isAnswer

/-- A wake has just been taken for a reason (R178): STARTING with its timer at 0, the wake timer absent, STARTUP on every
channel, Port A told. -/
def Woken (s t : State) (r : WakeReason) : Prop :=
  t.standby = { s.standby with opState := .starting, startingTimer := 0, wakeReason := some r, wakeTimer := none } ∧
  (∀ c, AddsCauses s t c (fun k => k == .startup) ∧ (channelOf t c).startupHeld = true) ∧
  t.portA.attention.wakeReason = true

/-- The Staging Record has just returned to FREE with an outcome (R156, R164): nothing is staged, and both ports are told. -/
def StagingFreed (s t : State) (o : CalOutcome) : Prop :=
  t.cal.staging = { s.cal.staging with state := .free, claimant := none, content := [], lastOutcome := some o } ∧
  t.portA.attention.calOutcome = true ∧ t.portB.attention.calOutcome = true

/-- An event fault has just occurred (R168, R169): it is latched in the three views and never live. -/
def EventLatched (s t : State) (i : Nat) : Prop :=
  s.faults.length = faultCount → (faultOf t i).latchA = true ∧ (faultOf t i).latchB = true ∧ (faultOf t i).latchU = true

/-- G, λ and g of a state are those of its effective loads (R71 to R73). -/
def LoadsFormed (s : State) : Prop :=
  s.load.group =
    (s.load.axle.get .ax1).effective + (s.load.axle.get .ax2).effective + (s.load.axle.get .ax3).effective ∧
  s.load.lambda = min 1024 ((s.load.group - calU s.cal.active) * 1024 / (calF s.cal.active - calU s.cal.active)) ∧
  s.load.gain = calGEmpty s.cal.active + (1024 - calGEmpty s.cal.active) * s.load.lambda / 1024

/-- The target pressures of a state are those of its laden fraction under its calibration (R88). -/
def TargetsFormed (s : State) : Prop :=
  ∀ x, s.tyre.target.get x = ((calTUnl s.cal.active x : Int) +
    (((calTLad s.cal.active x : Int) - (calTUnl s.cal.active x : Int)) * (s.load.lambda : Int)).tdiv 1024).toNat

/-- The upstream port in READY is tested with the settings of the later state (R139): it becomes ACTIVE where it is enabled, or AUTO
with the auto-enable bit set, and stays as it was otherwise; so does a port in any other state. -/
def UpstreamTested (s t : State) : Prop :=
  let allowed : Prop := t.link.enable = .enabled ∨ (t.link.enable = .auto ∧ calAutoEnable t.cal.active = true)
  (s.link.up.state = .ready → allowed → t.link.up.state = .active ∧
    t.link.up.credits = s.link.up.partner.getD Credits.zero ∧ t.link.up.occupied = Credits.zero ∧
    t.link.up.owed = s.link.up.owed ∧ t.link.sincePeriodic = 0 ∧ t.link.statusQueue.any isPeriodic = true) ∧
  ((s.link.up.state ≠ .ready ∨ ¬ allowed) → samePart s t (.linkPort .up))

/-- The sealed content of an earlier state is the Active Calibration of a later one (R163, R154): the Load Estimator starts again
from it (R70), the targets follow (R88), an upstream port in READY is tested (R139). -/
def CalApplied (s t : State) : Prop :=
  t.cal.active = s.cal.staging.content ∧ some t.cal.check = s.cal.staging.sealedCheck ∧
  t.cal.generation = (if s.cal.generation = 65535 then 1 else s.cal.generation + 1) ∧
  t.cal.staging.state = .free ∧ t.cal.staging.claimant = none ∧ t.cal.staging.content = [] ∧
  t.cal.staging.lastOutcome = some .applied ∧ t.portA.attention.calOutcome = true ∧
  t.portB.attention.calOutcome = true ∧ LoadsFormed t ∧ TargetsFormed t ∧ UpstreamTested s t ∧
  ∀ x, (t.load.axle.get x).effective =
    if axleRaised t x then 0 else instantLoad t.cal.active x (bagMean t x)

/-- What the apply of a calibration may change (R163). -/
def applyParts (s : State) : List Part :=
  [.calActive, .staging, .axles, .raised, .standby, .linkPort .up, .sincePeriodic] ++ loadParts s ++
  everyChannel resolveParts ++ noticeParts

/-- A learn that a command on its position cancels (R98); a learn elsewhere goes on. -/
def LearnCancelled (s t : State) (n : Nat) : Prop :=
  (∀ r, s.tyre.learn = some r → r.position = n →
    t.tyre.learn = none ∧ t.tyre.learnOutcome = some .cancelled ∧ t.tyre.learnedId = none ∧
    t.portA.attention.learnOutcome = true) ∧
  ((∀ r, s.tyre.learn = some r → r.position ≠ n) → samePart s t .learn)

/-- The move rule (R99): an ID written into a position has left every other position, which keeps no data, and the Stranger
List. -/
def TakenOut (s t : State) (id n : Nat) : Prop :=
  (∀ m, m ∈ allPositions → m ≠ n → positionOf t m =
    if (positionOf s m).sensor = some id then PositionRec.empty else positionOf s m) ∧
  t.tyre.strangers = s.tyre.strangers.filter (fun e => e.sensor != id)

/-! ## The checks a port command passes (R166) -/

/-- The port a command comes in on, and the command code its response answers (R165, R179); none for a row that is no port
transfer. -/
def portCommand : Instr → Option (Port × Nat)
  | .badCommandFrame p | .noCommand p => some (p, 0)
  | .postApply p _ _ _ => some (p, 1)
  | .postLimit p _ _ _ => some (p, 2)
  | .withdraw p _ => some (p, 3)
  | .restore p _ => some (p, 4)
  | .forceBackup p _ => some (p, 5)
  | .requestTest p _ => some (p, 6)
  | .cancelTest p _ => some (p, 7)
  | .tyreLearn p _ => some (p, 8)
  | .tyreAssign p _ _ => some (p, 9)
  | .tyreAdopt p _ _ => some (p, 10)
  | .tyreClear p _ => some (p, 11)
  | .linkEnable p => some (p, 12)
  | .linkDisable p => some (p, 13)
  | .standby p => some (p, 14)
  | .calBegin p => some (p, 15)
  | .calPointer p _ => some (p, 16)
  | .calWrite p _ _ => some (p, 17)
  | .calRead p _ _ => some (p, 18)
  | .calSeal p => some (p, 19)
  | .calConfirm p _ => some (p, 20)
  | .calAbandon p => some (p, 21)
  | .read p _ _ _ | .readAttention p _ _ => some (p, 22)
  | .clearFaults p => some (p, 23)
  | .portSync p => some (p, 24)
  | _ => none

/-- Check 1 of R166: the sending port may give the command. For the CAL_ commands the Staging Record decides (R156, R160,
R161). -/
def permitted (s : State) : Instr → Bool
  | .postApply p _ _ _ | .tyreLearn p _ | .tyreAssign p _ _ | .tyreAdopt p _ _ | .tyreClear p _ | .linkEnable p
  | .linkDisable p | .standby p => p == .a
  | .postLimit p _ _ _ | .restore p _ => p == .b
  | .calPointer p _ | .calWrite p _ _ | .calSeal p =>
    s.cal.staging.claimant == none || s.cal.staging.claimant == some p
  | .calConfirm p _ => s.cal.staging.claimant != some p
  | .calAbandon p =>
    s.cal.staging.state == .armed || s.cal.staging.claimant == none || s.cal.staging.claimant == some p
  | _ => true

/-- The number of indices of each READ table (R167), by its number of R179. -/
def tableIndices : List Nat := [4, 29, 8, 14, 9, 3, 3, 6, 71, 48, 1, 1, 1]

/-- Check 2 of R166: every argument lies in its accepted set. A BAD_COMMAND_FRAME has no good arguments (R165). -/
def argumentsGood (s : State) : Instr → Bool
  | .badCommandFrame _ => false
  | .postApply _ mask _ _ | .postLimit _ mask _ _ | .withdraw _ mask | .restore _ mask | .forceBackup _ mask =>
    decide (0 < mask ∧ mask < 16)
  | .requestTest _ channel | .cancelTest _ channel => decide (channel ≤ 3)
  | .tyreLearn _ n | .tyreAssign _ n _ | .tyreClear _ n => decide (1 ≤ n ∧ n ≤ 12)
  | .tyreAdopt _ n index => decide (1 ≤ n ∧ n ≤ 12) && decide (index < s.tyre.strangers.length)
  | .calPointer _ index => decide (index ≤ 255)
  | .calWrite _ count _ => decide (1 ≤ count ∧ count ≤ 6)
  | .calRead _ index count => decide (index ≤ 255) && decide (1 ≤ count ∧ count ≤ 6)
  | .read p table index part =>
    if table = 10 then decide (index = 0 ∧ part = 0)
    else decide (index < tableIndices.getD table 0) &&
      match tableRecord (portView p) s table index with
      | none => false
      | some r => decide (part * 13 < r.length)
  | .readAttention _ index part => decide (index = 0 ∧ part = 0)
  | _ => true

/-- The reason STANDBY is refused for (R175), by its number of R179: the first of the seven tests that fails. -/
def parkReason (s : State) : Option Nat :=
  if s.standby.opState ≠ .running then some 0
  else if s.link.up.state ≠ .down then some 1
  else if s.wheels.vref ≠ 0 then some 2
  else if ∃ c, c ∈ allChannels ∧ (channelOf s c).setpoint ≠ 0 then some 3
  else if s.tests.queue ≠ [] ∨ (s.tests.holder ≠ .free ∧ s.tests.holder ≠ .probe) then some 4
  else if s.tyre.learn ≠ none then some 5
  else if attentionLine s.portA.attention then some 6
  else none

/-- Check 3 of R166: the answer of a command that the present state prevents; none for a command that is carried out. -/
def stateRefusal (s : State) : Instr → Option RespCode
  | .postApply _ _ _ _ | .postLimit _ _ _ _ => if isParked s then some .notNow else none
  | .restore _ _ => if 15 ≤ s.driver.demand then some .notNow else none
  | .requestTest _ n =>
    if isParked s then some .notNow
    else if s.tests.queue.any (fun q => channelNumber q.channel == n) || underTest s (channelAt n) then some .already
    else if 4 ≤ s.tests.queue.length then some .busy
    else none
  | .tyreLearn _ _ => if s.tyre.learn.isSome then some .busy else none
  | .tyreAssign _ n id => if (positionOf s n).sensor = some id then some .already else none
  | .standby _ => if (parkReason s).isSome then some .notNow else none
  | .calBegin _ => if s.cal.staging.state = .free then none else some .busy
  | .calPointer _ _ | .calWrite _ _ _ => if s.cal.staging.state = .opened then none else some .notNow
  | .calRead _ _ _ | .calAbandon _ => if s.cal.staging.state = .free then some .notNow else none
  | .calSeal _ =>
    if s.cal.staging.state ≠ .opened then some .notNow
    else if (sealFailure s.cal.staging.content).isSome then some .badArg
    else none
  | .calConfirm _ check =>
    if s.cal.staging.state ≠ .sealed then some .notNow
    else if s.cal.staging.sealedCheck = some check then none
    else some .badArg
  | _ => none

/-- The response code of a port command (R166): the first check that fails gives the answer, OK where none does. -/
def responseCode (s : State) (i : Instr) : RespCode :=
  if !permitted s i then .denied
  else if !argumentsGood s i then .badArg
  else (stateRefusal s i).getD .ok

/-- The Staging Record that a refused command leaves: the idle timer of a claimant in OPEN starts again (R158, R159), a set in SEALED
whose confirmation by the other port carries a wrong check value is discarded (R160), and any other stays as it is. -/
def refusedStaging (s : State) : Instr → Staging
  | .calPointer p _ | .calWrite p _ _ | .calRead p _ _ | .calSeal p =>
    let g := s.cal.staging
    if g.state = .opened ∧ g.claimant = some p then { g with idleTimer := 0 } else g
  | .calConfirm p check =>
    let g := s.cal.staging
    if g.state = .sealed ∧ g.claimant ≠ some p ∧ g.sealedCheck ≠ some check then
      { g with state := .free, claimant := none, content := [], lastOutcome := some .mismatch }
    else g
  | _ => s.cal.staging

/-! ## Invariants -/

/-- R20, R36, R37, R38: each channel's setpoint is the resolution of its Demand Table as it stands, supply-limited flag and
resolution record with it; while the setpoint is 0 the applied derate is the current one. -/
def ResolutionInv (s : State) : Prop :=
  ∀ c, (channelOf s c).setpoint = resolvedLevel s c ∧
    (channelOf s c).supplyLimited = decide (reservoirCap s < applyLevel s c) ∧
    (s.demand.summary.get c).largestApply = applyLevel s c ∧
    (s.demand.summary.get c).smallestLimit = smallestLimit (reservoirCap s) (tableOf s c) ∧
    (s.demand.summary.get c).cap = reservoirCap s ∧ (s.demand.summary.get c).raised = s.load.raised ∧
    ((channelOf s c).setpoint = 0 → s.demand.applied.get c = s.load.derate.get c)

/-- R15, R22, R35, R46, R113: an entry stands in a Demand Table exactly while its owner's record says so, at most 1000 kPa,
with a lifetime in the entries of the controllers alone; a channel that is not FREE is ELECTRONIC. R122: a ROLL level stands in
INTERVENE and RECOVER, in PROBE on the probed channels, and nowhere else. -/
def EntriesInv (s : State) : Prop :=
  (∀ c, (s.roll.stage.level.get c).isSome = true ↔
    s.roll.stage.stage = .intervene ∨ s.roll.stage.stage = .recover ∨
    (s.roll.stage.stage = .probe ∧ s.roll.stage.probed = some (channelSide c))) ∧
  ∀ c, ((entryOf s c .driver).isSome = decide (15 ≤ s.driver.demand)) ∧
    ((entryOf s c .emerg).isSome = s.supply.emergency) ∧
    ((entryOf s c .roll).isSome = (s.roll.stage.level.get c).isSome) ∧
    ((entryOf s c .skid).isSome = ((s.skid.get c).state != .free)) ∧
    ((s.skid.get c).state ≠ .free → electronic s c = true) ∧
    ∀ k e, entryOf s c k = some e →
      e.level ≤ 1000 ∧ (e.lifetime.isSome = true ↔ k = .ctrlA ∨ k = .ctrlB)

/-- R2, R12, R116, R129: the backup valve of a channel is energised exactly while it is ELECTRONIC, and in BACKUP its other two
valves are closed; a channel under test is ELECTRONIC with setpoint 0; the probe holds the Test Pulse Generator exactly in
the stage PROBE, with probed channels named. -/
def ValveInv (s : State) : Prop :=
  (∀ c, (channelOf s c).backupValve = electronic s c ∧
    (electronic s c = false → (channelOf s c).inlet = .closed ∧ (channelOf s c).exhaust = .closed ∧
      (channelOf s c).controlState = .holding ∧ (channelOf s c).tracking = none)) ∧
  (∀ t, s.tests.holder = .test t → electronic s t.channel = true ∧ (channelOf s t.channel).setpoint = 0) ∧
  (s.tests.holder = .probe ↔ s.roll.stage.stage = .probe) ∧
  (s.roll.stage.probed.isSome = true ↔ s.roll.stage.stage = .probe)

/-- R125, R126: at most four requests wait, no channel twice, and none for the channel under test. -/
def QueueInv (s : State) : Prop :=
  s.tests.queue.length ≤ 4 ∧ (s.tests.queue.map TestRequest.channel).Nodup ∧
  ∀ t, s.tests.holder = .test t → t.channel ∉ s.tests.queue.map TestRequest.channel

/-- R168, R169: there are 47 faults, each live exactly while its condition holds, and a live fault is latched in every view. R107: the
acceleration is held available exactly while its age is below 50 ms. -/
def FaultInv (s : State) : Prop :=
  s.faults.map FaultRec.live = liveList s ∧
  (s.roll.inertial.available = true ↔ ∃ a, s.roll.inertial.age = some a ∧ a < 50) ∧
  ∀ r, r ∈ s.faults → r.live = true → r.latchA = true ∧ r.latchB = true ∧ r.latchU = true

/-- R154, R155, R156, R159: the Active Calibration passes seal validation and its check value is that of its words; nothing is
staged in FREE; a claimant stands outside FREE alone; a sealed or armed content passes seal validation under its check
value. R72, R73: the laden fraction is at most 1024, and the load gain lies between the empty gain in force and 1024. -/
def CalInv (s : State) : Prop :=
  s.cal.active.length = calSize ∧ sealFailure s.cal.active = none ∧ s.cal.check = crc16 (bytesOfWords s.cal.active) ∧
  s.load.lambda ≤ 1024 ∧ calGEmpty s.cal.active ≤ s.load.gain ∧ s.load.gain ≤ 1024 ∧
  (s.cal.staging.claimant = none ↔ s.cal.staging.state = .free) ∧
  (s.cal.staging.state = .free → s.cal.staging.content = []) ∧
  (s.cal.staging.state ≠ .free → s.cal.staging.content.length = calSize) ∧
  (s.cal.staging.state = .sealed ∨ s.cal.staging.state = .armed →
    sealFailure s.cal.staging.content = none ∧
    s.cal.staging.sealedCheck = some (crc16 (bytesOfWords s.cal.staging.content)))

/-- R86, R93, R96, R99: there are twelve positions; no ID is held by two positions, or by a position and the Stranger List, or twice
in the list, which holds at most eight; an unassigned position holds no data; a learn names a position. R77, R103, R104: the
current derates, the rollover tyre flag and the worst condition, with the lowest position that holds it, are those of the
conditions as they stand. -/
def TyreInv (s : State) : Prop :=
  s.tyre.positions.length = 12 ∧
  (∀ m n id, m ∈ allPositions → n ∈ allPositions → (positionOf s m).sensor = some id →
    (positionOf s n).sensor = some id → m = n) ∧
  (∀ n, n ∈ allPositions → (positionOf s n).sensor = none → (positionOf s n).data = none) ∧
  s.tyre.strangers.length ≤ 8 ∧ (s.tyre.strangers.map Stranger.sensor).Nodup ∧
  (∀ e n, e ∈ s.tyre.strangers → n ∈ allPositions → (positionOf s n).sensor ≠ some e.sensor) ∧
  (∀ r, s.tyre.learn = some r → r.position ∈ allPositions) ∧
  (∀ c, s.load.derate.get c =
    if ∃ n, n ∈ allPositions ∧ positionChannel n = c ∧ isSevere (positionCondition s n) = true then 768 else 1024) ∧
  (s.tyre.rollFlag = true ↔
    ∃ n, n ∈ allPositions ∧ axleRaised s (positionAxle n) = false ∧ isSoft (positionCondition s n) = true) ∧
  (∀ n, n ∈ allPositions → ∀ k, positionCondition s n = some k →
    ∃ j m, s.tyre.worst = some (j, m) ∧ conditionCode k ≤ conditionCode j) ∧
  (∀ j m, s.tyre.worst = some (j, m) → m ∈ allPositions ∧ positionCondition s m = some j ∧
    ∀ n, n ∈ allPositions → n < m → positionCondition s n ≠ some j)

/-- R135, R137, R143 for one Tow Link port: credits and receive slots are in use in ACTIVE alone, partner depths and returns
owed in READY and ACTIVE alone, an attempt stands in TRAIN alone, the credits never pass the partner depths, and neither the
occupied receive slots nor the returns owed this part's own. -/
def PortInv (r : PortRec) : Prop :=
  (r.state ≠ .active → r.credits = Credits.zero ∧ r.occupied = Credits.zero) ∧
  (r.state ≠ .active → r.state ≠ .ready → r.partner = none ∧ r.owed = Credits.zero) ∧
  (r.attempt.isSome = true ↔ r.state = .train) ∧ r.errorCount < 8 ∧
  creditsLe r.credits (partnerDepths r) = true ∧ creditsLe r.owed ownDepths = true ∧ creditsLe r.occupied ownDepths = true

/-- R135 to R140: both ports keep PortInv; the own position is known, in 1..6, exactly in READY and ACTIVE of the upstream port;
the downstream port trains only under an ACTIVE upstream port; the queues of a port that is not ACTIVE are empty. R135, R146: every
forwarded frame of the upstream STATUS queue holds a downstream receive slot, so that at most four wait there, beside one own
periodic and one own event frame; each SERVICE queue holds at most two. R29: LINK is present only while the upstream port is ACTIVE
and LINK age below 100 ms. -/
def LinkInv (s : State) : Prop :=
  PortInv s.link.up ∧ PortInv s.link.down ∧
  (s.link.ownPosition.isSome = true ↔ s.link.up.state = .ready ∨ s.link.up.state = .active) ∧
  (∀ n, s.link.ownPosition = some n → 1 ≤ n ∧ n ≤ 6) ∧
  (s.link.down.state = .train ∨ s.link.down.state = .ready ∨ s.link.down.state = .active → s.link.up.state = .active) ∧
  (s.link.up.state ≠ .active → s.link.statusQueue = [] ∧ s.link.upService = [] ∧ s.link.heldReqs = []) ∧
  (s.link.down.state ≠ .active → s.link.demandSlot = none ∧ s.link.downService = [] ∧ s.link.heldResps = [] ∧
    s.link.statusQueue.all isOwnItem = true ∧ s.link.upService.all isAnswer = true) ∧
  s.link.statusQueue.countP (fun x => !isOwnItem x) ≤ s.link.down.occupied.status ∧
  s.link.statusQueue.countP (fun x => !isOwnItem x) ≤ 4 ∧
  s.link.statusQueue.countP isPeriodic ≤ 1 ∧ s.link.statusQueue.countP isEvent ≤ 1 ∧
  s.link.upService.length ≤ 2 ∧ s.link.downService.length ≤ 2 ∧
  (s.driver.linkPresent = true → s.link.up.state = .active ∧ ∃ a, s.driver.linkAge = some a ∧ a < 100)

end Sys2Proof
end

