-- ==== Sys2Proof/Certificates/Slice0/Obligations.lean ====
section
/-! DEFINITION. The statements for the provers, chapter by chapter of the manual. For every row of the opcode table one of them says
when its command answers a next state and what that state holds. -/

section

open Sys2Proof Sys2Proof.Machine

/-! ## Steps -/

/-- A step takes the command at the front of the queue (log entry 1): it is exec of that command with the queue's rest. -/
def Obligations.StepTakesTheFrontCommand : Prop :=
  ∀ (c : Instr) (rest : List Instr) (s : State), s.pending = c :: rest → step s = exec c (s.setPending rest)

/-- With no command waiting (log entry 1) a step takes a timed row that is due where there is one; where there is none one
millisecond passes: every age grows by 1 ms and every timer that runs moves by 1 ms, each to its bound and no further, an
on-time and a lifetime run down by 1 ms. The sample age that reaches 50 ms ends the availability of the acceleration, and the fault
states are brought up to date (R107). Everything else stays: setpoints, valves held open or closed, tables, modes and queues. Only
where LINK age reaches 100 ms LINK_AGE_EXPIRY follows within the same step: LINK is absent and D formed anew (R29). The model's own
choice, with the choices of log entries 7, 11, 15, 16, 17, 34, 36, 43, 66 and 69 in the fields it names. -/
def Obligations.AnEmptyQueueLetsTimePass : Prop :=
  ∀ s : State, s.pending = [] →
    (∀ i, nextDue s = some i → step s = exec i s) ∧
    (nextDue s = none → ∃ u t, step s = .next t ∧
      OnlyChanges (.standby :: .driver :: .positions :: .strangers :: .learn :: .inertial :: .testQueue :: .linkPort .up ::
        .linkPort .down :: .heldReqs :: .heldResps :: .sincePeriodic :: .staging :: noticeParts ++
        everyChannel (fun c => [.wheel c, .valves c, .entry c .ctrlA, .entry c .ctrlB, .skid c])) s u ∧
      u.standby = { s.standby with
        startingTimer := if s.standby.opState = .starting then min 200 (s.standby.startingTimer + 1)
          else s.standby.startingTimer
        wakeTimer := s.standby.wakeTimer.map (fun n => n - 1) } ∧
      (∀ c, let w := s.wheels.wheel.get c
        let valve (v : ValveDrive) : ValveDrive := match v with
          | .pulsed n => .pulsed (n - 1)
          | .held => .held
          | .closed => .closed
        u.wheels.wheel.get c = { w with age := min 200000 (w.age + 1000 - w.edgeOffset), edgeOffset := 0 } ∧
        channelOf u c = { channelOf s c with inlet := valve (channelOf s c).inlet, exhaust := valve (channelOf s c).exhaust } ∧
        u.skid.get c = { s.skid.get c with stepDue := false } ∧
        ∀ p, entryOf u c (portSource p) =
          (entryOf s c (portSource p)).map (fun e => { e with lifetime := e.lifetime.map (fun n => n - 1) })) ∧
      u.driver = { s.driver with
        linkAge := s.driver.linkAge.map (fun a => min 65535 (a + 1))
        tractorAge := s.driver.tractorAge.map (fun a => min 65535 (a + 1)) } ∧
      u.tyre.positions = s.tyre.positions.map (fun r => { r with
        dup := r.dup.map (fun d => { d with age := min 2000 (d.age + 1) })
        data := r.data.map (fun d => { d with ageMs := min 65535000 (d.ageMs + 1) }) }) ∧
      u.tyre.strangers = s.tyre.strangers.map (fun e => { e with
        counterAge := min 2000 (e.counterAge + 1), ageMs := min 65535000 (e.ageMs + 1) }) ∧
      u.tyre.learn = s.tyre.learn.map (fun r => { r with remaining := r.remaining - 1 }) ∧
      u.tyre.learnOutcome = s.tyre.learnOutcome ∧ u.tyre.learnedId = s.tyre.learnedId ∧
      (let i := s.roll.inertial
       let young : Prop := ∃ a, i.age = some a ∧ a + 1 < 50
       u.roll.inertial.accel = i.accel ∧ u.roll.inertial.counter = i.counter ∧
       u.roll.inertial.age = i.age.map (fun a => min 50 (a + 1)) ∧
       (u.roll.inertial.available = true ↔ i.available = true ∧ young) ∧
       (i.available = true → ¬ young → s.faults.length = faultCount →
         u.faults.map FaultRec.live = liveList u ∧ (faultOf u 38).live = isRunning s) ∧
       (i.available = false ∨ young → samePart s u .faults ∧ samePart s u (.attention .a) ∧ samePart s u (.attention .b))) ∧
      u.tests = { s.tests with
        headWait := if s.tests.queue = [] then s.tests.headWait else min 10000 (s.tests.headWait + 1)
        headDue := false } ∧
      (∀ l, let r := linkPort s l
        let stood (x : TrafficClass) : Nat :=
          if r.state = .active ∧ creditOf r.credits x = 0 ∧ frameWaits s l x = true then min 500 (creditOf r.stall x + 1)
          else 0
        linkPort u l = { r with
          holdOff := r.holdOff - 1
          settleTimer := if r.state = .settle then min 200 (r.settleTimer + 1) else r.settleTimer
          attempt := r.attempt.map (fun a => { a with timer := min 300 (a.timer + 1) })
          sendTimer := r.sendTimer - 1
          owedTimer := if r.owed = Credits.zero then 0 else min 20 (r.owedTimer + 1)
          stall := ⟨stood .demand, stood .status, stood .service⟩
          decayTimer := min 125 (r.decayTimer + 1) }) ∧
      u.link.heldReqs = s.link.heldReqs ∧
      u.link.answerWait = (if answerWaits s = true then s.link.answerWait + 1 else 0) ∧
      u.link.heldResps = s.link.heldResps.map (fun h => { h with waited := h.waited + 1 }) ∧
      u.link.sincePeriodic = (if s.link.up.state = .active then min 100 (s.link.sincePeriodic + 1)
        else s.link.sincePeriodic) ∧
      u.cal.staging = { s.cal.staging with
        idleTimer := if s.cal.staging.state = .opened then min 30000 (s.cal.staging.idleTimer + 1)
          else s.cal.staging.idleTimer
        sealTimer := if s.cal.staging.state = .sealed then min 5000 (s.cal.staging.sealTimer + 1)
          else s.cal.staging.sealTimer } ∧
      let ends : Prop := s.driver.linkPresent = true ∧ ¬ ∃ a, s.driver.linkAge = some a ∧ a + 1 < 100
      (¬ ends → t = u) ∧
      (ends → exec .linkAgeExpiry u = .next t ∧ t.driver = { u.driver with
          linkPresent := false, mismatch := false, onset := none, recovery := none, demand := s.driver.lineLevel.getD 0 } ∧
        OnlyChanges (driverParts ++ noticeParts) u t))

/-! ## Reset (R173) -/

/-- POWER_ON_RESET and PIN_RESET leave every block at the reset values of its own chapter (R21, R27, R28, R40, R46, R58, R86,
R93, R96, R106, R112, R113, R125, R134, R135, R139, R154, R156, R165, R168, R170, R172). What stands outside the part is kept:
the waiting commands and the partners' activity on the lines (log entry 6). That a result record has no requesting port is the
model's choice (log entry 54), as are the readings and the resolution records (log entries 4, 5) and the values of the model's own
fields (log entries 11, 29, 30, 34, 36, 40, 43). -/
def Obligations.ResetLeavesItsValues : Prop :=
  ∀ (s : State) (i : Instr) (k : ResetCause), (i = .powerOnReset ∧ k = .powerOn) ∨ (i = .pinReset ∧ k = .pin) →
    ∃ t, exec i s = .next t ∧ t.pending = s.pending ∧ t.standby = ⟨.starting, k, 0, none, none⟩ ∧
      t.front = ⟨.const none, none, none, none, .const none, .const none, false⟩ ∧
      (∀ c, channelOf t c = ⟨{ CauseSet.empty with startup := true }, true, 0, .holding, none, none, false, false, .closed,
        .closed⟩) ∧
      t.supply = ⟨false, none, none, false, none⟩ ∧
      (∀ c, (∀ k, entryOf t c k = none) ∧ t.demand.applied.get c = 1024 ∧
        t.demand.summary.get c = ⟨0, 1000, 1000, 1024, false⟩) ∧
      t.driver = ⟨none, none, false, none, false, none, none, 0, none, none, false⟩ ∧
      (∀ c, t.wheels.wheel.get c = ⟨none, 200000, 0, true, 0⟩) ∧ t.wheels.vref = 0 ∧ t.wheels.gating = 0 ∧
      (∀ c, t.skid.get c = ⟨.free, none, 0, some 0, 0, false, false⟩) ∧
      (∀ x, t.load.axle.get x = ⟨none, true, 1000, 1000, false, false⟩) ∧ t.load.raised = false ∧ t.load.group = 3000 ∧
      t.load.lambda = 1024 ∧ t.load.gain = 1024 ∧ t.load.frozen = false ∧ t.load.sinceUpdate = 0 ∧
      (∀ c, t.load.derate.get c = 1024) ∧
      (∀ n, positionOf t n = PositionRec.empty) ∧ t.tyre.strangers = [] ∧ t.tyre.learn = none ∧
      t.tyre.learnOutcome = none ∧ t.tyre.learnedId = none ∧ t.tyre.worst = none ∧ t.tyre.rollFlag = false ∧
      (∀ x, t.tyre.target.get x = 900) ∧
      t.roll.inertial = ⟨none, none, none, false⟩ ∧ t.roll.inner = .left ∧
      t.roll.indicator = ⟨none, 0, 0, none, 300, 300, false, none, none, none, 0⟩ ∧
      t.roll.stage = ⟨.quiet, none, 0, 0, 0, none, 0, .const none⟩ ∧
      t.tests.queue = [] ∧ t.tests.headWait = 0 ∧ t.tests.headDue = false ∧ t.tests.holder = .free ∧
      (∀ c, t.tests.result.get c = ⟨none, none, none, 0, 0, none, none⟩ ∧ t.tests.leakMark.get c = false) ∧
      (∀ l, linkPort t l = { linkPort s l with
        state := .down, holdOff := 0, errorHoldOff := false, settleTimer := 0, attempt := none, heard := false
        partner := none, credits := Credits.zero, occupied := Credits.zero, owed := Credits.zero, errorCount := 0
        lastDrop := none, holdOffRunning := false, sendTimer := 0, owedTimer := 0, stall := Credits.zero, decayTimer := 0
        lastSent := none }) ∧
      t.link.enable = .auto ∧ t.link.positionFault = false ∧ t.link.ownPosition = none ∧ t.link.statusQueue = [] ∧
      t.link.upService = [] ∧ t.link.downService = [] ∧ t.link.demandSlot = none ∧ t.link.heldReqs = [] ∧
      t.link.heldResps = [] ∧ t.link.answerWait = 0 ∧ t.link.sincePeriodic = 0 ∧
      t.cal.active = defaultWords ∧ t.cal.generation = 0 ∧ t.cal.check = crc16 (bytesOfWords defaultWords) ∧
      t.cal.staging = ⟨.free, none, [], 0, 0, 0, none, none⟩ ∧
      (∀ p, (portOf t p).pending = ⟨0, .ok, []⟩ ∧ (portOf t p).shiftedOut = none ∧
        (portOf t p).attention = Attention.empty) ∧
      t.faults = List.replicate 47 ⟨false, false, false, false⟩

/-! ## Pressure channels (chapter 1) -/

/-- TRACKING_TIMEOUT (R13, R2): the tracking timer of an ELECTRONIC channel has reached 400 ms. TRACKING is added, the channel is
in BACKUP with its valves de-energised, its SKID entry gone and no test of it running, and an own event is queued.
The model's choices here: log entries 9, 39. -/
def Obligations.TrackingTimeoutBacksUp : Prop :=
  ∀ (s : State) (c : Channel), electronic s c = true → 400 ≤ runMs (channelOf s c).tracking →
    ∃ t, exec (.trackingTimeout c) s = .next t ∧ AddsCauses s t c (fun k => k == .tracking) ∧ BackedUp t c ∧
      ((s.skid.get c).state ≠ .free → entryOf t c .skid = none) ∧ EventQueued s t ∧
      ((s.skid.get c).state = .free → EventCounted s t) ∧
      (s.faults.length = faultCount → (faultOf t (6 * channelNumber c)).live = true) ∧
      OnlyChanges (backupParts c ++ noticeParts) s t

/-- EMERGENCY_ONSET and EMERGENCY_RECOVERY (R15, R16): when the onset time has reached 200 ms the emergency is set, its fault goes
live and every Demand Table holds an EMERG entry of the load curve of 800 kPa; when the recovery time has reached 1000 ms
the emergency is cleared and every EMERG entry is withdrawn. Each channel is resolved, and an own event is queued.
LOW_RESERVOIR_ONSET (R19): when the measurement has reached 1000 ms LOW_RESERVOIR goes live with an own event, and no setpoint
changes. A first own event frame carries count 1, one that waits is rebuilt in its place with one more, up to 255 (R148).
The model's choices here: log entries 9, 20, 39. -/
def Obligations.SupplySupervisionActs : Prop :=
  ∀ s : State, isRunning s = true → s.faults.length = faultCount →
    (s.supply.emergency = false → 200 ≤ runMs s.supply.onset → ∃ t, exec .emergencyOnset s = .next t ∧
      t.supply = { s.supply with emergency := true, onset := none, recovery := none } ∧
      (∀ c, entryOf t c .emerg = some ⟨min 1000 (curveOf (calKnee s.cal.active) s.load.gain 800), none, none⟩ ∧
        Resolved t c) ∧
      EventCounted s t ∧ (faultOf t 28).live = true ∧
      OnlyChanges (.supply :: everyChannel (fun c => .entry c .emerg :: resolveParts c) ++ eventParts) s t) ∧
    (s.supply.emergency = true → 1000 ≤ runMs s.supply.recovery → ∃ t, exec .emergencyRecovery s = .next t ∧
      t.supply = { s.supply with emergency := false, onset := none, recovery := none } ∧
      (∀ c, entryOf t c .emerg = none ∧ (entryOf s c .emerg ≠ none → Resolved t c)) ∧
      EventCounted s t ∧ (faultOf t 28).live = false ∧
      OnlyChanges (.supply :: everyChannel (fun c => .entry c .emerg :: resolveParts c) ++ eventParts) s t) ∧
    (s.supply.lowReservoir = false → 1000 ≤ runMs s.supply.lowMeasure → ∃ t, exec .lowReservoirOnset s = .next t ∧
      t.supply = { s.supply with lowReservoir := true, lowMeasure := none } ∧ (faultOf t 27).live = true ∧
      EventCounted s t ∧ OnlyChanges (.supply :: eventParts) s t)

/-- ON_TIME_END (R11): a pulsed valve of the channel whose on-time has ended closes; a valve that is held open, closed, or still
within its on-time stays as it is. CTRL_ENTRY_EXPIRY (R25): an entry whose remaining lifetime is 0 is removed from its table,
and the channel is resolved. The model's choices here: log entry 17. -/
def Obligations.OnTimesAndLifetimesEnd : Prop :=
  (∀ (s : State) (c : Channel),
    (channelOf s c).inlet = .pulsed 0 ∨ (channelOf s c).exhaust = .pulsed 0 →
    ∃ t, exec (.onTimeEnd c) s = .next t ∧
      (channelOf t c).inlet = (if (channelOf s c).inlet = .pulsed 0 then .closed else (channelOf s c).inlet) ∧
      (channelOf t c).exhaust = (if (channelOf s c).exhaust = .pulsed 0 then .closed else (channelOf s c).exhaust) ∧
      (channelOf t c).controlState = (channelOf s c).controlState ∧
      (channelOf t c).tracking = (channelOf s c).tracking ∧
      (channelOf t c).backupValve = (channelOf s c).backupValve ∧
      OnlyChanges (.valves c :: noticeParts) s t) ∧
  (∀ (s : State) (p : Port) (c : Channel) (e : Entry), entryOf s c (portSource p) = some e → e.lifetime = some 0 →
    ∃ t, exec (.ctrlEntryExpiry p c) s = .next t ∧ entryOf t c (portSource p) = none ∧ Resolved t c ∧
      OnlyChanges (.entry c (portSource p) :: resolveParts c ++ noticeParts) s t)

/-! ## Driver demand (chapter 2) -/

/-- MISMATCH_ONSET (R33) and MISMATCH_RECOVERY (R34): with LINK present and LINE available, a run of disagreement of 500 ms sets the
mismatch flag and D becomes the larger of the two levels; a run of agreement of 2000 ms clears it and D becomes the LINK
level. LINK_AGE_EXPIRY (R29, R32): at an age of 100 ms LINK becomes absent, a mismatch ends, and D is the LINE level; without
LINE it is 0 and every channel holds NO_DEMAND_SOURCE. A DRIVER entry then stands in each table exactly while D is 15 kPa or
above (R35). The model's choices here: log entry 16. -/
def Obligations.DemandSourcesComeAndGo : Prop :=
  ∀ s : State, s.driver.linkPresent = true →
    (∀ y, s.driver.lineLevel = some y → s.driver.mismatch = false → 500 ≤ runMs s.driver.onset →
      ∃ t, exec .mismatchOnset s = .next t ∧
      t.driver = { s.driver with mismatch := true, recovery := none, demand := max (s.driver.linkLevel.getD 0) y } ∧
      (∀ c, (entryOf t c .driver).isSome = decide (15 ≤ t.driver.demand)) ∧ OnlyChanges (driverParts ++ noticeParts) s t ∧
      ∀ c, (channelOf t c).causes = (channelOf s c).causes) ∧
    (∀ y, s.driver.lineLevel = some y → s.driver.mismatch = true → 2000 ≤ runMs s.driver.recovery →
      ∃ t, exec .mismatchRecovery s = .next t ∧
      t.driver = { s.driver with mismatch := false, onset := none, recovery := none,
                                 demand := s.driver.linkLevel.getD 0 } ∧
      (∀ c, (entryOf t c .driver).isSome = decide (15 ≤ t.driver.demand)) ∧ OnlyChanges (driverParts ++ noticeParts) s t ∧
      ∀ c, (channelOf t c).causes = (channelOf s c).causes) ∧
    (∀ a, s.driver.linkAge = some a → 100 ≤ a → ∃ t, exec .linkAgeExpiry s = .next t ∧
      t.driver = { s.driver with linkPresent := false, mismatch := false, onset := none, recovery := none,
                                 demand := s.driver.lineLevel.getD 0 } ∧
      (∀ c, AddsCauses s t c (fun k => k == .noDemandSource && s.driver.lineLevel.isNone) ∧
        (s.driver.lineLevel = none → electronic s c = true → BackedUp t c)) ∧
      (∀ c, (entryOf t c .driver).isSome = decide (15 ≤ t.driver.demand)) ∧ OnlyChanges (driverParts ++ noticeParts) s t)

/-! ## The pressure sample (chapters 1 to 3) -/

/-- PRESSURE_SAMPLE takes the thirteen readings, invalid outside 0..1100 kPa (R14), forms the wheel records (R41, R42), v_ref
(R43), the gating speed (R44) and every slip (R47), adds DELIVERY_SENSOR to a channel whose delivery reading becomes invalid
outside STARTING (R14), and leaves the parts that no sample writes. Outside RUNNING the stage record stays but for the hold-off, which
falls by 10 ms (R118, R123), and the supply record stays. In PARKED, with no set armed, the Driver Demand record, the entries of the
five sources beside SKID, the whole Load Table, the tyre records, the indicators and the inner side stay too (R67, R80, R111, R176).
The model's choices here: log entries 12, 14. -/
def Obligations.SampleFormsReadingsAndSpeeds : Prop :=
  ∀ (s : State) (x : SampleSet), ∃ t, exec (.pressureSample x) s = .next t ∧
    (let reading (v : Int) : Option Nat := if 0 ≤ v ∧ v ≤ 1100 then some v.toNat else none
     (∀ c, t.front.delivery.get c = reading (x.delivery.get c)) ∧
     t.front.control = reading x.control ∧ t.front.supply = reading x.supply ∧ t.front.reservoir = reading x.reservoir ∧
     (∀ a, t.front.bagLeft.get a = reading (x.bagLeft.get a) ∧ t.front.bagRight.get a = reading (x.bagRight.get a))) ∧
    t.front.liftInput = x.liftRaised ∧
    (∀ c, (channelOf t c).causes.deliverySensor = true ↔ (channelOf s c).causes.deliverySensor = true ∨
      (s.standby.opState ≠ .starting ∧ (s.front.delivery.get c).isSome = true ∧ t.front.delivery.get c = none)) ∧
    (∀ c, let w := s.wheels.wheel.get c
      t.wheels.wheel.get c =
        if x.wheelClosed.get c = false then ⟨none, 200000, 0, false, 0⟩
        else if w.valid = false then ⟨none, 200000, 0, true, 0⟩
        else { w with speed := match w.period with
                      | none => 0
                      | some p => if 200000 ≤ w.age then 0
                        else min 2000 (calCircumference s.cal.active * 36000 / (calTeeth s.cal.active * max p w.age)) }) ∧
    (let v (c : Channel) : Nat := if (t.wheels.wheel.get c).valid then (t.wheels.wheel.get c).speed else 0
     let any : Prop := ∃ c, (t.wheels.wheel.get c).valid = true
     (any → t.wheels.vref = max (max (max (v .ch0) (v .ch1)) (max (v .ch2) (v .ch3))) (s.wheels.vref - 4) ∧
       t.wheels.gating = t.wheels.vref) ∧
     (¬ any → t.wheels.vref = 0 ∧ t.wheels.gating = match s.driver.tractorSpeed, s.driver.tractorAge with
       | some n, some a => if a < 100 then n else 0
       | _, _ => 0)) ∧
    (∀ c, let w := t.wheels.wheel.get c
      (t.skid.get c).slip =
        if w.valid = false then none
        else if t.wheels.vref < 50 then some 0 else some ((t.wheels.vref - w.speed) * 1024 / t.wheels.vref)) ∧
    (∀ q, q ∈ [Part.pending, .strangers, .learn, .inertial, .linkPort .down, .linkSetting, .ownPosition, .upService,
        .downService, .demandSlot, .heldReqs, .heldResps, .response .a, .response .b] ++
      everyChannel (fun c => [.volume c, .leakMark c, .entry c .ctrlA, .entry c .ctrlB]) → samePart s t q) ∧
    (isRunning s = false → samePart s t .supply ∧
      t.roll.stage = { s.roll.stage with holdOff := s.roll.stage.holdOff - 10 }) ∧
    (isParked s = true → s.cal.staging.state ≠ .armed →
      ∀ q, q ∈ [Part.standby, .driver, .axles, .raised, .group, .positions, .targets, .rollFlag, .worst, .indicator, .inner,
          .calActive, .staging, .linkPort .up] ++
        everyChannel (fun c => [.derate c, .entry c .driver, .entry c .ctrlA, .entry c .ctrlB, .entry c .emerg, .entry c .roll]) →
        samePart s t q)

/-- PRESSURE_SAMPLE drives the valves of an ELECTRONIC channel not under test by the table of R9 with the on-times of R10 and
the tracking timer of R13. The setpoint is the one formed from the same sample set (R38): that of `sampleResolved`, the sample
up to its control samples. The model's choices here: log entries 9, 12, 18. -/
def Obligations.SampleDrivesTheValves : Prop :=
  ∀ (s : State) (x : SampleSet) (c : Channel) (d : Nat), isParked s = false → underTest s c = false →
    let m := sampleResolved x s
    electronic m c = true → m.front.delivery.get c = some d →
    let sp := (channelOf m c).setpoint
    let e : Int := (sp : Int) - (d : Int)
    let k : Nat := match (channelOf s c).volumeClass with
      | some 1 => 4
      | some 2 => 6
      | some 4 => 10
      | some 5 => 12
      | some 6 => 14
      | _ => 8
    let on := 1 + e.natAbs * k / 64
    let drive : ValveDrive := if 10 ≤ on then .held else .pulsed on
    ∃ t, exec (.pressureSample x) s = .next t ∧ Resolved m c ∧
      (let r := channelOf t c
       (sp = 0 → r.controlState = .vent ∧ r.inlet = .closed ∧ r.exhaust = .held) ∧
       (sp ≠ 0 → 10 < e → r.controlState = .applying ∧ r.inlet = drive ∧ r.exhaust = .closed) ∧
       (sp ≠ 0 → e < -10 → r.controlState = .venting ∧ r.inlet = .closed ∧ r.exhaust = drive) ∧
       (sp ≠ 0 → -10 ≤ e → e ≤ 10 → r.controlState = .holding ∧ r.inlet = .closed ∧ r.exhaust = .closed) ∧
       (¬ (60 < e.natAbs ∧ 0 < sp ∧ (channelOf m c).supplyLimited = false) → r.tracking = none) ∧
       (60 < e.natAbs → 0 < sp → (channelOf m c).supplyLimited = false →
         r.tracking = some (match (channelOf m c).tracking with
           | none => 0
           | some n => min 400 (n + 10))))

/-- PRESSURE_SAMPLE outside PARKED: the condition of STARTUP lasts in STARTING, and after it until the sample with a valid delivery
reading (R4); with D below 15 kPa a channel keeps STARTUP and NO_DEMAND_SOURCE exactly where their conditions last, and PARKED
never, and from 15 kPa on no automatic cause is removed (R5). A channel that is not watched is FREE (R48); in RUNNING the supply and
reservoir measurements follow R15, R17 and R19.
The model's choices here: log entries 9, 12, 20. -/
def Obligations.SampleEndsCausesAndMeasures : Prop :=
  ∀ (s : State) (x : SampleSet), isParked s = false → ∃ t, exec (.pressureSample x) s = .next t ∧
    (∀ c, (channelOf t c).startupHeld = true ↔ (channelOf s c).startupHeld = true ∧
      (s.standby.opState = .starting ∨ t.front.delivery.get c = none)) ∧
    (t.driver.demand < 15 → ∀ c,
      ((channelOf t c).causes.startup = true ↔ (channelOf s c).causes.startup = true ∧ (channelOf t c).startupHeld = true) ∧
      ((channelOf t c).causes.noDemandSource = true ↔ noSource t = true) ∧
      (channelOf t c).causes.parked = false) ∧
    (15 ≤ t.driver.demand → ∀ c,
      (channelOf t c).causes.startup = (channelOf s c).causes.startup ∧
      ((channelOf s c).causes.noDemandSource = true → (channelOf t c).causes.noDemandSource = true) ∧
      (channelOf t c).causes.parked = (channelOf s c).causes.parked) ∧
    (∀ c, watched t c = false → (t.skid.get c).state = .free) ∧
    (isRunning s = true →
      (t.front.supply = none → t.supply.onset = none ∧ t.supply.recovery = none) ∧
      (∀ p, t.front.supply = some p → s.supply.emergency = false →
        t.supply.onset = if 250 ≤ p then none else some (match s.supply.onset with
          | none => 0
          | some n => min 200 (n + 10))) ∧
      (∀ p, t.front.supply = some p → s.supply.emergency = true →
        t.supply.recovery = if p < 400 then none else some (match s.supply.recovery with
          | none => 0
          | some n => min 1000 (n + 10))) ∧
      (∀ p, t.front.reservoir = some p → s.supply.lowReservoir = true →
        t.supply.lowReservoir = decide (p < 500) ∧ t.supply.lowMeasure = none) ∧
      (∀ p, t.front.reservoir = some p → s.supply.lowReservoir = false → t.supply.lowReservoir = false ∧
        t.supply.lowMeasure = if 450 ≤ p then none else some (match s.supply.lowMeasure with
          | none => 0
          | some n => min 1000 (n + 10))) ∧
      (t.front.reservoir = none → t.supply.lowReservoir = s.supply.lowReservoir ∧ t.supply.lowMeasure = none) ∧
      t.supply.emergency = s.supply.emergency)

/-- PRESSURE_SAMPLE outside PARKED (R28, R30 to R35, R38): LINE is the control reading, 0 below 15 kPa and at most 1000; with LINK and
LINE at hand the onset run, or in a mismatch the recovery run, follows the gap of the two levels, and D is the LINK level, or in
a mismatch that has not recovered the larger of the two; otherwise a mismatch and its runs end, and D is the level that is left,
0 without one. NO_DEMAND_SOURCE stands on every channel where neither is at hand, and leaves at D below 15 kPa where one is. The
DRIVER entry stands while D is 15 kPa or above, at the load curve of D times the applied derate / 1024, with the gain and the
derate as they stand once the sample's sensors are read; every channel is resolved. A setpoint that stays above 0, in the sample's
resolution (`sampleResolved`) and after it, keeps its applied derate (R36), but where the sample enters PROBE.
The model's choices here: log entries 9, 12. -/
def Obligations.SampleFormsTheDemand : Prop :=
  ∀ (s : State) (x : SampleSet), isParked s = false → ∃ t, exec (.pressureSample x) s = .next t ∧
    let d := s.driver
    let link := d.linkLevel.getD 0
    let line : Option Nat :=
      if 0 ≤ x.control ∧ x.control ≤ 1100 then some (if x.control < 15 then 0 else min 1000 x.control.toNat) else none
    let run (bound : Nat) (r : Run) : Nat := match r with
      | none => 0
      | some n => min bound (n + 10)
    (∀ y, line = some y → d.linkPresent = true →
      let gap := (y - link) + (link - y)
      (d.mismatch = false → t.driver = { d with
        lineLevel := some y, onset := if 100 < gap then some (run 500 d.onset) else none, demand := link }) ∧
      (d.mismatch = true → gap ≤ 30 → t.driver = { d with
        lineLevel := some y
        recovery := some (run 2000 d.recovery)
        demand := if run 2000 d.recovery < 2000 then max link y else link }) ∧
      (d.mismatch = true → 30 < gap → t.driver = { d with
        lineLevel := some y, recovery := none, demand := max link y })) ∧
    (d.linkPresent = false ∨ line = none → t.driver = { d with
      lineLevel := line, mismatch := false, onset := none, recovery := none
      demand := if d.linkPresent then link else line.getD 0 }) ∧
    ∀ c, ((channelOf t c).causes.noDemandSource = true ↔ (d.linkPresent = false ∧ line = none) ∨
        ((channelOf s c).causes.noDemandSource = true ∧ 15 ≤ t.driver.demand)) ∧
      (t.driver.demand < 15 → entryOf t c .driver = none) ∧
      (let m := sampleSensors x (headAlone s)
       let level := curveOf (calKnee s.cal.active) m.load.gain t.driver.demand * m.demand.applied.get c / 1024
       15 ≤ t.driver.demand → level ≤ 1000 → (entryOf t c .driver).map Entry.level = some level) ∧
      Resolved t c ∧
      (ResolutionInv s → (t.roll.stage.stage = .probe → s.roll.stage.stage = .probe) → 0 < (channelOf s c).setpoint →
        0 < (channelOf (sampleResolved x s) c).setpoint → 0 < (channelOf t c).setpoint →
        t.demand.applied.get c = s.demand.applied.get c)

/-- PRESSURE_SAMPLE outside PARKED (R67 to R69, R59, R71 to R73, R88, R103), with no set armed: axle 3 is raised exactly while the
calibration has a lift axle and the input shows raised. A raise takes its effective load and its jump pending away; a lowering
forms its mean, bag state, instant load and over-range from the readings of the sample and sets the effective load to the
instant load; either forms group load, laden fraction, gain, targets and the rollover tyre flag anew, and without a change the
loads stay. In RUNNING the sample counts 10 ms toward the next load update. The model's choices here: log entries 12, 43. -/
def Obligations.SampleRaisesAndLowersAxle3 : Prop :=
  ∀ (s : State) (x : SampleSet), isParked s = false → s.cal.staging.state ≠ .armed →
    ∃ t, exec (.pressureSample x) s = .next t ∧
    let r := s.load.axle.ax3
    let changed : Prop := t.load.raised ≠ s.load.raised
    t.load.raised = (calLiftFitted s.cal.active && x.liftRaised) ∧ t.load.frozen = s.load.frozen ∧
    t.load.axle.ax1 = s.load.axle.ax1 ∧ t.load.axle.ax2 = s.load.axle.ax2 ∧
    t.load.sinceUpdate = (if isRunning s then min 100 (s.load.sinceUpdate + 10) else s.load.sinceUpdate) ∧
    (¬ changed → t.load.axle.ax3 = r ∧ samePart s t .group ∧ samePart s t .targets ∧ samePart s t .positions) ∧
    (changed → t.load.raised = true → t.load.axle.ax3 = { r with effective := 0, jumpPending := false }) ∧
    (changed → t.load.raised = false →
      let mean : Option Nat := match t.front.bagLeft.ax3, t.front.bagRight.ax3 with
        | some a, some b => some ((a + b) / 2)
        | _, _ => none
      let load := instantLoad s.cal.active .ax3 mean
      t.load.axle.ax3 = ⟨mean, mean.isSome, load, load, false,
        match mean with
        | some m => decide (calP s.cal.active .ax3 4 < m)
        | none => false⟩) ∧
    (changed → LoadsFormed t ∧ TargetsFormed t ∧
      (t.tyre.rollFlag = true ↔ ∃ n, n ∈ allPositions ∧ axleRaised t (positionAxle n) = false ∧
        isSoft (positionCondition t n) = true))

/-- PRESSURE_SAMPLE outside PARKED (R46 to R53, R57): a channel that is not watched is FREE. A watched one takes at most one
transition by the slip of the sample and the largest APPLY level of the sample's resolution (`sampleResolved`): FREE to RELEASE
at a slip of 205 under braking; RELEASE to an unforced HOLD at the delivery reading below 102; HOLD to REAPPLY at the held level
below 51; REAPPLY back to RELEASE from 205; to FREE where the APPLY level is 0 or not above the held level. Otherwise its timer
grows by 10 ms, and a timed step may be due. A sample at which PROBE is entered is left to SampleStepsTheStage.
The model's choices here: log entries 11, 12, 19, 48. -/
def Obligations.SampleStepsTheSkidCycle : Prop :=
  ∀ (s : State) (x : SampleSet) (c : Channel), isParked s = false → ∃ t, exec (.pressureSample x) s = .next t ∧
    let k := s.skid.get c
    let e := t.skid.get c
    let slip := e.slip.getD 0
    let apply := ((sampleResolved x s).demand.summary.get c).largestApply
    let watch : Prop := electronic t c = true ∧ (t.wheels.wheel.get c).valid = true ∧ t.front.delivery.get c ≠ none ∧
      k.disabled = false ∧ s.roll.stage.probed ≠ some (channelSide c)
    let ends : Prop := apply = 0 ∨ ∃ h, k.held = some h ∧ apply ≤ h
    let freed : Prop :=
      e = { k with state := .free, held := none, timer := 0, slip := e.slip, stepDue := false } ∧
      entryOf t c .skid = none ∧ EventQueued s t
    let waits : Prop :=
      e = { k with timer := min 600 (k.timer + 10), slip := e.slip, stepDue := true } ∧ samePart s t (.entry c .skid)
    (t.roll.stage.stage = .probe → s.roll.stage.stage = .probe) →
    (¬ watch → (k.state = .free → e = { k with slip := e.slip }) ∧ (k.state ≠ .free → freed)) ∧
    (watch → k.state = .free →
      (205 ≤ slip ∧ 50 ≤ t.wheels.vref ∧ 0 < apply →
        e = { k with state := .release, held := none, timer := 0, slip := e.slip, stepDue := false } ∧
        entryOf t c .skid = some ⟨0, none, some (.skid .release)⟩ ∧ EventQueued s t) ∧
      (¬ (205 ≤ slip ∧ 50 ≤ t.wheels.vref ∧ 0 < apply) →
        e = { k with slip := e.slip } ∧ samePart s t (.entry c .skid))) ∧
    (watch → k.state ≠ .free → ends → freed) ∧
    (watch → k.state = .release → ¬ ends → (slip < 102 → ∀ d, t.front.delivery.get c = some d →
        e = { k with state := .hold, held := some (min 1000 d), timer := 0, slip := e.slip, forcedCount := 0,
                     stepDue := false } ∧
        entryOf t c .skid = some ⟨min 1000 d, none, some (.skid .hold)⟩) ∧
      (102 ≤ slip → waits)) ∧
    (watch → k.state = .hold → ¬ ends → ∀ h, k.held = some h → (slip < 51 →
        e = { k with state := .reapply, timer := 0, slip := e.slip, stepDue := false } ∧
        entryOf t c .skid = some ⟨min 1000 h, none, some (.skid .reapply)⟩) ∧
      (51 ≤ slip → waits)) ∧
    (watch → k.state = .reapply → ¬ ends → (205 ≤ slip →
        e = { k with state := .release, held := none, timer := 0, slip := e.slip, stepDue := false } ∧
        entryOf t c .skid = some ⟨0, none, some (.skid .release)⟩) ∧
      (slip < 205 → waits))

/-- PRESSURE_SAMPLE in RUNNING (R113 to R121, R56, R129), with rollover enabled and the risk index present: the stage takes at most
one of its transitions by the risk, the gating speed, the inner side, the slips, the DRIVER levels and the modes of the state
after, and the hold-off falls by 10 ms. OFF passes to QUIET, QUIET to WATCH at 716; WATCH to INTERVENE at the limit or at the
lift of a braked inner wheel, else to PROBE; PROBE to INTERVENE at lift or at the limit, else to WATCH where it can no longer
tell; INTERVENE follows the inner side; RECOVER returns to INTERVENE at the limit. Entering PROBE takes the Test Pulse Generator
from a running test, which ends ABORTED where QueueInv and ValveInv hold, and the inner channels from the Anti-Lock Monitor.
The model's choices here: log entries 12, 42. -/
def Obligations.SampleStepsTheStage : Prop :=
  ∀ (s : State) (x : SampleSet), isRunning s = true → calRollEnabled s.cal.active = true →
    ∃ t, exec (.pressureSample x) s = .next t ∧ ∀ n, t.roll.indicator.risk = some n →
    let r : StageRec := { s.roll.stage with holdOff := s.roll.stage.holdOff - 10 }
    let inner (c : Channel) : Prop := channelSide c = t.roll.inner
    let lowered (c : Channel) : Prop := servesAxle3 c = false ∨ t.load.raised = false
    let lifts (c : Channel) : Prop := lowered c ∧ 307 ≤ ((t.skid.get c).slip).getD 0
    let braked (c : Channel) : Prop := 50 ≤ levelOr0 (entryOf t c .driver)
    let limit : Prop := 1024 ≤ n ∧ 200 ≤ t.wheels.gating
    let calm : Run := if n < 614 then some (match r.calm with
      | none => 0
      | some k => min 500 (k + 10)) else none
    let full := calIntervene s.cal.active
    let level (c : Channel) : Nat := if channelSide c = t.roll.inner then full / 2 else full
    let levels : PerChannel (Option Nat) := ⟨some (level .ch0), some (level .ch1), some (level .ch2), some (level .ch3)⟩
    let intervenes : Prop :=
      t.roll.stage = { r with
        stage := .intervene, probed := none, probeTimer := 0, minTimer := 0, ramp := 0, calm := none, level := levels } ∧
      (∀ c, entryOf t c .roll = some ⟨min 1000 (level c), none, some (.stage .intervene)⟩) ∧
      t.tests.holder ≠ .probe ∧ EventQueued s t
    let lift : Prop := ∃ c, inner c ∧ lifts c ∧ braked c
    let probes : Prop := 870 ≤ n ∧ 200 ≤ t.wheels.gating ∧ r.holdOff = 0 ∧
      ∀ c, inner c → electronic t c = true ∧ ¬ braked c
    (r.stage = .off → t.roll.stage = { r with stage := .quiet, calm := none } ∧ EventQueued s t) ∧
    (r.stage = .quiet → (716 ≤ n → t.roll.stage = { r with stage := .watch, calm := none } ∧ EventQueued s t) ∧
      (n < 716 → t.roll.stage = r)) ∧
    (r.stage = .watch →
      (limit ∨ (870 ≤ n ∧ 200 ≤ t.wheels.gating ∧ lift) → intervenes) ∧
      (¬ limit → ¬ (870 ≤ n ∧ 200 ≤ t.wheels.gating ∧ lift) → probes →
        t.roll.stage.stage = .probe ∧ t.roll.stage.probed = some t.roll.inner ∧ t.roll.stage.probeTimer = 0 ∧
        t.roll.stage.calm = none ∧ t.tests.holder = .probe ∧ EventQueued s t ∧
        (QueueInv s → ValveInv s → ∀ q, s.tests.holder = .test q → (t.tests.result.get q.channel).outcome = some .aborted) ∧
        ∀ c, (inner c → t.roll.stage.level.get c = some (calProbe s.cal.active) ∧ (t.skid.get c).state = .free ∧
            entryOf t c .roll = some ⟨min 1000 (calProbe s.cal.active), none, some (.stage .probe)⟩) ∧
          (¬ inner c → t.roll.stage.level.get c = s.roll.stage.level.get c ∧ samePart s t (.entry c .roll))) ∧
      (¬ limit → ¬ (870 ≤ n ∧ 200 ≤ t.wheels.gating ∧ lift) → ¬ probes → t.roll.stage = { r with calm := calm })) ∧
    (r.stage = .probe → ∀ side, r.probed = some side →
      let probed (c : Channel) : Prop := channelSide c = side
      let spoiled : Prop := t.wheels.gating < 200 ∨ n < 614 ∨ t.roll.inner ≠ side ∨
        ∃ c, probed c ∧ (electronic t c = false ∨ braked c)
      let found : Prop := (∃ c, probed c ∧ lifts c) ∨ limit
      (found → intervenes) ∧
      (¬ found → spoiled →
        t.roll.stage = { r with
          stage := .watch, probed := none, probeTimer := 0, holdOff := 1000, calm := none, level := .const none } ∧
        (∀ c, entryOf t c .roll = none) ∧ t.tests.holder ≠ .probe ∧ EventQueued s t) ∧
      (¬ found → ¬ spoiled → t.roll.stage = { r with probeTimer := min 300 (r.probeTimer + 10) })) ∧
    (r.stage = .intervene →
      t.roll.stage = { r with minTimer := min 500 (r.minTimer + 10), calm := calm, level := levels } ∧
      ∀ c, (r.level.get c = some (level c) → samePart s t (.entry c .roll)) ∧
        (r.level.get c ≠ some (level c) → entryOf t c .roll = some ⟨min 1000 (level c), none, some (.stage .intervene)⟩)) ∧
    (r.stage = .recover → (limit → intervenes) ∧
      (¬ limit → t.roll.stage = { r with ramp := min 100 (r.ramp + 10) }))

/-- PRESSURE_SAMPLE and the Response Test Unit (R128, R130, R133). A test that the sample's resolution (`sampleResolved`) has not
aborted is aborted with cause MOTION where v_ref is above 0, its exhaust open; otherwise, in a calm stage and off the skid cycle,
its timer grows by 10 ms, and the first reading of 50 kPa in PULSE sets t50. In RUNNING a head whose channel is in BACKUP is
refused with NOT_ELECTRONIC; any other stays, and its start or its timeout is found due or not. Never does more than the head
leave the queue, and outside RUNNING none does. The model's choices here: log entries 11, 12, 53, 65, 70. -/
def Obligations.SampleRunsTheTest : Prop :=
  ∀ (s : State) (x : SampleSet), ∃ t, exec (.pressureSample x) s = .next t ∧
    (∀ q, s.tests.holder = .test q → q.channel ∉ s.tests.queue.map TestRequest.channel →
      let c := q.channel
      let calm : Prop := s.roll.stage.stage = .quiet ∨ s.roll.stage.stage = .off
      let m := sampleResolved x s
      let timer := min (match q.phase with | .pulse => 150 | .settle => 250 | .vent => 750) (q.timer + 10)
      (m.tests.holder ≠ .test q → (t.tests.result.get c).outcome = some .aborted) ∧
      (m.tests.holder = .test q → 0 < t.wheels.vref →
        t.tests.result.get c = ⟨some .aborted, some .motion, q.t50, q.pEnd, q.pHold, none, some q.port⟩ ∧
        (portOf t q.port).attention.testResult = true ∧ (∀ u, t.tests.holder ≠ .test u) ∧
        (isParked s = false ∨ isParked t = true → (channelOf t c).inlet = .closed ∧ (channelOf t c).exhaust = .held)) ∧
      (m.tests.holder = .test q → t.wheels.vref = 0 → calm → (s.skid.get c).state = .free →
        t.tests.holder = .test { q with
          timer := timer
          t50 := if q.phase = .pulse ∧ q.t50 = none ∧ 50 ≤ (t.front.delivery.get c).getD 0 then some timer else q.t50 })) ∧
    (∀ q rest, s.tests.queue = q :: rest → isRunning s = true →
      let c := q.channel
      (electronic t c = false → t.tests.queue = rest ∧ t.tests.headWait = 0 ∧ t.tests.headDue = false ∧
        t.tests.result.get c = ⟨some .refused, some .notElectronic, none, 0, 0, none, some q.port⟩ ∧
        (portOf t q.port).attention.testResult = true) ∧
      (electronic t c = true → t.tests.queue = s.tests.queue ∧ t.tests.headWait = s.tests.headWait ∧
        (s.cal.staging.state ≠ .armed → (t.tests.headDue = true ↔ 10000 ≤ s.tests.headWait ∨
          (t.tests.holder = .free ∧ (channelOf t c).setpoint = 0 ∧ t.wheels.vref = 0 ∧
            (∃ d, t.front.delivery.get c = some d ∧ d ≤ 10) ∧
            (t.roll.stage.stage = .quiet ∨ t.roll.stage.stage = .off)))))) ∧
    (isRunning s = false ∨ s.tests.queue = [] → samePart s t .testQueue)

/-! ## Wheels and anti-lock (chapter 3) -/

/-- WHEEL_PULSE (R40): a pulse less than 200 ms after the one before it sets the last pulse period; any other only starts the
timing. In PARKED it is a wake of reason MOTION (R178). The microseconds since the last pulse are those of the pulse age and
of the present millisecond (log entry 7). -/
def Obligations.PulseSetsThePeriod : Prop :=
  ∀ (s : State) (c : Channel) (m : Nat), m < 1000 →
    let w := s.wheels.wheel.get c
    let elapsed := max 1 (w.age + m - w.edgeOffset)
    ∃ t, exec (.wheelPulse c m) s = .next t ∧
      t.wheels.wheel.get c =
        { w with period := if elapsed < 200000 then some elapsed else none, age := 0, edgeOffset := m } ∧
      (isParked s = true → t.standby = { s.standby with
          opState := .starting, startingTimer := 0, wakeReason := some .motion, wakeTimer := none } ∧
        (∀ d, AddsCauses s t d (fun k => k == .startup)) ∧ t.portA.attention.wakeReason = true) ∧
      OnlyChanges (.wheel c :: noticeParts ++ wakeParts s) s t

/-- SKID_FORCED_HOLD, SKID_HOLD_TIMEOUT and SKID_REAPPLY_STEP (R50 to R52, R54): a release of 600 ms is held at the delivery
reading and counted, and disables anti-lock at the third in a row; a hold of 100 ms passes to REAPPLY at the held level;
after 50 ms in REAPPLY the level rises by 20 kPa, or the cycle ends where that reaches the largest APPLY level.
The model's choices here: log entries 11, 19. -/
def Obligations.SkidStepsTakeTheirCourse : Prop :=
  ∀ (s : State) (c : Channel), (s.skid.get c).stepDue = true →
    let k := s.skid.get c
    (k.state = .release → 600 ≤ k.timer → ∃ t, exec (.skidForcedHold c) s = .next t ∧
      (k.forcedCount < 2 → ∀ d, s.front.delivery.get c = some d →
        t.skid.get c = { k with state := .hold, held := some (min 1000 d), timer := 0, forcedCount := k.forcedCount + 1,
                                stepDue := false } ∧
        entryOf t c .skid = some ⟨min 1000 d, none, some (.skid .hold)⟩ ∧ Resolved t c ∧
        OnlyChanges (skidParts c ++ noticeParts) s t) ∧
      (2 ≤ k.forcedCount →
        t.skid.get c = { k with state := .free, held := none, timer := 0, forcedCount := 3, disabled := true,
                                stepDue := false } ∧
        entryOf t c .skid = none ∧ EventQueued s t ∧ OnlyChanges (freeParts c) s t)) ∧
    (k.state = .hold → 100 ≤ k.timer → ∀ h, k.held = some h → ∃ t, exec (.skidHoldTimeout c) s = .next t ∧
      t.skid.get c = { k with state := .reapply, timer := 0, stepDue := false } ∧
      entryOf t c .skid = some ⟨min 1000 h, none, some (.skid .reapply)⟩ ∧ Resolved t c ∧
      OnlyChanges (skidParts c ++ noticeParts) s t) ∧
    (k.state = .reapply → 50 ≤ k.timer → ∀ h, k.held = some h → ∃ t, exec (.skidReapplyStep c) s = .next t ∧
      (h + 20 < (s.demand.summary.get c).largestApply →
        t.skid.get c = { k with state := .reapply, held := some (h + 20), timer := 0, stepDue := false } ∧
        entryOf t c .skid = some ⟨min 1000 (h + 20), none, some (.skid .reapply)⟩ ∧ Resolved t c ∧
        OnlyChanges (skidParts c ++ noticeParts) s t) ∧
      ((s.demand.summary.get c).largestApply ≤ h + 20 →
        t.skid.get c = { k with state := .free, held := none, timer := 0, stepDue := false } ∧
        entryOf t c .skid = none ∧ EventQueued s t ∧ OnlyChanges (freeParts c) s t))

/-! ## Loads (chapter 4) -/

/-- LOAD_UPDATE (R59 to R73, R88): after 100 ms of samples in RUNNING each axle's instant load is read anew and its effective load
kept while the filter is frozen, jumped to the instant load after a bag failure, filtered by an eighth of the gap otherwise,
and 0 on a raised axle; group load, laden fraction, load gain and target pressures follow; in an emergency the EMERG level
is formed anew. A jump that the freeze holds back stays pending, and one that is served is cleared. That the jump is found by the bag
state as last written is the model's choice (log entry 49); the others here: log entry 11. -/
def Obligations.LoadUpdateFormsTheLoads : Prop :=
  ∀ s : State, isRunning s = true → 100 ≤ s.load.sinceUpdate → ∃ t, exec .loadUpdate s = .next t ∧
    t.load.sinceUpdate = 0 ∧ t.load.frozen = !setpointsZero s ∧ t.load.raised = s.load.raised ∧
    (∀ x, let r := s.load.axle.get x
      let m := bagMean s x
      let inst := instantLoad s.cal.active x m
      let jump := if m.isSome || axleRaised s x then false else r.bagValid || r.jumpPending
      (t.load.axle.get x).mean = m ∧ (t.load.axle.get x).bagValid = m.isSome ∧ (t.load.axle.get x).instant = inst ∧
      (t.load.axle.get x).overRange = overRangeOf s.cal.active x m ∧
      (t.load.axle.get x).jumpPending = (jump && t.load.frozen) ∧
      (t.load.axle.get x).effective =
        (if axleRaised s x then 0
         else if t.load.frozen then r.effective
         else if jump then inst
         else filterStep inst r.effective)) ∧
    t.load.group =
      (t.load.axle.get .ax1).effective + (t.load.axle.get .ax2).effective + (t.load.axle.get .ax3).effective ∧
    t.load.lambda = min 1024 ((t.load.group - calU s.cal.active) * 1024 / (calF s.cal.active - calU s.cal.active)) ∧
    t.load.gain = calGEmpty s.cal.active + (1024 - calGEmpty s.cal.active) * t.load.lambda / 1024 ∧
    (∀ x, t.tyre.target.get x = ((calTUnl s.cal.active x : Int) +
      (((calTLad s.cal.active x : Int) - (calTUnl s.cal.active x : Int)) * (t.load.lambda : Int)).tdiv 1024).toNat) ∧
    (s.supply.emergency = true → ∀ c, entryOf t c .emerg =
      some ⟨min 1000 (curveOf (calKnee s.cal.active) t.load.gain 800), none, none⟩) ∧
    OnlyChanges (.axles :: loadParts s ++ everyChannel (fun c => .entry c .emerg :: resolveParts c) ++ noticeParts) s t

/-! ## Tyres (chapter 5) -/

/-- TYRE_TELEGRAM (R82 to R85, R87, R89, R90, R94, R97): a telegram that fails its check, repeats the counter of an ID within
2000 ms or meets no acceptance window changes nothing; any other completes a learn, or updates the position that holds its ID,
or enters the front of the Stranger List. A position that enters CRITICAL or LEAK queues an own event, and in PARKED wakes the
part (R104); a completed learn clears the position first, so a severe reading there is always a new entry.
The model's choices here: log entries 21, 46. -/
def Obligations.TelegramIsDispatched : Prop :=
  ∀ (s : State) (bs : List Byte), s.tyre.positions.length = 12 → ∃ t, exec (.tyreTelegram bs) s = .next t ∧
    let g := telegramOf bs
    let temp : Int := (g.tempCode : Int) - 40
    let p := min 1275 ((g.pMeas + 100) * 293 / (temp + 273).toNat - 100)
    let holds (n : Nat) : Prop := n ∈ allPositions ∧ (positionOf s n).sensor = some g.sensor ∧
      ∀ m, m ∈ allPositions → m < n → (positionOf s m).sensor ≠ some g.sensor
    let stranger := s.tyre.strangers.find? (fun e => e.sensor == g.sensor)
    let repeated : Prop :=
      (∃ n d, holds n ∧ (positionOf s n).dup = some d ∧ d.counter = g.counter ∧ d.age < 2000) ∨
      (∃ e, (∀ n, ¬ holds n) ∧ stranger = some e ∧ e.counter = g.counter ∧ e.counterAge < 2000)
    let word (k : Nat) : Nat := s.cal.active.getD k 0
    let mask (k : Nat) : Nat := word (43 + 5 * k) * 65536 + word (44 + 5 * k)
    let accepted : Prop :=
      (∃ k, k < 4 ∧ word (40 + 5 * k) = 1 ∧
        g.sensor &&& mask k = (word (41 + 5 * k) * 65536 + word (42 + 5 * k)) &&& mask k) ∨
      ∀ k, k < 4 → word (40 + 5 * k) ≠ 1
    let taken : Prop := bs.length = 8 ∧ bs.getD 7 0#8 = ~~~ (byteSum (bs.take 7)) ∧ byteAt bs 6 ≤ 165 ∧ ¬ repeated ∧ accepted
    let completes (n : Nat) : Prop := (∃ r, s.tyre.learn = some r ∧ r.position = n) ∧ g.learn = true ∧
      (positionOf s n).sensor ≠ some g.sensor
    let newEntry (n : Nat) : Prop := isSevere (positionCondition t n) = true → EventQueued s t ∧
      (isParked s = true → Woken s t .tyre)
    let data (previous : Option TyreData) (target : Nat) : TyreData :=
      let flag (set clear : Bool) (old : TyreData → Bool) : Bool :=
        if set then true else if clear then false else (previous.map old).getD false
      let fell : Bool := match previous with
        | some d => decide (d.ageMs / 1000 ≤ 120 ∧ p + 15 ≤ d.pComp)
        | none => false
      ⟨g.pMeas, temp, p, flag (g.rapidLoss || fell) (decide (target * 973 / 1024 ≤ p)) TyreData.leak,
        flag (decide (p < target * 819 / 1024)) (decide (target * 840 / 1024 ≤ p)) TyreData.critical,
        flag (decide (p < target * 922 / 1024)) (decide (target * 942 / 1024 ≤ p)) TyreData.low,
        flag (decide (95 ≤ temp)) (decide (temp ≤ 85)) TyreData.hot, 0, false, g.batteryLow⟩
    (¬ taken → OnlyChanges noticeParts s t) ∧
    (taken → (∀ n, ¬ completes n) → ∀ n, holds n →
      positionOf t n = ⟨(positionOf s n).sensor, some ⟨g.counter, 0⟩,
        some (data (positionOf s n).data (s.tyre.target.get (positionAxle n)))⟩ ∧
      (∀ m, m ∈ allPositions → m ≠ n → positionOf t m = positionOf s m) ∧
      (isSevere (positionCondition s n) = false → newEntry n) ∧
      OnlyChanges (recordParts n ++ eventParts ++ wakeParts s) s t) ∧
    (taken → (∀ n, ¬ completes n) → (∀ n, ¬ holds n) →
      t.tyre.strangers = ⟨g.sensor, g.pMeas, temp, g.counter, 0,
          (match stranger with
           | some e => min 255 (e.hits + 1)
           | none => 1), 0⟩ ::
        (if stranger.isSome then s.tyre.strangers.filter (fun e => e.sensor != g.sensor) else s.tyre.strangers.take 7) ∧
      OnlyChanges (.strangers :: noticeParts) s t) ∧
    (taken → ∀ n, completes n → n ∈ allPositions →
      positionOf t n = ⟨some g.sensor, some ⟨g.counter, 0⟩, some (data none (s.tyre.target.get (positionAxle n)))⟩ ∧
      TakenOut s t g.sensor n ∧ newEntry n ∧
      t.tyre.learn = none ∧ t.tyre.learnOutcome = some .completed ∧ t.tyre.learnedId = some g.sensor ∧
      t.portA.attention.learnOutcome = true ∧ OnlyChanges (.learn :: .strangers :: positionParts s) s t)

/-! ## Rollover (chapter 6) -/

/-- INERTIAL_SAMPLE (R106): a sample with a matching CRC-8, an acceleration within -1500..1500 and a new counter is taken whole and
makes the acceleration indicator available; any other changes no field. INERTIAL_AGE_EXPIRY (R107): an age of 50 ms, at which the
indicator is unavailable, is reported: the record keeps its values, and in RUNNING the fault of the inertial line goes live.
The model's choices here: log entries 16, 46. -/
def Obligations.InertialSamplesComeAndAge : Prop :=
  ∀ (s : State) (bs : List Byte),
    (∃ t, exec (.inertialSample bs) s = .next t ∧
    let a := (BitVec.ofNat 16 (byteAt bs 0 * 256 + byteAt bs 1)).toInt
    let n := byteAt bs 2 % 16
    let good : Prop := bs.length = 4 ∧ bs.getD 3 0#8 = crc8 (bs.take 3) ∧ -1500 ≤ a ∧ a ≤ 1500 ∧
      s.roll.inertial.counter ≠ some n
    (good → t.roll.inertial = ⟨some a, some n, some 0, true⟩ ∧ OnlyChanges (.inertial :: noticeParts) s t) ∧
    (¬ good → OnlyChanges noticeParts s t)) ∧
    (s.roll.inertial.available = true → ∀ a, s.roll.inertial.age = some a → 50 ≤ a → s.faults.length = faultCount →
      ∃ t, exec .inertialAgeExpiry s = .next t ∧
        t.roll.inertial = { s.roll.inertial with available := false } ∧ (faultOf t 38).live = isRunning s ∧
        OnlyChanges (.inertial :: noticeParts) s t)

/-- PRESSURE_SAMPLE (R107 to R112, R114): outside PARKED the indicators and the inner side are formed from the readings of the
sample, the acceleration while its age is below 50 ms, and the laden fraction, the raised state and the tyre flag as they stand
in `sampleResolved`, the sample up to its control samples (those of the state after, where no set was armed); in RUNNING, with
rollover not enabled or without any indicator, another stage passes to OFF: no level, no ROLL entry, no probed channels, the
generator free of the probe, the timers at rest, the hold-off left to run down, an own event queued (R113, R148).
The model's choices here: log entries 12, 16, 52. -/
def Obligations.SampleFormsTheIndicators : Prop :=
  ∀ (s : State) (x : SampleSet), isParked s = false → ∃ t, exec (.pressureSample x) s = .next t ∧
    let m := sampleResolved x s
    let i := t.roll.indicator
    let thr := calAEmpty s.cal.active - (calAEmpty s.cal.active - calALaden s.cal.active) * m.load.lambda / 1024
    let l := i.sumLeft
    let r := i.sumRight
    let bags (v : PerAxle Reading) : List Reading :=
      if m.load.raised then [v.ax1, v.ax2] else [v.ax1, v.ax2, v.ax3]
    let sign (v : Option Int) : Option Side := match v with
      | some a => if 0 < a then some .left else if a < 0 then some .right else none
      | none => none
    (s.cal.staging.state ≠ .armed → t.load.lambda = m.load.lambda ∧ t.load.raised = m.load.raised ∧
      t.tyre.rollFlag = m.tyre.rollFlag) ∧
    l = ((bags t.front.bagLeft).map (fun b => b.getD 0)).sum ∧
    r = ((bags t.front.bagRight).map (fun b => b.getD 0)).sum ∧
    i.ltr = (if (bags t.front.bagLeft ++ bags t.front.bagRight).any Option.isNone then none
      else some (if r + l = 0 then 0 else (((r : Int) - (l : Int)) * 1024).tdiv ((r : Int) + (l : Int)))) ∧
    i.thrBefore = thr ∧ i.thrUsed = (if m.tyre.rollFlag then thr - thr / 8 else thr) ∧ i.tyreReduced = m.tyre.rollFlag ∧
    i.ay = (match s.roll.inertial.age with
      | some a => if a < 50 then s.roll.inertial.accel else none
      | none => none) ∧
    i.riskAccel = i.ay.map (fun a => a.natAbs * 1024 / i.thrUsed) ∧
    i.riskLtr = i.ltr.map (fun n => n.natAbs * 1024 / calLtrLim s.cal.active) ∧
    i.risk = (match i.riskAccel, i.riskLtr with
      | none, none => none
      | some a, none => some (min 2047 a)
      | none, some b => some (min 2047 b)
      | some a, some b => some (min 2047 (max a b))) ∧
    i.gating = t.wheels.gating ∧ t.roll.inner = ((sign i.ay).or (sign i.ltr)).getD s.roll.inner ∧
    (isRunning s = true → calRollEnabled s.cal.active = false ∨ i.risk = none →
      (s.roll.stage.stage = .off → t.roll.stage = { s.roll.stage with holdOff := s.roll.stage.holdOff - 10 }) ∧
      (s.roll.stage.stage ≠ .off →
        t.roll.stage = { s.roll.stage with
          stage := .off, probed := none, probeTimer := 0, holdOff := s.roll.stage.holdOff - 10, minTimer := 0, calm := none
          ramp := 0, level := .const none } ∧
        (∀ c, entryOf t c .roll = none) ∧ (s.tests.holder = .probe → t.tests.holder = .free) ∧ EventQueued s t))

/-- ROLLOVER_CALM_TO_QUIET (R115), PROBE_TIMEOUT (R117, R118) and INTERVENE_END (R120, R121): WATCH passes to QUIET after 300 ms of
calm; PROBE to WATCH after 300 ms, the generator and every ROLL entry given up and the hold-off begun; INTERVENE to RECOVER
after 500 ms once calm for 500 ms or slow, at the levels it held. Each queues an own event (R148). RECOVER_STEP (R121): after
100 ms in RECOVER every ROLL level above 0 falls by 50 kPa, not below 0, and is posted; when all four are 0 the entries are
withdrawn and the stage is WATCH or QUIET by the risk index. The model's choices here: log entries 9, 39, 42. -/
def Obligations.StageTimersPassTheStageOn : Prop :=
  ∀ s : State, isRunning s = true →
    let r := s.roll.stage
    (r.stage = .watch → 300 ≤ runMs r.calm → ∃ t, exec .rolloverCalmToQuiet s = .next t ∧
      t.roll.stage = { r with stage := .quiet, calm := none } ∧ EventCounted s t ∧
      OnlyChanges (.stage :: eventParts) s t) ∧
    (r.stage = .probe → 300 ≤ r.probeTimer → ∃ t, exec .probeTimeout s = .next t ∧
      t.roll.stage = { r with stage := .watch, probed := none, probeTimer := 0, holdOff := 1000, calm := none,
                              level := .const none } ∧
      (s.tests.holder = .probe → t.tests.holder = .free) ∧ (∀ c, entryOf t c .roll = none) ∧ EventCounted s t ∧
      OnlyChanges stageParts s t) ∧
    (r.stage = .intervene → 500 ≤ r.minTimer → 500 ≤ runMs r.calm ∨ s.wheels.gating < 200 →
      ∃ t, exec .interveneEnd s = .next t ∧
        t.roll.stage = { r with stage := .recover, ramp := 0, calm := none,
                                level := r.level.map (fun l => some (l.getD 0)) } ∧
        (∀ c, entryOf t c .roll = some ⟨min 1000 ((r.level.get c).getD 0), none, some (.stage .recover)⟩ ∧
          Resolved t c) ∧
        EventCounted s t ∧ OnlyChanges stageParts s t) ∧
    (r.stage = .recover → 100 ≤ r.ramp →
      let old (c : Channel) : Nat := (r.level.get c).getD 0
      let done : Prop := ∀ c, old c ≤ 50
      ∃ t, exec .recoverStep s = .next t ∧
        (¬ done → t.roll.stage.stage = .recover ∧ t.roll.stage.ramp = 0 ∧
          ∀ c, (t.roll.stage.level.get c).getD 0 = old c - 50 ∧
            (0 < old c → entryOf t c .roll = some ⟨min 1000 (old c - 50), none, some (.stage .recover)⟩ ∧ Resolved t c) ∧
            (old c = 0 → entryOf t c .roll = entryOf s c .roll)) ∧
        (done → t.roll.stage.stage = (if 716 ≤ s.roll.indicator.risk.getD 0 then .watch else .quiet) ∧
          t.roll.stage.level = .const none ∧ (∀ c, entryOf t c .roll = none) ∧ EventCounted s t) ∧
        OnlyChanges stageParts s t)

/-! ## Chamber response tests (chapter 7) -/

/-- TEST_START and TEST_HEAD_TIMEOUT (R128 to R130, R12): the head that the last sample found to meet every start condition leaves
the queue and takes the generator, its inlet opens; a head found to have waited 10000 ms is refused with cause TIMEOUT, and
its port is told. The model's choices here: log entries 11, 65. -/
def Obligations.HeadOfTheQueueStartsOrIsRefused : Prop :=
  ∀ (s : State) (q : TestRequest) (rest : List TestRequest), s.tests.queue = q :: rest → s.tests.headDue = true →
    (s.tests.headWait < 10000 → s.tests.holder = .free → electronic s q.channel = true →
      (channelOf s q.channel).setpoint = 0 → ∀ d, s.front.delivery.get q.channel = some d → d ≤ 10 →
      s.wheels.vref = 0 → s.roll.stage.stage = .quiet ∨ s.roll.stage.stage = .off →
      ∃ t, exec .testStart s = .next t ∧ t.tests.queue = rest ∧ t.tests.headWait = 0 ∧
        t.tests.holder = .test ⟨q.channel, q.port, .pulse, 0, none, 0, 0⟩ ∧
        (channelOf t q.channel).inlet = .held ∧ (channelOf t q.channel).exhaust = .closed ∧
        (channelOf t q.channel).controlState = .holding ∧ (channelOf t q.channel).tracking = none ∧
        (channelOf t q.channel).backupValve = (channelOf s q.channel).backupValve ∧
        OnlyChanges (.testQueue :: .holder :: .valves q.channel :: noticeParts) s t) ∧
    (10000 ≤ s.tests.headWait → ∃ t, exec .testHeadTimeout s = .next t ∧ t.tests.queue = rest ∧
      t.tests.headWait = 0 ∧
      t.tests.result.get q.channel = ⟨some .refused, some .timeout, none, 0, 0, none, some q.port⟩ ∧
      (portOf t q.port).attention.testResult = true ∧
      OnlyChanges (.testQueue :: .result q.channel :: noticeParts) s t)

/-- TEST_PULSE_END and TEST_SETTLE_END (R130): at 150 ms the delivery reading is taken as p_end and the inlet closes; at 250 ms it
is taken as p_hold and the exhaust opens. TEST_VENT_END (R131, R132, R134): the measurements are classified by the first line of
R131 that applies, the result is stored for the requesting port, the generator is freed; NORMAL writes the class, OPEN and
BLOCKED clear it and add TEST_FAULT, LEAKING sets the leak mark. The model's choices here: log entries 9, 53. -/
def Obligations.TestPhasesEndAndAreClassified : Prop :=
  (∀ (s : State) (r : RunningTest) (d : Nat), s.tests.holder = .test r → s.front.delivery.get r.channel = some d →
    (r.phase = .pulse → 150 ≤ r.timer → ∃ t, exec .testPulseEnd s = .next t ∧
      t.tests.holder = .test { r with phase := .settle, pEnd := d } ∧ (channelOf t r.channel).inlet = .closed ∧
      (channelOf t r.channel).exhaust = (channelOf s r.channel).exhaust ∧
      (channelOf t r.channel).backupValve = (channelOf s r.channel).backupValve ∧
      OnlyChanges (.holder :: .valves r.channel :: noticeParts) s t) ∧
    (r.phase = .settle → 250 ≤ r.timer → ∃ t, exec .testSettleEnd s = .next t ∧
      t.tests.holder = .test { r with phase := .vent, pHold := d } ∧ (channelOf t r.channel).exhaust = .held ∧
      (channelOf t r.channel).inlet = (channelOf s r.channel).inlet ∧
      (channelOf t r.channel).backupValve = (channelOf s r.channel).backupValve ∧
      OnlyChanges (.holder :: .valves r.channel :: noticeParts) s t)) ∧
  (∀ (s : State) (r : RunningTest), s.tests.holder = .test r → r.phase = .vent → 250 < r.timer →
    (∃ d, s.front.delivery.get r.channel = some d ∧ d ≤ 10) ∨ 750 ≤ r.timer →
    r.channel ∉ s.tests.queue.map TestRequest.channel →
    let c := r.channel
    let out : TestOutcome :=
      if r.t50 = none ∧ r.pEnd < 20 then .opened
      else if r.t50 = some 10 then .blocked
      else if r.pHold + 40 < r.pEnd then .leaking
      else .normal
    let cls : Nat := match r.t50 with
      | none => 6
      | some n => if n ≤ 30 then 1 else if n ≤ 50 then 2 else if n ≤ 70 then 3 else if n ≤ 100 then 4 else 5
    ∃ t, exec .testVentEnd s = .next t ∧ t.tests.holder = .free ∧
      t.tests.result.get c =
        ⟨some out, none, r.t50, r.pEnd, r.pHold, if out = .normal then some cls else none, some r.port⟩ ∧
      (portOf t r.port).attention.testResult = true ∧
      (out = .normal → (channelOf t c).volumeClass = some cls ∧ t.tests.leakMark.get c = false ∧
        (channelOf t c).causes = (channelOf s c).causes) ∧
      (out = .opened ∨ out = .blocked → (channelOf t c).volumeClass = none ∧ t.tests.leakMark.get c = false ∧
        AddsCauses s t c (fun k => k == .testFault) ∧ (electronic s c = true → BackedUp t c)) ∧
      (out = .leaking → (channelOf t c).volumeClass = (channelOf s c).volumeClass ∧ t.tests.leakMark.get c = true ∧
        (channelOf t c).causes = (channelOf s c).causes) ∧
      OnlyChanges (testEndParts r ++ noticeParts) s t)

/-! ## Controller ports (chapter 10) -/

/-- Every port command (R165, R166): the response of the transfer before is shifted out, and the new one holds the code of the
first check that fails, or OK. A refused command changes nothing but what its port gives a transfer and, for five CAL_ commands, what
`refusedStaging` says: the idle timer started again or the seal discarded (R158 to R160). In PARKED the transfer
wakes the part, for reason PORT unless the command itself brought a tyre wake first.
The model's choices here: log entries 22, 23, 24, 25, 40, 41. -/
def Obligations.PortCommandsAreAnsweredInOrder : Prop :=
  ∀ (s : State) (i : Instr) (p : Port) (n : Nat), portCommand i = some (p, n) → ∃ t record, exec i s = .next t ∧
    Answered s t p n (responseCode s i) record ∧
    (portOf t (otherPort p)).pending = (portOf s (otherPort p)).pending ∧
    (portOf t (otherPort p)).shiftedOut = (portOf s (otherPort p)).shiftedOut ∧
    (responseCode s i ≠ .ok → t.cal.staging = refusedStaging s i ∧ OnlyChanges (.staging :: transferParts s p) s t) ∧
    (isParked s = true → t.standby.opState = .starting ∧ t.standby.startingTimer = 0 ∧ t.standby.wakeTimer = none ∧
      (t.standby.wakeReason = some .port ∨ t.standby.wakeReason = some .tyre) ∧
      (responseCode s i ≠ .ok → t.standby.wakeReason = some .port) ∧ t.portA.attention.wakeReason = true ∧
      ∀ c, (channelOf t c).causes.startup = true)

/-- NONE, BAD_COMMAND_FRAME, READ and READ_ATTENTION (R165, R167, R170, R180): NONE is answered OK and a bad frame BAD_ARG, both
with no record; a READ gives 13 bytes of the record its table and index select, filled out with 0, and changes nothing; a
READ of ATTENTION clears every flag it returns, and only a fault that goes live after it sets one again.
The model's choices here: log entries 40, 41. -/
def Obligations.ReadsAnswerWithTheRecord : Prop :=
  ∀ (s : State) (p : Port),
    let cut (r : List Byte) (part : Nat) : List Byte :=
      (r.drop (13 * part)).take 13 ++ List.replicate (13 - (r.length - 13 * part)) 0#8
    (∃ t, exec (.noCommand p) s = .next t ∧ Answered s t p 0 .ok [] ∧ OnlyChanges (transferParts s p) s t) ∧
    (∃ t, exec (.badCommandFrame p) s = .next t ∧ Answered s t p 0 .badArg [] ∧ OnlyChanges (transferParts s p) s t) ∧
    (∀ table index part r, tableRecord (portView p) s table index = some r → part * 13 < r.length →
      ∃ t, exec (.read p table index part) s = .next t ∧ Answered s t p 22 .ok (cut r part) ∧
        OnlyChanges (transferParts s p) s t) ∧
    (∀ table index, table ≠ 10 →
      ((tableRecord (portView p) s table index).isSome = decide (index < tableIndices.getD table 0))) ∧
    (∃ t, exec (.readAttention p 0 0) s = .next t ∧ Answered s t p 22 .ok (cut (attentionRecord p (portOf s p).attention) 0) ∧
      (isParked s = false → s.faults.map FaultRec.live = liveList s → (portOf t p).attention = Attention.empty) ∧
      OnlyChanges (transferParts s p) s t)

/-- The record of every READ table, byte by byte (R1, R27, R28, R57, R81, R86, R93, R96, R105, R111, R113, R124, R134, R135, R152,
R156, R164, R167, R168, R172, R180), ATTENTION (R170) and the payload of an own status frame (R147, R181): the fields in the
order of their rules, high byte first, an absent one all ones or behind its presence byte, a choice by its number, set 0 and
clear 1. The model's choices here: log entries 3, 15, 16, 28, 31, 32, 41, 51, 54, 56, 60, 64, 68. -/
def Obligations.RecordsHoldTheirFields : Prop :=
  ∀ (v : View) (s : State) (c : Channel),
    let b1 (n : Nat) : List Byte := [BitVec.ofNat 8 n]
    let b2 (n : Nat) : List Byte := [BitVec.ofNat 8 (n / 256), BitVec.ofNat 8 n]
    let b3 (n : Nat) : List Byte := BitVec.ofNat 8 (n / 65536) :: b2 n
    let b4 (n : Nat) : List Byte := BitVec.ofNat 8 (n / 16777216) :: b3 n
    let o1 (x : Option Nat) : List Byte := (x.map b1).getD [255#8]
    let o2 (x : Option Nat) : List Byte := (x.map b2).getD [255#8, 255#8]
    let o3 (x : Option Nat) : List Byte := (x.map b3).getD [255#8, 255#8, 255#8]
    let p2 (x : Option Nat) : List Byte := (x.map (fun n => 1#8 :: b2 n)).getD [0#8, 0#8, 0#8]
    let p4 (x : Option Nat) : List Byte := (x.map (fun n => 1#8 :: b4 n)).getD [0#8, 0#8, 0#8, 0#8, 0#8]
    let i1 (x : Option Int) : List Byte := (x.map (fun a => [1#8, BitVec.ofInt 8 a])).getD [0#8, 0#8]
    let i2 (x : Option Int) : List Byte := (x.map (fun a => 1#8 :: b2 (BitVec.ofInt 16 a).toNat)).getD [0#8, 0#8, 0#8]
    let flag (b : Bool) : List Byte := if b then [0#8] else [1#8]
    let yes (b : Bool) : List Byte := if b then [1#8] else [0#8]
    let bit (b : Bool) (n : Nat) : Nat := if b then n else 0
    let fill (n : Nat) (bs : List Byte) : List Byte := bs ++ List.replicate (n - bs.length) 255#8
    let num := channelNumber c
    let ch := channelOf s c
    let w := s.wheels.wheel.get c
    let k := s.skid.get c
    let d := s.driver
    let t := s.tyre
    let g := s.roll.stage
    let i := s.roll.indicator
    let port (r : PortRec) : List Byte :=
      b1 (linkStateCode r.state) ++ b2 r.holdOff ++ flag r.errorHoldOff ++ b1 r.settleTimer ++
      o1 (r.attempt.map Attempt.number) ++ o2 (r.attempt.map Attempt.timer) ++ flag r.heard ++
      o1 (r.partner.map Credits.demand) ++ o1 (r.partner.map Credits.status) ++ o1 (r.partner.map Credits.service) ++
      b1 r.credits.demand ++ b1 r.credits.status ++ b1 r.credits.service ++ b1 r.occupied.demand ++ b1 r.occupied.status ++
      b1 r.occupied.service ++ b1 r.owed.demand ++ b1 r.owed.status ++ b1 r.owed.service ++ b1 r.errorCount ++
      o1 (r.lastDrop.map dropCauseCode)
    -- CHANNEL
    tableRecord v s 0 num = some (b1 (if electronic s c then 0 else 1) ++
      b1 (bit ch.causes.startup 1 + bit ch.causes.noDemandSource 2 + bit ch.causes.parked 4 + bit ch.causes.forced 8 +
        bit ch.causes.tracking 16 + bit ch.causes.deliverySensor 32 + bit ch.causes.testFault 64) ++
      b2 ch.setpoint ++ o2 (s.front.delivery.get c) ++ b1 (controlStateCode ch.controlState) ++ o1 ch.volumeClass ++
      b2 (ch.tracking.getD 0) ++ flag ch.supplyLimited ++ o3 w.period ++ b3 w.age ++ b2 w.speed ++ flag w.valid ++
      o2 k.slip ++ b1 (skidStateCode k.state) ++ o2 k.held ++ b2 k.timer ++ o2 k.slip ++ b1 k.forcedCount ++
      flag k.disabled ++ b2 s.wheels.vref ++ b2 s.wheels.gating) ∧
    -- DEMAND
    (∀ j, j < 6 →
      let source := [Source.driver, .ctrlA, .ctrlB, .emerg, .roll, .skid].getD j .skid
      tableRecord v s 1 (6 * num + j) = some (match entryOf s c source with
        | none => [0#8]
        | some e => 1#8 :: (b1 (if source = .ctrlB ∨ source = .skid then 1 else 0) ++ b2 e.level ++ o2 e.lifetime ++
          o1 (e.detail.map detailCode)))) ∧
    tableRecord v s 1 24 = some (o2 d.linkLevel ++ p2 d.linkAge ++ flag d.linkPresent ++ o2 d.lineLevel ++
      flag d.mismatch ++ b2 (d.onset.getD 0) ++ b2 (d.recovery.getD 0) ++ b2 d.demand ++ o2 d.tractorSpeed ++
      p2 d.tractorAge ++ flag d.tractorAntiLock) ∧
    (let m := s.demand.summary.get c
     tableRecord v s 1 (25 + num) =
       some (b2 m.largestApply ++ b2 m.smallestLimit ++ b2 m.cap ++ b2 m.derate ++ flag m.raised)) ∧
    -- LOAD
    (let axle (x : Axle) : List Byte :=
       let r := s.load.axle.get x
       o2 (s.front.bagLeft.get x) ++ o2 (s.front.bagRight.get x) ++ o2 r.mean ++ flag r.bagValid ++ b2 r.instant ++
       b2 r.effective ++ flag r.jumpPending ++ flag r.overRange
     tableRecord v s 2 0 = some (axle .ax1) ∧ tableRecord v s 2 1 = some (axle .ax2) ∧
     tableRecord v s 2 2 = some (axle .ax3 ++ flag s.load.raised)) ∧
    tableRecord v s 2 3 = some (b2 s.load.group ++ b2 s.load.lambda ++ b2 s.load.gain ++ flag s.load.frozen ++
      b1 (calKnee s.cal.active) ++ b2 (calGEmpty s.cal.active) ++ b2 s.cal.generation) ∧
    tableRecord v s 2 (4 + num) = some (b2 (s.load.derate.get c) ++ o1 (allPositions.find? (fun n =>
      positionChannel n == c && isSevere (positionCondition s n)))) ∧
    -- TYRE and STRANGER
    (∀ n, n < 12 →
      let r := positionOf s (n + 1)
      let has (f : TyreData → Bool) : List Byte := flag ((r.data.map f).getD false)
      tableRecord v s 3 n = some (p4 r.sensor ++ o1 (r.dup.map DupMemory.counter) ++ o2 (r.dup.map DupMemory.age) ++
        o2 (r.data.map TyreData.pMeas) ++ i1 (r.data.map TyreData.temperature) ++ o2 (r.data.map TyreData.pComp) ++
        has TyreData.leak ++ has TyreData.critical ++ has TyreData.low ++ has TyreData.hot ++
        o1 ((positionCondition s (n + 1)).map conditionCode) ++ p2 (r.data.map (fun x => x.ageMs / 1000)) ++
        has TyreData.stale ++ has TyreData.batteryLow ++
        flag (decide (t.learn.map LearnRun.position = some (n + 1))) ++ b1 (channelNumber (positionChannel (n + 1))) ++
        b2 (t.target.get (positionAxle (n + 1))))) ∧
    tableRecord v s 3 12 = some (b1 (if t.learn = none then 0 else 1) ++ o1 (t.learn.map LearnRun.position) ++
      o1 (t.learn.map (fun r => (r.remaining + 999) / 1000)) ++ o1 (t.learnOutcome.map learnOutcomeCode) ++
      p4 t.learnedId ++ b2 t.target.ax1 ++ b2 t.target.ax2 ++ b2 t.target.ax3) ∧
    tableRecord v s 3 13 = some (o1 (t.worst.map (fun x => conditionCode x.1)) ++ o1 (t.worst.map Prod.snd) ++
      flag t.rollFlag ++ b1 (allPositions.countP (fun n => (positionOf s n).sensor.isSome)) ++
      b1 (allPositions.countP (fun n => ((positionOf s n).data.map TyreData.stale).getD false))) ∧
    (∀ n, n < 8 → tableRecord v s 4 n = some (match t.strangers[n]? with
      | none => [0#8]
      | some e => 1#8 :: (b4 e.sensor ++ b2 e.pMeas ++ [BitVec.ofInt 8 e.temperature] ++ b1 e.counter ++
        b2 e.counterAge ++ b1 e.hits ++ b2 (e.ageMs / 1000)))) ∧
    tableRecord v s 4 8 = some (b1 t.strangers.length) ∧
    -- ROLL
    tableRecord v s 5 0 = some (b1 (stageCode g.stage) ++ o1 (g.probed.map sideCode) ++ b2 g.probeTimer ++ b2 g.holdOff ++
      b2 g.minTimer ++ o2 g.calm ++ b1 g.ramp ++ o2 g.level.ch0 ++ o2 g.level.ch1 ++ o2 g.level.ch2 ++ o2 g.level.ch3 ++
      b1 (sideCode s.roll.inner) ++ flag (calRollEnabled s.cal.active)) ∧
    tableRecord v s 5 1 = some (i2 i.ay ++ b2 i.sumLeft ++ b2 i.sumRight ++ i2 i.ltr ++ b2 i.thrBefore ++ b2 i.thrUsed ++
      flag i.tyreReduced ++ o2 i.riskAccel ++ o2 i.riskLtr ++ o2 i.risk ++ b2 i.gating) ∧
    tableRecord v s 5 2 = some (i2 s.roll.inertial.accel ++ o1 s.roll.inertial.counter ++ o1 s.roll.inertial.age ++
      yes (match s.roll.inertial.age with
        | some a => decide (a < 50)
        | none => false)) ∧
    -- LINK
    tableRecord v s 6 0 = some (port s.link.up ++ b1 (enableCode s.link.enable) ++ flag s.link.positionFault) ∧
    tableRecord v s 6 1 = some (port s.link.down) ∧
    tableRecord v s 6 2 = some (o1 s.link.ownPosition ++
      fill 12 (s.link.statusQueue.flatMap (fun x => b1 (itemFrame x).origin ++ b1 (byteAt (itemFrame x).payload 0))) ++
      b1 s.link.upService.length ++ b1 s.link.downService.length ++ yes s.link.demandSlot.isSome) ∧
    -- TEST
    (let r := s.tests.result.get c
     tableRecord v s 7 num = some (o1 (r.outcome.map testOutcomeCode) ++ o1 (r.cause.map testCauseCode) ++ o1 r.t50 ++
       b2 r.pEnd ++ b2 r.pHold ++ o1 r.volumeClass ++ o1 (r.port.map portCode) ++ flag (s.tests.leakMark.get c))) ∧
    tableRecord v s 7 4 = some (fill 8 (s.tests.queue.flatMap (fun q => b1 (channelNumber q.channel) ++ b1 (portCode q.port))) ++
      b1 s.tests.queue.length ++ b2 s.tests.headWait) ∧
    tableRecord v s 7 5 = some (match s.tests.holder with
      | .free => [0#8]
      | .probe => [2#8]
      | .test q => 1#8 :: (b1 (channelNumber q.channel) ++ b1 (portCode q.port) ++ b1 (phaseCode q.phase) ++ b2 q.timer ++
        o1 q.t50)) ∧
    -- CAL_ACTIVE, FAULTS, IDENT, RESET, ATTENTION
    (∀ n, n < 69 → tableRecord v s 8 n = some (b2 (s.cal.active.getD n 0))) ∧
    tableRecord v s 8 69 = some (b2 s.cal.generation ++ b2 s.cal.check) ∧
    (let r := s.cal.staging
     tableRecord v s 8 70 = some (b1 (stagingCode r.state) ++ o1 (r.claimant.map portCode) ++ b1 r.pointer ++
       b2 r.idleTimer ++ b2 r.sealTimer ++ p2 r.sealedCheck ++ o1 (r.lastOutcome.map calOutcomeCode))) ∧
    (let latch (r : FaultRec) : Bool := match v with
       | .a => r.latchA
       | .b => r.latchB
       | .u => r.latchU
     (∀ n, n < 47 → tableRecord v s 9 n = some (flag (faultOf s n).live ++ flag (latch (faultOf s n)))) ∧
     tableRecord v s 9 47 = some (b1 (s.faults.countP latch) ++ yes (s.faults.any (fun r => latch r && r.live))) ∧
     tableRecord v s 11 0 = some (Config.identity ++ b1 (match v with | .a => 0 | .b => 1 | .u => 2))) ∧
    (let r := s.standby
     tableRecord v s 12 0 = some (b1 (resetCauseCode r.resetCause) ++ b1 (opStateCode r.opState) ++ b1 r.startingTimer ++
       o1 (r.wakeReason.map wakeReasonCode) ++ o1 (r.wakeTimer.map (fun n => (n + 59999) / 60000)))) ∧
    (let a := s.portA.attention
     let b := s.portB.attention
     attentionRecord .a a = flag a.newFault ++ flag a.testResult ++ flag a.calOutcome ++ flag a.learnOutcome ++
       flag a.wakeReason ∧
     attentionRecord .b b = flag b.newFault ++ flag b.testResult ++ flag b.calOutcome) ∧
    -- the own status frame
    (∀ report count, statusPayload s report count = b1 report ++ b1 count ++ b1 (s.link.ownPosition.getD 0) ++
      b1 (bit (!electronic s .ch0) 1 + bit (!electronic s .ch1) 2 + bit (!electronic s .ch2) 4 +
        bit (!electronic s .ch3) 8) ++
      b1 (bit (s.skid.ch0.state != .free) 1 + bit (s.skid.ch1.state != .free) 2 + bit (s.skid.ch2.state != .free) 4 +
        bit (s.skid.ch3.state != .free) 8) ++
      b1 (stageCode g.stage) ++ b2 s.load.group ++ b1 ((t.worst.map (fun x => conditionCode x.1 + 1)).getD 0) ++
      b1 ((t.worst.map Prod.snd).getD 0) ++ b1 (bit s.supply.lowReservoir 1 + bit s.supply.emergency 2) ++
      b2 s.cal.generation ++ b1 (s.faults.countP FaultRec.latchU) ++ yes (s.faults.any (fun r => r.latchU && r.live))) ∧
    -- the numbers of the values, in the order in which their rules list them
    [ControlState.vent, .applying, .holding, .venting].map controlStateCode = [0, 1, 2, 3] ∧
    [SkidState.free, .release, .hold, .reapply].map skidStateCode = [0, 1, 2, 3] ∧
    [Detail.stage .probe, .stage .intervene, .stage .recover, .skid .release, .skid .hold, .skid .reapply].map detailCode =
      [0, 1, 2, 0, 1, 2] ∧
    [Condition.normal, .low, .hot, .critical, .leak].map conditionCode = [0, 1, 2, 3, 4] ∧
    [LearnOutcome.completed, .timeout, .cancelled].map learnOutcomeCode = [0, 1, 2] ∧
    [Stage.off, .quiet, .watch, .probe, .intervene, .recover].map stageCode = [0, 1, 2, 3, 4, 5] ∧
    [Side.left, .right].map sideCode = [0, 1] ∧ [Port.a, .b].map portCode = [0, 1] ∧
    [LinkState.down, .settle, .train, .ready, .active].map linkStateCode = [0, 1, 2, 3, 4] ∧
    [DropCause.lineLoss, .trainFailed, .positionRange, .linkErrors, .creditError, .creditStall, .disabled, .partnerRestart,
      .upstreamDown, .parked].map dropCauseCode = [0, 1, 2, 3, 4, 5, 6, 7, 8, 9] ∧
    [EnableSetting.auto, .enabled, .disabled].map enableCode = [0, 1, 2] ∧
    [TestOutcome.normal, .opened, .blocked, .leaking, .aborted, .refused].map testOutcomeCode = [0, 1, 2, 3, 4, 5] ∧
    [TestCause.demand, .motion, .backup, .rollover, .cancelled, .notElectronic, .timeout].map testCauseCode =
      [0, 1, 2, 3, 4, 5, 6] ∧
    [Phase.pulse, .settle, .vent].map phaseCode = [0, 1, 2] ∧
    [StagingState.free, .opened, .sealed, .armed].map stagingCode = [0, 1, 2, 3] ∧
    [CalOutcome.applied, .abandoned, .timeout, .mismatch, .discarded].map calOutcomeCode = [0, 1, 2, 3, 4] ∧
    [ResetCause.powerOn, .pin].map resetCauseCode = [0, 1] ∧ [OpState.starting, .running, .parked].map opStateCode = [0, 1, 2] ∧
    [WakeReason.link, .port, .tyre, .timer, .motion].map wakeReasonCode = [0, 1, 2, 3, 4]

/-- POST_APPLY, POST_LIMIT (R23, R24) and WITHDRAW (R26): outside PARKED a post puts one entry of the clamped level and lifetime
into the table of every channel its mask names; a WITHDRAW removes the sending port's own entries from the channels named.
Each channel changed is resolved, and no other source's entry changes. -/
def Obligations.PostsEnterAndLeaveTheTables : Prop :=
  ∀ (s : State) (mask : Nat), 0 < mask → mask < 16 →
    (∀ level lifetime, isParked s = false →
      let e : Entry := ⟨min level 1000, some (max 20 (min lifetime 1000)), none⟩
      (∃ t, exec (.postApply .a mask level lifetime) s = .next t ∧ Answered s t .a 1 .ok [] ∧
        (∀ c, mask.testBit (channelNumber c) = true → entryOf t c .ctrlA = some e ∧ Resolved t c) ∧
        OnlyChanges (everyChannel (fun c =>
          if mask.testBit (channelNumber c) then .entry c .ctrlA :: resolveParts c else []) ++ transferParts s .a) s t) ∧
      (∃ t, exec (.postLimit .b mask level lifetime) s = .next t ∧ Answered s t .b 2 .ok [] ∧
        (∀ c, mask.testBit (channelNumber c) = true → entryOf t c .ctrlB = some e ∧ Resolved t c) ∧
        OnlyChanges (everyChannel (fun c =>
          if mask.testBit (channelNumber c) then .entry c .ctrlB :: resolveParts c else []) ++ transferParts s .b) s t)) ∧
    (∀ p, ∃ t, exec (.withdraw p mask) s = .next t ∧ Answered s t p 3 .ok [] ∧
      (∀ c, mask.testBit (channelNumber c) = true →
        entryOf t c (portSource p) = none ∧ (entryOf s c (portSource p) ≠ none → Resolved t c)) ∧
      OnlyChanges (everyChannel (fun c =>
        if mask.testBit (channelNumber c) then .entry c (portSource p) :: resolveParts c else []) ++ transferParts s p) s t)

/-- FORCE_BACKUP (R6) adds FORCED to every channel named, and an ELECTRONIC one is backed up. RESTORE (R7, R3, R55) with D below
15 kPa removes FORCED, TRACKING and TEST_FAULT, and DELIVERY_SENSOR where the reading is valid, and re-enables anti-lock; a
channel left without a cause is energised. In PARKED the transfer adds STARTUP. That a SKID entry in mid-cycle stands after a RESTORE
is the model's choice (log entry 59). -/
def Obligations.BackupIsForcedAndRestored : Prop :=
  ∀ (s : State) (mask : Nat), 0 < mask → mask < 16 →
    (∀ p, ∃ t, exec (.forceBackup p mask) s = .next t ∧ Answered s t p 5 .ok [] ∧
      (∀ c, AddsCauses s t c (fun k =>
          (k == .forced && mask.testBit (channelNumber c)) || (k == .startup && isParked s)) ∧
        (mask.testBit (channelNumber c) = true → electronic s c = true → BackedUp t c)) ∧
      OnlyChanges (everyChannel (fun c => if mask.testBit (channelNumber c) then backupParts c else []) ++
        transferParts s p) s t) ∧
    (s.driver.demand < 15 → ∃ t, exec (.restore .b mask) s = .next t ∧ Answered s t .b 4 .ok [] ∧
      (∀ c, mask.testBit (channelNumber c) = true →
        (∀ k, (channelOf t c).causes.has k = match k with
          | .forced => false
          | .tracking => false
          | .testFault => false
          | .deliverySensor => (channelOf s c).causes.deliverySensor && (s.front.delivery.get c).isNone
          | .startup => (channelOf s c).causes.startup || isParked s
          | .noDemandSource => (channelOf s c).causes.noDemandSource
          | .parked => (channelOf s c).causes.parked) ∧
        (t.skid.get c).disabled = false ∧ (t.skid.get c).forcedCount = 0 ∧
        (isParked s = false → electronic s c = false → electronic t c = true →
          (channelOf t c).backupValve = true ∧ (channelOf t c).inlet = .closed ∧ (channelOf t c).exhaust = .closed ∧
          (channelOf t c).tracking = none ∧ EventQueued s t) ∧
        (isParked s = false → (electronic s c = true ∨ electronic t c = false) → samePart s t (.valves c))) ∧
      OnlyChanges (everyChannel (fun c =>
        if mask.testBit (channelNumber c) then [.causes c, .valves c, .skid c, .statusQueue] else []) ++
        transferParts s .b) s t)

/-- REQUEST_TEST (R126, R125) joins the back of the Test Queue; CANCEL_TEST (R127, R133) removes a queued request with result
ABORTED, CANCELLED, or aborts the running test with its measurements and opens the exhaust, or changes nothing.
The model's choices here: log entries 65, 70. -/
def Obligations.TestsAreQueuedAndCancelled : Prop :=
  ∀ (s : State) (p : Port) (c : Channel),
    (isParked s = false → s.tests.queue.any (fun q => q.channel == c) = false → underTest s c = false →
      s.tests.queue.length < 4 → ∃ t, exec (.requestTest p (channelNumber c)) s = .next t ∧ Answered s t p 6 .ok [] ∧
        t.tests.queue = s.tests.queue ++ [⟨c, p⟩] ∧
        t.tests.headWait = (if s.tests.queue = [] then 0 else s.tests.headWait) ∧
        OnlyChanges (.testQueue :: transferParts s p) s t) ∧
    (∀ q, s.tests.queue.find? (fun q => q.channel == c) = some q → underTest s c = false →
      ∃ t, exec (.cancelTest p (channelNumber c)) s = .next t ∧ Answered s t p 7 .ok [] ∧
        t.tests.queue = s.tests.queue.filter (fun r => r.channel != c) ∧
        t.tests.headWait = (if s.tests.queue.head?.map TestRequest.channel = some c then 0 else s.tests.headWait) ∧
        t.tests.result.get c = ⟨some .aborted, some .cancelled, none, 0, 0, none, some q.port⟩ ∧
        (portOf t q.port).attention.testResult = true ∧
        OnlyChanges (.testQueue :: .result c :: transferParts s p) s t) ∧
    (∀ r, s.tests.holder = .test r → r.channel = c → s.tests.queue.any (fun q => q.channel == c) = false →
      ∃ t, exec (.cancelTest p (channelNumber c)) s = .next t ∧ Answered s t p 7 .ok [] ∧ t.tests.holder = .free ∧
        t.tests.result.get c = ⟨some .aborted, some .cancelled, r.t50, r.pEnd, r.pHold, none, some r.port⟩ ∧
        (portOf t r.port).attention.testResult = true ∧
        (isParked s = false → (channelOf t c).inlet = .closed ∧ (channelOf t c).exhaust = .held) ∧
        OnlyChanges (.holder :: .result c :: .valves c :: transferParts s p) s t) ∧
    (s.tests.queue.any (fun q => q.channel == c) = false → underTest s c = false →
      ∃ t, exec (.cancelTest p (channelNumber c)) s = .next t ∧ Answered s t p 7 .ok [] ∧
        OnlyChanges (transferParts s p) s t)

/-- TYRE_LEARN (R96), TYRE_ASSIGN (R100), TYRE_ADOPT (R101) and TYRE_CLEAR (R102) from Port A: a learn of 120 s begins; an ID is
written with no data; a stranger fills the position with its last reading, its flags those of a first telegram; a position is
cleared. A learn at the position is cancelled, and an ID that is written leaves the place where it stood (R99). An adopted reading
in CRITICAL or LEAK is a new entry, whatever the position held (R90, R104). The model's choices here: log entries 21, 22. -/
def Obligations.TyreCommandsTeachPositions : Prop :=
  ∀ (s : State) (n : Nat), n ∈ allPositions → s.tyre.positions.length = 12 →
    (s.tyre.learn = none → ∃ t, exec (.tyreLearn .a n) s = .next t ∧ Answered s t .a 8 .ok [] ∧
      t.tyre.learn = some ⟨n, 120000⟩ ∧ t.tyre.learnOutcome = none ∧ t.tyre.learnedId = none ∧
      OnlyChanges (.learn :: transferParts s .a) s t) ∧
    (∀ id, (positionOf s n).sensor ≠ some id → ∃ t, exec (.tyreAssign .a n id) s = .next t ∧ Answered s t .a 9 .ok [] ∧
      positionOf t n = ⟨some id, none, none⟩ ∧ TakenOut s t id n ∧ LearnCancelled s t n ∧
      OnlyChanges (.learn :: .strangers :: positionParts s ++ transferParts s .a) s t) ∧
    (∀ index e, s.tyre.strangers[index]? = some e → ∃ t, exec (.tyreAdopt .a n index) s = .next t ∧
      Answered s t .a 10 .ok [] ∧ TakenOut s t e.sensor n ∧ LearnCancelled s t n ∧
      (let target := s.tyre.target.get (positionAxle n)
       let p := min 1275 ((e.pMeas + 100) * 293 / (e.temperature + 273).toNat - 100)
       positionOf t n = ⟨some e.sensor, some ⟨e.counter, e.counterAge⟩,
         some ⟨e.pMeas, e.temperature, p, false, decide (p < target * 819 / 1024), decide (p < target * 922 / 1024),
           decide (95 ≤ e.temperature), e.ageMs, decide (600000 ≤ e.ageMs), false⟩⟩) ∧
      (isSevere (positionCondition t n) = true → EventQueued s t ∧
        (isParked s = true → t.standby.wakeReason = some .tyre)) ∧
      OnlyChanges (.learn :: .strangers :: positionParts s ++ transferParts s .a) s t) ∧
    (∃ t, exec (.tyreClear .a n) s = .next t ∧ Answered s t .a 11 .ok [] ∧ positionOf t n = PositionRec.empty ∧
      (∀ m, m ∈ allPositions → m ≠ n → positionOf t m = positionOf s m) ∧ LearnCancelled s t n ∧
      OnlyChanges (.learn :: positionParts s ++ transferParts s .a) s t)

/-- LINK_ENABLE and LINK_DISABLE from Port A (R139): the setting is kept as given; an enabled upstream port in READY becomes ACTIVE
with its credits at the partner depths and a periodic frame queued; a disabled one that is not DOWN drops with cause
DISABLED. -/
def Obligations.LinkSettingsAct : Prop :=
  ∀ s : State,
    (∃ t, exec (.linkEnable .a) s = .next t ∧ Answered s t .a 12 .ok [] ∧ t.link.enable = .enabled ∧
      t.link.positionFault = s.link.positionFault ∧
      (s.link.up.state = .ready → t.link.up.state = .active ∧
        t.link.up.credits = s.link.up.partner.getD Credits.zero ∧ t.link.up.occupied = Credits.zero ∧
        t.link.up.owed = s.link.up.owed ∧ t.link.sincePeriodic = 0 ∧ t.link.statusQueue.any isPeriodic = true ∧
        OnlyChanges ([.linkSetting, .linkPort .up, .statusQueue, .sincePeriodic] ++ transferParts s .a) s t) ∧
      (s.link.up.state ≠ .ready → OnlyChanges (.linkSetting :: transferParts s .a) s t)) ∧
    (∃ t, exec (.linkDisable .a) s = .next t ∧ Answered s t .a 13 .ok [] ∧ t.link.enable = .disabled ∧
      t.link.positionFault = s.link.positionFault ∧
      (s.link.up.state ≠ .down → Dropped s t .up .disabled 0 ∧
        OnlyChanges (.linkSetting :: dropParts .up ++ transferParts s .a) s t) ∧
      (s.link.up.state = .down → OnlyChanges (.linkSetting :: transferParts s .a) s t))

/-- STANDBY from Port A (R175 to R177, R27): refused with the number of the first reason that applies; otherwise the part enters
PARKED with the wake timer of word 68, PARKED on every channel, every Demand Table empty, Driver Demand record and emergency
record at their reset values, the rollover stage OFF, both Tow Link ports DOWN with cause PARKED, and the Load Table and the
tyre records kept. The model's choices here: log entry 15. -/
def Obligations.StandbyParksOrSaysWhy : Prop :=
  ∀ s : State,
    (∀ n, parkReason s = some n → ∃ t, exec (.standby .a) s = .next t ∧ Answered s t .a 14 .notNow [BitVec.ofNat 8 n] ∧
      OnlyChanges (transferParts s .a) s t) ∧
    (parkReason s = none → ∃ t, exec (.standby .a) s = .next t ∧ Answered s t .a 14 .ok [] ∧
      t.standby = { s.standby with
        opState := .parked
        wakeTimer := if calWake s.cal.active = 0 then none else some (calWake s.cal.active * 60000) } ∧
      (∀ c, AddsCauses s t c (fun k => k == .parked) ∧ (electronic s c = true → BackedUp t c) ∧
        (∀ k, entryOf t c k = none) ∧ (channelOf t c).setpoint = 0) ∧
      t.driver = ⟨none, none, false, none, false, none, none, 0, none, none, false⟩ ∧
      t.supply = ⟨false, none, none, false, none⟩ ∧ t.roll.stage.stage = .off ∧
      (s.roll.stage.stage ≠ .off → t.roll.stage.probed = none ∧ ∀ c, t.roll.stage.level.get c = none) ∧
      (∀ l, (linkPort t l).state = .down ∧ (linkPort t l).lastDrop = some .parked ∧ (linkPort t l).holdOff = 0 ∧
        (linkPort t l).errorHoldOff = false) ∧
      t.link.positionFault = false ∧ t.link.enable = s.link.enable ∧
      OnlyChanges (.standby :: .driver :: .supply :: .stage :: .linkPort .up :: .linkSetting :: downDropParts ++
        everyChannel (fun c => [.entry c .driver, .entry c .ctrlA, .entry c .ctrlB, .entry c .emerg, .entry c .roll] ++
          backupParts c) ++ transferParts s .a) s t)

/-- CLEAR_FAULTS (R169) and PORT_SYNC (R171), the live states being as reported: every latch of the sender's view is left set
exactly where its fault is live, without a new attention, and no other view is touched. A PORT_SYNC besides removes the port's entries, its queued
tests, its unsealed or sealed staging and, from Port A, the learn in progress, and clears the port's attention record. The other
port's attention record is untouched but for the calibration outcome of the discard, the result flag of a test of its own that is
aborted, and, in PARKED, Port A's wake flag. What the
discarded Staging Record keeps (pointer, timers, sealed check value) and that no flag of the port's own survives are the
model's choices: log entries 24, 55. -/
def Obligations.ViewsAreClearedAndPortsSynced : Prop :=
  ∀ (s : State) (p : Port), s.faults.map FaultRec.live = liveList s →
    let cleared : List FaultRec := s.faults.map (fun r => match p with
      | .a => { r with latchA := r.live }
      | .b => { r with latchB := r.live })
    (∃ t, exec (.clearFaults p) s = .next t ∧ Answered s t p 23 .ok [] ∧ t.faults = cleared ∧
      (isParked s = false → samePart s t (.attention .a) ∧ samePart s t (.attention .b)) ∧
      OnlyChanges (transferParts s p) s t) ∧
    (∃ t, exec (.portSync p) s = .next t ∧ Answered s t p 24 .ok [] ∧ t.faults = cleared ∧
      (∀ c, entryOf t c (portSource p) = none ∧ (entryOf s c (portSource p) ≠ none → Resolved t c)) ∧
      t.tests.queue = s.tests.queue.filter (fun q => q.port != p) ∧
      (s.cal.staging.claimant = some p → s.cal.staging.state = .opened ∨ s.cal.staging.state = .sealed →
        t.cal.staging = { s.cal.staging with state := .free, claimant := none, content := [], lastOutcome := some .discarded } ∧
        (portOf t (otherPort p)).attention.calOutcome = true) ∧
      (¬ (s.cal.staging.claimant = some p ∧ (s.cal.staging.state = .opened ∨ s.cal.staging.state = .sealed)) →
        samePart s t .staging) ∧
      (p = .a → s.tyre.learn ≠ none → t.tyre.learn = none ∧ t.tyre.learnOutcome = some .cancelled) ∧
      (p = .b ∨ s.tyre.learn = none → samePart s t .learn) ∧
      (isParked s = false → (portOf t p).attention = Attention.empty) ∧
      (let q := otherPort p
       let discarded : Prop := s.cal.staging.claimant = some p ∧ (s.cal.staging.state = .opened ∨ s.cal.staging.state = .sealed)
       let aborted : Prop := (∃ r, s.tests.holder = .test r ∧ r.port = q) ∧ t.tests.holder ≠ s.tests.holder
       let old := (portOf s q).attention
       let new := (portOf t q).attention
       new.newFault = old.newFault ∧ new.learnOutcome = old.learnOutcome ∧
       (new.calOutcome = true ↔ old.calOutcome = true ∨ discarded) ∧
       (new.testResult = true ↔ old.testResult = true ∨ aborted) ∧
       (new.wakeReason = true ↔ old.wakeReason = true ∨ (isParked s = true ∧ q = .a))) ∧
      OnlyChanges (.testQueue :: .staging :: .learn :: everyChannel (fun c =>
        .entry c (portSource p) :: resolveParts c) ++ transferParts s p) s t)

/-! ## Calibration (chapter 9) -/

/-- CAL_BEGIN (R157) opens an edit of the set in force; the claimant's CAL_POINTER and CAL_WRITE in OPEN (R158) place the pointer
and write the words from it, those past index 68 ignored, and restart the idle timer; CAL_READ (R158) returns staged words
to either port. The model's choices here: log entries 24, 25. -/
def Obligations.StagedWordsAreEdited : Prop :=
  ∀ (s : State) (p : Port),
    let g := s.cal.staging
    (g.state = .free → ∃ t, exec (.calBegin p) s = .next t ∧ Answered s t p 15 .ok [] ∧
      t.cal.staging = { g with
        state := .opened, claimant := some p, content := s.cal.active, pointer := 0, idleTimer := 0, sealedCheck := none } ∧
      OnlyChanges (.staging :: transferParts s p) s t) ∧
    (g.state = .opened → g.claimant = some p → ∀ index, index ≤ 255 →
      ∃ t, exec (.calPointer p index) s = .next t ∧ Answered s t p 16 .ok [] ∧
        t.cal.staging = { g with pointer := index, idleTimer := 0 } ∧
        OnlyChanges (.staging :: transferParts s p) s t) ∧
    (g.state = .opened → g.claimant = some p → g.content.length = 69 → ∀ count words, 1 ≤ count → count ≤ 6 →
      words.length = count → (∀ w, w ∈ words → w < 65536) →
      ∃ t, exec (.calWrite p count words) s = .next t ∧
        t.cal.staging = { g with
          content := t.cal.staging.content
          pointer := if 68 < g.pointer then g.pointer else min 69 (g.pointer + count)
          idleTimer := 0 } ∧
        Answered s t p 17 .ok [BitVec.ofNat 8 t.cal.staging.pointer] ∧ t.cal.staging.content.length = 69 ∧
        (∀ i, i < 69 → t.cal.staging.content.getD i 0 =
          if g.pointer ≤ i ∧ i < g.pointer + count then words.getD (i - g.pointer) 0 else g.content.getD i 0) ∧
        OnlyChanges (.staging :: transferParts s p) s t) ∧
    (g.state ≠ .free → g.content.length = 69 → ∀ index count, index ≤ 255 → 1 ≤ count → count ≤ 6 →
      ∃ t, exec (.calRead p index count) s = .next t ∧
        Answered s t p 18 .ok ((List.range count).flatMap (fun k =>
          bytes16 (if index + k ≤ 68 then g.content.getD (index + k) 0 else 0))) ∧
        t.cal.staging = (if g.state = .opened ∧ g.claimant = some p then { g with idleTimer := 0 } else g) ∧
        OnlyChanges (.staging :: transferParts s p) s t)

/-- CAL_SEAL (R159), CAL_CONFIRM (R160) and CAL_ABANDON (R161): a content that passes seal validation is sealed under its CRC-16;
one that fails is answered with its failing word and stays OPEN. The other port's confirmation of the sealed check value arms
the set, which is applied at once at a safe point (R163); any other value discards it. An abandoned set is discarded.
The model's choices here: log entries 24, 25. -/
def Obligations.SealedSetsAreConfirmedOrDropped : Prop :=
  ∀ (s : State) (p : Port),
    let g := s.cal.staging
    (g.state = .opened → g.claimant = some p →
      (sealFailure g.content = none → ∃ t, exec (.calSeal p) s = .next t ∧
        Answered s t p 19 .ok (bytes16 (crc16 (bytesOfWords g.content))) ∧
        t.cal.staging = { g with
          state := .sealed, idleTimer := 0, sealTimer := 0, sealedCheck := some (crc16 (bytesOfWords g.content)) } ∧
        OnlyChanges (.staging :: transferParts s p) s t) ∧
      (∀ i, sealFailure g.content = some i → ∃ t, exec (.calSeal p) s = .next t ∧
        Answered s t p 19 .badArg [BitVec.ofNat 8 i] ∧ t.cal.staging = { g with idleTimer := 0 } ∧
        OnlyChanges (.staging :: transferParts s p) s t)) ∧
    (g.state = .sealed → g.claimant ≠ some p → ∀ check,
      (g.sealedCheck = some check → ∃ t, exec (.calConfirm p check) s = .next t ∧ Answered s t p 20 .ok [] ∧
        (safePoint s = true → CalApplied s t ∧ OnlyChanges (applyParts s ++ transferParts s p) s t) ∧
        (safePoint s = false → t.cal.staging = { g with state := .armed } ∧
          OnlyChanges (.staging :: transferParts s p) s t)) ∧
      (g.sealedCheck ≠ some check → ∃ t, exec (.calConfirm p check) s = .next t ∧ Answered s t p 20 .badArg [] ∧
        StagingFreed s t .mismatch ∧ EventLatched s t 45 ∧ OnlyChanges (.staging :: transferParts s p) s t)) ∧
    (g.state = .armed ∨ (g.state ≠ .free ∧ g.claimant = some p) → ∃ t, exec (.calAbandon p) s = .next t ∧
      Answered s t p 21 .ok [] ∧ StagingFreed s t .abandoned ∧ OnlyChanges (.staging :: transferParts s p) s t)

/-- PRESSURE_SAMPLE (R163, R70, R139, R177): an armed set is applied whole at a sample exactly where the trailer then stands at a
safe point: D below 15 kPa, every setpoint 0, the stage QUIET or OFF and no test running, as the sample leaves them before the
apply (`sampleBeforeApply`). At any other sample it stays armed as it was. An apply in PARKED restarts the wake timer, or, where
a tyre then enters CRITICAL or LEAK, wakes the part (R104, R178). No other
state of the Staging Record changes at a sample. The model's choices here: log entries 12, 26. -/
def Obligations.ArmedSetWaitsForTheSafePoint : Prop :=
  ∀ (s : State) (x : SampleSet), ∃ t, exec (.pressureSample x) s = .next t ∧
    let calm (u : State) : Prop := u.driver.demand < 15 ∧
      (u.roll.stage.stage = .quiet ∨ u.roll.stage.stage = .off) ∧ ∀ r, u.tests.holder ≠ .test r
    let b := sampleBeforeApply x s
    let safe : Prop := calm b ∧ ∀ c, (channelOf b c).setpoint = 0
    (s.cal.staging.state = .armed → ¬ safe → t.cal.staging = s.cal.staging ∧ samePart s t .calActive ∧
      samePart s t .standby ∧ ¬ (calm t ∧ ∀ c, (channelOf t c).setpoint = 0)) ∧
    (s.cal.staging.state = .armed → safe → (s.cal.staging.sealedCheck ≠ none → CalApplied s t) ∧ calm t ∧
      t.driver.demand = b.driver.demand ∧ t.roll.stage = b.roll.stage ∧ t.tests.holder = b.tests.holder ∧
      (isParked s = false ∨ isParked t = true → t.load.raised = b.load.raised → ∀ c, (channelOf t c).setpoint = 0) ∧
      t.load.raised = (calLiftFitted t.cal.active && x.liftRaised) ∧
      (isParked s = false → t.standby.wakeTimer = s.standby.wakeTimer) ∧
      (isParked t = true → t.standby.wakeTimer =
        if calWake t.cal.active = 0 then none else some (calWake t.cal.active * 60000)) ∧
      (isParked s = true → isParked t = false → t.standby = { s.standby with
        opState := .starting, startingTimer := 0, wakeReason := some .tyre, wakeTimer := none })) ∧
    (s.cal.staging.state ≠ .armed → samePart s t .staging ∧ samePart s t .calActive ∧ samePart s t .standby)

/-! ## Start-up, wake and timeouts (chapters 9 and 11) -/

/-- STARTING_TIMER_EXPIRY (R174, R4, R59): after 200 ms the part is RUNNING; a channel with a valid delivery reading is no longer
held by STARTUP, one without gains DELIVERY_SENSOR; the first load update runs, and supervision begins from rest.
WAKE_TIMER_EXPIRY (R177, R178): a wake timer that has run out in PARKED wakes the part for reason TIMER. CAL_IDLE_TIMEOUT and
CAL_SEAL_TIMEOUT (R162): an edit idle for 30 s and a seal unconfirmed for 5 s return the record to FREE with outcome TIMEOUT
and latch CAL_TIMEOUT. LEARN_TIMEOUT (R98): a learn whose remaining time is 0 ends with outcome TIMEOUT, and Port A is told.
TYRE_STALE (R92): a position whose data is 600 s old is marked stale, and only that.
The model's choices here: log entries 15, 24, 43. -/
def Obligations.DeviceTimersRunOut : Prop :=
  (∀ s : State, (s.standby.opState = .starting → 200 ≤ s.standby.startingTimer →
    ∃ t, exec .startingTimerExpiry s = .next t ∧
      t.standby = { s.standby with opState := .running, startingTimer := 0 } ∧
      (∀ c, AddsCauses s t c (fun k => k == .deliverySensor && (s.front.delivery.get c).isNone) ∧
        ((s.front.delivery.get c).isSome = true → (channelOf t c).startupHeld = false) ∧
        ((s.front.delivery.get c).isNone = true → electronic s c = true → BackedUp t c)) ∧
      t.supply = { s.supply with onset := none, recovery := none, lowMeasure := none } ∧
      t.load.sinceUpdate = 0 ∧ t.load.raised = s.load.raised ∧ LoadsFormed t ∧
      (∀ x, (t.load.axle.get x).mean = bagMean s x ∧
        (t.load.axle.get x).instant = instantLoad s.cal.active x (bagMean s x)) ∧
      OnlyChanges (.standby :: .supply :: .axles :: loadParts s ++
        everyChannel (fun c => .entry c .emerg :: backupParts c ++ resolveParts c) ++ noticeParts) s t) ∧
    (isParked s = true → s.standby.wakeTimer = some 0 → ∃ t, exec .wakeTimerExpiry s = .next t ∧ Woken s t .timer ∧
      (∀ c, electronic s c = true → BackedUp t c) ∧ OnlyChanges (noticeParts ++ wakeParts s) s t) ∧
    (s.cal.staging.state = .opened → 30000 ≤ s.cal.staging.idleTimer → ∃ t, exec .calIdleTimeout s = .next t ∧
      StagingFreed s t .timeout ∧ EventLatched s t 46 ∧ OnlyChanges (.staging :: noticeParts) s t) ∧
    (s.cal.staging.state = .sealed → 5000 ≤ s.cal.staging.sealTimer → ∃ t, exec .calSealTimeout s = .next t ∧
      StagingFreed s t .timeout ∧ EventLatched s t 46 ∧ OnlyChanges (.staging :: noticeParts) s t)) ∧
  (∀ s : State,
    (∀ r, s.tyre.learn = some r → r.remaining = 0 → ∃ t, exec .learnTimeout s = .next t ∧
      t.tyre.learn = none ∧ t.tyre.learnOutcome = some .timeout ∧ t.tyre.learnedId = none ∧
      t.portA.attention = { s.portA.attention with
        learnOutcome := true, newFault := t.portA.attention.newFault } ∧
      OnlyChanges (.learn :: noticeParts) s t) ∧
    (s.tyre.positions.length = 12 → ∀ n d, n ∈ allPositions → (positionOf s n).data = some d → 600000 ≤ d.ageMs →
      d.stale = false → ∃ t, exec (.tyreStale n) s = .next t ∧
        positionOf t n = { positionOf s n with data := some { d with stale := true } } ∧
        (∀ m, m ∈ allPositions → m ≠ n → positionOf t m = positionOf s m) ∧
        OnlyChanges (.positions :: noticeParts) s t))

/-! ## Tow Link: bringing a link up and down (chapter 8) -/

/-- LINE_ACTIVITY (R136, R140, R178) and LINE_LOSS (R140): activity lets a port in DOWN without a hold-off settle, wakes a PARKED
part from the upstream line alone, and otherwise only stands on the line; its loss drops a port that is not DOWN.
LINK_HOLD_OFF_EXPIRY, SETTLE_EXPIRY and DOWNSTREAM_TRAIN_START (R136, R137): at the end of a hold-off the error flag is cleared
and a port with activity settles; a port settled for 200 ms starts training with attempt 1, the downstream one only under an
ACTIVE upstream port with the own position known. The model's choices here: log entries 29, 66. -/
def Obligations.LineActivitySettlesAndTrainsAPort : Prop :=
  (∀ (s : State) (l : LinkPort),
    let r := linkPort s l
    (∃ t, exec (.lineActivity l) s = .next t ∧
      (isParked s = false → r.state = .down → r.holdOff = 0 → r.holdOffRunning = false →
        linkPort t l = { r with activity := true, state := .settle, settleTimer := 0 }) ∧
      (isParked s = true ∨ r.state ≠ .down ∨ 0 < r.holdOff → linkPort t l = { r with activity := true }) ∧
      (isParked s = true → l = .up → Woken s t .link) ∧
      OnlyChanges (.linkPort l :: noticeParts ++ (match l with
        | .up => wakeParts s
        | .down => [])) s t) ∧
    (∃ t, exec (.lineLoss l) s = .next t ∧ (linkPort t l).activity = false ∧
      (r.state ≠ .down → Dropped s t l .lineLoss 0 ∧ OnlyChanges (dropParts l ++ noticeParts) s t) ∧
      (r.state = .down → OnlyChanges (.linkPort l :: noticeParts) s t))) ∧
  (∀ s : State,
    (∀ l, (linkPort s l).holdOffRunning = true → (linkPort s l).holdOff = 0 →
      ∃ t, exec (.linkHoldOffExpiry l) s = .next t ∧
        (linkPort t l).errorHoldOff = false ∧ (linkPort t l).holdOffRunning = false ∧
        ((linkPort s l).state = .down → (linkPort s l).activity = true → isParked s = false →
          (linkPort t l).state = .settle ∧ (linkPort t l).settleTimer = 0) ∧
        ((linkPort s l).state ≠ .down ∨ (linkPort s l).activity = false ∨ isParked s = true →
          (linkPort t l).state = (linkPort s l).state) ∧
        OnlyChanges (.linkPort l :: noticeParts) s t) ∧
    (s.link.up.state = .settle → 200 ≤ s.link.up.settleTimer → ∃ t, exec .settleExpiry s = .next t ∧
      t.link.up = { s.link.up with state := .train, attempt := some ⟨1, 0⟩, heard := false, sendTimer := 0 } ∧
      OnlyChanges (.linkPort .up :: noticeParts) s t) ∧
    (s.link.down.state = .settle → 200 ≤ s.link.down.settleTimer → s.link.ownPosition ≠ none →
      s.link.up.state = .active → ∃ t, exec .downstreamTrainStart s = .next t ∧
      t.link.down = { s.link.down with state := .train, attempt := some ⟨1, 0⟩, heard := false, sendTimer := 0 } ∧
      OnlyChanges (.linkPort .down :: noticeParts) s t))

/-- TRAIN_FRAME_SEND and TRAIN_ATTEMPT_TIMEOUT (R137, R143): a TRAIN frame of the port's role, offer and depths goes out every 20
ms with heard-you equal to heard partner, carrying the returns owed; an attempt of 300 ms fails, the third one with
TRAIN_FAILED and a hold-off of 5000 ms. The model's choices here: log entries 27, 34, 38, 40, 66. -/
def Obligations.AttemptsSendAndFail : Prop :=
  ∀ (s : State) (l : LinkPort) (a : Attempt),
    let r := linkPort s l
    r.state = .train → r.attempt = some a →
    (a.timer < 300 → r.sendTimer = 0 → ∃ t f, exec (.trainFrameSend l) s = .next t ∧
      linkPort t l = { r with owed := Credits.zero, owedTimer := 0, sendTimer := 20, lastSent := some f } ∧
      f.kind = 0 ∧ f.target = 15 ∧ f.origin = s.link.ownPosition.getD 0 ∧ f.hop = 0 ∧ f.returns = r.owed ∧
      f.payload = [match l with | .up => 1#8 | .down => 0#8,
        match l with | .up => 0#8 | .down => BitVec.ofNat 8 (s.link.ownPosition.getD 0 + 1),
        1#8, 4#8, 2#8, if r.heard then 1#8 else 0#8] ∧
      OnlyChanges (.linkPort l :: noticeParts) s t) ∧
    (300 ≤ a.timer → ∃ t, exec (.trainAttemptTimeout l) s = .next t ∧
      (a.number < 3 → linkPort t l =
          { r with attempt := some ⟨a.number + 1, 0⟩, heard := false, sendTimer := 0 } ∧
        OnlyChanges (.linkPort l :: noticeParts) s t) ∧
      (3 ≤ a.number → Dropped s t l .trainFailed 5000 ∧ OnlyChanges (dropParts l ++ noticeParts) s t))

/-- TRAIN_FRAME_RECEIVED (R137 to R140, R143): in TRAIN a good frame of the expected role ends training on a bad position, fails the
attempt on a zero depth, completes it with heard-you set (the partner depths clamped, the offer taken, the port READY or, as
R139 lets it, ACTIVE, where the upstream port queues its periodic frame, R147), or is a partner heard; in READY it is answered or
is a restart; in ACTIVE it brings returns or is a restart. A class that gains a credit starts its stall time anew.
The model's choices here: log entries 27, 30, 34, 35, 38, 40, 63, 66. -/
def Obligations.TrainFramesBringThePortUp : Prop :=
  ∀ (s : State) (l : LinkPort) (f : LinkFrame), f.kind = 0 → frameBad f = false →
    let r := linkPort s l
    let b (i : Nat) : Nat := byteAt f.payload i
    let mine : Prop := b 0 = (match l with | .up => 0 | .down => 1)
    let badOffer : Prop := l = .up ∧ (b 1 < 1 ∨ 6 < b 1)
    let zero : Prop := b 2 = 0 ∨ b 3 = 0 ∨ b 4 = 0
    let allowed : Prop := l = .down ∨ s.link.enable = .enabled ∨
      (s.link.enable = .auto ∧ calAutoEnable s.cal.active = true)
    let grown : Credits := addCredits r.credits f.returns
    let stall : Credits := ⟨if 0 < grown.demand then 0 else r.stall.demand, if 0 < grown.status then 0 else r.stall.status,
      if 0 < grown.service then 0 else r.stall.service⟩
    ∃ t, exec (.trainFrameReceived l f) s = .next t ∧
      (r.state = .train → mine → badOffer → Dropped s t .up .positionRange 5000 ∧ t.link.positionFault = true) ∧
      (r.state = .train → mine → ¬ badOffer → zero → ∀ a, r.attempt = some a →
        (a.number < 3 → (linkPort t l).state = .train ∧ (linkPort t l).attempt = some ⟨a.number + 1, 0⟩ ∧
          (linkPort t l).heard = false) ∧
        (3 ≤ a.number → Dropped s t l .trainFailed 5000)) ∧
      (r.state = .train → mine → ¬ badOffer → ¬ zero → b 5 ≠ 0 →
        (linkPort t l).partner = some ⟨max 1 (min (b 2) 2), max 1 (min (b 3) 8), max 1 (min (b 4) 4)⟩ ∧
        (linkPort t l).attempt = none ∧ (linkPort t l).owed = Credits.zero ∧
        ((linkPort t l).lastSent.map (fun g => byteAt g.payload 5)) = some 1 ∧
        (l = .up → t.link.ownPosition = some (b 1) ∧ t.link.positionFault = false) ∧
        (allowed → (linkPort t l).state = .active ∧ some (linkPort t l).credits = (linkPort t l).partner ∧
          (l = .up → t.link.sincePeriodic = 0 ∧ t.link.statusQueue.any isPeriodic = true)) ∧
        (¬ allowed → (linkPort t l).state = .ready) ∧
        OnlyChanges (.linkPort l :: (match l with
          | .up => [.ownPosition, .linkSetting, .statusQueue, .sincePeriodic]
          | .down => []) ++ noticeParts) s t) ∧
      (r.state = .train → mine → ¬ badOffer → ¬ zero → b 5 = 0 →
        linkPort t l = { r with heard := true } ∧ OnlyChanges (.linkPort l :: noticeParts) s t) ∧
      (r.state = .ready → mine → b 5 ≠ 0 → (linkPort t l).state = .ready ∧ (linkPort t l).owed = Credits.zero ∧
        (linkPort t l).lastSent.map LinkFrame.returns = some r.owed ∧ OnlyChanges (.linkPort l :: noticeParts) s t) ∧
      (r.state = .ready → mine → b 5 = 0 → Dropped s t l .partnerRestart 0) ∧
      (r.state = .active → creditsLe grown (partnerDepths r) = false → Dropped s t l .creditError 5000 ∧
        EventLatched s t (match l with | .up => 41 | .down => 43)) ∧
      (r.state = .active → creditsLe grown (partnerDepths r) = true → mine → b 5 = 0 →
        Dropped s t l .partnerRestart 0) ∧
      (r.state = .active → creditsLe grown (partnerDepths r) = true → (¬ mine ∨ b 5 ≠ 0) →
        linkPort t l = { r with credits := grown, stall := stall } ∧ OnlyChanges (.linkPort l :: noticeParts) s t) ∧
      (r.state = .down ∨ r.state = .settle ∨ (¬ mine ∧ r.state ≠ .active) → OnlyChanges noticeParts s t) ∧
      OnlyChanges (.linkSetting :: .ownPosition :: .sincePeriodic :: .linkPort l :: dropParts l ++ noticeParts) s t

/-- LINK_BAD_FRAME and ERROR_COUNT_DECAY (R141), CREDIT_RETURN_TIMEOUT and CREDIT_STALL (R143): bad frames are counted in TRAIN,
READY and ACTIVE, and the eighth drops the port for 5000 ms; the count falls by 1 every 125 ms; returns owed for 20 ms leave
on a TRAIN frame with heard-you set; a class without a credit for 500 ms and a frame waiting drops the port (R140).
The model's choices here: log entries 27, 34, 38, 40, 66. -/
def Obligations.ErrorsAndCreditsEndALink : Prop :=
  ∀ (s : State) (l : LinkPort),
    let r := linkPort s l
    (∃ t, exec (.linkBadFrame l) s = .next t ∧
      (r.state = .train ∨ r.state = .ready ∨ r.state = .active →
        (r.errorCount < 7 → linkPort t l = { r with errorCount := r.errorCount + 1 } ∧
          OnlyChanges (.linkPort l :: noticeParts) s t) ∧
        (7 ≤ r.errorCount → Dropped s t l .linkErrors 5000 ∧ OnlyChanges (dropParts l ++ noticeParts) s t)) ∧
      (r.state = .down ∨ r.state = .settle → OnlyChanges noticeParts s t)) ∧
    (125 ≤ r.decayTimer → ∃ t, exec (.errorCountDecay l) s = .next t ∧
      linkPort t l = { r with errorCount := r.errorCount - 1, decayTimer := 0 } ∧
      OnlyChanges (.linkPort l :: noticeParts) s t) ∧
    (r.state = .ready ∨ r.state = .active → r.owed ≠ Credits.zero → 20 ≤ r.owedTimer →
      ∃ t f, exec (.creditReturnTimeout l) s = .next t ∧
        linkPort t l = { r with owed := Credits.zero, owedTimer := 0, lastSent := some f } ∧ f.kind = 0 ∧
        f.returns = r.owed ∧ byteAt f.payload 5 = 1 ∧ OnlyChanges (.linkPort l :: noticeParts) s t) ∧
    (r.state = .active → ∀ x, creditOf r.credits x = 0 → 500 ≤ creditOf r.stall x → frameWaits s l x = true →
      ∃ t, exec (.creditStall l) s = .next t ∧ Dropped s t l .creditStall 0 ∧
        OnlyChanges (dropParts l ++ noticeParts) s t)

/-! ## Tow Link: traffic -/

/-- DEMAND_FRAME_RECEIVED (R145, R29, R143): a good frame in ACTIVE brings its returns and takes the DEMAND slot; with target ALL or
the own position its clamped values form D anew; with target ALL or a position further back it takes the downstream DEMAND
slot, hop count increased, where the downstream port is ACTIVE; the slot's return is then owed.
The model's choices here: log entries 9, 34, 35, 58. -/
def Obligations.DemandFramesAreConsumedAndForwarded : Prop :=
  ∀ (s : State) (f : LinkFrame), f.kind = 1 → frameBad f = false →
    let r := s.link.up
    let own := s.link.ownPosition
    let grown : Credits := addCredits r.credits f.returns
    let stall : Credits := ⟨if 0 < grown.demand then 0 else r.stall.demand, if 0 < grown.status then 0 else r.stall.status,
      if 0 < grown.service then 0 else r.stall.service⟩
    let pressure := min 1000 (wordAt f.payload 0)
    let speed := min 2000 (wordAt f.payload 2)
    ∃ t, exec (.demandFrameReceived f) s = .next t ∧
      (r.state = .active → creditsLe grown (partnerDepths r) = true → r.occupied.demand = 0 →
        t.link.up = { r with credits := grown, stall := stall, owed := { r.owed with demand := 1 } } ∧
        (f.target = 15 ∨ own = some f.target →
          t.driver.linkLevel = some pressure ∧ t.driver.linkAge = some 0 ∧ t.driver.linkPresent = true ∧
          t.driver.tractorSpeed = some speed ∧ t.driver.tractorAge = some 0 ∧
          t.driver.tractorAntiLock = (byteAt f.payload 4).testBit 0 ∧
          (t.driver.mismatch = false → t.driver.demand = pressure) ∧
          (∀ y, t.driver.lineLevel = some y → t.driver.mismatch = true →
            t.driver.demand = if runMs t.driver.recovery < 2000 then max pressure y else pressure) ∧
          ∀ c, (entryOf t c .driver).isSome = decide (15 ≤ t.driver.demand)) ∧
        (f.target ≠ 15 → own ≠ some f.target → samePart s t .driver ∧
          ∀ c, samePart s t (.entry c .driver) ∧ samePart s t (.setpoint c)) ∧
        ((f.target = 15 ∨ own.getD 0 < f.target) → s.link.down.state = .active → f.hop < 7 →
          t.link.demandSlot = some { f with
            hop := f.hop + 1, payload := bytes16 pressure ++ bytes16 speed ++ f.payload.drop 4 }) ∧
        (s.link.down.state ≠ .active ∨ f.hop = 7 ∨ (f.target ≠ 15 ∧ f.target ≤ own.getD 0) →
          samePart s t .demandSlot) ∧
        OnlyChanges (.linkPort .up :: .demandSlot :: driverParts ++ noticeParts) s t) ∧
      (r.state = .active → creditsLe grown (partnerDepths r) = false ∨ 1 ≤ r.occupied.demand →
        Dropped s t .up .creditError 5000 ∧ EventLatched s t 41) ∧
      (r.state = .ready → t.link.up = { r with owed := { r.owed with demand := 1 } } ∧
        OnlyChanges (.linkPort .up :: noticeParts) s t) ∧
      (r.state = .down ∨ r.state = .settle ∨ r.state = .train → OnlyChanges noticeParts s t)

/-- DEMAND_SLOT_SEND (R145), STATUS_QUEUE_SEND (R146) and SERVICE_QUEUE_SEND (R143, R150): in ACTIVE, with a credit of its class, a
waiting frame leaves from the front, spends the credit and carries every return owed; a forwarded frame then frees its
downstream receive slot, whose return is owed. OWN_PERIODIC_STATUS (R147) and SERVICE_RESP_JOIN (R150): every 100 ms in ACTIVE
the periodic frame of the present state joins the upstream STATUS queue, or is rebuilt in its place there; a waiting answer of a
vehicle behind joins the upstream SERVICE queue when there is room and no answer of this vehicle began to wait earlier.
The model's choices here: log entries 28, 36, 38, 40. -/
def Obligations.QueuesFillAndSendOnCredit : Prop :=
  (∀ s : State,
    let sent (r : PortRec) (f : LinkFrame) (k : Credits) : PortRec :=
      { r with credits := k, owed := Credits.zero, owedTimer := 0, lastSent := some { f with returns := r.owed } }
    let u := s.link.up
    let d := s.link.down
    (∀ f, s.link.demandSlot = some f → d.state = .active → 0 < d.credits.demand →
      ∃ t, exec .demandSlotSend s = .next t ∧ t.link.demandSlot = none ∧
        t.link.down = sent d f { d.credits with demand := d.credits.demand - 1 } ∧
        OnlyChanges (.linkPort .down :: .demandSlot :: noticeParts) s t) ∧
    (∀ x rest, s.link.statusQueue = x :: rest → u.state = .active → 0 < u.credits.status →
      ∃ t, exec .statusQueueSend s = .next t ∧ t.link.statusQueue = rest ∧
        t.link.up = sent u (itemFrame x) { u.credits with status := u.credits.status - 1 } ∧
        (isOwnItem x = true → samePart s t (.linkPort .down)) ∧
        (isOwnItem x = false → t.link.down = { d with
          occupied := { d.occupied with status := d.occupied.status - 1 }
          owed := { d.owed with status := min 4 (d.owed.status + 1) } }) ∧
        OnlyChanges (.linkPort .up :: .linkPort .down :: .statusQueue :: noticeParts) s t) ∧
    (∀ x rest, s.link.upService = x :: rest → u.state = .active → 0 < u.credits.service →
      ∃ t, exec (.serviceQueueSend .up) s = .next t ∧ t.link.upService = rest ∧
        t.link.up = sent u (serviceFrame x) { u.credits with service := u.credits.service - 1 } ∧
        (isAnswer x = true → samePart s t (.linkPort .down)) ∧
        (isAnswer x = false → t.link.down = { d with
          occupied := { d.occupied with service := d.occupied.service - 1 }
          owed := { d.owed with service := min 2 (d.owed.service + 1) } }) ∧
        OnlyChanges (.linkPort .up :: .linkPort .down :: .upService :: noticeParts) s t) ∧
    (∀ f rest, s.link.downService = f :: rest → d.state = .active → 0 < d.credits.service →
      ∃ t, exec (.serviceQueueSend .down) s = .next t ∧ t.link.downService = rest ∧
        t.link.down = sent d f { d.credits with service := d.credits.service - 1 } ∧
        OnlyChanges (.linkPort .down :: .downService :: noticeParts) s t)) ∧
  (∀ s : State,
    (s.link.up.state = .active → 100 ≤ s.link.sincePeriodic → ∃ t, exec .ownPeriodicStatus s = .next t ∧
      t.link.sincePeriodic = 0 ∧
      (let f : LinkFrame := ⟨2, 15, s.link.ownPosition.getD 0, 0, Credits.zero, statusPayload s 0 0⟩
       (s.link.statusQueue.any isPeriodic = false → t.link.statusQueue = s.link.statusQueue ++ [.periodic f]) ∧
       (s.link.statusQueue.any isPeriodic = true →
         t.link.statusQueue = s.link.statusQueue.map (fun x => if isPeriodic x then .periodic f else x))) ∧
      OnlyChanges (.statusQueue :: .sincePeriodic :: noticeParts) s t) ∧
    (∀ h rest, s.link.heldResps = h :: rest → s.link.upService.length < 2 →
      (answerWaits s = false ∨ s.link.answerWait ≤ h.waited) → ∃ t, exec .serviceRespJoin s = .next t ∧
      t.link.heldResps = rest ∧
      t.link.upService = s.link.upService ++ [.forwarded { h.frame with hop := h.frame.hop + 1 }] ∧
      OnlyChanges (.heldResps :: .upService :: noticeParts) s t))

/-- STATUS_FRAME_RECEIVED (R149), SERVICE_REQ_RECEIVED and SERVICE_RESP_RECEIVED (R150): a good frame in ACTIVE brings its returns,
takes a receive slot of its class and waits: a status frame, hop count increased, at the back of the upstream STATUS queue,
a request among those held, an answer for a place. At a hop count of 7 what is to be forwarded is dropped and its return owed
(R144); in READY the frame is discarded and its return owed (R143); in DOWN, SETTLE and TRAIN it changes nothing.
The model's choices here: log entries 34, 35, 36, 66. -/
def Obligations.ReceivedFramesWaitInTheirSlots : Prop :=
  ∀ (s : State) (f : LinkFrame), frameBad f = false →
    let taken (r : PortRec) : Prop := r.state = .active ∧ creditsLe (addCredits r.credits f.returns) (partnerDepths r) = true
    let came (r : PortRec) : PortRec :=
      let k := addCredits r.credits f.returns
      { r with
        credits := k
        stall := ⟨if 0 < k.demand then 0 else r.stall.demand, if 0 < k.status then 0 else r.stall.status,
          if 0 < k.service then 0 else r.stall.service⟩ }
    let idle (r : PortRec) : Prop := r.state = .down ∨ r.state = .settle ∨ r.state = .train
    let u := s.link.up
    let d := s.link.down
    (f.kind = 2 → ∃ t, exec (.statusFrameReceived f) s = .next t ∧
      (taken d → d.occupied.status < 4 → f.hop < 7 →
        t.link.statusQueue = s.link.statusQueue ++ [.forwarded { f with hop := f.hop + 1 }] ∧
        t.link.down = { came d with
          occupied := { d.occupied with status := d.occupied.status + 1 } } ∧
        OnlyChanges (.linkPort .down :: .statusQueue :: noticeParts) s t) ∧
      (taken d → d.occupied.status < 4 → f.hop = 7 →
        t.link.down = { came d with
          owed := { d.owed with status := min 4 (d.owed.status + 1) } } ∧
        OnlyChanges (.linkPort .down :: noticeParts) s t) ∧
      (d.state = .ready → t.link.down = { d with owed := { d.owed with status := min 4 (d.owed.status + 1) } } ∧
        OnlyChanges (.linkPort .down :: noticeParts) s t) ∧
      (d.state = .active → (¬ taken d ∨ 4 ≤ d.occupied.status) →
        Dropped s t .down .creditError 5000 ∧ EventLatched s t 43) ∧
      (idle d → OnlyChanges noticeParts s t) ∧
      OnlyChanges (.statusQueue :: dropParts .down ++ noticeParts) s t) ∧
    (f.kind = 3 → ∃ t, exec (.serviceReqReceived f) s = .next t ∧
      (taken u → u.occupied.service < 2 → t.link.heldReqs = s.link.heldReqs ++ [f] ∧
        t.link.up = { came u with
          occupied := { u.occupied with service := u.occupied.service + 1 } } ∧
        OnlyChanges (.linkPort .up :: .heldReqs :: noticeParts) s t) ∧
      (u.state = .ready → t.link.up = { u with owed := { u.owed with service := min 2 (u.owed.service + 1) } } ∧
        OnlyChanges (.linkPort .up :: noticeParts) s t) ∧
      (u.state = .active → (¬ taken u ∨ 2 ≤ u.occupied.service) →
        Dropped s t .up .creditError 5000 ∧ EventLatched s t 41) ∧
      (idle u → OnlyChanges noticeParts s t) ∧
      OnlyChanges (dropParts .up ++ noticeParts) s t) ∧
    (f.kind = 4 → ∃ t, exec (.serviceRespReceived f) s = .next t ∧
      (taken d → d.occupied.service < 2 → f.hop < 7 → t.link.heldResps = s.link.heldResps ++ [⟨f, 0⟩] ∧
        t.link.down = { came d with
          occupied := { d.occupied with service := d.occupied.service + 1 } } ∧
        OnlyChanges (.linkPort .down :: .heldResps :: noticeParts) s t) ∧
      (taken d → d.occupied.service < 2 → f.hop = 7 →
        t.link.down = { came d with
          owed := { d.owed with service := min 2 (d.owed.service + 1) } } ∧
        OnlyChanges (.linkPort .down :: noticeParts) s t) ∧
      (d.state = .ready → t.link.down = { d with owed := { d.owed with service := min 2 (d.owed.service + 1) } } ∧
        OnlyChanges (.linkPort .down :: noticeParts) s t) ∧
      (d.state = .active → (¬ taken d ∨ 2 ≤ d.occupied.service) →
        Dropped s t .down .creditError 5000 ∧ EventLatched s t 43) ∧
      (idle d → OnlyChanges noticeParts s t) ∧
      OnlyChanges (dropParts .down ++ noticeParts) s t)

/-- SERVICE_REQ_PROCESS (R150, R151): the front request, when the queue it needs has room, is answered for this vehicle (a READ with
at most 24 bytes of the record of view U, a CLEAR_FAULTS after clearing view U alone), forwarded to the vehicle behind,
answered NO_ROUTE or BAD_ARG, or dropped at a hop count of 7; its receive slot is freed and the return owed.
The model's choices here: log entries 36, 37, 69. -/
def Obligations.FrontRequestIsProcessed : Prop :=
  ∀ (s : State) (f : LinkFrame) (rest : List LinkFrame), s.link.heldReqs = f :: rest →
    let own := s.link.ownPosition
    let below : Prop := f.target ≠ 15 ∧ own.getD 0 < f.target ∧ own ≠ some f.target
    let turn : Prop := s.link.upService.length < 2 ∧ ∀ h, s.link.heldResps.head? = some h → h.waited < s.link.answerWait
    let reply (code : Nat) (r : List Byte) : ServiceItem := .answer ⟨4, 15, own.getD 0, 0, Credits.zero,
      [BitVec.ofNat 8 (byteAt f.payload 1), BitVec.ofNat 8 (byteAt f.payload 2), BitVec.ofNat 8 code,
        BitVec.ofNat 8 r.length] ++ r⟩
    let gone (t : State) : Prop := t.link.heldReqs = rest ∧ t.link.answerWait = 0 ∧
      t.link.up = { s.link.up with
        occupied := { s.link.up.occupied with service := s.link.up.occupied.service - 1 }
        owed := { s.link.up.owed with service := min 2 (s.link.up.owed.service + 1) } }
    (own = some f.target → turn → ∃ t, exec .serviceReqProcess s = .next t ∧ gone t ∧
      (byteAt f.payload 0 = 0 → ∀ r, tableRecord .u s (byteAt f.payload 1) (byteAt f.payload 2) = some r →
        t.link.upService = s.link.upService ++ [reply 0 (r.take 24)]) ∧
      (byteAt f.payload 0 = 0 → tableRecord .u s (byteAt f.payload 1) (byteAt f.payload 2) = none →
        t.link.upService = s.link.upService ++ [reply 1 []]) ∧
      (byteAt f.payload 0 = 1 → t.link.upService = s.link.upService ++ [reply 0 []] ∧
        (s.faults.map FaultRec.live = liveList s →
          t.faults = s.faults.map (fun r => { r with latchU := r.live }))) ∧
      OnlyChanges (.heldReqs :: .upService :: .linkPort .up :: noticeParts) s t) ∧
    (below → s.link.down.state = .active → f.hop < 7 → s.link.downService.length < 2 →
      ∃ t, exec .serviceReqProcess s = .next t ∧ gone t ∧
        t.link.downService = s.link.downService ++ [{ f with hop := f.hop + 1 }] ∧
        OnlyChanges (.heldReqs :: .downService :: .linkPort .up :: noticeParts) s t) ∧
    (below → s.link.down.state = .active → f.hop = 7 → ∃ t, exec .serviceReqProcess s = .next t ∧ gone t ∧
      OnlyChanges (.heldReqs :: .linkPort .up :: noticeParts) s t) ∧
    (below → s.link.down.state ≠ .active → turn → ∃ t, exec .serviceReqProcess s = .next t ∧ gone t ∧
      t.link.upService = s.link.upService ++ [reply 2 []] ∧
      OnlyChanges (.heldReqs :: .upService :: .linkPort .up :: noticeParts) s t) ∧
    (own ≠ some f.target → ¬ below → turn → ∃ t, exec .serviceReqProcess s = .next t ∧ gone t ∧
      t.link.upService = s.link.upService ++ [reply 1 []] ∧
      OnlyChanges (.heldReqs :: .upService :: .linkPort .up :: noticeParts) s t)

/-- FRAME_OF_KIND_NOT_RECEIVED (R144, R143) and UNKNOWN_KIND_FRAME (R182): in ACTIVE each brings its returns; a good traffic frame
of a kind its port does not receive is dropped and its credit owed back; a frame of an unknown kind is only dropped, and
never counted. The model's choices here: log entries 34, 35. -/
def Obligations.StrayFramesAreDropped : Prop :=
  ∀ (s : State) (l : LinkPort) (f : LinkFrame),
    let r := linkPort s l
    let grown : Credits := addCredits r.credits f.returns
    let stall : Credits := ⟨if 0 < grown.demand then 0 else r.stall.demand, if 0 < grown.status then 0 else r.stall.status,
      if 0 < grown.service then 0 else r.stall.service⟩
    let x : TrafficClass := if f.kind = 1 then .demand else if f.kind = 2 then .status else .service
    let depth : Nat := match x with | .demand => 1 | .status => 4 | .service => 2
    let owed : Credits := putCredit r.owed x (min depth (creditOf r.owed x + 1))
    (strayFrame l f = true → ∃ t, exec (.frameOfKindNotReceived l f) s = .next t ∧
      (r.state = .active → creditsLe grown (partnerDepths r) = true → creditOf r.occupied x < depth →
        linkPort t l = { r with credits := grown, stall := stall, owed := owed } ∧ OnlyChanges (.linkPort l :: noticeParts) s t) ∧
      (r.state = .ready → linkPort t l = { r with owed := owed } ∧ OnlyChanges (.linkPort l :: noticeParts) s t) ∧
      (r.state = .active → creditsLe grown (partnerDepths r) = false ∨ depth ≤ creditOf r.occupied x →
        Dropped s t l .creditError 5000) ∧
      (r.state ≠ .active → r.state ≠ .ready → OnlyChanges noticeParts s t)) ∧
    (4 < f.kind → ∃ t, exec (.unknownKindFrame l f) s = .next t ∧
      (r.state = .active → creditsLe grown (partnerDepths r) = true →
        linkPort t l = { r with credits := grown, stall := stall } ∧ OnlyChanges (.linkPort l :: noticeParts) s t) ∧
      (r.state = .active → creditsLe grown (partnerDepths r) = false → Dropped s t l .creditError 5000) ∧
      (r.state ≠ .active → OnlyChanges noticeParts s t))

/-! ## Formats (chapter 12) -/

/-- Decode and encode agree on the controller port frame (R165, R179, R180): the frame that carries a well-formed port command is
16 bytes and decodes to that command on its port; a frame with any one byte changed by a nonzero mask is a
BAD_COMMAND_FRAME. The model's choices here: log entry 24. -/
def Obligations.PortFramesRoundTrip : Prop :=
  ∀ (i : Instr) (p : Port) (n : Nat) (bs : List Byte), wellFormed i = true → portCommand i = some (p, n) →
    encodePortFrame i = some bs → bs.length = 16 ∧ decodePortFrame p bs = i ∧
    ∀ k m, k < 16 → m ≠ 0#8 → decodePortFrame p (bs.set k (bs.getD k 0#8 ^^^ m)) = .badCommandFrame p

/-- Decode and encode agree on the Tow Link frame (R181, R182): a frame whose fields fit the layout decodes to itself on its row,
one that R182 counts to a LINK_BAD_FRAME, one of a kind above 4 to an UNKNOWN_KIND_FRAME. The model's choices here: log entry 45. -/
def Obligations.LinkFramesRoundTrip : Prop :=
  ∀ (l : LinkPort) (f : LinkFrame), headerFits f = true →
    linkFields (encodeLinkFrame f) = f ∧
    decodeLinkFrame l (encodeLinkFrame f) =
      if 4 < f.kind then .unknownKindFrame l f
      else if frameBad f then .linkBadFrame l
      else match l, f.kind with
        | _, 0 => .trainFrameReceived l f
        | .up, 1 => .demandFrameReceived f
        | .down, 2 => .statusFrameReceived f
        | .up, 3 => .serviceReqReceived f
        | .down, 4 => .serviceRespReceived f
        | _, _ => .frameOfKindNotReceived l f

/-! ## Arithmetic of the manual -/

/-- Seal validation (R155): the failing word is the lowest one that fails its own range in R153 or its relation to the words
below it, and a content without one passes. -/
def Obligations.SealValidationFindsTheFirstFailingWord : Prop :=
  ∀ ws : List Nat,
    let w (i : Nat) : Nat := ws.getD i 0
    let good (i : Nat) : Prop :=
      (i < 30 → i % 10 < 5 → w i ≤ 1000 ∧ (i % 10 ≠ 0 → w (i - 1) < w i)) ∧
      (i < 30 → 5 ≤ i % 10 → w i ≤ 2000 ∧ (i % 10 ≠ 5 → w (i - 1) ≤ w i)) ∧
      (i = 30 → w 30 ≤ 5900) ∧ (i = 31 → w 30 + 100 ≤ w 31 ∧ w 31 ≤ 6000) ∧ (i = 32 → 256 ≤ w 32 ∧ w 32 ≤ 1024) ∧
      (i = 33 → 20 ≤ w 33 ∧ w 33 ≤ 100) ∧ (34 ≤ i → i < 40 → 300 ≤ w i ∧ w i ≤ 1100) ∧
      (40 ≤ i → i < 60 → i % 5 = 0 → w i ≤ 1) ∧ (40 ≤ i → i < 60 → i % 5 ≠ 0 → w i < 65536) ∧
      (i = 60 → 80 ≤ w 60 ∧ w 60 ≤ 120) ∧ (i = 61 → 2800 ≤ w 61 ∧ w 61 ≤ 3600) ∧ (i = 62 → 200 ≤ w 62 ∧ w 62 ≤ 800) ∧
      (i = 63 → 150 ≤ w 63 ∧ w 63 ≤ w 62) ∧ (i = 64 → 512 ≤ w 64 ∧ w 64 ≤ 1000) ∧
      (i = 65 → 60 ≤ w 65 ∧ w 65 ≤ 200) ∧ (i = 66 → 200 ≤ w 66 ∧ w 66 ≤ 600) ∧ (i = 67 → w 67 < 8) ∧
      (i = 68 → w 68 ≤ 240)
    (∀ i, sealFailure ws = some i ↔ i < 69 ∧ ¬ good i ∧ ∀ j, j < i → good j) ∧
    (sealFailure ws = none ↔ ∀ i, i < 69 → good i) ∧
    (sealFailure ws = none → 100 ≤ w 31 - w 30 ∧ 80 ≤ w 60 ∧
      (∀ a k, a < 3 → k < 4 → 1 ≤ w (10 * a + k + 1) - w (10 * a + k)) ∧
      ∀ lam, lam ≤ 1024 →
        132 ≤ thresholdOf ws lam - thresholdOf ws lam / 8)

/-- The load curve (R75): its two branches, that it never gives more than x, never falls as x rises, never gives less than the
smaller of x and p_knee, and leaves x unchanged at g = 1024. The premise CalInv (StepsKeepTheCalibrationSealed) keeps the
gain within 1024. -/
def Obligations.LoadCurveKeepsItsBounds : Prop :=
  ∀ (s : State) (x y : Nat), CalInv s →
    let knee := calKnee s.cal.active
    (x ≤ knee → curve s x = x) ∧
    (knee < x → curve s x = knee + ((x - knee) * s.load.gain + 512) / 1024) ∧
    curve s x ≤ x ∧ (x ≤ y → curve s x ≤ curve s y) ∧ min x knee ≤ curve s x ∧ (s.load.gain = 1024 → curve s x = x)

/-- The instant load (R61) and the filter (R64) under a calibration that passes seal validation: below P0 and above P4 the table's
ends, between them the interpolation on the one segment that holds m; it never falls as m rises and stays within L0 and L4;
and a filter step moves toward the instant load without passing it. -/
def Obligations.InstantLoadFollowsTheTable : Prop :=
  ∀ (ws : List Nat) (x : Axle) (m n : Nat), sealFailure ws = none →
    let p := calP ws x
    let l := calL ws x
    let load (k : Nat) : Nat := instantLoad ws x (some k)
    (m ≤ p 0 → load m = l 0) ∧ (p 4 ≤ m → load m = l 4) ∧
    (p 0 < m → m < p 4 → ∃ k, k < 4 ∧ p k ≤ m ∧ m < p (k + 1) ∧
      (∀ j, j < 4 → p j ≤ m → m < p (j + 1) → j = k) ∧
      load m = l k + ((l (k + 1) - l k) * (m - p k) + (p (k + 1) - p k) / 2) / (p (k + 1) - p k)) ∧
    l 0 ≤ load m ∧ load m ≤ l 4 ∧ (m ≤ n → load m ≤ load n) ∧
    (m ≤ n → m ≤ filterStep n m ∧ filterStep n m ≤ n ∧ (m < n → filterStep n m = m + max 1 ((n - m) / 8))) ∧
    (n ≤ m → n ≤ filterStep n m ∧ filterStep n m ≤ m ∧ (n < m → filterStep n m = m - max 1 ((m - n) / 8)))

/-! ## Invariants -/

/-- Every invariant holds after reset. The resolution records it meets there are the model's choice (log entries 4, 5). -/
def Obligations.ResetMeetsEveryInvariant : Prop :=
  ResolutionInv State.reset ∧ EntriesInv State.reset ∧ ValveInv State.reset ∧ QueueInv State.reset ∧
  FaultInv State.reset ∧ CalInv State.reset ∧ TyreInv State.reset ∧ LinkInv State.reset

/-- Every step keeps the setpoints resolved (R20, R36 to R38). R36: but at a pressure sample, a setpoint that stays above 0 keeps
the applied derate it has, whatever the tyres do, and one that rises from 0 in RUNNING latches the current derate (for a sample,
SampleFormsTheDemand). The model's choice here: log entry 50. -/
def Obligations.StepsKeepSetpointsResolved : Prop :=
  ∀ s t : State, step s = .next t → ResolutionInv s → ResolutionInv t ∧
    ((∀ x, s.pending.head? ≠ some (.pressureSample x)) → ∀ c, 0 < (channelOf t c).setpoint →
      (0 < (channelOf s c).setpoint → t.demand.applied.get c = s.demand.applied.get c) ∧
      ((channelOf s c).setpoint = 0 → isRunning s = true → t.demand.applied.get c = t.load.derate.get c))

/-- Every step keeps the entries of the Demand Tables those of their owners (R15, R22, R35, R46, R113, R122). -/
def Obligations.StepsKeepEntriesOwned : Prop :=
  ∀ s t : State, step s = .next t → EntriesInv s → EntriesInv t

/-- Every step keeps the valves as the modes say (R2), the generator with its one holder (R129), and the Test Queue in order
(R125, R126). -/
def Obligations.StepsKeepValvesAndTests : Prop :=
  ∀ s t : State, step s = .next t → ValveInv s ∧ QueueInv s → ValveInv t ∧ QueueInv t

/-- Every step keeps the live states those of their conditions, and latched (R168, R169), and the acceleration available while its
age is below 50 ms (R107). A latch of view A or B that was clear and is set leaves the new-fault-latch flag of its port set (R169,
R170), and that flag is newly set only by a fault that has gone live or an event fault, latched in that view.
The model's choices here: log entries 16, 39, 62. -/
def Obligations.StepsKeepFaultsReported : Prop :=
  ∀ s t : State, step s = .next t → FaultInv s → FaultInv t ∧
    ∀ p, let latch (r : FaultRec) : Bool := match p with
           | .a => r.latchA
           | .b => r.latchB
      (∀ n, n < 47 → latch (faultOf s n) = false → latch (faultOf t n) = true → (portOf t p).attention.newFault = true) ∧
      ((portOf t p).attention.newFault = true → (portOf s p).attention.newFault = true ∨
        ∃ n, n < 47 ∧ latch (faultOf t n) = true ∧ (faultOf s n).live = false)

/-- Every step keeps the calibration in force one that passed seal validation (R155 to R163), and the laden fraction and the
load gain within their bounds (R58, R72, R73). -/
def Obligations.StepsKeepTheCalibrationSealed : Prop :=
  ∀ s t : State, step s = .next t → CalInv s → CalInv t

/-- Every step keeps each sensor ID in one place, and what follows from the conditions, the lowest position of the worst
included (R77, R86, R93, R99, R103, R104). -/
def Obligations.StepsKeepSensorsInOnePlace : Prop :=
  ∀ s t : State, step s = .next t → TyreInv s → TyreInv t

/-- Every step keeps the Tow Link ports in agreement with their states, slots and queues within their bounds (R135 to R143, R146), and
LINK absent unless the upstream port is ACTIVE and LINK age below 100 ms (R29).
The model's choices here: log entries 16, 30, 63. -/
def Obligations.StepsKeepTheLinkInOrder : Prop :=
  ∀ s t : State, step s = .next t → LinkInv s → LinkInv t

end
end

