-- ==== Sys2Proof/Laws/State.lean ====
section
/-! SUPPORT. The small lemmas of the block updates (one per field per update), of the per-channel and per-axle values, of the
cause sets, Demand Tables and ports. Each is true by rfl or by cases; later proofs unfold no record update. -/

namespace Sys2Proof.Machine

/-! ## Block updates -/

section setPending
variable (s : State) (x : List Instr)
@[simp] theorem State.setPending_pending : (s.setPending x).pending = x := rfl
@[simp] theorem State.setPending_standby : (s.setPending x).standby = s.standby := rfl
@[simp] theorem State.setPending_front : (s.setPending x).front = s.front := rfl
@[simp] theorem State.setPending_wheels : (s.setPending x).wheels = s.wheels := rfl
@[simp] theorem State.setPending_channels : (s.setPending x).channels = s.channels := rfl
@[simp] theorem State.setPending_supply : (s.setPending x).supply = s.supply := rfl
@[simp] theorem State.setPending_demand : (s.setPending x).demand = s.demand := rfl
@[simp] theorem State.setPending_driver : (s.setPending x).driver = s.driver := rfl
@[simp] theorem State.setPending_skid : (s.setPending x).skid = s.skid := rfl
@[simp] theorem State.setPending_load : (s.setPending x).load = s.load := rfl
@[simp] theorem State.setPending_tyre : (s.setPending x).tyre = s.tyre := rfl
@[simp] theorem State.setPending_roll : (s.setPending x).roll = s.roll := rfl
@[simp] theorem State.setPending_tests : (s.setPending x).tests = s.tests := rfl
@[simp] theorem State.setPending_link : (s.setPending x).link = s.link := rfl
@[simp] theorem State.setPending_cal : (s.setPending x).cal = s.cal := rfl
@[simp] theorem State.setPending_portA : (s.setPending x).portA = s.portA := rfl
@[simp] theorem State.setPending_portB : (s.setPending x).portB = s.portB := rfl
@[simp] theorem State.setPending_faults : (s.setPending x).faults = s.faults := rfl
end setPending

section setStandby
variable (s : State) (x : StandbyRec)
@[simp] theorem State.setStandby_pending : (s.setStandby x).pending = s.pending := rfl
@[simp] theorem State.setStandby_standby : (s.setStandby x).standby = x := rfl
@[simp] theorem State.setStandby_front : (s.setStandby x).front = s.front := rfl
@[simp] theorem State.setStandby_wheels : (s.setStandby x).wheels = s.wheels := rfl
@[simp] theorem State.setStandby_channels : (s.setStandby x).channels = s.channels := rfl
@[simp] theorem State.setStandby_supply : (s.setStandby x).supply = s.supply := rfl
@[simp] theorem State.setStandby_demand : (s.setStandby x).demand = s.demand := rfl
@[simp] theorem State.setStandby_driver : (s.setStandby x).driver = s.driver := rfl
@[simp] theorem State.setStandby_skid : (s.setStandby x).skid = s.skid := rfl
@[simp] theorem State.setStandby_load : (s.setStandby x).load = s.load := rfl
@[simp] theorem State.setStandby_tyre : (s.setStandby x).tyre = s.tyre := rfl
@[simp] theorem State.setStandby_roll : (s.setStandby x).roll = s.roll := rfl
@[simp] theorem State.setStandby_tests : (s.setStandby x).tests = s.tests := rfl
@[simp] theorem State.setStandby_link : (s.setStandby x).link = s.link := rfl
@[simp] theorem State.setStandby_cal : (s.setStandby x).cal = s.cal := rfl
@[simp] theorem State.setStandby_portA : (s.setStandby x).portA = s.portA := rfl
@[simp] theorem State.setStandby_portB : (s.setStandby x).portB = s.portB := rfl
@[simp] theorem State.setStandby_faults : (s.setStandby x).faults = s.faults := rfl
end setStandby

section setFront
variable (s : State) (x : FrontEnd)
@[simp] theorem State.setFront_pending : (s.setFront x).pending = s.pending := rfl
@[simp] theorem State.setFront_standby : (s.setFront x).standby = s.standby := rfl
@[simp] theorem State.setFront_front : (s.setFront x).front = x := rfl
@[simp] theorem State.setFront_wheels : (s.setFront x).wheels = s.wheels := rfl
@[simp] theorem State.setFront_channels : (s.setFront x).channels = s.channels := rfl
@[simp] theorem State.setFront_supply : (s.setFront x).supply = s.supply := rfl
@[simp] theorem State.setFront_demand : (s.setFront x).demand = s.demand := rfl
@[simp] theorem State.setFront_driver : (s.setFront x).driver = s.driver := rfl
@[simp] theorem State.setFront_skid : (s.setFront x).skid = s.skid := rfl
@[simp] theorem State.setFront_load : (s.setFront x).load = s.load := rfl
@[simp] theorem State.setFront_tyre : (s.setFront x).tyre = s.tyre := rfl
@[simp] theorem State.setFront_roll : (s.setFront x).roll = s.roll := rfl
@[simp] theorem State.setFront_tests : (s.setFront x).tests = s.tests := rfl
@[simp] theorem State.setFront_link : (s.setFront x).link = s.link := rfl
@[simp] theorem State.setFront_cal : (s.setFront x).cal = s.cal := rfl
@[simp] theorem State.setFront_portA : (s.setFront x).portA = s.portA := rfl
@[simp] theorem State.setFront_portB : (s.setFront x).portB = s.portB := rfl
@[simp] theorem State.setFront_faults : (s.setFront x).faults = s.faults := rfl
end setFront

section setWheels
variable (s : State) (x : WheelUnit)
@[simp] theorem State.setWheels_pending : (s.setWheels x).pending = s.pending := rfl
@[simp] theorem State.setWheels_standby : (s.setWheels x).standby = s.standby := rfl
@[simp] theorem State.setWheels_front : (s.setWheels x).front = s.front := rfl
@[simp] theorem State.setWheels_wheels : (s.setWheels x).wheels = x := rfl
@[simp] theorem State.setWheels_channels : (s.setWheels x).channels = s.channels := rfl
@[simp] theorem State.setWheels_supply : (s.setWheels x).supply = s.supply := rfl
@[simp] theorem State.setWheels_demand : (s.setWheels x).demand = s.demand := rfl
@[simp] theorem State.setWheels_driver : (s.setWheels x).driver = s.driver := rfl
@[simp] theorem State.setWheels_skid : (s.setWheels x).skid = s.skid := rfl
@[simp] theorem State.setWheels_load : (s.setWheels x).load = s.load := rfl
@[simp] theorem State.setWheels_tyre : (s.setWheels x).tyre = s.tyre := rfl
@[simp] theorem State.setWheels_roll : (s.setWheels x).roll = s.roll := rfl
@[simp] theorem State.setWheels_tests : (s.setWheels x).tests = s.tests := rfl
@[simp] theorem State.setWheels_link : (s.setWheels x).link = s.link := rfl
@[simp] theorem State.setWheels_cal : (s.setWheels x).cal = s.cal := rfl
@[simp] theorem State.setWheels_portA : (s.setWheels x).portA = s.portA := rfl
@[simp] theorem State.setWheels_portB : (s.setWheels x).portB = s.portB := rfl
@[simp] theorem State.setWheels_faults : (s.setWheels x).faults = s.faults := rfl
end setWheels

section setChannels
variable (s : State) (x : PerChannel ChannelRec)
@[simp] theorem State.setChannels_pending : (s.setChannels x).pending = s.pending := rfl
@[simp] theorem State.setChannels_standby : (s.setChannels x).standby = s.standby := rfl
@[simp] theorem State.setChannels_front : (s.setChannels x).front = s.front := rfl
@[simp] theorem State.setChannels_wheels : (s.setChannels x).wheels = s.wheels := rfl
@[simp] theorem State.setChannels_channels : (s.setChannels x).channels = x := rfl
@[simp] theorem State.setChannels_supply : (s.setChannels x).supply = s.supply := rfl
@[simp] theorem State.setChannels_demand : (s.setChannels x).demand = s.demand := rfl
@[simp] theorem State.setChannels_driver : (s.setChannels x).driver = s.driver := rfl
@[simp] theorem State.setChannels_skid : (s.setChannels x).skid = s.skid := rfl
@[simp] theorem State.setChannels_load : (s.setChannels x).load = s.load := rfl
@[simp] theorem State.setChannels_tyre : (s.setChannels x).tyre = s.tyre := rfl
@[simp] theorem State.setChannels_roll : (s.setChannels x).roll = s.roll := rfl
@[simp] theorem State.setChannels_tests : (s.setChannels x).tests = s.tests := rfl
@[simp] theorem State.setChannels_link : (s.setChannels x).link = s.link := rfl
@[simp] theorem State.setChannels_cal : (s.setChannels x).cal = s.cal := rfl
@[simp] theorem State.setChannels_portA : (s.setChannels x).portA = s.portA := rfl
@[simp] theorem State.setChannels_portB : (s.setChannels x).portB = s.portB := rfl
@[simp] theorem State.setChannels_faults : (s.setChannels x).faults = s.faults := rfl
end setChannels

section setSupply
variable (s : State) (x : SupplyRec)
@[simp] theorem State.setSupply_pending : (s.setSupply x).pending = s.pending := rfl
@[simp] theorem State.setSupply_standby : (s.setSupply x).standby = s.standby := rfl
@[simp] theorem State.setSupply_front : (s.setSupply x).front = s.front := rfl
@[simp] theorem State.setSupply_wheels : (s.setSupply x).wheels = s.wheels := rfl
@[simp] theorem State.setSupply_channels : (s.setSupply x).channels = s.channels := rfl
@[simp] theorem State.setSupply_supply : (s.setSupply x).supply = x := rfl
@[simp] theorem State.setSupply_demand : (s.setSupply x).demand = s.demand := rfl
@[simp] theorem State.setSupply_driver : (s.setSupply x).driver = s.driver := rfl
@[simp] theorem State.setSupply_skid : (s.setSupply x).skid = s.skid := rfl
@[simp] theorem State.setSupply_load : (s.setSupply x).load = s.load := rfl
@[simp] theorem State.setSupply_tyre : (s.setSupply x).tyre = s.tyre := rfl
@[simp] theorem State.setSupply_roll : (s.setSupply x).roll = s.roll := rfl
@[simp] theorem State.setSupply_tests : (s.setSupply x).tests = s.tests := rfl
@[simp] theorem State.setSupply_link : (s.setSupply x).link = s.link := rfl
@[simp] theorem State.setSupply_cal : (s.setSupply x).cal = s.cal := rfl
@[simp] theorem State.setSupply_portA : (s.setSupply x).portA = s.portA := rfl
@[simp] theorem State.setSupply_portB : (s.setSupply x).portB = s.portB := rfl
@[simp] theorem State.setSupply_faults : (s.setSupply x).faults = s.faults := rfl
end setSupply

section setDemand
variable (s : State) (x : DemandUnit)
@[simp] theorem State.setDemand_pending : (s.setDemand x).pending = s.pending := rfl
@[simp] theorem State.setDemand_standby : (s.setDemand x).standby = s.standby := rfl
@[simp] theorem State.setDemand_front : (s.setDemand x).front = s.front := rfl
@[simp] theorem State.setDemand_wheels : (s.setDemand x).wheels = s.wheels := rfl
@[simp] theorem State.setDemand_channels : (s.setDemand x).channels = s.channels := rfl
@[simp] theorem State.setDemand_supply : (s.setDemand x).supply = s.supply := rfl
@[simp] theorem State.setDemand_demand : (s.setDemand x).demand = x := rfl
@[simp] theorem State.setDemand_driver : (s.setDemand x).driver = s.driver := rfl
@[simp] theorem State.setDemand_skid : (s.setDemand x).skid = s.skid := rfl
@[simp] theorem State.setDemand_load : (s.setDemand x).load = s.load := rfl
@[simp] theorem State.setDemand_tyre : (s.setDemand x).tyre = s.tyre := rfl
@[simp] theorem State.setDemand_roll : (s.setDemand x).roll = s.roll := rfl
@[simp] theorem State.setDemand_tests : (s.setDemand x).tests = s.tests := rfl
@[simp] theorem State.setDemand_link : (s.setDemand x).link = s.link := rfl
@[simp] theorem State.setDemand_cal : (s.setDemand x).cal = s.cal := rfl
@[simp] theorem State.setDemand_portA : (s.setDemand x).portA = s.portA := rfl
@[simp] theorem State.setDemand_portB : (s.setDemand x).portB = s.portB := rfl
@[simp] theorem State.setDemand_faults : (s.setDemand x).faults = s.faults := rfl
end setDemand

section setDriver
variable (s : State) (x : DriverRec)
@[simp] theorem State.setDriver_pending : (s.setDriver x).pending = s.pending := rfl
@[simp] theorem State.setDriver_standby : (s.setDriver x).standby = s.standby := rfl
@[simp] theorem State.setDriver_front : (s.setDriver x).front = s.front := rfl
@[simp] theorem State.setDriver_wheels : (s.setDriver x).wheels = s.wheels := rfl
@[simp] theorem State.setDriver_channels : (s.setDriver x).channels = s.channels := rfl
@[simp] theorem State.setDriver_supply : (s.setDriver x).supply = s.supply := rfl
@[simp] theorem State.setDriver_demand : (s.setDriver x).demand = s.demand := rfl
@[simp] theorem State.setDriver_driver : (s.setDriver x).driver = x := rfl
@[simp] theorem State.setDriver_skid : (s.setDriver x).skid = s.skid := rfl
@[simp] theorem State.setDriver_load : (s.setDriver x).load = s.load := rfl
@[simp] theorem State.setDriver_tyre : (s.setDriver x).tyre = s.tyre := rfl
@[simp] theorem State.setDriver_roll : (s.setDriver x).roll = s.roll := rfl
@[simp] theorem State.setDriver_tests : (s.setDriver x).tests = s.tests := rfl
@[simp] theorem State.setDriver_link : (s.setDriver x).link = s.link := rfl
@[simp] theorem State.setDriver_cal : (s.setDriver x).cal = s.cal := rfl
@[simp] theorem State.setDriver_portA : (s.setDriver x).portA = s.portA := rfl
@[simp] theorem State.setDriver_portB : (s.setDriver x).portB = s.portB := rfl
@[simp] theorem State.setDriver_faults : (s.setDriver x).faults = s.faults := rfl
end setDriver

section setSkid
variable (s : State) (x : PerChannel SkidRec)
@[simp] theorem State.setSkid_pending : (s.setSkid x).pending = s.pending := rfl
@[simp] theorem State.setSkid_standby : (s.setSkid x).standby = s.standby := rfl
@[simp] theorem State.setSkid_front : (s.setSkid x).front = s.front := rfl
@[simp] theorem State.setSkid_wheels : (s.setSkid x).wheels = s.wheels := rfl
@[simp] theorem State.setSkid_channels : (s.setSkid x).channels = s.channels := rfl
@[simp] theorem State.setSkid_supply : (s.setSkid x).supply = s.supply := rfl
@[simp] theorem State.setSkid_demand : (s.setSkid x).demand = s.demand := rfl
@[simp] theorem State.setSkid_driver : (s.setSkid x).driver = s.driver := rfl
@[simp] theorem State.setSkid_skid : (s.setSkid x).skid = x := rfl
@[simp] theorem State.setSkid_load : (s.setSkid x).load = s.load := rfl
@[simp] theorem State.setSkid_tyre : (s.setSkid x).tyre = s.tyre := rfl
@[simp] theorem State.setSkid_roll : (s.setSkid x).roll = s.roll := rfl
@[simp] theorem State.setSkid_tests : (s.setSkid x).tests = s.tests := rfl
@[simp] theorem State.setSkid_link : (s.setSkid x).link = s.link := rfl
@[simp] theorem State.setSkid_cal : (s.setSkid x).cal = s.cal := rfl
@[simp] theorem State.setSkid_portA : (s.setSkid x).portA = s.portA := rfl
@[simp] theorem State.setSkid_portB : (s.setSkid x).portB = s.portB := rfl
@[simp] theorem State.setSkid_faults : (s.setSkid x).faults = s.faults := rfl
end setSkid

section setLoad
variable (s : State) (x : LoadTable)
@[simp] theorem State.setLoad_pending : (s.setLoad x).pending = s.pending := rfl
@[simp] theorem State.setLoad_standby : (s.setLoad x).standby = s.standby := rfl
@[simp] theorem State.setLoad_front : (s.setLoad x).front = s.front := rfl
@[simp] theorem State.setLoad_wheels : (s.setLoad x).wheels = s.wheels := rfl
@[simp] theorem State.setLoad_channels : (s.setLoad x).channels = s.channels := rfl
@[simp] theorem State.setLoad_supply : (s.setLoad x).supply = s.supply := rfl
@[simp] theorem State.setLoad_demand : (s.setLoad x).demand = s.demand := rfl
@[simp] theorem State.setLoad_driver : (s.setLoad x).driver = s.driver := rfl
@[simp] theorem State.setLoad_skid : (s.setLoad x).skid = s.skid := rfl
@[simp] theorem State.setLoad_load : (s.setLoad x).load = x := rfl
@[simp] theorem State.setLoad_tyre : (s.setLoad x).tyre = s.tyre := rfl
@[simp] theorem State.setLoad_roll : (s.setLoad x).roll = s.roll := rfl
@[simp] theorem State.setLoad_tests : (s.setLoad x).tests = s.tests := rfl
@[simp] theorem State.setLoad_link : (s.setLoad x).link = s.link := rfl
@[simp] theorem State.setLoad_cal : (s.setLoad x).cal = s.cal := rfl
@[simp] theorem State.setLoad_portA : (s.setLoad x).portA = s.portA := rfl
@[simp] theorem State.setLoad_portB : (s.setLoad x).portB = s.portB := rfl
@[simp] theorem State.setLoad_faults : (s.setLoad x).faults = s.faults := rfl
end setLoad

section setTyre
variable (s : State) (x : TyreUnit)
@[simp] theorem State.setTyre_pending : (s.setTyre x).pending = s.pending := rfl
@[simp] theorem State.setTyre_standby : (s.setTyre x).standby = s.standby := rfl
@[simp] theorem State.setTyre_front : (s.setTyre x).front = s.front := rfl
@[simp] theorem State.setTyre_wheels : (s.setTyre x).wheels = s.wheels := rfl
@[simp] theorem State.setTyre_channels : (s.setTyre x).channels = s.channels := rfl
@[simp] theorem State.setTyre_supply : (s.setTyre x).supply = s.supply := rfl
@[simp] theorem State.setTyre_demand : (s.setTyre x).demand = s.demand := rfl
@[simp] theorem State.setTyre_driver : (s.setTyre x).driver = s.driver := rfl
@[simp] theorem State.setTyre_skid : (s.setTyre x).skid = s.skid := rfl
@[simp] theorem State.setTyre_load : (s.setTyre x).load = s.load := rfl
@[simp] theorem State.setTyre_tyre : (s.setTyre x).tyre = x := rfl
@[simp] theorem State.setTyre_roll : (s.setTyre x).roll = s.roll := rfl
@[simp] theorem State.setTyre_tests : (s.setTyre x).tests = s.tests := rfl
@[simp] theorem State.setTyre_link : (s.setTyre x).link = s.link := rfl
@[simp] theorem State.setTyre_cal : (s.setTyre x).cal = s.cal := rfl
@[simp] theorem State.setTyre_portA : (s.setTyre x).portA = s.portA := rfl
@[simp] theorem State.setTyre_portB : (s.setTyre x).portB = s.portB := rfl
@[simp] theorem State.setTyre_faults : (s.setTyre x).faults = s.faults := rfl
end setTyre

section setRoll
variable (s : State) (x : RollUnit)
@[simp] theorem State.setRoll_pending : (s.setRoll x).pending = s.pending := rfl
@[simp] theorem State.setRoll_standby : (s.setRoll x).standby = s.standby := rfl
@[simp] theorem State.setRoll_front : (s.setRoll x).front = s.front := rfl
@[simp] theorem State.setRoll_wheels : (s.setRoll x).wheels = s.wheels := rfl
@[simp] theorem State.setRoll_channels : (s.setRoll x).channels = s.channels := rfl
@[simp] theorem State.setRoll_supply : (s.setRoll x).supply = s.supply := rfl
@[simp] theorem State.setRoll_demand : (s.setRoll x).demand = s.demand := rfl
@[simp] theorem State.setRoll_driver : (s.setRoll x).driver = s.driver := rfl
@[simp] theorem State.setRoll_skid : (s.setRoll x).skid = s.skid := rfl
@[simp] theorem State.setRoll_load : (s.setRoll x).load = s.load := rfl
@[simp] theorem State.setRoll_tyre : (s.setRoll x).tyre = s.tyre := rfl
@[simp] theorem State.setRoll_roll : (s.setRoll x).roll = x := rfl
@[simp] theorem State.setRoll_tests : (s.setRoll x).tests = s.tests := rfl
@[simp] theorem State.setRoll_link : (s.setRoll x).link = s.link := rfl
@[simp] theorem State.setRoll_cal : (s.setRoll x).cal = s.cal := rfl
@[simp] theorem State.setRoll_portA : (s.setRoll x).portA = s.portA := rfl
@[simp] theorem State.setRoll_portB : (s.setRoll x).portB = s.portB := rfl
@[simp] theorem State.setRoll_faults : (s.setRoll x).faults = s.faults := rfl
end setRoll

section setTests
variable (s : State) (x : TestUnit)
@[simp] theorem State.setTests_pending : (s.setTests x).pending = s.pending := rfl
@[simp] theorem State.setTests_standby : (s.setTests x).standby = s.standby := rfl
@[simp] theorem State.setTests_front : (s.setTests x).front = s.front := rfl
@[simp] theorem State.setTests_wheels : (s.setTests x).wheels = s.wheels := rfl
@[simp] theorem State.setTests_channels : (s.setTests x).channels = s.channels := rfl
@[simp] theorem State.setTests_supply : (s.setTests x).supply = s.supply := rfl
@[simp] theorem State.setTests_demand : (s.setTests x).demand = s.demand := rfl
@[simp] theorem State.setTests_driver : (s.setTests x).driver = s.driver := rfl
@[simp] theorem State.setTests_skid : (s.setTests x).skid = s.skid := rfl
@[simp] theorem State.setTests_load : (s.setTests x).load = s.load := rfl
@[simp] theorem State.setTests_tyre : (s.setTests x).tyre = s.tyre := rfl
@[simp] theorem State.setTests_roll : (s.setTests x).roll = s.roll := rfl
@[simp] theorem State.setTests_tests : (s.setTests x).tests = x := rfl
@[simp] theorem State.setTests_link : (s.setTests x).link = s.link := rfl
@[simp] theorem State.setTests_cal : (s.setTests x).cal = s.cal := rfl
@[simp] theorem State.setTests_portA : (s.setTests x).portA = s.portA := rfl
@[simp] theorem State.setTests_portB : (s.setTests x).portB = s.portB := rfl
@[simp] theorem State.setTests_faults : (s.setTests x).faults = s.faults := rfl
end setTests

section setLink
variable (s : State) (x : LinkUnit)
@[simp] theorem State.setLink_pending : (s.setLink x).pending = s.pending := rfl
@[simp] theorem State.setLink_standby : (s.setLink x).standby = s.standby := rfl
@[simp] theorem State.setLink_front : (s.setLink x).front = s.front := rfl
@[simp] theorem State.setLink_wheels : (s.setLink x).wheels = s.wheels := rfl
@[simp] theorem State.setLink_channels : (s.setLink x).channels = s.channels := rfl
@[simp] theorem State.setLink_supply : (s.setLink x).supply = s.supply := rfl
@[simp] theorem State.setLink_demand : (s.setLink x).demand = s.demand := rfl
@[simp] theorem State.setLink_driver : (s.setLink x).driver = s.driver := rfl
@[simp] theorem State.setLink_skid : (s.setLink x).skid = s.skid := rfl
@[simp] theorem State.setLink_load : (s.setLink x).load = s.load := rfl
@[simp] theorem State.setLink_tyre : (s.setLink x).tyre = s.tyre := rfl
@[simp] theorem State.setLink_roll : (s.setLink x).roll = s.roll := rfl
@[simp] theorem State.setLink_tests : (s.setLink x).tests = s.tests := rfl
@[simp] theorem State.setLink_link : (s.setLink x).link = x := rfl
@[simp] theorem State.setLink_cal : (s.setLink x).cal = s.cal := rfl
@[simp] theorem State.setLink_portA : (s.setLink x).portA = s.portA := rfl
@[simp] theorem State.setLink_portB : (s.setLink x).portB = s.portB := rfl
@[simp] theorem State.setLink_faults : (s.setLink x).faults = s.faults := rfl
end setLink

section setCal
variable (s : State) (x : CalStore)
@[simp] theorem State.setCal_pending : (s.setCal x).pending = s.pending := rfl
@[simp] theorem State.setCal_standby : (s.setCal x).standby = s.standby := rfl
@[simp] theorem State.setCal_front : (s.setCal x).front = s.front := rfl
@[simp] theorem State.setCal_wheels : (s.setCal x).wheels = s.wheels := rfl
@[simp] theorem State.setCal_channels : (s.setCal x).channels = s.channels := rfl
@[simp] theorem State.setCal_supply : (s.setCal x).supply = s.supply := rfl
@[simp] theorem State.setCal_demand : (s.setCal x).demand = s.demand := rfl
@[simp] theorem State.setCal_driver : (s.setCal x).driver = s.driver := rfl
@[simp] theorem State.setCal_skid : (s.setCal x).skid = s.skid := rfl
@[simp] theorem State.setCal_load : (s.setCal x).load = s.load := rfl
@[simp] theorem State.setCal_tyre : (s.setCal x).tyre = s.tyre := rfl
@[simp] theorem State.setCal_roll : (s.setCal x).roll = s.roll := rfl
@[simp] theorem State.setCal_tests : (s.setCal x).tests = s.tests := rfl
@[simp] theorem State.setCal_link : (s.setCal x).link = s.link := rfl
@[simp] theorem State.setCal_cal : (s.setCal x).cal = x := rfl
@[simp] theorem State.setCal_portA : (s.setCal x).portA = s.portA := rfl
@[simp] theorem State.setCal_portB : (s.setCal x).portB = s.portB := rfl
@[simp] theorem State.setCal_faults : (s.setCal x).faults = s.faults := rfl
end setCal

section setPortA
variable (s : State) (x : PortUnit)
@[simp] theorem State.setPortA_pending : (s.setPortA x).pending = s.pending := rfl
@[simp] theorem State.setPortA_standby : (s.setPortA x).standby = s.standby := rfl
@[simp] theorem State.setPortA_front : (s.setPortA x).front = s.front := rfl
@[simp] theorem State.setPortA_wheels : (s.setPortA x).wheels = s.wheels := rfl
@[simp] theorem State.setPortA_channels : (s.setPortA x).channels = s.channels := rfl
@[simp] theorem State.setPortA_supply : (s.setPortA x).supply = s.supply := rfl
@[simp] theorem State.setPortA_demand : (s.setPortA x).demand = s.demand := rfl
@[simp] theorem State.setPortA_driver : (s.setPortA x).driver = s.driver := rfl
@[simp] theorem State.setPortA_skid : (s.setPortA x).skid = s.skid := rfl
@[simp] theorem State.setPortA_load : (s.setPortA x).load = s.load := rfl
@[simp] theorem State.setPortA_tyre : (s.setPortA x).tyre = s.tyre := rfl
@[simp] theorem State.setPortA_roll : (s.setPortA x).roll = s.roll := rfl
@[simp] theorem State.setPortA_tests : (s.setPortA x).tests = s.tests := rfl
@[simp] theorem State.setPortA_link : (s.setPortA x).link = s.link := rfl
@[simp] theorem State.setPortA_cal : (s.setPortA x).cal = s.cal := rfl
@[simp] theorem State.setPortA_portA : (s.setPortA x).portA = x := rfl
@[simp] theorem State.setPortA_portB : (s.setPortA x).portB = s.portB := rfl
@[simp] theorem State.setPortA_faults : (s.setPortA x).faults = s.faults := rfl
end setPortA

section setPortB
variable (s : State) (x : PortUnit)
@[simp] theorem State.setPortB_pending : (s.setPortB x).pending = s.pending := rfl
@[simp] theorem State.setPortB_standby : (s.setPortB x).standby = s.standby := rfl
@[simp] theorem State.setPortB_front : (s.setPortB x).front = s.front := rfl
@[simp] theorem State.setPortB_wheels : (s.setPortB x).wheels = s.wheels := rfl
@[simp] theorem State.setPortB_channels : (s.setPortB x).channels = s.channels := rfl
@[simp] theorem State.setPortB_supply : (s.setPortB x).supply = s.supply := rfl
@[simp] theorem State.setPortB_demand : (s.setPortB x).demand = s.demand := rfl
@[simp] theorem State.setPortB_driver : (s.setPortB x).driver = s.driver := rfl
@[simp] theorem State.setPortB_skid : (s.setPortB x).skid = s.skid := rfl
@[simp] theorem State.setPortB_load : (s.setPortB x).load = s.load := rfl
@[simp] theorem State.setPortB_tyre : (s.setPortB x).tyre = s.tyre := rfl
@[simp] theorem State.setPortB_roll : (s.setPortB x).roll = s.roll := rfl
@[simp] theorem State.setPortB_tests : (s.setPortB x).tests = s.tests := rfl
@[simp] theorem State.setPortB_link : (s.setPortB x).link = s.link := rfl
@[simp] theorem State.setPortB_cal : (s.setPortB x).cal = s.cal := rfl
@[simp] theorem State.setPortB_portA : (s.setPortB x).portA = s.portA := rfl
@[simp] theorem State.setPortB_portB : (s.setPortB x).portB = x := rfl
@[simp] theorem State.setPortB_faults : (s.setPortB x).faults = s.faults := rfl
end setPortB

section setFaults
variable (s : State) (x : List FaultRec)
@[simp] theorem State.setFaults_pending : (s.setFaults x).pending = s.pending := rfl
@[simp] theorem State.setFaults_standby : (s.setFaults x).standby = s.standby := rfl
@[simp] theorem State.setFaults_front : (s.setFaults x).front = s.front := rfl
@[simp] theorem State.setFaults_wheels : (s.setFaults x).wheels = s.wheels := rfl
@[simp] theorem State.setFaults_channels : (s.setFaults x).channels = s.channels := rfl
@[simp] theorem State.setFaults_supply : (s.setFaults x).supply = s.supply := rfl
@[simp] theorem State.setFaults_demand : (s.setFaults x).demand = s.demand := rfl
@[simp] theorem State.setFaults_driver : (s.setFaults x).driver = s.driver := rfl
@[simp] theorem State.setFaults_skid : (s.setFaults x).skid = s.skid := rfl
@[simp] theorem State.setFaults_load : (s.setFaults x).load = s.load := rfl
@[simp] theorem State.setFaults_tyre : (s.setFaults x).tyre = s.tyre := rfl
@[simp] theorem State.setFaults_roll : (s.setFaults x).roll = s.roll := rfl
@[simp] theorem State.setFaults_tests : (s.setFaults x).tests = s.tests := rfl
@[simp] theorem State.setFaults_link : (s.setFaults x).link = s.link := rfl
@[simp] theorem State.setFaults_cal : (s.setFaults x).cal = s.cal := rfl
@[simp] theorem State.setFaults_portA : (s.setFaults x).portA = s.portA := rfl
@[simp] theorem State.setFaults_portB : (s.setFaults x).portB = s.portB := rfl
@[simp] theorem State.setFaults_faults : (s.setFaults x).faults = x := rfl
end setFaults

end Sys2Proof.Machine
end

