-- ==== Sys2Proof/Laws/Access.lean ====
section
/-! SUPPORT. Reading back what an accessor wrote: per-channel and per-axle values, cause sets, Demand Tables, channel
records, controller ports, Tow Link ports. -/

namespace Sys2Proof

@[simp] theorem PerChannel.get_set {α : Type} (v : PerChannel α) (c d : Channel) (x : α) :
    (v.set c x).get d = if d = c then x else v.get d := by cases c <;> cases d <;> rfl

@[simp] theorem PerChannel.get_const {α : Type} (x : α) (c : Channel) : (PerChannel.const x).get c = x := by
  cases c <;> rfl

@[simp] theorem PerChannel.get_map {α β : Type} (f : α → β) (v : PerChannel α) (c : Channel) :
    (v.map f).get c = f (v.get c) := by cases c <;> rfl

theorem PerChannel.ext_get {α : Type} {v w : PerChannel α} (h : ∀ c, v.get c = w.get c) : v = w := by
  cases v; cases w
  have h0 := h .ch0; have h1 := h .ch1; have h2 := h .ch2; have h3 := h .ch3
  simp only [PerChannel.get] at h0 h1 h2 h3
  subst h0; subst h1; subst h2; subst h3; rfl

@[simp] theorem PerAxle.get_set {α : Type} (v : PerAxle α) (c d : Axle) (x : α) :
    (v.set c x).get d = if d = c then x else v.get d := by cases c <;> cases d <;> rfl

@[simp] theorem PerAxle.get_const {α : Type} (x : α) (c : Axle) : (PerAxle.const x).get c = x := by cases c <;> rfl

@[simp] theorem PerAxle.get_map {α β : Type} (f : α → β) (v : PerAxle α) (c : Axle) :
    (v.map f).get c = f (v.get c) := by cases c <;> rfl

end Sys2Proof

namespace Sys2Proof.Machine

@[simp] theorem mem_allChannels (c : Channel) : c ∈ allChannels := by cases c <;> simp [allChannels]

@[simp] theorem CauseSet.has_put (k : CauseSet) (x y : Cause) (b : Bool) :
    (k.put x b).has y = if y = x then b else k.has y := by cases x <;> cases y <;> rfl

@[simp] theorem CauseSet.isEmpty_put_true (k : CauseSet) (x : Cause) : (k.put x true).isEmpty = false := by
  cases x <;> simp [CauseSet.put, CauseSet.isEmpty]

@[simp] theorem CauseSet.isEmpty_empty : CauseSet.empty.isEmpty = true := rfl

theorem CauseSet.isEmpty_iff (k : CauseSet) : k.isEmpty = true ↔ ∀ x, k.has x = false := by
  constructor
  · intro h x
    cases x <;> simp_all [CauseSet.isEmpty, CauseSet.has]
  · intro h
    have h1 := h .startup; have h2 := h .noDemandSource; have h3 := h .parked; have h4 := h .forced
    have h5 := h .tracking; have h6 := h .deliverySensor; have h7 := h .testFault
    simp_all [CauseSet.isEmpty, CauseSet.has]

@[simp] theorem Table.get_put (t : Table) (k j : Source) (e : Option Entry) :
    (t.put k e).get j = if j = k then e else t.get j := by cases k <;> cases j <;> rfl

@[simp] theorem Table.get_empty (k : Source) : Table.empty.get k = none := by cases k <;> rfl

/-! ## Channels -/

@[simp] theorem channelOf_setChannel (s : State) (c d : Channel) (r : ChannelRec) :
    channelOf (setChannel s c r) d = if d = c then r else channelOf s d := by simp [channelOf, setChannel]

section setChannel
variable (s : State) (c : Channel) (r : ChannelRec)
@[simp] theorem setChannel_pending : (setChannel s c r).pending = s.pending := rfl
@[simp] theorem setChannel_standby : (setChannel s c r).standby = s.standby := rfl
@[simp] theorem setChannel_front : (setChannel s c r).front = s.front := rfl
@[simp] theorem setChannel_wheels : (setChannel s c r).wheels = s.wheels := rfl
@[simp] theorem setChannel_supply : (setChannel s c r).supply = s.supply := rfl
@[simp] theorem setChannel_demand : (setChannel s c r).demand = s.demand := rfl
@[simp] theorem setChannel_driver : (setChannel s c r).driver = s.driver := rfl
@[simp] theorem setChannel_skid : (setChannel s c r).skid = s.skid := rfl
@[simp] theorem setChannel_load : (setChannel s c r).load = s.load := rfl
@[simp] theorem setChannel_tyre : (setChannel s c r).tyre = s.tyre := rfl
@[simp] theorem setChannel_roll : (setChannel s c r).roll = s.roll := rfl
@[simp] theorem setChannel_tests : (setChannel s c r).tests = s.tests := rfl
@[simp] theorem setChannel_link : (setChannel s c r).link = s.link := rfl
@[simp] theorem setChannel_cal : (setChannel s c r).cal = s.cal := rfl
@[simp] theorem setChannel_portA : (setChannel s c r).portA = s.portA := rfl
@[simp] theorem setChannel_portB : (setChannel s c r).portB = s.portB := rfl
@[simp] theorem setChannel_faults : (setChannel s c r).faults = s.faults := rfl
end setChannel

/-- channelOf depends on the channel records alone. -/
theorem channelOf_congr {s t : State} (h : t.channels = s.channels) (c : Channel) : channelOf t c = channelOf s c := by
  simp [channelOf, h]

/-! ## Demand Tables -/

@[simp] theorem tableOf_putEntry (s : State) (c d : Channel) (k : Source) (e : Option Entry) :
    tableOf (putEntry s c k e) d = if d = c then (tableOf s c).put k e else tableOf s d := by
  simp [tableOf, putEntry]

@[simp] theorem entryOf_putEntry (s : State) (c d : Channel) (k j : Source) (e : Option Entry) :
    entryOf (putEntry s c k e) d j = if d = c ∧ j = k then e else entryOf s d j := by
  by_cases h : d = c
  · subst h; simp [entryOf]
  · simp [entryOf, h]

section putEntry
variable (s : State) (c : Channel) (k : Source) (e : Option Entry)
@[simp] theorem putEntry_pending : (putEntry s c k e).pending = s.pending := rfl
@[simp] theorem putEntry_standby : (putEntry s c k e).standby = s.standby := rfl
@[simp] theorem putEntry_front : (putEntry s c k e).front = s.front := rfl
@[simp] theorem putEntry_wheels : (putEntry s c k e).wheels = s.wheels := rfl
@[simp] theorem putEntry_channels : (putEntry s c k e).channels = s.channels := rfl
@[simp] theorem putEntry_supply : (putEntry s c k e).supply = s.supply := rfl
@[simp] theorem putEntry_applied : (putEntry s c k e).demand.applied = s.demand.applied := rfl
@[simp] theorem putEntry_summary : (putEntry s c k e).demand.summary = s.demand.summary := rfl
@[simp] theorem putEntry_driver : (putEntry s c k e).driver = s.driver := rfl
@[simp] theorem putEntry_skid : (putEntry s c k e).skid = s.skid := rfl
@[simp] theorem putEntry_load : (putEntry s c k e).load = s.load := rfl
@[simp] theorem putEntry_tyre : (putEntry s c k e).tyre = s.tyre := rfl
@[simp] theorem putEntry_roll : (putEntry s c k e).roll = s.roll := rfl
@[simp] theorem putEntry_tests : (putEntry s c k e).tests = s.tests := rfl
@[simp] theorem putEntry_link : (putEntry s c k e).link = s.link := rfl
@[simp] theorem putEntry_cal : (putEntry s c k e).cal = s.cal := rfl
@[simp] theorem putEntry_portA : (putEntry s c k e).portA = s.portA := rfl
@[simp] theorem putEntry_portB : (putEntry s c k e).portB = s.portB := rfl
@[simp] theorem putEntry_faults : (putEntry s c k e).faults = s.faults := rfl
end putEntry

/-! ## Controller ports -/

@[simp] theorem portOf_setPort (s : State) (p q : Port) (u : PortUnit) :
    portOf (setPort s p u) q = if q = p then u else portOf s q := by cases p <;> cases q <;> rfl

section setPort
variable (s : State) (p : Port) (u : PortUnit)
@[simp] theorem setPort_pending : (setPort s p u).pending = s.pending := by cases p <;> rfl
@[simp] theorem setPort_standby : (setPort s p u).standby = s.standby := by cases p <;> rfl
@[simp] theorem setPort_front : (setPort s p u).front = s.front := by cases p <;> rfl
@[simp] theorem setPort_wheels : (setPort s p u).wheels = s.wheels := by cases p <;> rfl
@[simp] theorem setPort_channels : (setPort s p u).channels = s.channels := by cases p <;> rfl
@[simp] theorem setPort_supply : (setPort s p u).supply = s.supply := by cases p <;> rfl
@[simp] theorem setPort_demand : (setPort s p u).demand = s.demand := by cases p <;> rfl
@[simp] theorem setPort_driver : (setPort s p u).driver = s.driver := by cases p <;> rfl
@[simp] theorem setPort_skid : (setPort s p u).skid = s.skid := by cases p <;> rfl
@[simp] theorem setPort_load : (setPort s p u).load = s.load := by cases p <;> rfl
@[simp] theorem setPort_tyre : (setPort s p u).tyre = s.tyre := by cases p <;> rfl
@[simp] theorem setPort_roll : (setPort s p u).roll = s.roll := by cases p <;> rfl
@[simp] theorem setPort_tests : (setPort s p u).tests = s.tests := by cases p <;> rfl
@[simp] theorem setPort_link : (setPort s p u).link = s.link := by cases p <;> rfl
@[simp] theorem setPort_cal : (setPort s p u).cal = s.cal := by cases p <;> rfl
@[simp] theorem setPort_faults : (setPort s p u).faults = s.faults := by cases p <;> rfl
end setPort

/-! ## Tow Link ports -/

@[simp] theorem linkPort_setLinkPort (s : State) (l m : LinkPort) (r : PortRec) :
    linkPort (setLinkPort s l r) m = if m = l then r else linkPort s m := by cases l <;> cases m <;> rfl

section setLinkPort
variable (s : State) (l : LinkPort) (r : PortRec)
@[simp] theorem setLinkPort_pending : (setLinkPort s l r).pending = s.pending := by cases l <;> rfl
@[simp] theorem setLinkPort_standby : (setLinkPort s l r).standby = s.standby := by cases l <;> rfl
@[simp] theorem setLinkPort_front : (setLinkPort s l r).front = s.front := by cases l <;> rfl
@[simp] theorem setLinkPort_wheels : (setLinkPort s l r).wheels = s.wheels := by cases l <;> rfl
@[simp] theorem setLinkPort_channels : (setLinkPort s l r).channels = s.channels := by cases l <;> rfl
@[simp] theorem setLinkPort_supply : (setLinkPort s l r).supply = s.supply := by cases l <;> rfl
@[simp] theorem setLinkPort_demand : (setLinkPort s l r).demand = s.demand := by cases l <;> rfl
@[simp] theorem setLinkPort_driver : (setLinkPort s l r).driver = s.driver := by cases l <;> rfl
@[simp] theorem setLinkPort_skid : (setLinkPort s l r).skid = s.skid := by cases l <;> rfl
@[simp] theorem setLinkPort_load : (setLinkPort s l r).load = s.load := by cases l <;> rfl
@[simp] theorem setLinkPort_tyre : (setLinkPort s l r).tyre = s.tyre := by cases l <;> rfl
@[simp] theorem setLinkPort_roll : (setLinkPort s l r).roll = s.roll := by cases l <;> rfl
@[simp] theorem setLinkPort_tests : (setLinkPort s l r).tests = s.tests := by cases l <;> rfl
@[simp] theorem setLinkPort_cal : (setLinkPort s l r).cal = s.cal := by cases l <;> rfl
@[simp] theorem setLinkPort_portA : (setLinkPort s l r).portA = s.portA := by cases l <;> rfl
@[simp] theorem setLinkPort_portB : (setLinkPort s l r).portB = s.portB := by cases l <;> rfl
@[simp] theorem setLinkPort_faults : (setLinkPort s l r).faults = s.faults := by cases l <;> rfl
@[simp] theorem setLinkPort_enable : (setLinkPort s l r).link.enable = s.link.enable := by cases l <;> rfl
@[simp] theorem setLinkPort_positionFault : (setLinkPort s l r).link.positionFault = s.link.positionFault := by
  cases l <;> rfl
@[simp] theorem setLinkPort_ownPosition : (setLinkPort s l r).link.ownPosition = s.link.ownPosition := by cases l <;> rfl
@[simp] theorem setLinkPort_statusQueue : (setLinkPort s l r).link.statusQueue = s.link.statusQueue := by cases l <;> rfl
@[simp] theorem setLinkPort_upService : (setLinkPort s l r).link.upService = s.link.upService := by cases l <;> rfl
@[simp] theorem setLinkPort_downService : (setLinkPort s l r).link.downService = s.link.downService := by cases l <;> rfl
@[simp] theorem setLinkPort_demandSlot : (setLinkPort s l r).link.demandSlot = s.link.demandSlot := by cases l <;> rfl
@[simp] theorem setLinkPort_heldReqs : (setLinkPort s l r).link.heldReqs = s.link.heldReqs := by cases l <;> rfl
@[simp] theorem setLinkPort_heldResps : (setLinkPort s l r).link.heldResps = s.link.heldResps := by cases l <;> rfl
@[simp] theorem setLinkPort_answerWait : (setLinkPort s l r).link.answerWait = s.link.answerWait := by cases l <;> rfl
@[simp] theorem setLinkPort_sincePeriodic : (setLinkPort s l r).link.sincePeriodic = s.link.sincePeriodic := by
  cases l <;> rfl
end setLinkPort

/-! ## Accessors past updates of other blocks -/

@[simp] theorem channelOf_setStandby (s : State) (x : StandbyRec) (c : Channel) : channelOf (s.setStandby x) c = channelOf s c := rfl
@[simp] theorem channelOf_setFront (s : State) (x : FrontEnd) (c : Channel) : channelOf (s.setFront x) c = channelOf s c := rfl
@[simp] theorem channelOf_setWheels (s : State) (x : WheelUnit) (c : Channel) : channelOf (s.setWheels x) c = channelOf s c := rfl
@[simp] theorem channelOf_setSupply (s : State) (x : SupplyRec) (c : Channel) : channelOf (s.setSupply x) c = channelOf s c := rfl
@[simp] theorem channelOf_setDemand (s : State) (x : DemandUnit) (c : Channel) : channelOf (s.setDemand x) c = channelOf s c := rfl
@[simp] theorem channelOf_setDriver (s : State) (x : DriverRec) (c : Channel) : channelOf (s.setDriver x) c = channelOf s c := rfl
@[simp] theorem channelOf_setSkid (s : State) (x : PerChannel SkidRec) (c : Channel) : channelOf (s.setSkid x) c = channelOf s c := rfl
@[simp] theorem channelOf_setLoad (s : State) (x : LoadTable) (c : Channel) : channelOf (s.setLoad x) c = channelOf s c := rfl
@[simp] theorem channelOf_setTyre (s : State) (x : TyreUnit) (c : Channel) : channelOf (s.setTyre x) c = channelOf s c := rfl
@[simp] theorem channelOf_setRoll (s : State) (x : RollUnit) (c : Channel) : channelOf (s.setRoll x) c = channelOf s c := rfl
@[simp] theorem channelOf_setTests (s : State) (x : TestUnit) (c : Channel) : channelOf (s.setTests x) c = channelOf s c := rfl
@[simp] theorem channelOf_setLink (s : State) (x : LinkUnit) (c : Channel) : channelOf (s.setLink x) c = channelOf s c := rfl
@[simp] theorem channelOf_setCal (s : State) (x : CalStore) (c : Channel) : channelOf (s.setCal x) c = channelOf s c := rfl
@[simp] theorem channelOf_setPortA (s : State) (x : PortUnit) (c : Channel) : channelOf (s.setPortA x) c = channelOf s c := rfl
@[simp] theorem channelOf_setPortB (s : State) (x : PortUnit) (c : Channel) : channelOf (s.setPortB x) c = channelOf s c := rfl
@[simp] theorem channelOf_setFaults (s : State) (x : List FaultRec) (c : Channel) : channelOf (s.setFaults x) c = channelOf s c := rfl
@[simp] theorem channelOf_setPending (s : State) (x : List Instr) (c : Channel) : channelOf (s.setPending x) c = channelOf s c := rfl
@[simp] theorem channelOf_putEntry (s : State) (k : Channel) (j : Source) (e : Option Entry) (c : Channel) :
    channelOf (putEntry s k j e) c = channelOf s c := rfl
@[simp] theorem channelOf_setPort (s : State) (m : Port) (u : PortUnit) (c : Channel) :
    channelOf (setPort s m u) c = channelOf s c := by cases m <;> rfl
@[simp] theorem channelOf_setLinkPort (s : State) (m : LinkPort) (r : PortRec) (c : Channel) :
    channelOf (setLinkPort s m r) c = channelOf s c := by cases m <;> rfl

@[simp] theorem tableOf_setStandby (s : State) (x : StandbyRec) (c : Channel) : tableOf (s.setStandby x) c = tableOf s c := rfl
@[simp] theorem tableOf_setFront (s : State) (x : FrontEnd) (c : Channel) : tableOf (s.setFront x) c = tableOf s c := rfl
@[simp] theorem tableOf_setWheels (s : State) (x : WheelUnit) (c : Channel) : tableOf (s.setWheels x) c = tableOf s c := rfl
@[simp] theorem tableOf_setChannels (s : State) (x : PerChannel ChannelRec) (c : Channel) : tableOf (s.setChannels x) c = tableOf s c := rfl
@[simp] theorem tableOf_setSupply (s : State) (x : SupplyRec) (c : Channel) : tableOf (s.setSupply x) c = tableOf s c := rfl
@[simp] theorem tableOf_setDriver (s : State) (x : DriverRec) (c : Channel) : tableOf (s.setDriver x) c = tableOf s c := rfl
@[simp] theorem tableOf_setSkid (s : State) (x : PerChannel SkidRec) (c : Channel) : tableOf (s.setSkid x) c = tableOf s c := rfl
@[simp] theorem tableOf_setLoad (s : State) (x : LoadTable) (c : Channel) : tableOf (s.setLoad x) c = tableOf s c := rfl
@[simp] theorem tableOf_setTyre (s : State) (x : TyreUnit) (c : Channel) : tableOf (s.setTyre x) c = tableOf s c := rfl
@[simp] theorem tableOf_setRoll (s : State) (x : RollUnit) (c : Channel) : tableOf (s.setRoll x) c = tableOf s c := rfl
@[simp] theorem tableOf_setTests (s : State) (x : TestUnit) (c : Channel) : tableOf (s.setTests x) c = tableOf s c := rfl
@[simp] theorem tableOf_setLink (s : State) (x : LinkUnit) (c : Channel) : tableOf (s.setLink x) c = tableOf s c := rfl
@[simp] theorem tableOf_setCal (s : State) (x : CalStore) (c : Channel) : tableOf (s.setCal x) c = tableOf s c := rfl
@[simp] theorem tableOf_setPortA (s : State) (x : PortUnit) (c : Channel) : tableOf (s.setPortA x) c = tableOf s c := rfl
@[simp] theorem tableOf_setPortB (s : State) (x : PortUnit) (c : Channel) : tableOf (s.setPortB x) c = tableOf s c := rfl
@[simp] theorem tableOf_setFaults (s : State) (x : List FaultRec) (c : Channel) : tableOf (s.setFaults x) c = tableOf s c := rfl
@[simp] theorem tableOf_setPending (s : State) (x : List Instr) (c : Channel) : tableOf (s.setPending x) c = tableOf s c := rfl
@[simp] theorem tableOf_setChannel (s : State) (k : Channel) (r : ChannelRec) (c : Channel) :
    tableOf (setChannel s k r) c = tableOf s c := rfl
@[simp] theorem tableOf_setPort (s : State) (m : Port) (u : PortUnit) (c : Channel) :
    tableOf (setPort s m u) c = tableOf s c := by cases m <;> rfl
@[simp] theorem tableOf_setLinkPort (s : State) (m : LinkPort) (r : PortRec) (c : Channel) :
    tableOf (setLinkPort s m r) c = tableOf s c := by cases m <;> rfl

@[simp] theorem portOf_setStandby (s : State) (x : StandbyRec) (p : Port) : portOf (s.setStandby x) p = portOf s p := by cases p <;> rfl
@[simp] theorem portOf_setFront (s : State) (x : FrontEnd) (p : Port) : portOf (s.setFront x) p = portOf s p := by cases p <;> rfl
@[simp] theorem portOf_setWheels (s : State) (x : WheelUnit) (p : Port) : portOf (s.setWheels x) p = portOf s p := by cases p <;> rfl
@[simp] theorem portOf_setChannels (s : State) (x : PerChannel ChannelRec) (p : Port) : portOf (s.setChannels x) p = portOf s p := by cases p <;> rfl
@[simp] theorem portOf_setSupply (s : State) (x : SupplyRec) (p : Port) : portOf (s.setSupply x) p = portOf s p := by cases p <;> rfl
@[simp] theorem portOf_setDemand (s : State) (x : DemandUnit) (p : Port) : portOf (s.setDemand x) p = portOf s p := by cases p <;> rfl
@[simp] theorem portOf_setDriver (s : State) (x : DriverRec) (p : Port) : portOf (s.setDriver x) p = portOf s p := by cases p <;> rfl
@[simp] theorem portOf_setSkid (s : State) (x : PerChannel SkidRec) (p : Port) : portOf (s.setSkid x) p = portOf s p := by cases p <;> rfl
@[simp] theorem portOf_setLoad (s : State) (x : LoadTable) (p : Port) : portOf (s.setLoad x) p = portOf s p := by cases p <;> rfl
@[simp] theorem portOf_setTyre (s : State) (x : TyreUnit) (p : Port) : portOf (s.setTyre x) p = portOf s p := by cases p <;> rfl
@[simp] theorem portOf_setRoll (s : State) (x : RollUnit) (p : Port) : portOf (s.setRoll x) p = portOf s p := by cases p <;> rfl
@[simp] theorem portOf_setTests (s : State) (x : TestUnit) (p : Port) : portOf (s.setTests x) p = portOf s p := by cases p <;> rfl
@[simp] theorem portOf_setLink (s : State) (x : LinkUnit) (p : Port) : portOf (s.setLink x) p = portOf s p := by cases p <;> rfl
@[simp] theorem portOf_setCal (s : State) (x : CalStore) (p : Port) : portOf (s.setCal x) p = portOf s p := by cases p <;> rfl
@[simp] theorem portOf_setFaults (s : State) (x : List FaultRec) (p : Port) : portOf (s.setFaults x) p = portOf s p := by cases p <;> rfl
@[simp] theorem portOf_setPending (s : State) (x : List Instr) (p : Port) : portOf (s.setPending x) p = portOf s p := by cases p <;> rfl
@[simp] theorem portOf_setChannel (s : State) (k : Channel) (r : ChannelRec) (p : Port) :
    portOf (setChannel s k r) p = portOf s p := by cases p <;> rfl
@[simp] theorem portOf_putEntry (s : State) (k : Channel) (j : Source) (e : Option Entry) (p : Port) :
    portOf (putEntry s k j e) p = portOf s p := by cases p <;> rfl
@[simp] theorem portOf_setLinkPort (s : State) (m : LinkPort) (r : PortRec) (p : Port) :
    portOf (setLinkPort s m r) p = portOf s p := by cases m <;> cases p <;> rfl

@[simp] theorem linkPort_setStandby (s : State) (x : StandbyRec) (l : LinkPort) : linkPort (s.setStandby x) l = linkPort s l := by cases l <;> rfl
@[simp] theorem linkPort_setFront (s : State) (x : FrontEnd) (l : LinkPort) : linkPort (s.setFront x) l = linkPort s l := by cases l <;> rfl
@[simp] theorem linkPort_setWheels (s : State) (x : WheelUnit) (l : LinkPort) : linkPort (s.setWheels x) l = linkPort s l := by cases l <;> rfl
@[simp] theorem linkPort_setChannels (s : State) (x : PerChannel ChannelRec) (l : LinkPort) : linkPort (s.setChannels x) l = linkPort s l := by cases l <;> rfl
@[simp] theorem linkPort_setSupply (s : State) (x : SupplyRec) (l : LinkPort) : linkPort (s.setSupply x) l = linkPort s l := by cases l <;> rfl
@[simp] theorem linkPort_setDemand (s : State) (x : DemandUnit) (l : LinkPort) : linkPort (s.setDemand x) l = linkPort s l := by cases l <;> rfl
@[simp] theorem linkPort_setDriver (s : State) (x : DriverRec) (l : LinkPort) : linkPort (s.setDriver x) l = linkPort s l := by cases l <;> rfl
@[simp] theorem linkPort_setSkid (s : State) (x : PerChannel SkidRec) (l : LinkPort) : linkPort (s.setSkid x) l = linkPort s l := by cases l <;> rfl
@[simp] theorem linkPort_setLoad (s : State) (x : LoadTable) (l : LinkPort) : linkPort (s.setLoad x) l = linkPort s l := by cases l <;> rfl
@[simp] theorem linkPort_setTyre (s : State) (x : TyreUnit) (l : LinkPort) : linkPort (s.setTyre x) l = linkPort s l := by cases l <;> rfl
@[simp] theorem linkPort_setRoll (s : State) (x : RollUnit) (l : LinkPort) : linkPort (s.setRoll x) l = linkPort s l := by cases l <;> rfl
@[simp] theorem linkPort_setTests (s : State) (x : TestUnit) (l : LinkPort) : linkPort (s.setTests x) l = linkPort s l := by cases l <;> rfl
@[simp] theorem linkPort_setCal (s : State) (x : CalStore) (l : LinkPort) : linkPort (s.setCal x) l = linkPort s l := by cases l <;> rfl
@[simp] theorem linkPort_setPortA (s : State) (x : PortUnit) (l : LinkPort) : linkPort (s.setPortA x) l = linkPort s l := by cases l <;> rfl
@[simp] theorem linkPort_setPortB (s : State) (x : PortUnit) (l : LinkPort) : linkPort (s.setPortB x) l = linkPort s l := by cases l <;> rfl
@[simp] theorem linkPort_setFaults (s : State) (x : List FaultRec) (l : LinkPort) : linkPort (s.setFaults x) l = linkPort s l := by cases l <;> rfl
@[simp] theorem linkPort_setPending (s : State) (x : List Instr) (l : LinkPort) : linkPort (s.setPending x) l = linkPort s l := by cases l <;> rfl
@[simp] theorem linkPort_setChannel (s : State) (k : Channel) (r : ChannelRec) (l : LinkPort) :
    linkPort (setChannel s k r) l = linkPort s l := by cases l <;> rfl
@[simp] theorem linkPort_putEntry (s : State) (k : Channel) (j : Source) (e : Option Entry) (l : LinkPort) :
    linkPort (putEntry s k j e) l = linkPort s l := by cases l <;> rfl
@[simp] theorem linkPort_setPort (s : State) (m : Port) (u : PortUnit) (l : LinkPort) :
    linkPort (setPort s m u) l = linkPort s l := by cases m <;> cases l <;> rfl

@[simp] theorem positionOf_setStandby (s : State) (x : StandbyRec) (n : Nat) : positionOf (s.setStandby x) n = positionOf s n := rfl
@[simp] theorem positionOf_setFront (s : State) (x : FrontEnd) (n : Nat) : positionOf (s.setFront x) n = positionOf s n := rfl
@[simp] theorem positionOf_setWheels (s : State) (x : WheelUnit) (n : Nat) : positionOf (s.setWheels x) n = positionOf s n := rfl
@[simp] theorem positionOf_setChannels (s : State) (x : PerChannel ChannelRec) (n : Nat) : positionOf (s.setChannels x) n = positionOf s n := rfl
@[simp] theorem positionOf_setSupply (s : State) (x : SupplyRec) (n : Nat) : positionOf (s.setSupply x) n = positionOf s n := rfl
@[simp] theorem positionOf_setDemand (s : State) (x : DemandUnit) (n : Nat) : positionOf (s.setDemand x) n = positionOf s n := rfl
@[simp] theorem positionOf_setDriver (s : State) (x : DriverRec) (n : Nat) : positionOf (s.setDriver x) n = positionOf s n := rfl
@[simp] theorem positionOf_setSkid (s : State) (x : PerChannel SkidRec) (n : Nat) : positionOf (s.setSkid x) n = positionOf s n := rfl
@[simp] theorem positionOf_setLoad (s : State) (x : LoadTable) (n : Nat) : positionOf (s.setLoad x) n = positionOf s n := rfl
@[simp] theorem positionOf_setRoll (s : State) (x : RollUnit) (n : Nat) : positionOf (s.setRoll x) n = positionOf s n := rfl
@[simp] theorem positionOf_setTests (s : State) (x : TestUnit) (n : Nat) : positionOf (s.setTests x) n = positionOf s n := rfl
@[simp] theorem positionOf_setLink (s : State) (x : LinkUnit) (n : Nat) : positionOf (s.setLink x) n = positionOf s n := rfl
@[simp] theorem positionOf_setCal (s : State) (x : CalStore) (n : Nat) : positionOf (s.setCal x) n = positionOf s n := rfl
@[simp] theorem positionOf_setPortA (s : State) (x : PortUnit) (n : Nat) : positionOf (s.setPortA x) n = positionOf s n := rfl
@[simp] theorem positionOf_setPortB (s : State) (x : PortUnit) (n : Nat) : positionOf (s.setPortB x) n = positionOf s n := rfl
@[simp] theorem positionOf_setFaults (s : State) (x : List FaultRec) (n : Nat) : positionOf (s.setFaults x) n = positionOf s n := rfl
@[simp] theorem positionOf_setPending (s : State) (x : List Instr) (n : Nat) : positionOf (s.setPending x) n = positionOf s n := rfl
@[simp] theorem positionOf_setChannel (s : State) (k : Channel) (r : ChannelRec) (n : Nat) :
    positionOf (setChannel s k r) n = positionOf s n := rfl
@[simp] theorem positionOf_putEntry (s : State) (k : Channel) (j : Source) (e : Option Entry) (n : Nat) :
    positionOf (putEntry s k j e) n = positionOf s n := rfl
@[simp] theorem positionOf_setPort (s : State) (m : Port) (u : PortUnit) (n : Nat) :
    positionOf (setPort s m u) n = positionOf s n := by cases m <;> rfl
@[simp] theorem positionOf_setLinkPort (s : State) (m : LinkPort) (r : PortRec) (n : Nat) :
    positionOf (setLinkPort s m r) n = positionOf s n := by cases m <;> rfl

@[simp] theorem entryOf_setStandby (s : State) (x : StandbyRec) (c : Channel) (k : Source) :
    entryOf (s.setStandby x) c k = entryOf s c k := rfl
@[simp] theorem entryOf_setFront (s : State) (x : FrontEnd) (c : Channel) (k : Source) :
    entryOf (s.setFront x) c k = entryOf s c k := rfl
@[simp] theorem entryOf_setWheels (s : State) (x : WheelUnit) (c : Channel) (k : Source) :
    entryOf (s.setWheels x) c k = entryOf s c k := rfl
@[simp] theorem entryOf_setChannels (s : State) (x : PerChannel ChannelRec) (c : Channel) (k : Source) :
    entryOf (s.setChannels x) c k = entryOf s c k := rfl
@[simp] theorem entryOf_setSupply (s : State) (x : SupplyRec) (c : Channel) (k : Source) :
    entryOf (s.setSupply x) c k = entryOf s c k := rfl
@[simp] theorem entryOf_setDriver (s : State) (x : DriverRec) (c : Channel) (k : Source) :
    entryOf (s.setDriver x) c k = entryOf s c k := rfl
@[simp] theorem entryOf_setSkid (s : State) (x : PerChannel SkidRec) (c : Channel) (k : Source) :
    entryOf (s.setSkid x) c k = entryOf s c k := rfl
@[simp] theorem entryOf_setLoad (s : State) (x : LoadTable) (c : Channel) (k : Source) :
    entryOf (s.setLoad x) c k = entryOf s c k := rfl
@[simp] theorem entryOf_setTyre (s : State) (x : TyreUnit) (c : Channel) (k : Source) :
    entryOf (s.setTyre x) c k = entryOf s c k := rfl
@[simp] theorem entryOf_setRoll (s : State) (x : RollUnit) (c : Channel) (k : Source) :
    entryOf (s.setRoll x) c k = entryOf s c k := rfl
@[simp] theorem entryOf_setTests (s : State) (x : TestUnit) (c : Channel) (k : Source) :
    entryOf (s.setTests x) c k = entryOf s c k := rfl
@[simp] theorem entryOf_setLink (s : State) (x : LinkUnit) (c : Channel) (k : Source) :
    entryOf (s.setLink x) c k = entryOf s c k := rfl
@[simp] theorem entryOf_setCal (s : State) (x : CalStore) (c : Channel) (k : Source) :
    entryOf (s.setCal x) c k = entryOf s c k := rfl
@[simp] theorem entryOf_setPortA (s : State) (x : PortUnit) (c : Channel) (k : Source) :
    entryOf (s.setPortA x) c k = entryOf s c k := rfl
@[simp] theorem entryOf_setPortB (s : State) (x : PortUnit) (c : Channel) (k : Source) :
    entryOf (s.setPortB x) c k = entryOf s c k := rfl
@[simp] theorem entryOf_setFaults (s : State) (x : List FaultRec) (c : Channel) (k : Source) :
    entryOf (s.setFaults x) c k = entryOf s c k := rfl
@[simp] theorem entryOf_setPending (s : State) (x : List Instr) (c : Channel) (k : Source) :
    entryOf (s.setPending x) c k = entryOf s c k := rfl
@[simp] theorem entryOf_setChannel (s : State) (d : Channel) (r : ChannelRec) (c : Channel) (k : Source) :
    entryOf (setChannel s d r) c k = entryOf s c k := rfl
@[simp] theorem entryOf_setPort (s : State) (p : Port) (u : PortUnit) (c : Channel) (k : Source) :
    entryOf (setPort s p u) c k = entryOf s c k := by cases p <;> rfl
@[simp] theorem entryOf_setLinkPort (s : State) (l : LinkPort) (r : PortRec) (c : Channel) (k : Source) :
    entryOf (setLinkPort s l r) c k = entryOf s c k := by cases l <;> rfl

end Sys2Proof.Machine
end

