-- ==== Sys2Proof/Laws/Frames.lean ====
section
/-! SUPPORT. What each shared operation leaves alone, once for each: the parts of the state it may change. First how such
facts compose, then the operations on faults, ports, tests, resolution and backup causes. -/

namespace Sys2Proof

open Sys2Proof.Machine

/-! ## Composition -/

theorem samePart.refl (s : State) (q : Part) : samePart s s q := by
  cases q <;> simp [samePart]

theorem samePart.trans {s t u : State} {q : Part} (h : samePart s t q) (k : samePart t u q) : samePart s u q := by
  cases q <;> simp_all [samePart]

theorem OnlyChanges.refl (l : List Part) (s : State) : OnlyChanges l s s := fun q _ => samePart.refl s q

theorem OnlyChanges.mono {a l : List Part} {s t : State} (h : OnlyChanges a s t) (sub : a ⊆ l) : OnlyChanges l s t :=
  fun q hq => h q (fun hm => hq (sub hm))

theorem OnlyChanges.trans {l : List Part} {s t u : State} (h : OnlyChanges l s t) (k : OnlyChanges l t u) :
    OnlyChanges l s u := fun q hq => samePart.trans (h q hq) (k q hq)

/-- Two steps of one frame each, both within a third. -/
theorem OnlyChanges.step {a b l : List Part} {s t u : State} (k : OnlyChanges b t u) (h : OnlyChanges a s t)
    (ha : a ⊆ l) (hb : b ⊆ l) : OnlyChanges l s u := (h.mono ha).trans (k.mono hb)

theorem OnlyChanges.ite {l : List Part} {s t u : State} {p : Prop} [Decidable p] (h : p → OnlyChanges l s t)
    (k : ¬ p → OnlyChanges l s u) : OnlyChanges l s (if p then t else u) := by
  split
  · exact h ‹_›
  · exact k ‹_›

theorem mem_everyChannel {f : Channel → List Part} {q : Part} : q ∈ everyChannel f ↔ ∃ c, q ∈ f c := by
  simp [everyChannel]

theorem subset_everyChannel (f : Channel → List Part) (c : Channel) : f c ⊆ everyChannel f :=
  fun _ h => mem_everyChannel.mpr ⟨c, h⟩

theorem everyChannel_subset {f : Channel → List Part} {l : List Part} (h : ∀ c, f c ⊆ l) : everyChannel f ⊆ l := by
  intro q hq
  obtain ⟨c, hc⟩ := mem_everyChannel.mp hq
  exact h c hc

/-- An operation done for each channel changes what it changes for some channel. -/
theorem forChannels_frame {f : Channel → List Part} {g : Channel → State → State}
    (h : ∀ c t, OnlyChanges (f c) t (g c t)) (s : State) : OnlyChanges (everyChannel f) s (forChannels g s) := by
  have k : ∀ c t, OnlyChanges (everyChannel f) t (g c t) := fun c t => (h c t).mono (subset_everyChannel f c)
  exact (((k .ch0 s).trans (k .ch1 _)).trans (k .ch2 _)).trans (k .ch3 _)

/-- The same for the channels of a mask. -/
theorem forMask_frame {f : Channel → List Part} {g : Channel → State → State} (mask : Nat)
    (h : ∀ c t, OnlyChanges (f c) t (g c t)) (s : State) :
    OnlyChanges (everyChannel (fun c => if inMask mask c then f c else [])) s (forMask mask g s) := by
  refine forChannels_frame (f := fun c => if inMask mask c then f c else []) ?_ s
  intro c t
  by_cases hc : inMask mask c = true
  · simp only [hc, if_true]; exact h c t
  · simp only [hc]; exact OnlyChanges.refl _ t

theorem forMask_frame_all {f : Channel → List Part} {g : Channel → State → State} (mask : Nat)
    (h : ∀ c t, OnlyChanges (f c) t (g c t)) (s : State) : OnlyChanges (everyChannel f) s (forMask mask g s) := by
  refine (forMask_frame mask h s).mono (everyChannel_subset ?_)
  intro c
  by_cases hc : inMask mask c = true
  · simp only [hc, if_true]; exact subset_everyChannel f c
  · simp [hc]

/-- A fold of operations with one frame keeps it. -/
theorem foldl_frame {α : Type} {l : List Part} {g : State → α → State} (h : ∀ t a, OnlyChanges l t (g t a)) :
    ∀ (as : List α) (s : State), OnlyChanges l s (as.foldl g s)
  | [], s => OnlyChanges.refl l s
  | a :: as, s => (h s a).trans (foldl_frame h as (g s a))

/-! ## Single updates -/

/-- A channel record written: the parts of it that differ. -/
theorem setChannel_frame {s : State} {c : Channel} {r : ChannelRec} {l : List Part}
    (h1 : .causes c ∈ l ∨ (r.causes = (channelOf s c).causes ∧ r.startupHeld = (channelOf s c).startupHeld))
    (h2 : .setpoint c ∈ l ∨ (r.setpoint = (channelOf s c).setpoint ∧ r.supplyLimited = (channelOf s c).supplyLimited))
    (h3 : .valves c ∈ l ∨ (r.controlState = (channelOf s c).controlState ∧ r.tracking = (channelOf s c).tracking ∧
      r.backupValve = (channelOf s c).backupValve ∧ r.inlet = (channelOf s c).inlet ∧
      r.exhaust = (channelOf s c).exhaust))
    (h4 : .volume c ∈ l ∨ r.volumeClass = (channelOf s c).volumeClass) : OnlyChanges l s (setChannel s c r) := by
  intro q hq
  cases q <;> simp only [samePart, setChannel_pending, setChannel_standby, setChannel_front, setChannel_wheels,
    setChannel_supply, setChannel_demand, setChannel_driver, setChannel_skid, setChannel_load, setChannel_tyre,
    setChannel_roll, setChannel_tests, setChannel_link, setChannel_cal, setChannel_faults, channelOf_setChannel,
    portOf_setChannel, linkPort_setChannel, entryOf_setChannel, and_self]
  case causes d => split <;> simp_all
  case setpoint d => split <;> simp_all
  case valves d => split <;> simp_all
  case volume d => split <;> simp_all

theorem putEntry_frame (s : State) (c : Channel) (k : Source) (e : Option Entry) :
    OnlyChanges [.entry c k] s (putEntry s c k e) := by
  intro q hq
  cases q <;> simp only [samePart, putEntry_pending, putEntry_standby, putEntry_front, putEntry_wheels, putEntry_supply,
    putEntry_applied, putEntry_summary, putEntry_driver, putEntry_skid, putEntry_load, putEntry_tyre, putEntry_roll,
    putEntry_tests, putEntry_link, putEntry_cal, putEntry_faults, channelOf_putEntry, portOf_putEntry, linkPort_putEntry,
    and_self]
  case entry d j => simp_all [entryOf_putEntry]

theorem setPort_frame {s : State} {p : Port} {u : PortUnit} {l : List Part}
    (h1 : .response p ∈ l ∨ (u.pending = (portOf s p).pending ∧ u.shiftedOut = (portOf s p).shiftedOut))
    (h2 : .attention p ∈ l ∨ u.attention = (portOf s p).attention) : OnlyChanges l s (setPort s p u) := by
  intro q hq
  cases q <;> simp only [samePart, setPort_pending, setPort_standby, setPort_front, setPort_wheels, setPort_supply,
    setPort_demand, setPort_driver, setPort_skid, setPort_load, setPort_tyre, setPort_roll, setPort_tests, setPort_link,
    setPort_cal, setPort_faults, channelOf_setPort, linkPort_setPort, entryOf_setPort, and_self, portOf_setPort]
  case response d => split <;> simp_all
  case attention d => split <;> simp_all

theorem setLinkPort_frame (s : State) (l : LinkPort) (r : PortRec) : OnlyChanges [.linkPort l] s (setLinkPort s l r) := by
  intro q hq
  cases q <;> simp only [samePart, setLinkPort_pending, setLinkPort_standby, setLinkPort_front, setLinkPort_wheels,
    setLinkPort_supply, setLinkPort_demand, setLinkPort_driver, setLinkPort_skid, setLinkPort_load, setLinkPort_tyre,
    setLinkPort_roll, setLinkPort_tests, setLinkPort_enable, setLinkPort_positionFault, setLinkPort_ownPosition,
    setLinkPort_statusQueue, setLinkPort_upService, setLinkPort_downService, setLinkPort_demandSlot, setLinkPort_heldReqs, setLinkPort_heldResps, setLinkPort_answerWait,
    setLinkPort_sincePeriodic, setLinkPort_cal, setLinkPort_faults, channelOf_setLinkPort, portOf_setLinkPort,
    entryOf_setLinkPort, and_self, linkPort_setLinkPort]
  case linkPort m => simp_all

end Sys2Proof
end

