-- ==== Sys2Proof/Laws/OpFrames.lean ====
section
/-! SUPPORT. Frames of the shared operations from attention flags up to the loss of LINK: faults (R169), own events (R148), tests
(R133), resolution (R38), backup causes (R2, R3), D (R31), waking (R178). -/

namespace Sys2Proof

open Sys2Proof.Machine

/-! ## Attention, faults, own frames -/

theorem setAttention_frame (s : State) (p : Port) (x : Attention) : OnlyChanges [.attention p] s (setAttention s p x) := by
  unfold setAttention
  exact setPort_frame (.inr ⟨rfl, rfl⟩) (.inl (by simp))

theorem raiseTestResult_frame (s : State) (p : Port) : OnlyChanges [.attention p] s (raiseTestResult s p) :=
  setAttention_frame s p _

theorem raiseCalOutcome_frame (s : State) (p : Port) : OnlyChanges [.attention p] s (raiseCalOutcome s p) :=
  setAttention_frame s p _

theorem raiseLearnOutcome_frame (s : State) : OnlyChanges [.attention .a] s (raiseLearnOutcome s) :=
  setAttention_frame s .a _

theorem raiseWakeReason_frame (s : State) : OnlyChanges [.attention .a] s (raiseWakeReason s) := setAttention_frame s .a _

theorem raiseNewFault_frame (s : State) (p : Port) (b : Bool) : OnlyChanges [.attention p] s (raiseNewFault s p b) :=
  setAttention_frame s p _

theorem setFaults_frame (s : State) (x : List FaultRec) : OnlyChanges [.faults] s (s.setFaults x) := by
  intro q hq; cases q <;> simp_all [samePart]

theorem answer_frame (s : State) (p : Port) (r : Response) : OnlyChanges [.response p] s (answer s p r) := by
  unfold answer
  exact setPort_frame (.inl (by simp)) (.inr rfl)

theorem notice_frame (s : State) (x : List FaultRec) (a b : Bool) :
    OnlyChanges noticeParts s (raiseNewFault (raiseNewFault (s.setFaults x) .a a) .b b) :=
  ((raiseNewFault_frame _ .b b).step ((raiseNewFault_frame _ .a a).step (setFaults_frame s x) (l := noticeParts)
    (by simp [noticeParts]) (by simp [noticeParts])) (fun _ h => h) (by simp [noticeParts]))

theorem refreshFaults_frame (s : State) : OnlyChanges noticeParts s (refreshFaults s) := notice_frame s _ _ _

theorem latchEvent_frame (i : Nat) (s : State) : OnlyChanges noticeParts s (latchEvent i s) := notice_frame s _ _ _

theorem clearFaultView_frame (v : View) (s : State) : OnlyChanges [.faults] s (clearFaultView v s) := setFaults_frame s _

theorem setStatusQueue_frame (s : State) (q : List StatusItem) :
    OnlyChanges [.statusQueue] s (s.setLink { s.link with statusQueue := q }) := by
  intro p hp; cases p <;> simp_all [samePart]
  rename_i l; cases l <;> rfl

theorem queuePeriodic_frame (s : State) : OnlyChanges [.statusQueue] s (queuePeriodic s) := setStatusQueue_frame s _

theorem queueEvent_frame (s : State) : OnlyChanges eventParts s (queueEvent s) := by
  have h := refreshFaults_frame s
  unfold queueEvent
  refine OnlyChanges.ite (fun _ => ?_) (fun _ => ?_)
  · exact (setStatusQueue_frame (refreshFaults s) _).step h (by simp [eventParts]) (by simp [eventParts])
  · exact h.mono (by simp [eventParts])

/-! ## Tests (R128, R133, R134) -/

theorem setQueue_frame (s : State) (q : List TestRequest) (w : Nat) (d : Bool) :
    OnlyChanges [.testQueue] s (s.setTests { s.tests with queue := q, headWait := w, headDue := d }) := by
  intro p hp; cases p <;> simp_all [samePart]

theorem setHolder_frame (s : State) (h : Holder) : OnlyChanges [.holder] s (s.setTests { s.tests with holder := h }) := by
  intro p hp; cases p <;> simp_all [samePart]

theorem setResult_frame (s : State) (c : Channel) (r : TestResult) :
    OnlyChanges [.result c] s (s.setTests { s.tests with result := s.tests.result.set c r }) := by
  intro p hp; cases p <;> simp_all [samePart]

theorem setLeak_frame (c : Channel) (b : Bool) (s : State) : OnlyChanges [.leakMark c] s (setLeak c b s) := by
  intro p hp; cases p <;> simp_all [samePart, setLeak]

theorem storeResult_frame (c : Channel) (p : Port) (r : TestResult) (s : State) :
    OnlyChanges [.result c, .attention p] s (storeResult c p r s) :=
  (raiseTestResult_frame _ p).step (setResult_frame s c r) (by simp) (by simp)

theorem openExhaust_frame (c : Channel) (s : State) : OnlyChanges [.valves c] s (openExhaust c s) :=
  setChannel_frame (.inr ⟨rfl, rfl⟩) (.inr ⟨rfl, rfl⟩) (.inl (by simp)) (.inr rfl)

theorem attention_mem_abort (c : Channel) (p : Port) : Part.attention p ∈ abortParts c := by
  cases p <;> simp [abortParts]

theorem abortRunning_frame_of (k : TestCause) (s : State) (t : RunningTest) (h : runningTest s = some t) :
    OnlyChanges (abortParts t.channel) s (abortRunning k s) := by
  have h1 := setHolder_frame s .free
  have h2 := storeResult_frame t.channel t.port (abortedResult t k) (s.setTests { s.tests with holder := .free })
  have h12 := h2.step h1 (l := abortParts t.channel) (by simp [abortParts])
    (by have := attention_mem_abort t.channel t.port; simp [abortParts] at this ⊢; exact this)
  unfold abortRunning
  rw [h]
  refine OnlyChanges.ite (fun _ => h12) (fun _ => ?_)
  exact (openExhaust_frame t.channel _).step h12 (fun _ h => h) (by simp [abortParts])

theorem abortRunning_none (k : TestCause) (s : State) (h : runningTest s = none) : abortRunning k s = s := by
  unfold abortRunning; rw [h]

theorem abortRunning_frame (k : TestCause) (s : State) : OnlyChanges (everyChannel abortParts) s (abortRunning k s) := by
  cases h : runningTest s with
  | none => rw [abortRunning_none k s h]; exact OnlyChanges.refl _ s
  | some t => exact (abortRunning_frame_of k s t h).mono (subset_everyChannel abortParts t.channel)

theorem underTest_some {s : State} {c : Channel} (h : underTest s c = true) :
    ∃ t, runningTest s = some t ∧ t.channel = c := by
  unfold underTest at h
  cases hr : runningTest s with
  | none => simp [hr] at h
  | some t => exact ⟨t, rfl, by simpa [hr] using h⟩

theorem abortTestOf_frame (c : Channel) (k : TestCause) (s : State) : OnlyChanges (abortParts c) s (abortTestOf c k s) := by
  unfold abortTestOf
  refine OnlyChanges.ite (fun h => ?_) (fun _ => OnlyChanges.refl _ s)
  obtain ⟨t, ht, rfl⟩ := underTest_some h
  exact abortRunning_frame_of k s t ht

theorem dropHead_frame (s : State) : OnlyChanges [.testQueue] s (dropHead s) := setQueue_frame s _ _ _

theorem refuseHead_frame (k : TestCause) (s : State) (c : Channel) (h : isHead s c = true) :
    OnlyChanges [.testQueue, .result c, .attention .a, .attention .b] s (refuseHead k s) := by
  unfold isHead at h
  unfold refuseHead
  cases hq : s.tests.queue with
  | nil => exact OnlyChanges.refl _ s
  | cons q rest =>
    simp only [hq, beq_iff_eq] at h
    subst h
    exact (storeResult_frame q.channel q.port _ _).step (dropHead_frame s) (by simp)
      (by cases q.port <;> simp)

theorem refuseHead_frame_all (k : TestCause) (s : State) :
    OnlyChanges (.testQueue :: .attention .a :: .attention .b :: everyChannel (fun c => [.result c])) s
      (refuseHead k s) := by
  cases hq : s.tests.queue with
  | nil => unfold refuseHead; rw [hq]; exact OnlyChanges.refl _ s
  | cons q rest =>
    refine (refuseHead_frame k s q.channel (by simp [isHead, hq])).mono ?_
    have := subset_everyChannel (fun c => [Part.result c]) q.channel
    simp at this ⊢; exact this

theorem testBackupNotice_frame (c : Channel) (s : State) :
    OnlyChanges (.testQueue :: abortParts c) s (testBackupNotice c s) := by
  have h := (abortTestOf_frame c .backup s).mono (l := .testQueue :: abortParts c) (by simp)
  unfold testBackupNotice
  refine OnlyChanges.ite (fun hc => ?_) (fun _ => h)
  simp only [Bool.and_eq_true] at hc
  exact (refuseHead_frame .notElectronic _ c hc.2).step h (fun _ h => h) (by simp [abortParts])

theorem keepRequests_frame (keep : TestRequest → Bool) (s : State) :
    OnlyChanges [.testQueue] s (keepRequests keep s) := by
  unfold keepRequests
  refine OnlyChanges.ite (fun _ => ?_) (fun _ => setQueue_frame s _ _ _)
  intro p hp; cases p <;> simp_all [samePart]

/-! ## Resolution (R38) -/

theorem writeResolution_frame (c : Channel) (s : State) :
    OnlyChanges [.setpoint c, .resolution c] s (writeResolution c s) := by
  intro q hq
  cases q <;> simp [samePart, writeResolution, entryOf, tableOf] at hq ⊢ <;> first | (split <;> simp_all) | simp_all

theorem resolve_frame (c : Channel) (s : State) : OnlyChanges (resolveParts c) s (resolve c s) := by
  have h := (writeResolution_frame c s).mono (l := resolveParts c) (by simp [resolveParts])
  unfold resolve
  refine OnlyChanges.ite (fun _ => ?_) (fun _ => h)
  exact (abortTestOf_frame c .demand _).step h (fun _ h => h) (by simp [resolveParts])

theorem resolveAll_frame (s : State) : OnlyChanges (everyChannel resolveParts) s (resolveAll s) :=
  forChannels_frame resolve_frame s

theorem post_frame (c : Channel) (k : Source) (e : Entry) (s : State) :
    OnlyChanges (.entry c k :: resolveParts c) s (post c k e s) :=
  (resolve_frame c _).step (putEntry_frame s c k _) (by simp) (by simp)

theorem withdraw_frame (c : Channel) (k : Source) (s : State) :
    OnlyChanges (.entry c k :: resolveParts c) s (withdraw c k s) := by
  unfold withdraw
  split
  · exact OnlyChanges.refl _ s
  · exact (resolve_frame c _).step (putEntry_frame s c k _) (by simp) (by simp)

theorem updateDriver_frame (c : Channel) (s : State) :
    OnlyChanges (.entry c .driver :: resolveParts c) s (updateDriver c s) := by
  unfold updateDriver
  refine OnlyChanges.ite (fun _ => OnlyChanges.ite (fun _ => OnlyChanges.refl _ s) (fun _ => post_frame c .driver _ s))
    (fun _ => withdraw_frame c .driver s)

theorem postEmerg_frame (c : Channel) (s : State) :
    OnlyChanges (.entry c .emerg :: resolveParts c) s (postEmerg c s) := post_frame c .emerg _ s

/-! ## Backup causes (R2 to R5) -/

theorem setSkid_frame (s : State) (c : Channel) (k : SkidRec) :
    OnlyChanges [.skid c] s (s.setSkid (s.skid.set c k)) := by
  intro q hq
  cases q <;> simp_all [samePart]

theorem freeSkid_frame (c : Channel) (s : State) : OnlyChanges (freeParts c) s (freeSkid c s) := by
  unfold freeSkid
  refine OnlyChanges.ite (fun _ => OnlyChanges.refl _ s) (fun _ => ?_)
  refine (queueEvent_frame _).step ((withdraw_frame c .skid _).step (setSkid_frame s c _) (l := freeParts c) ?_ ?_)
    (fun _ h => h) ?_
  · simp [freeParts]
  · intro q hq
    rcases List.mem_cons.mp hq with rfl | h
    · simp [freeParts]
    · simp [freeParts, h]
  · intro q hq; simp [freeParts, hq]

theorem freeParts_subset_backup (c : Channel) : freeParts c ⊆ backupParts c := by
  intro q hq; simp [backupParts, hq]

theorem abortParts_subset_backup (c : Channel) : abortParts c ⊆ backupParts c := by
  intro q hq; simp [backupParts, hq]

theorem eventParts_subset_backup (c : Channel) : eventParts ⊆ backupParts c := by
  intro q hq; simp [backupParts, freeParts, hq]

theorem noticeParts_subset_backup (c : Channel) : noticeParts ⊆ backupParts c := by
  intro q hq; simp [backupParts, freeParts, eventParts, hq]

theorem valves_mem_backup (c : Channel) : Part.valves c ∈ backupParts c := by simp [backupParts, abortParts]

theorem causes_mem_backup (c : Channel) : Part.causes c ∈ backupParts c := by simp [backupParts]

theorem enterBackup_frame (c : Channel) (s : State) : OnlyChanges (backupParts c) s (enterBackup c s) := by
  have h0 : OnlyChanges [.valves c] s (setChannel s c { channelOf s c with
      backupValve := false, inlet := .closed, exhaust := .closed, controlState := .holding, tracking := none }) :=
    setChannel_frame (.inr ⟨rfl, rfl⟩) (.inr ⟨rfl, rfl⟩) (.inl (by simp)) (.inr rfl)
  have h1 := (testBackupNotice_frame c _).step h0 (l := backupParts c)
    (by simpa using valves_mem_backup c)
    (by intro q hq; rcases List.mem_cons.mp hq with rfl | h
        · simp [backupParts]
        · exact abortParts_subset_backup c h)
  have h2 := (freeSkid_frame c _).step h1 (fun _ h => h) (freeParts_subset_backup c)
  exact (queueEvent_frame _).step h2 (fun _ h => h) (eventParts_subset_backup c)

theorem setCauses_frame {s : State} (c : Channel) (k : CauseSet) (b : Bool) :
    OnlyChanges [.causes c] s (setChannel s c { channelOf s c with causes := k, startupHeld := b }) :=
  setChannel_frame (.inl (by simp)) (.inr ⟨rfl, rfl⟩) (.inr ⟨rfl, rfl, rfl, rfl, rfl⟩) (.inr rfl)

theorem addCause_frame (k : Cause) (c : Channel) (s : State) : OnlyChanges (backupParts c) s (addCause k c s) := by
  have h := (setCauses_frame (s := s) c ((channelOf s c).causes.put k true) (channelOf s c).startupHeld).mono
    (l := backupParts c) (by simpa using causes_mem_backup c)
  unfold addCause
  refine OnlyChanges.ite (fun _ => OnlyChanges.refl _ s) (fun _ => OnlyChanges.ite (fun _ => ?_) (fun _ => h))
  exact (enterBackup_frame c _).step h (fun _ h => h) (fun _ h => h)

theorem enterElectronic_frame (c : Channel) (s : State) :
    OnlyChanges (.valves c :: eventParts) s (enterElectronic c s) := by
  have h0 : OnlyChanges [.valves c] s (setChannel s c { channelOf s c with
      backupValve := true, inlet := .closed, exhaust := .closed, tracking := none }) :=
    setChannel_frame (.inr ⟨rfl, rfl⟩) (.inr ⟨rfl, rfl⟩) (.inl (by simp)) (.inr rfl)
  exact (queueEvent_frame _).step h0 (by simp) (by simp)

theorem keepCauses_frame (k : CauseSet) (c : Channel) (s : State) :
    OnlyChanges (.causes c :: .valves c :: eventParts) s (keepCauses k c s) := by
  have h := (setCauses_frame (s := s) c k (channelOf s c).startupHeld).mono
    (l := .causes c :: .valves c :: eventParts) (by simp)
  unfold keepCauses
  refine OnlyChanges.ite (fun _ => ?_) (fun _ => h)
  exact (enterElectronic_frame c _).step h (fun _ h => h) (by simp)

theorem addStartup_frame (c : Channel) (s : State) : OnlyChanges (backupParts c) s (addStartup c s) :=
  (addCause_frame .startup c _).step (setCauses_frame c (channelOf s c).causes true)
    (by simpa using causes_mem_backup c) (fun _ h => h)

theorem removeAutomatic_frame (c : Channel) (s : State) :
    OnlyChanges (.causes c :: .valves c :: eventParts) s (removeAutomatic c s) :=
  OnlyChanges.ite (fun _ => keepCauses_frame _ c s) (fun _ => OnlyChanges.refl _ s)

/-! ## D (R31), LINK (R29), waking (R178) -/

theorem setDriver_frame (s : State) (d : DriverRec) : OnlyChanges [.driver] s (s.setDriver d) := by
  intro q hq; cases q <;> simp_all [samePart]

theorem backup_subset_driver : everyChannel backupParts ⊆ driverParts := by
  intro q hq
  obtain ⟨c, hc⟩ := mem_everyChannel.mp hq
  simp only [driverParts, List.mem_cons, mem_everyChannel]
  exact .inr ⟨c, .inr hc⟩

theorem resolveParts_subset_backup (c : Channel) : resolveParts c ⊆ backupParts c := by
  intro q hq; simp [backupParts, freeParts, hq]

theorem formDemand_frame (s : State) : OnlyChanges driverParts s (formDemand s) := by
  unfold formDemand
  have h1 := (setDriver_frame s { settleMismatch s.driver with demand := demandOf (settleMismatch s.driver) }).mono
    (l := driverParts) (by simp [driverParts])
  refine OnlyChanges.trans (t := if noSource (s.setDriver { settleMismatch s.driver with
      demand := demandOf (settleMismatch s.driver) }) then forChannels (addCause .noDemandSource) (s.setDriver
      { settleMismatch s.driver with demand := demandOf (settleMismatch s.driver) }) else s.setDriver
      { settleMismatch s.driver with demand := demandOf (settleMismatch s.driver) }) ?_ ?_
  · refine OnlyChanges.ite (fun _ => ?_) (fun _ => h1)
    exact (forChannels_frame (addCause_frame .noDemandSource) _).step h1 (fun _ h => h) backup_subset_driver
  · refine (forChannels_frame updateDriver_frame _).mono ?_
    refine everyChannel_subset (fun c q hq => ?_)
    simp only [driverParts, List.mem_cons, mem_everyChannel]
    refine .inr ⟨c, ?_⟩
    rcases List.mem_cons.mp hq with rfl | h
    · exact .inl rfl
    · exact .inr (resolveParts_subset_backup c h)

theorem loseLink_frame (s : State) : OnlyChanges driverParts s (loseLink s) := by
  unfold loseLink
  refine OnlyChanges.ite (fun _ => ?_) (fun _ => OnlyChanges.refl _ s)
  exact (formDemand_frame _).step (setDriver_frame s _) (by simp [driverParts]) (fun _ h => h)

theorem setStandby_frame (s : State) (r : StandbyRec) : OnlyChanges [.standby] s (s.setStandby r) := by
  intro q hq; cases q <;> simp_all [samePart]

/-- What a wake may change (R178). -/
theorem wake_frame (r : WakeReason) (s : State) :
    OnlyChanges (.standby :: everyChannel backupParts) s (wake r s) := by
  unfold wake
  refine OnlyChanges.ite (fun _ => ?_) (fun _ => OnlyChanges.refl _ s)
  refine (forChannels_frame addStartup_frame _).step ((raiseWakeReason_frame _).step (setStandby_frame s _)
    (l := .standby :: everyChannel backupParts) (by simp) ?_) (fun _ h => h) (by simp)
  intro q hq
  simp only [List.mem_singleton] at hq
  subst hq
  exact List.mem_cons_of_mem _ (mem_everyChannel.mpr ⟨.ch0, noticeParts_subset_backup .ch0 (by simp [noticeParts])⟩)

/-- Outside PARKED nothing is a wake. -/
theorem wake_awake (r : WakeReason) (s : State) (h : isParked s = false) : wake r s = s := by
  simp [wake, h]

end Sys2Proof
end

