-- ==== Sys2Proof/Laws/TyreFrames.lean ====
section
/-! SUPPORT. Frames of the Tyre Monitor's and the Load Estimator's operations (R59, R67 to R70, R85, R88 to R102). -/

namespace Sys2Proof

open Sys2Proof.Machine

/-! ## Waking within a frame -/

theorem isParked_of_standby {s t : State} (h : t.standby = s.standby) : isParked t = isParked s := by
  simp [isParked, h]

theorem OnlyChanges.parked {l : List Part} {s t : State} (h : OnlyChanges l s t) (hn : .standby ∉ l) :
    isParked t = isParked s := isParked_of_standby (h .standby hn)

theorem OnlyChanges.running {l : List Part} {s t : State} (h : OnlyChanges l s t) (hn : .standby ∉ l) :
    isRunning t = isRunning s := by
  have := h .standby hn
  simp only [samePart] at this
  simp [isRunning, this]

theorem wakeParts_awake {s : State} (h : isParked s = false) : wakeParts s = [] := by simp [wakeParts, h]

/-- What a wake may change shrinks as the state moves on. -/
theorem wakeParts_subset {l : List Part} {s t : State} (h : OnlyChanges l s t) (hn : isParked s = false → .standby ∉ l) :
    wakeParts t ⊆ wakeParts s := by
  cases hp : isParked s with
  | false => rw [wakeParts_awake (by rw [h.parked (hn hp), hp])]; simp
  | true =>
    unfold wakeParts
    rw [hp, if_pos rfl]
    split
    · exact fun _ h => h
    · simp

theorem wake_frame_parked (r : WakeReason) (s : State) : OnlyChanges (wakeParts s) s (wake r s) := by
  cases hp : isParked s with
  | false => rw [wake_awake r s hp]; exact OnlyChanges.refl _ s
  | true => simpa [wakeParts, hp] using wake_frame r s

theorem not_mem_wakeParts {s : State} {q : Part} (hs : q ≠ .standby) (h : ∀ c, q ∉ backupParts c) : q ∉ wakeParts s := by
  unfold wakeParts
  split
  · simp [hs, mem_everyChannel, h]
  · simp

/-! ## Position records -/

theorem setTyre_frame {s : State} {x : TyreUnit} {l : List Part} (h1 : .positions ∈ l ∨ x.positions = s.tyre.positions)
    (h2 : .strangers ∈ l ∨ x.strangers = s.tyre.strangers)
    (h3 : .learn ∈ l ∨ (x.learn = s.tyre.learn ∧ x.learnOutcome = s.tyre.learnOutcome ∧ x.learnedId = s.tyre.learnedId))
    (h4 : .targets ∈ l ∨ x.target = s.tyre.target) (h5 : .rollFlag ∈ l ∨ x.rollFlag = s.tyre.rollFlag)
    (h6 : .worst ∈ l ∨ x.worst = s.tyre.worst) : OnlyChanges l s (s.setTyre x) := by
  intro q hq; cases q <;> simp_all [samePart]

theorem putPosition_frame (n : Nat) (r : PositionRec) (s : State) : OnlyChanges [.positions] s (putPosition n r s) :=
  setTyre_frame (.inl (by simp)) (.inr rfl) (.inr ⟨rfl, rfl, rfl⟩) (.inr rfl) (.inr rfl) (.inr rfl)

theorem formRollFlag_frame (s : State) : OnlyChanges [.rollFlag] s (formRollFlag s) :=
  setTyre_frame (.inr rfl) (.inr rfl) (.inr ⟨rfl, rfl, rfl⟩) (.inr rfl) (.inl (by simp)) (.inr rfl)

theorem formWorst_frame (s : State) : OnlyChanges [.worst] s (formWorst s) :=
  setTyre_frame (.inr rfl) (.inr rfl) (.inr ⟨rfl, rfl, rfl⟩) (.inr rfl) (.inr rfl) (.inl (by simp))

theorem formDerate_frame (c : Channel) (s : State) : OnlyChanges [.derate c, .resolution c] s (formDerate c s) := by
  intro q hq
  unfold formDerate
  split <;> cases q <;> simp_all [samePart, entryOf, tableOf]

theorem newEntry_frame (s : State) : OnlyChanges (eventParts ++ wakeParts s) s (newEntry s) := by
  have h := queueEvent_frame s
  exact (wake_frame_parked .tyre _).step h (by simp)
    (fun q hq => by simp [wakeParts_subset h (fun _ => by simp [eventParts, noticeParts]) hq])

theorem writePosition_frame (n : Nat) (r : PositionRec) (s : State) :
    OnlyChanges (recordParts n ++ eventParts ++ wakeParts s) s (writePosition n r s) := by
  have h1 := (putPosition_frame n r s).mono (l := recordParts n) (by simp [recordParts])
  have h2 := (formDerate_frame (positionChannel n) _).step h1 (fun _ h => h) (by simp [recordParts])
  have h3 := (formRollFlag_frame _).step h2 (fun _ h => h) (by simp [recordParts])
  have h4 := (formWorst_frame _).step h3 (fun _ h => h) (by simp [recordParts])
  unfold writePosition
  refine OnlyChanges.ite (fun _ => h1.mono (by simp)) (fun _ => OnlyChanges.ite (fun _ => ?_) (fun _ => h4.mono (by simp)))
  refine (newEntry_frame _).step h4 (by simp) (fun q hq => ?_)
  rcases List.mem_append.mp hq with h | h
  · simp [h]
  · simp [wakeParts_subset h4 (fun _ => by simp [recordParts]) h]

theorem recordParts_subset (n : Nat) (s : State) : recordParts n ⊆ positionParts s := by
  intro q hq
  have := subset_everyChannel (fun c => [Part.derate c, Part.resolution c]) (positionChannel n)
  simp only [recordParts, List.mem_cons, List.not_mem_nil, or_false] at hq
  simp only [positionParts, List.mem_append, List.mem_cons, List.not_mem_nil, or_false]
  rcases hq with rfl | rfl | rfl | rfl | rfl
  · simp
  · have := @this (.derate (positionChannel n)) (by simp); simp [this]
  · have := @this (.resolution (positionChannel n)) (by simp); simp [this]
  · simp
  · simp

theorem writePosition_frame_all (n : Nat) (r : PositionRec) (s : State) :
    OnlyChanges (positionParts s) s (writePosition n r s) := by
  refine (writePosition_frame n r s).mono (fun q hq => ?_)
  rcases List.mem_append.mp hq with h | h
  · rcases List.mem_append.mp h with h | h
    · exact recordParts_subset n s h
    · simp [positionParts, h]
  · simp [positionParts, h]

theorem positionParts_standby {s : State} (h : isParked s = false) : .standby ∉ positionParts s := by
  simp [positionParts, wakeParts_awake h, eventParts, noticeParts, mem_everyChannel]

theorem positionParts_subset {l : List Part} {s t : State} (h : OnlyChanges l s t)
    (hn : isParked s = false → .standby ∉ l) : positionParts t ⊆ positionParts s := by
  intro q hq
  simp only [positionParts, List.mem_append] at hq ⊢
  rcases hq with hq | hq
  · exact .inl hq
  · exact .inr (wakeParts_subset h hn hq)

/-- A fold of operations each of which writes position records. -/
theorem foldl_positions {α : Type} {g : State → α → State} {x : List Part} (hx : .standby ∉ x)
    (h : ∀ t a, OnlyChanges (x ++ positionParts t) t (g t a)) :
    ∀ (as : List α) (s : State), OnlyChanges (x ++ positionParts s) s (as.foldl g s)
  | [], s => OnlyChanges.refl _ s
  | a :: as, s => by
    have h1 := h s a
    refine (foldl_positions hx h as (g s a)).step h1 (fun _ h => h) (fun q hq => ?_)
    rcases List.mem_append.mp hq with hq | hq
    · simp [hq]
    · have := positionParts_subset h1 (fun hp => by simp [hx, positionParts_standby hp]) hq
      simp [this]

theorem reevaluate_frame (n : Nat) (s : State) : OnlyChanges (positionParts s) s (reevaluate n s) := by
  unfold reevaluate
  split
  · exact OnlyChanges.refl _ s
  · exact writePosition_frame_all n _ s

theorem formTargets_frame (s : State) : OnlyChanges (.targets :: positionParts s) s (formTargets s) := by
  have h1 : OnlyChanges [.targets] s (s.setTyre { s.tyre with
      target := ⟨targetOf s .ax1, targetOf s .ax2, targetOf s .ax3⟩ }) :=
    setTyre_frame (.inr rfl) (.inr rfl) (.inr ⟨rfl, rfl, rfl⟩) (.inl (by simp)) (.inr rfl) (.inr rfl)
  have h2 (t : State) : OnlyChanges (positionParts t) t (allPositions.foldl (fun t n => reevaluate n t) t) := by
    have := foldl_positions (x := []) (g := fun t n => reevaluate n t) (by simp)
      (fun t a => by simpa using reevaluate_frame a t) allPositions t
    simpa only [List.nil_append] using this
  unfold formTargets
  exact (h2 _).step h1 (by simp) (fun q hq => List.mem_cons_of_mem _ (positionParts_subset h1 (fun _ => by simp) hq))

/-! ## Telegrams, learning, assignment -/

theorem takeStranger_frame (t : Telegram) (s : State) : OnlyChanges [.strangers] s (takeStranger t s) :=
  setTyre_frame (.inr rfl) (.inl (by simp)) (.inr ⟨rfl, rfl, rfl⟩) (.inr rfl) (.inr rfl) (.inr rfl)

theorem takeForPosition_frame (n : Nat) (t : Telegram) (s : State) :
    OnlyChanges (positionParts s) s (takeForPosition n t s) := writePosition_frame_all n _ s

theorem unassign_frame (n : Nat) (s : State) : OnlyChanges (positionParts s) s (unassign n s) :=
  writePosition_frame_all n _ s

theorem takeOut_frame (id n : Nat) (s : State) : OnlyChanges (.strangers :: positionParts s) s (takeOut id n s) := by
  have h1 : OnlyChanges (positionParts s) s (allPositions.foldl
      (fun t m => if m ≠ n ∧ (positionOf t m).sensor = some id then unassign m t else t) s) := by
    have := foldl_positions (x := []) (by simp) (g := fun t m =>
      if m ≠ n ∧ (positionOf t m).sensor = some id then unassign m t else t)
      (fun t a => OnlyChanges.ite (fun _ => by simpa using unassign_frame a t) (fun _ => OnlyChanges.refl _ t))
      allPositions s
    simpa using this
  have h2 (t : State) : OnlyChanges [.strangers] t (t.setTyre { t.tyre with
      strangers := withoutStranger id t.tyre.strangers }) :=
    setTyre_frame (.inr rfl) (.inl (by simp)) (.inr ⟨rfl, rfl, rfl⟩) (.inr rfl) (.inr rfl) (.inr rfl)
  exact (h2 _).step h1 (by simp) (by simp)

theorem endLearn_frame (o : LearnOutcome) (id : Option Nat) (s : State) : OnlyChanges [.learn] s (endLearn o id s) :=
  setTyre_frame (.inr rfl) (.inr rfl) (.inl (by simp)) (.inr rfl) (.inr rfl) (.inr rfl)

theorem beginLearn_frame (n : Nat) (s : State) : OnlyChanges [.learn] s (beginLearn n s) :=
  setTyre_frame (.inr rfl) (.inr rfl) (.inl (by simp)) (.inr rfl) (.inr rfl) (.inr rfl)

theorem cancelLearnAt_frame (n : Nat) (s : State) : OnlyChanges [.learn, .attention .a] s (cancelLearnAt n s) := by
  unfold cancelLearnAt
  split
  · exact OnlyChanges.refl _ s
  · exact OnlyChanges.ite (fun _ => (raiseLearnOutcome_frame _).step (endLearn_frame _ _ s) (by simp) (by simp))
      (fun _ => OnlyChanges.refl _ s)

theorem fillPosition_frame (n id : Nat) (dup : DupMemory) (d : TyreData) (s : State) :
    OnlyChanges (positionParts s) s (fillPosition n id dup d s) := by
  have h1 := writePosition_frame_all n { sensor := some id, dup := none, data := none } s
  exact (writePosition_frame_all n _ _).step h1 (fun _ h => h)
    (fun q hq => positionParts_subset h1 (fun hp => by simp [positionParts_standby hp]) hq)

/-- What an assignment or an adoption may change. -/
theorem assign_frame (id m : Nat) {f : State → State} (h : ∀ u, OnlyChanges (positionParts u) u (f u)) (s : State) :
    OnlyChanges (.learn :: .strangers :: positionParts s) s (f (takeOut id m (cancelLearnAt m s))) := by
  have h1 := cancelLearnAt_frame m s
  have n1 : .standby ∉ [Part.learn, .attention .a] := by simp
  have h2 := (takeOut_frame id m _).step h1 (l := .learn :: .strangers :: positionParts s)
    (by simp [positionParts, eventParts, noticeParts])
    (fun q hq => by
      rcases List.mem_cons.mp hq with rfl | hq
      · simp
      · simp [positionParts_subset h1 (fun _ => n1) hq])
  refine (h _).step h2 (fun _ h => h) (fun q hq => ?_)
  have := positionParts_subset h2 (fun hp => by simp [positionParts_standby hp]) hq
  simp [this]

theorem assignSensor_frame (n id : Nat) (s : State) :
    OnlyChanges (.learn :: .strangers :: positionParts s) s (assignSensor n id s) :=
  assign_frame id n (fun u => writePosition_frame_all n _ u) s

theorem adoptStranger_frame (n : Nat) (e : Stranger) (s : State) :
    OnlyChanges (.learn :: .strangers :: positionParts s) s (adoptStranger n e s) :=
  assign_frame e.sensor n (fun u =>
    fillPosition_frame n e.sensor ⟨e.counter, e.counterAge⟩ (adoptedData (positionTarget u n) e) u) s

theorem clearPosition_frame (n : Nat) (s : State) :
    OnlyChanges (.learn :: positionParts s) s (clearPosition n s) := by
  have h1 := cancelLearnAt_frame n s
  refine (unassign_frame n _).step h1 (by simp [positionParts, eventParts, noticeParts]) (fun q hq => ?_)
  exact List.mem_cons_of_mem _ (positionParts_subset h1 (fun _ => by simp) hq)

theorem completeLearn_frame (n : Nat) (t : Telegram) (s : State) :
    OnlyChanges (.learn :: .strangers :: positionParts s) s (completeLearn n t s) := by
  have h2 := takeOut_frame t.sensor n s
  have h3 (d : TyreData) := (fillPosition_frame n t.sensor ⟨t.counter, 0⟩ d _).step h2 (l := .learn :: .strangers :: positionParts s) (by simp)
    (fun q hq => by
      have := positionParts_subset h2 (fun hp => by simp [positionParts_standby hp]) hq
      simp [this])
  have h4 (d : TyreData) := (endLearn_frame .completed (some t.sensor) _).step (h3 d) (fun _ h => h) (by simp)
  exact (raiseLearnOutcome_frame _).step (h4 _) (fun _ h => h) (by simp [positionParts, eventParts, noticeParts])

theorem dispatchTelegram_frame (t : Telegram) (s : State) :
    OnlyChanges (.learn :: .strangers :: positionParts s) s (dispatchTelegram t s) := by
  unfold dispatchTelegram
  split
  · exact completeLearn_frame _ t s
  · split
    · exact (takeForPosition_frame _ t s).mono (by simp)
    · exact (takeStranger_frame t s).mono (by simp)

theorem takeTelegram_frame (bs : List Byte) (s : State) :
    OnlyChanges (.learn :: .strangers :: positionParts s) s (takeTelegram bs s) :=
  OnlyChanges.ite (fun _ => dispatchTelegram_frame _ s) (fun _ => OnlyChanges.refl _ s)

theorem setStale_frame (n : Nat) (s : State) : OnlyChanges [.positions] s (setStale n s) := by
  unfold setStale
  split
  · exact OnlyChanges.refl _ s
  · exact putPosition_frame n _ s

/-! ## Loads -/

theorem setLoad_frame {s : State} {x : LoadTable} {l : List Part}
    (h1 : .axles ∈ l ∨ (x.axle = s.load.axle ∧ x.frozen = s.load.frozen ∧ x.sinceUpdate = s.load.sinceUpdate))
    (h2 : .raised ∈ l ∨ x.raised = s.load.raised)
    (h3 : .group ∈ l ∨ (x.group = s.load.group ∧ x.lambda = s.load.lambda ∧ x.gain = s.load.gain))
    (h4 : x.derate = s.load.derate) : OnlyChanges l s (s.setLoad x) := by
  intro q hq; cases q <;> simp_all [samePart]

theorem handOnLoads_frame (s : State) : OnlyChanges (loadParts s) s (handOnLoads s) := by
  have h1 : OnlyChanges [.group] s (s.setLoad (formGroup s.cal.active s.load)) :=
    setLoad_frame (.inr ⟨rfl, rfl, rfl⟩) (.inr rfl) (.inl (by simp)) rfl
  refine (formTargets_frame _).step h1 (by simp [loadParts]) (fun q hq => ?_)
  rcases List.mem_cons.mp hq with rfl | hq
  · simp [loadParts]
  · simp [loadParts, positionParts_subset h1 (fun _ => by simp) hq]

theorem loadParts_standby {s : State} (h : isParked s = false) : .standby ∉ loadParts s := by
  simp [loadParts, positionParts_standby h]

theorem loadParts_subset {l : List Part} {s t : State} (h : OnlyChanges l s t)
    (hn : isParked s = false → .standby ∉ l) : loadParts t ⊆ loadParts s := by
  intro q hq
  simp only [loadParts, List.mem_cons] at hq ⊢
  rcases hq with h1 | h1 | h1
  · exact .inl h1
  · exact .inr (.inl h1)
  · exact .inr (.inr (positionParts_subset h hn h1))

/-- What a load update may change (R59, R16). -/
theorem loadUpdate_frame (s : State) :
    OnlyChanges (.axles :: (loadParts s ++ everyChannel (fun c => .entry c .emerg :: resolveParts c))) s
      (loadUpdate s) := by
  have h1 : OnlyChanges [.axles] s (s.setLoad { s.load with
      axle := updatedAxles s, frozen := filterFrozen s, sinceUpdate := 0 }) :=
    setLoad_frame (.inl (by simp)) (.inr rfl) (.inr ⟨rfl, rfl, rfl⟩) rfl
  have h2 := (handOnLoads_frame _).step h1 (l := .axles :: (loadParts s ++ everyChannel (fun c =>
    .entry c .emerg :: resolveParts c))) (by simp)
    (fun q hq => by simp [loadParts_subset h1 (fun _ => by simp) hq])
  unfold loadUpdate
  refine OnlyChanges.ite (fun _ => ?_) (fun _ => h2)
  exact (forChannels_frame postEmerg_frame _).step h2 (fun _ h => h)
    (fun q hq => by simp only [List.mem_cons, List.mem_append]; exact .inr (.inr hq))

/-- What a change of the raised state hands on (R67). -/
theorem handOnRaised_frame (s : State) : OnlyChanges (.rollFlag :: everyChannel resolveParts) s (handOnRaised s) :=
  (formRollFlag_frame _).step (resolveAll_frame s) (by simp) (by simp)

/-- What a change of the raised state may change (R67 to R69). -/
def raisedParts (s : State) : List Part := .axles :: .raised :: (loadParts s ++ everyChannel resolveParts)

theorem raisedParts_of (s u : State) (h1 : OnlyChanges [.axles, .raised] s u) :
    OnlyChanges (raisedParts s) s (handOnRaised (handOnLoads u)) := by
  have h2 := (handOnLoads_frame u).step h1 (l := raisedParts s) (by simp [raisedParts])
    (fun q hq => by simp [raisedParts, loadParts_subset h1 (fun _ => by simp) hq])
  refine (handOnRaised_frame _).step h2 (fun _ h => h) (fun q hq => ?_)
  rcases List.mem_cons.mp hq with rfl | hq
  · simp [raisedParts, loadParts, positionParts]
  · simp [raisedParts, hq]

theorem raiseAxle_frame (s : State) : OnlyChanges (raisedParts s) s (raiseAxle s) :=
  raisedParts_of s _ (setLoad_frame (.inl (by simp)) (.inl (by simp)) (.inr ⟨rfl, rfl, rfl⟩) rfl)

theorem lowerAxle_frame (s : State) : OnlyChanges (raisedParts s) s (lowerAxle s) :=
  raisedParts_of s _ (setLoad_frame (.inl (by simp)) (.inl (by simp)) (.inr ⟨rfl, rfl, rfl⟩) rfl)

theorem formRaised_frame (s : State) : OnlyChanges (raisedParts s) s (formRaised s) :=
  OnlyChanges.ite (fun _ => OnlyChanges.refl _ s)
    (fun _ => OnlyChanges.ite (fun _ => raiseAxle_frame s) (fun _ => lowerAxle_frame s))

theorem reloadLoads_frame (s : State) : OnlyChanges (raisedParts s) s (reloadLoads s) := by
  have h1 (a : PerAxle AxleRec) (up : Bool) :
      OnlyChanges [.axles, .raised] s (s.setLoad { s.load with raised := up, axle := a }) :=
    setLoad_frame (.inl (by simp)) (.inl (by simp)) (.inr ⟨rfl, rfl, rfl⟩) rfl
  unfold reloadLoads
  refine OnlyChanges.ite (fun _ => ?_) (fun _ => raisedParts_of s _ (h1 _ _))
  exact (handOnLoads_frame _).step (h1 _ _) (by simp [raisedParts])
    (fun q hq => by simp [raisedParts, loadParts_subset (h1 _ _) (fun _ => by simp) hq])

end Sys2Proof
end

