-- ==== Sys2Proof/Laws/RollFrames.lean ====
section
/-! SUPPORT. Frames of the Wheel Speed Unit, the Anti-Lock Monitor and the Rollover Monitor (R41 to R57, R106 to R123). -/

namespace Sys2Proof

open Sys2Proof.Machine

/-! ## Skid states -/

theorem formSlip_frame (c : Channel) (s : State) : OnlyChanges [.skid c] s (formSlip c s) := setSkid_frame s c _

theorem skidTick_frame (c : Channel) (s : State) : OnlyChanges [.skid c] s (skidTick c s) := setSkid_frame s c _

theorem markStep_frame (c : Channel) (s : State) : OnlyChanges [.skid c] s (markStep c s) := setSkid_frame s c _

theorem reenableAntiLock_frame (c : Channel) (s : State) : OnlyChanges [.skid c] s (reenableAntiLock c s) :=
  setSkid_frame s c _

theorem postSkid_frame (c : Channel) (e : Entry) (k : SkidRec) (s : State) :
    OnlyChanges (skidParts c) s (post c .skid e (s.setSkid (s.skid.set c k))) :=
  (post_frame c .skid e _).step (setSkid_frame s c k) (by simp [skidParts])
    (by intro q hq; rcases List.mem_cons.mp hq with rfl | h
        · simp [skidParts]
        · simp [skidParts, h])

theorem enterRelease_frame (c : Channel) (s : State) : OnlyChanges (skidParts c) s (enterRelease c s) :=
  postSkid_frame c _ _ s

theorem enterHold_frame (n : Nat) (c : Channel) (s : State) : OnlyChanges (skidParts c) s (enterHold n c s) :=
  postSkid_frame c _ _ s

theorem enterReapply_frame (n : Nat) (c : Channel) (s : State) : OnlyChanges (skidParts c) s (enterReapply n c s) :=
  postSkid_frame c _ _ s

theorem skidParts_subset (c : Channel) : skidParts c ⊆ freeParts c := by
  intro q hq
  simp only [skidParts, List.mem_cons] at hq
  rcases hq with rfl | rfl | h
  · simp [freeParts]
  · simp [freeParts]
  · simp [freeParts, h]

theorem skid_mem_free (c : Channel) : [Part.skid c] ⊆ freeParts c := by simp [freeParts]

theorem stepWatched_frame (c : Channel) (s : State) : OnlyChanges (freeParts c) s (stepWatched c s) := by
  have ht := (skidTick_frame c s).mono (skid_mem_free c)
  have hm := (markStep_frame c (skidTick c s)).step ht (fun _ h => h) (skid_mem_free c)
  have hf := freeSkid_frame c s
  have he : eventParts ⊆ freeParts c := by intro q hq; simp [freeParts, hq]
  unfold stepWatched
  split
  · exact OnlyChanges.ite (fun _ => (queueEvent_frame _).step (enterRelease_frame c s) (skidParts_subset c) he)
      (fun _ => OnlyChanges.refl _ s)
  · exact OnlyChanges.ite (fun _ => hf) (fun _ => OnlyChanges.ite
      (fun _ => (enterHold_frame 0 c _).step ht (fun _ h => h) (skidParts_subset c)) (fun _ => hm))
  · exact OnlyChanges.ite (fun _ => hf) (fun _ => OnlyChanges.ite
      (fun _ => (enterReapply_frame _ c _).step ht (fun _ h => h) (skidParts_subset c)) (fun _ => hm))
  · exact OnlyChanges.ite (fun _ => hf) (fun _ => OnlyChanges.ite
      (fun _ => (enterRelease_frame c _).step ht (fun _ h => h) (skidParts_subset c)) (fun _ => hm))

theorem skidSample_frame (c : Channel) (s : State) : OnlyChanges (freeParts c) s (skidSample c s) :=
  OnlyChanges.ite (fun _ => stepWatched_frame c s) (fun _ => freeSkid_frame c s)

theorem disableAntiLock_frame (c : Channel) (s : State) : OnlyChanges (freeParts c) s (disableAntiLock c s) := by
  have he : eventParts ⊆ freeParts c := by intro q hq; simp [freeParts, hq]
  exact (queueEvent_frame _).step ((freeSkid_frame c _).step (setSkid_frame s c _) (l := freeParts c) (skid_mem_free c)
    (fun _ h => h)) (fun _ h => h) he

theorem forcedHold_frame (c : Channel) (s : State) : OnlyChanges (freeParts c) s (forcedHold c s) :=
  OnlyChanges.ite (fun _ => (enterHold_frame _ c s).mono (skidParts_subset c)) (fun _ => disableAntiLock_frame c s)

theorem reapplyStep_frame (c : Channel) (s : State) : OnlyChanges (freeParts c) s (reapplyStep c s) :=
  OnlyChanges.ite (fun _ => freeSkid_frame c s) (fun _ => (enterReapply_frame _ c s).mono (skidParts_subset c))

/-! ## Wheels -/

/-- Every wheel record, with v_ref and the gating speed. -/
def wheelParts : List Part := .speeds :: everyChannel (fun c => [.wheel c])

theorem sampleWheels_frame (x : PerChannel Bool) (s : State) : OnlyChanges wheelParts s (sampleWheels x s) := by
  intro q hq
  cases q <;> simp [samePart, sampleWheels, wheelParts, mem_everyChannel] at hq ⊢

theorem setWheel_frame (s : State) (c : Channel) (w : WheelRec) :
    OnlyChanges [.wheel c] s (s.setWheels { s.wheels with wheel := s.wheels.wheel.set c w }) := by
  intro q hq
  cases q <;> simp_all [samePart]

/-! ## Rollover -/

theorem setRoll_frame {s : State} {x : RollUnit} {l : List Part} (h1 : .inertial ∈ l ∨ x.inertial = s.roll.inertial)
    (h2 : .indicator ∈ l ∨ x.indicator = s.roll.indicator) (h3 : .inner ∈ l ∨ x.inner = s.roll.inner)
    (h4 : .stage ∈ l ∨ x.stage = s.roll.stage) : OnlyChanges l s (s.setRoll x) := by
  intro q hq; cases q <;> simp_all [samePart]

theorem takeInertial_frame (bs : List Byte) (s : State) : OnlyChanges [.inertial] s (takeInertial bs s) :=
  OnlyChanges.ite (fun _ => setRoll_frame (.inl (by simp)) (.inr rfl) (.inr rfl) (.inr rfl)) (fun _ => OnlyChanges.refl _ s)

theorem formIndicators_frame (s : State) : OnlyChanges [.indicator, .inner] s (formIndicators s) :=
  setRoll_frame (.inr rfl) (.inl (by simp)) (.inl (by simp)) (.inr rfl)

theorem setStage_frame (r : StageRec) (s : State) : OnlyChanges [.stage] s (setStage r s) :=
  setRoll_frame (.inr rfl) (.inr rfl) (.inr rfl) (.inl (by simp))

theorem freeGenerator_frame (s : State) : OnlyChanges [.holder] s (freeGenerator s) := by
  unfold freeGenerator
  split
  · exact setHolder_frame s .free
  · exact OnlyChanges.refl _ s
  · exact OnlyChanges.refl _ s

theorem postRoll_frame (g : Stage) (n : Nat) (c : Channel) (s : State) : OnlyChanges (rollParts c) s (postRoll g n c s) :=
  (post_frame c .roll _ _).step (setStage_frame _ s) (by simp [rollParts])
    (by intro q hq; simp only [List.mem_cons] at hq; rcases hq with rfl | h <;> simp [rollParts, *])

theorem withdrawRoll_frame (s : State) : OnlyChanges (.stage :: everyChannel rollParts) s (withdrawRoll s) := by
  have h (c : Channel) (t : State) : OnlyChanges (rollParts c) t (withdraw c .roll t) :=
    (withdraw_frame c .roll t).mono (by
      intro q hq; simp only [List.mem_cons] at hq; rcases hq with rfl | h <;> simp [rollParts, *])
  exact (forChannels_frame h _).step (setStage_frame _ s) (by simp) (by simp)

theorem stageParts_roll : .stage :: everyChannel rollParts ⊆ stageParts := by
  intro q hq; rcases List.mem_cons.mp hq with rfl | h
  · simp [stageParts]
  · simp [stageParts, h]

theorem stageParts_event : eventParts ⊆ stageParts := by intro q hq; simp [stageParts, hq]

theorem stageOff_frame (s : State) : OnlyChanges stageParts s (stageOff s) := by
  have h1 (r : StageRec) := (freeGenerator_frame _).step (setStage_frame r s) (l := stageParts) (by simp [stageParts])
    (by simp [stageParts])
  exact (queueEvent_frame _).step ((withdrawRoll_frame _).step (h1 _) (fun _ h => h) stageParts_roll) (fun _ h => h)
    stageParts_event

theorem plainStage_frame (g : Stage) (s : State) : OnlyChanges (.stage :: eventParts) s (plainStage g s) :=
  (queueEvent_frame _).step (setStage_frame _ s) (by simp) (by simp)

theorem probeToWatch_frame (s : State) : OnlyChanges stageParts s (probeToWatch s) := by
  have h1 (r : StageRec) := (freeGenerator_frame _).step (setStage_frame r s) (l := stageParts) (by simp [stageParts])
    (by simp [stageParts])
  exact (queueEvent_frame _).step ((withdrawRoll_frame _).step (h1 _) (fun _ h => h) stageParts_roll) (fun _ h => h)
    stageParts_event

theorem rollParts_subset : everyChannel rollParts ⊆ stageParts := by
  intro q hq; simp [stageParts, hq]

theorem enterIntervene_frame (s : State) : OnlyChanges stageParts s (enterIntervene s) := by
  have h1 (r : StageRec) := (freeGenerator_frame _).step (setStage_frame r s) (l := stageParts) (by simp [stageParts])
    (by simp [stageParts])
  have h2 (r : StageRec) := (forChannels_frame (fun c t => postRoll_frame .intervene (interveneLevel t c) c t) _).step (h1 r)
    (fun _ h => h) rollParts_subset
  exact (queueEvent_frame _).step (h2 _) (fun _ h => h) stageParts_event

theorem followSide_frame (c : Channel) (s : State) : OnlyChanges (rollParts c) s (followSide c s) :=
  OnlyChanges.ite (fun _ => OnlyChanges.refl _ s) (fun _ => postRoll_frame _ _ c s)

theorem enterRecover_frame (s : State) : OnlyChanges stageParts s (enterRecover s) := by
  have h2 (r : StageRec) := (forChannels_frame (fun c t => postRoll_frame .recover ((t.roll.stage.level.get c).getD 0) c t)
    _).step (setStage_frame r s) (l := stageParts) (by simp [stageParts]) rollParts_subset
  exact (queueEvent_frame _).step (h2 _) (fun _ h => h) stageParts_event

theorem lowerRoll_frame (c : Channel) (s : State) : OnlyChanges (rollParts c) s (lowerRoll c s) := by
  unfold lowerRoll
  exact OnlyChanges.ite (fun _ => OnlyChanges.refl _ s) (fun _ => postRoll_frame _ _ c s)

theorem stepRecover_frame (s : State) : OnlyChanges stageParts s (stepRecover s) := by
  have h1 (r : StageRec) := (forChannels_frame lowerRoll_frame _).step (setStage_frame r s) (l := stageParts)
    (by simp [stageParts]) rollParts_subset
  unfold stepRecover
  refine OnlyChanges.ite (fun _ => ?_) (fun _ => h1 _)
  have h2 (r : StageRec) := (setStage_frame r _).step (h1 { s.roll.stage with ramp := 0 }) (fun _ h => h)
    (by simp [stageParts])
  exact (queueEvent_frame _).step ((withdrawRoll_frame _).step (h2 _) (fun _ h => h) stageParts_roll) (fun _ h => h)
    stageParts_event

/-- What the entry into PROBE may change beside a change of stage: the abort of a running test, the skid states of the probed
channels. -/
def probeParts : List Part := stageParts ++ everyChannel abortParts ++ everyChannel freeParts

theorem probeChannel_frame (c : Channel) (s : State) : OnlyChanges (rollParts c ++ freeParts c) s (probeChannel c s) :=
  OnlyChanges.ite (fun _ => (postRoll_frame _ _ c _).step (freeSkid_frame c s) (by simp) (by simp))
    (fun _ => OnlyChanges.refl _ s)

theorem stage_subset_probe : stageParts ⊆ probeParts := by intro q hq; simp [probeParts, hq]

theorem enterProbe_frame (s : State) : OnlyChanges probeParts s (enterProbe s) := by
  have h1 := (abortRunning_frame .rollover s).mono (l := probeParts) (by intro q hq; simp [probeParts, hq])
  have h2 := (setHolder_frame (abortRunning .rollover s) .probe).step h1 (fun _ h => h)
    (by simp [probeParts, stageParts])
  have h3 (r : StageRec) := (setStage_frame r _).step h2 (fun _ h => h) (by simp [probeParts, stageParts])
  have h4 (r : StageRec) := (forChannels_frame probeChannel_frame _).step (h3 r) (fun _ h => h) (by
    refine everyChannel_subset (fun c q hq => ?_)
    rcases List.mem_append.mp hq with h | h
    · exact stage_subset_probe (rollParts_subset (subset_everyChannel rollParts c h))
    · simp [probeParts, subset_everyChannel freeParts c h])
  exact (queueEvent_frame _).step (h4 _) (fun _ h => h) (fun q hq => stage_subset_probe (stageParts_event hq))

theorem stageTests_frame (s : State) : OnlyChanges probeParts s (stageTests s) := by
  have hs (r : StageRec) : OnlyChanges probeParts s (setStage r s) :=
    (setStage_frame r s).mono (by simp [probeParts, stageParts])
  have hp (g : Stage) : OnlyChanges probeParts s (plainStage g s) :=
    (plainStage_frame g s).mono (by
      intro q hq; rcases List.mem_cons.mp hq with rfl | h
      · simp [probeParts, stageParts]
      · simp [probeParts, stageParts, h])
  have hi (r : StageRec) : OnlyChanges probeParts s (enterIntervene (setStage r s)) :=
    (enterIntervene_frame _).step (hs r) (fun _ h => h) stage_subset_probe
  have hw (r : StageRec) : OnlyChanges probeParts s (probeToWatch (setStage r s)) :=
    (probeToWatch_frame _).step (hs r) (fun _ h => h) stage_subset_probe
  have hb (r : StageRec) : OnlyChanges probeParts s (enterProbe (setStage r s)) :=
    (enterProbe_frame _).step (hs r) (fun _ h => h) (fun _ h => h)
  unfold stageTests
  dsimp only
  split
  · exact hp _
  · exact OnlyChanges.ite (fun _ => hp _) (fun _ => OnlyChanges.refl _ s)
  · exact OnlyChanges.ite (fun _ => hi _) (fun _ => OnlyChanges.ite (fun _ => hi _) (fun _ => OnlyChanges.ite
      (fun _ => hb _) (fun _ => hs _)))
  · exact OnlyChanges.ite (fun _ => hi _) (fun _ => OnlyChanges.ite (fun _ => hi _) (fun _ => OnlyChanges.ite
      (fun _ => hw _) (fun _ => hs _)))
  · exact (forChannels_frame followSide_frame _).step (hs _) (fun _ h => h)
      (fun q hq => stage_subset_probe (rollParts_subset hq))
  · exact OnlyChanges.ite (fun _ => (enterIntervene_frame s).mono stage_subset_probe) (fun _ => hs _)

theorem sampleRollover_frame (s : State) :
    OnlyChanges (.indicator :: .inner :: probeParts) s (sampleRollover s) := by
  have h1 : OnlyChanges (.indicator :: .inner :: probeParts) s (fallHoldOff s) :=
    (setStage_frame _ s).mono (by simp [probeParts, stageParts])
  have h2 := (formIndicators_frame _).step h1 (fun _ h => h) (by simp)
  unfold sampleRollover
  dsimp only
  split
  · exact h1
  · exact h2
  · have h3 : OnlyChanges probeParts (formIndicators (fallHoldOff s)) (stageSample (formIndicators (fallHoldOff s))) := by
      unfold stageSample
      exact OnlyChanges.ite (fun _ => OnlyChanges.ite (fun _ => OnlyChanges.refl _ _)
        (fun _ => (stageOff_frame _).mono stage_subset_probe)) (fun _ => stageTests_frame _)
    exact h3.step h2 (fun _ h => h) (by intro q hq; simp [hq])

end Sys2Proof
end

