-- ==== Sys2Proof/Laws/LinkFrames.lean ====
section
/-! SUPPORT. Frames of the Tow Link Controller's operations (R135 to R151). -/

namespace Sys2Proof

open Sys2Proof.Machine

theorem setLink_frame {s : State} {x : LinkUnit} {l : List Part} (h1 : .linkPort .up ∈ l ∨ x.up = s.link.up)
    (h2 : .linkPort .down ∈ l ∨ x.down = s.link.down)
    (h3 : .linkSetting ∈ l ∨ (x.enable = s.link.enable ∧ x.positionFault = s.link.positionFault))
    (h4 : .ownPosition ∈ l ∨ x.ownPosition = s.link.ownPosition)
    (h5 : .statusQueue ∈ l ∨ x.statusQueue = s.link.statusQueue) (h6 : .upService ∈ l ∨ x.upService = s.link.upService)
    (h7 : .downService ∈ l ∨ x.downService = s.link.downService)
    (h8 : .demandSlot ∈ l ∨ x.demandSlot = s.link.demandSlot)
    (h9 : .heldReqs ∈ l ∨ (x.heldReqs = s.link.heldReqs ∧ x.answerWait = s.link.answerWait))
    (h10 : .heldResps ∈ l ∨ x.heldResps = s.link.heldResps)
    (h11 : .sincePeriodic ∈ l ∨ x.sincePeriodic = s.link.sincePeriodic) : OnlyChanges l s (s.setLink x) := by
  intro q hq
  cases q
  case linkPort m => cases m <;> simp_all [samePart, Machine.linkPort]
  all_goals simp_all [samePart]

theorem sendFrame_frame (l : LinkPort) (f : LinkFrame) (s : State) : OnlyChanges [.linkPort l] s (sendFrame l f s) :=
  setLinkPort_frame s l _

theorem sendTraffic_frame (l : LinkPort) (x : TrafficClass) (f : LinkFrame) (s : State) :
    OnlyChanges [.linkPort l] s (sendTraffic l x f s) :=
  (sendFrame_frame l f _).step (setLinkPort_frame s l _) (by simp) (by simp)

theorem sendTrain_frame (l : LinkPort) (b : Bool) (s : State) : OnlyChanges [.linkPort l] s (sendTrain l b s) :=
  sendFrame_frame l _ s

theorem oweReturn_frame (l : LinkPort) (x : TrafficClass) (s : State) : OnlyChanges [.linkPort l] s (oweReturn l x s) :=
  setLinkPort_frame s l _

theorem takeSlot_frame (l : LinkPort) (x : TrafficClass) (s : State) : OnlyChanges [.linkPort l] s (takeSlot l x s) :=
  setLinkPort_frame s l _

theorem freeSlot_frame (l : LinkPort) (x : TrafficClass) (s : State) : OnlyChanges [.linkPort l] s (freeSlot l x s) :=
  (oweReturn_frame l x _).step (setLinkPort_frame s l _) (by simp) (by simp)

theorem addReturns_frame (l : LinkPort) (f : LinkFrame) (s : State) : OnlyChanges [.linkPort l] s (addReturns l f s) :=
  setLinkPort_frame s l _

/-! ## DOWN -/

theorem dropDown_frame (k : DropCause) (n : Nat) (b : Bool) (s : State) :
    OnlyChanges downDropParts s (dropDown k n b s) := by
  apply setLink_frame <;> simp [downDropParts]

theorem downDrop_subset_up : downDropParts ⊆ dropParts .up := by
  intro q hq; simp [dropParts, hq]

theorem driverParts_subset_up : driverParts ⊆ dropParts .up := by
  intro q hq; simp [dropParts, hq]

theorem dropUp_frame (k : DropCause) (n : Nat) (b : Bool) (s : State) : OnlyChanges (dropParts .up) s (dropUp k n b s) := by
  have h1 : OnlyChanges (dropParts .up) s (s.setLink { s.link with
      up := downRec k n b s.link.up, statusQueue := [], upService := [], heldReqs := [], answerWait := 0,
      ownPosition := none }) := by
    apply setLink_frame <;> simp [dropParts, downDropParts]
  have h2 := (loseLink_frame _).step h1 (fun _ h => h) driverParts_subset_up
  unfold dropUp
  exact OnlyChanges.ite (fun _ => h2)
    (fun _ => (dropDown_frame _ _ _ _).step h2 (fun _ h => h) downDrop_subset_up)

theorem enterDown_frame (l : LinkPort) (k : DropCause) (n : Nat) (b : Bool) (s : State) :
    OnlyChanges (dropParts l) s (enterDown l k n b s) := by
  unfold enterDown
  refine OnlyChanges.ite (fun _ => OnlyChanges.refl _ s) (fun _ => ?_)
  cases l
  · exact dropUp_frame k n b s
  · exact dropDown_frame k n b s

/-- What a credit violation may change (R143). -/
def breachParts (l : LinkPort) : List Part := noticeParts ++ dropParts l

theorem creditError_frame (l : LinkPort) (s : State) : OnlyChanges (breachParts l) s (creditError l s) :=
  (enterDown_frame l _ _ _ _).step (latchEvent_frame _ s) (by intro q hq; simp [breachParts, hq])
    (by intro q hq; simp [breachParts, hq])

theorem linkPort_mem_drop (l : LinkPort) : .linkPort l ∈ dropParts l := by
  cases l <;> simp [dropParts, downDropParts]

theorem linkPort_subset_drop (l : LinkPort) : [Part.linkPort l] ⊆ dropParts l := by
  simpa using linkPort_mem_drop l

theorem drop_subset_breach (l : LinkPort) : dropParts l ⊆ breachParts l := by
  intro q hq; simp [breachParts, hq]

theorem countBad_frame (l : LinkPort) (s : State) : OnlyChanges (dropParts l) s (countBad l s) := by
  have hb : OnlyChanges (dropParts l) s (countBad.bump l s (Machine.linkPort s l)) :=
    OnlyChanges.ite (fun _ => enterDown_frame l _ _ _ s)
      (fun _ => (setLinkPort_frame s l _).mono (linkPort_subset_drop l))
  unfold countBad
  dsimp only
  split
  · exact OnlyChanges.refl _ s
  · exact OnlyChanges.refl _ s
  · exact hb
  · exact hb
  · exact hb

/-! ## Training -/

theorem enterSettle_frame (l : LinkPort) (s : State) : OnlyChanges [.linkPort l] s (enterSettle l s) :=
  setLinkPort_frame s l _

theorem startAttempt_frame (l : LinkPort) (n : Nat) (s : State) : OnlyChanges [.linkPort l] s (startAttempt l n s) :=
  setLinkPort_frame s l _

theorem enterTrain_frame (l : LinkPort) (s : State) : OnlyChanges [.linkPort l] s (enterTrain l s) :=
  (startAttempt_frame l 1 _).step (setLinkPort_frame s l _) (by simp) (by simp)

theorem failAttempt_frame (l : LinkPort) (s : State) : OnlyChanges (dropParts l) s (failAttempt l s) := by
  unfold failAttempt
  exact OnlyChanges.ite (fun _ => (startAttempt_frame l _ s).mono (linkPort_subset_drop l))
    (fun _ => enterDown_frame l _ _ _ s)

/-- What the entry into ACTIVE may change (R139, R147). -/
def activeParts : LinkPort → List Part
  | .up => .linkPort .up :: .sincePeriodic :: eventParts
  | .down => [.linkPort .down]

theorem enterActive_frame (l : LinkPort) (s : State) : OnlyChanges (activeParts l) s (enterActive l s) := by
  cases l
  · have h1 (r : PortRec) := setLinkPort_frame s .up r
    have h2 (t : State) : OnlyChanges [.sincePeriodic] t (t.setLink { t.link with sincePeriodic := 0 }) := by
      apply setLink_frame <;> simp
    have h3 (r : PortRec) := (h2 _).step (h1 r) (l := activeParts .up) (by simp [activeParts]) (by simp [activeParts])
    have h4 (r : PortRec) := (refreshFaults_frame _).step (h3 r) (fun _ h => h)
      (by simp [activeParts, noticeParts, eventParts])
    exact (queuePeriodic_frame _).step (h4 _) (fun _ h => h) (by simp [activeParts, eventParts])
  · exact setLinkPort_frame s .down _

theorem testReady_frame (s : State) : OnlyChanges (activeParts .up) s (testReady s) :=
  OnlyChanges.ite (fun _ => enterActive_frame .up s) (fun _ => OnlyChanges.refl _ s)

/-- What the completion of training may change (R137, R138). -/
def trainedParts (l : LinkPort) : List Part := .ownPosition :: .linkSetting :: activeParts l

theorem linkPort_mem_trained (l : LinkPort) : .linkPort l ∈ trainedParts l := by cases l <;> simp [trainedParts, activeParts]

theorem completeTraining_frame (l : LinkPort) (f : LinkFrame) (s : State) :
    OnlyChanges (trainedParts l) s (completeTraining l f s) := by
  have h1 (r : PortRec) := (setLinkPort_frame s l r).mono (l := trainedParts l) (by simpa using linkPort_mem_trained l)
  cases l
  · have h2 (t : State) : OnlyChanges (trainedParts .up) t (t.setLink { t.link with
        ownPosition := some (trainOffer f), positionFault := false }) := by
      apply setLink_frame <;> simp [trainedParts]
    have h3 (r : PortRec) := (sendTrain_frame .up true _).step ((h1 r).trans (h2 _)) (fun _ h => h)
      (by simp [trainedParts, activeParts])
    exact (testReady_frame _).step (h3 _) (fun _ h => h) (by intro q hq; simp [trainedParts, hq])
  · have h3 (r : PortRec) := (sendTrain_frame .down true _).step (h1 r) (fun _ h => h) (by simp [trainedParts, activeParts])
    exact (enterActive_frame .down _).step (h3 _) (fun _ h => h) (by intro q hq; simp [trainedParts, hq])

/-- What a received TRAIN frame may change. -/
def trainParts (l : LinkPort) : List Part := trainedParts l ++ breachParts l

theorem drop_subset_train (l : LinkPort) : dropParts l ⊆ trainParts l := by
  intro q hq; simp [trainParts, breachParts, hq]

theorem port_subset_train (l : LinkPort) : [Part.linkPort l] ⊆ trainParts l :=
  fun _ h => drop_subset_train l (linkPort_subset_drop l h)

theorem positionRange_frame (s : State) : OnlyChanges (trainParts .up) s (positionRange s) := by
  have h1 := (enterDown_frame .up .positionRange 5000 false s).mono (drop_subset_train .up)
  have h2 (t : State) : OnlyChanges (trainParts .up) t (t.setLink { t.link with positionFault := true }) := by
    apply setLink_frame <;> simp [trainParts, trainedParts]
  exact h1.trans (h2 _)

theorem trainInTraining_frame (l : LinkPort) (f : LinkFrame) (s : State) :
    OnlyChanges (trainParts l) s (trainInTraining l f s) := by
  unfold trainInTraining
  refine OnlyChanges.ite (fun h => ?_) (fun _ => OnlyChanges.ite
    (fun _ => (failAttempt_frame l s).mono (drop_subset_train l)) (fun _ => OnlyChanges.ite
      (fun _ => (completeTraining_frame l f s).mono (by intro q hq; simp [trainParts, hq]))
      (fun _ => (setLinkPort_frame s l _).mono (port_subset_train l))))
  cases l
  · exact positionRange_frame s
  · simp [offerBad] at h

theorem trainInActive_frame (l : LinkPort) (f : LinkFrame) (s : State) :
    OnlyChanges (trainParts l) s (trainInActive l f s) :=
  OnlyChanges.ite (fun _ => OnlyChanges.refl _ s) (fun _ => (enterDown_frame l _ _ _ s).mono (drop_subset_train l))

theorem breach_subset_train (l : LinkPort) : breachParts l ⊆ trainParts l := by intro q hq; simp [trainParts, hq]

theorem receiveTrain_frame (l : LinkPort) (f : LinkFrame) (s : State) :
    OnlyChanges (trainParts l) s (receiveTrain l f s) := by
  have ha := (addReturns_frame l f s).mono (port_subset_train l)
  unfold receiveTrain
  refine OnlyChanges.ite (fun _ => (countBad_frame l s).mono (drop_subset_train l)) (fun _ => ?_)
  dsimp only
  split
  · exact OnlyChanges.refl _ s
  · exact OnlyChanges.refl _ s
  · exact OnlyChanges.ite (fun _ => trainInTraining_frame l f s) (fun _ => OnlyChanges.refl _ s)
  · exact OnlyChanges.ite (fun _ => OnlyChanges.refl _ s) (fun _ => OnlyChanges.ite
      (fun _ => (sendTrain_frame l true s).mono (port_subset_train l))
      (fun _ => (enterDown_frame l _ _ _ s).mono (drop_subset_train l)))
  · exact OnlyChanges.ite (fun _ => (creditError_frame l s).mono (breach_subset_train l)) (fun _ => OnlyChanges.ite
      (fun _ => ha.trans (trainInActive_frame l f _)) (fun _ => ha))

/-! ## Traffic -/

theorem port_subset_breach (l : LinkPort) : [Part.linkPort l] ⊆ breachParts l :=
  fun _ h => drop_subset_breach l (linkPort_subset_drop l h)

/-- A received traffic frame changes what its handling changes, or what a breach of the credit agreement does. -/
theorem receiveTraffic_frame {h : State → State} {a : List Part} (l : LinkPort) (x : TrafficClass) (f : LinkFrame)
    (hh : ∀ t, OnlyChanges a t (h t)) (s : State) : OnlyChanges (a ++ breachParts l) s (receiveTraffic l x f h s) := by
  have hp : [Part.linkPort l] ⊆ a ++ breachParts l := fun q hq => by simp [port_subset_breach l hq]
  have hb : breachParts l ⊆ a ++ breachParts l := by simp
  have hd : dropParts l ⊆ a ++ breachParts l := fun q hq => hb (drop_subset_breach l hq)
  have ha := (addReturns_frame l f s).mono hp
  unfold receiveTraffic
  refine OnlyChanges.ite (fun _ => (countBad_frame l s).mono hd) (fun _ => ?_)
  split
  · exact OnlyChanges.refl _ s
  · exact OnlyChanges.refl _ s
  · exact OnlyChanges.refl _ s
  · exact (oweReturn_frame l x s).mono hp
  · refine OnlyChanges.ite (fun _ => (creditError_frame l s).mono hb) (fun _ => OnlyChanges.ite (fun _ => ?_) (fun _ => ?_))
    · exact (hh _).step (ha.trans ((takeSlot_frame l x _).mono hp)) (fun _ h => h) (by simp)
    · exact ha.trans ((creditError_frame l _).mono hb)

theorem consumeDemand_frame (f : LinkFrame) (s : State) : OnlyChanges driverParts s (consumeDemand f s) :=
  (formDemand_frame _).step (setDriver_frame s _) (by simp [driverParts]) (fun _ h => h)

theorem forwardDemand_frame (f : LinkFrame) (s : State) : OnlyChanges [.demandSlot] s (forwardDemand f s) := by
  refine OnlyChanges.ite (fun _ => ?_) (fun _ => OnlyChanges.refl _ s)
  apply setLink_frame <;> simp

/-- What the handling of a DEMAND frame may change (R145). -/
def demandFrameParts : List Part := .demandSlot :: .linkPort .up :: driverParts

theorem relayDemand_frame (f : LinkFrame) (s : State) : OnlyChanges demandFrameParts s (relayDemand f s) := by
  have h1 : OnlyChanges demandFrameParts s (if toAll f || toOwn s f then consumeDemand f s else s) :=
    OnlyChanges.ite (fun _ => (consumeDemand_frame f s).mono (by intro q hq; simp [demandFrameParts, hq]))
      (fun _ => OnlyChanges.refl _ s)
  unfold relayDemand
  dsimp only
  refine (freeSlot_frame .up .demand _).step (OnlyChanges.trans h1 (u := if toAll f || toAbove s f then forwardDemand f
    (if toAll f || toOwn s f then consumeDemand f s else s) else if toAll f || toOwn s f then consumeDemand f s else s)
    (OnlyChanges.ite (fun _ => (forwardDemand_frame f _).mono (by simp [demandFrameParts]))
      (fun _ => OnlyChanges.refl _ _))) (fun _ h => h) (by simp [demandFrameParts])

theorem relayStatus_frame (f : LinkFrame) (s : State) :
    OnlyChanges [.linkPort .down, .statusQueue] s (relayStatus f s) :=
  OnlyChanges.ite (fun _ => (setStatusQueue_frame s _).mono (by simp)) (fun _ => (freeSlot_frame .down .status s).mono (by simp))

theorem holdRequest_frame (f : LinkFrame) (s : State) : OnlyChanges [.heldReqs] s (holdRequest f s) := by
  apply setLink_frame <;> simp

theorem holdResponse_frame (f : LinkFrame) (s : State) :
    OnlyChanges [.linkPort .down, .heldResps] s (holdResponse f s) := by
  refine OnlyChanges.ite (fun _ => ?_) (fun _ => (freeSlot_frame .down .service s).mono (by simp))
  apply setLink_frame <;> simp

/-! ## Sending and answering -/

theorem sendDemandSlot_frame (s : State) : OnlyChanges [.linkPort .down, .demandSlot] s (sendDemandSlot s) := by
  unfold sendDemandSlot
  split
  · exact OnlyChanges.refl _ s
  · refine OnlyChanges.ite (fun _ => ?_) (fun _ => OnlyChanges.refl _ s)
    refine (sendTraffic_frame .down .demand _ _).step (a := [.demandSlot]) ?_ (by simp) (by simp)
    apply setLink_frame <;> simp

theorem sendStatusHead_frame (s : State) :
    OnlyChanges [.linkPort .up, .linkPort .down, .statusQueue] s (sendStatusHead s) := by
  unfold sendStatusHead
  split
  · exact OnlyChanges.refl _ s
  · refine OnlyChanges.ite (fun _ => ?_) (fun _ => OnlyChanges.refl _ s)
    have h1 (f : LinkFrame) (q : List StatusItem) := (sendTraffic_frame .up .status f _).step (setStatusQueue_frame s q)
      (l := [.linkPort .up, .linkPort .down, .statusQueue]) (by simp) (by simp)
    exact OnlyChanges.ite (fun _ => h1 _ _) (fun _ => (freeSlot_frame .down .status _).step (h1 _ _) (fun _ h => h) (by simp))

/-- What the sending of a SERVICE queue's head may change. -/
def serviceSendParts : LinkPort → List Part
  | .up => [.linkPort .up, .linkPort .down, .upService]
  | .down => [.linkPort .down, .downService]

theorem sendServiceHead_frame (l : LinkPort) (s : State) : OnlyChanges (serviceSendParts l) s (sendServiceHead l s) := by
  unfold sendServiceHead
  cases l
  · dsimp only
    split
    · exact OnlyChanges.refl _ s
    · refine OnlyChanges.ite (fun _ => ?_) (fun _ => OnlyChanges.refl _ s)
      have h0 (q : List ServiceItem) : OnlyChanges [.upService] s (s.setLink { s.link with upService := q }) := by
        apply setLink_frame <;> simp
      have h1 (f : LinkFrame) (q : List ServiceItem) := (sendTraffic_frame .up .service f _).step (h0 q)
        (l := serviceSendParts .up) (by simp [serviceSendParts]) (by simp [serviceSendParts])
      exact OnlyChanges.ite (fun _ => h1 _ _) (fun _ => (freeSlot_frame .down .service _).step (h1 _ _) (fun _ h => h)
        (by simp [serviceSendParts]))
  · dsimp only
    split
    · exact OnlyChanges.refl _ s
    · refine OnlyChanges.ite (fun _ => ?_) (fun _ => OnlyChanges.refl _ s)
      refine (sendTraffic_frame .down .service _ _).step (a := [.downService]) ?_ (by simp [serviceSendParts])
        (by simp [serviceSendParts])
      apply setLink_frame <;> simp

theorem joinService_frame (x : ServiceItem) (s : State) : OnlyChanges [.upService] s (joinService x s) := by
  apply setLink_frame <;> simp

theorem dropRequest_frame (s : State) : OnlyChanges [.heldReqs, .linkPort .up] s (dropRequest s) := by
  refine (freeSlot_frame .up .service _).step (a := [.heldReqs]) ?_ (by simp) (by simp)
  apply setLink_frame <;> simp

theorem serviceEffect_frame (f : LinkFrame) (s : State) : OnlyChanges [.faults] s (serviceEffect f s) :=
  OnlyChanges.ite (fun _ => clearFaultView_frame .u s) (fun _ => OnlyChanges.refl _ s)

/-- What the processing of a service request may change (R150, R151). -/
def requestParts : List Part := [.heldReqs, .linkPort .up, .upService, .downService, .faults]

theorem processRequest_frame (s : State) (f : LinkFrame) : OnlyChanges requestParts s (processRequest s f) := by
  have hj (x : ServiceItem) (t : State) (h : OnlyChanges requestParts s t) :
      OnlyChanges requestParts s (dropRequest (joinService x t)) :=
    (dropRequest_frame _).step ((joinService_frame x t).step h (fun _ h => h) (by simp [requestParts])) (fun _ h => h)
      (by simp [requestParts])
  unfold processRequest
  split
  · exact hj _ _ ((serviceEffect_frame f s).mono (by simp [requestParts]))
  · exact hj _ s (OnlyChanges.refl _ s)
  · exact hj _ s (OnlyChanges.refl _ s)
  · refine (dropRequest_frame _).step (a := [.downService]) ?_ (by simp [requestParts]) (by simp [requestParts])
    apply setLink_frame <;> simp
  · exact (dropRequest_frame s).mono (by simp [requestParts])

theorem joinResponse_frame (f : LinkFrame) (s : State) : OnlyChanges [.heldResps, .upService] s (joinResponse f s) := by
  refine (joinService_frame _ _).step (a := [.heldResps]) ?_ (by simp) (by simp)
  apply setLink_frame <;> simp

end Sys2Proof
end

