-- ==== Sys2Proof/Laws/PerInstr.lean ====
section
/-! SUPPORT. What holds of every command as syntax, one lemma per constructor: the frame that encodes a well-formed command is the
frame of its command code (R179) around at most 14 argument bytes. -/

namespace Sys2Proof.Laws

open Sys2Proof Sys2Proof.Machine

/-- Each word takes two bytes. -/
theorem bytesOfWords_length (ws : List Nat) : (bytesOfWords ws).length = 2 * ws.length := by
  induction ws with
  | nil => rfl
  | cons w ws ih => simp only [bytesOfWords, List.length_append, ih, List.length_cons, bytes16, List.length_nil]; omega

end Sys2Proof.Laws

namespace Sys2Proof.Laws.FrameCode

open Sys2Proof Sys2Proof.Machine

/-- A frame that a well-formed command is encoded to carries the command code of its row, and arguments that fit. -/
def Statement (i : Instr) : Prop :=
  wellFormed i = true → ∀ bs, encodePortFrame i = some bs →
    ∃ p n args, portCommand i = some (p, n) ∧ bs = framed n args ∧ args.length ≤ 14

theorem powerOnReset : Statement .powerOnReset := by
  intro _ bs h
  cases h

theorem pinReset : Statement .pinReset := by
  intro _ bs h
  cases h

theorem startingTimerExpiry : Statement .startingTimerExpiry := by
  intro _ bs h
  cases h

theorem pressureSample (set : SampleSet) : Statement (.pressureSample set) := by
  intro _ bs h
  cases h

theorem trackingTimeout (c : Channel) : Statement (.trackingTimeout c) := by
  intro _ bs h
  cases h

theorem emergencyOnset : Statement .emergencyOnset := by
  intro _ bs h
  cases h

theorem emergencyRecovery : Statement .emergencyRecovery := by
  intro _ bs h
  cases h

theorem lowReservoirOnset : Statement .lowReservoirOnset := by
  intro _ bs h
  cases h

theorem mismatchOnset : Statement .mismatchOnset := by
  intro _ bs h
  cases h

theorem mismatchRecovery : Statement .mismatchRecovery := by
  intro _ bs h
  cases h

theorem linkAgeExpiry : Statement .linkAgeExpiry := by
  intro _ bs h
  cases h

theorem ctrlEntryExpiry (p : Port) (c : Channel) : Statement (.ctrlEntryExpiry p c) := by
  intro _ bs h
  cases h

theorem wheelPulse (c : Channel) (micros : Nat) : Statement (.wheelPulse c micros) := by
  intro _ bs h
  cases h

theorem skidForcedHold (c : Channel) : Statement (.skidForcedHold c) := by
  intro _ bs h
  cases h

theorem skidHoldTimeout (c : Channel) : Statement (.skidHoldTimeout c) := by
  intro _ bs h
  cases h

theorem skidReapplyStep (c : Channel) : Statement (.skidReapplyStep c) := by
  intro _ bs h
  cases h

theorem loadUpdate : Statement .loadUpdate := by
  intro _ bs h
  cases h

theorem tyreTelegram (bytes : List Byte) : Statement (.tyreTelegram bytes) := by
  intro _ bs h
  cases h

theorem learnTimeout : Statement .learnTimeout := by
  intro _ bs h
  cases h

theorem tyreStale (position : Nat) : Statement (.tyreStale position) := by
  intro _ bs h
  cases h

theorem inertialSample (bytes : List Byte) : Statement (.inertialSample bytes) := by
  intro _ bs h
  cases h

theorem inertialAgeExpiry : Statement .inertialAgeExpiry := by
  intro _ bs h
  cases h

theorem rolloverCalmToQuiet : Statement .rolloverCalmToQuiet := by
  intro _ bs h
  cases h

theorem probeTimeout : Statement .probeTimeout := by
  intro _ bs h
  cases h

theorem interveneEnd : Statement .interveneEnd := by
  intro _ bs h
  cases h

theorem recoverStep : Statement .recoverStep := by
  intro _ bs h
  cases h

theorem testStart : Statement .testStart := by
  intro _ bs h
  cases h

theorem testHeadTimeout : Statement .testHeadTimeout := by
  intro _ bs h
  cases h

theorem testPulseEnd : Statement .testPulseEnd := by
  intro _ bs h
  cases h

theorem testSettleEnd : Statement .testSettleEnd := by
  intro _ bs h
  cases h

theorem testVentEnd : Statement .testVentEnd := by
  intro _ bs h
  cases h

theorem calIdleTimeout : Statement .calIdleTimeout := by
  intro _ bs h
  cases h

theorem calSealTimeout : Statement .calSealTimeout := by
  intro _ bs h
  cases h

theorem wakeTimerExpiry : Statement .wakeTimerExpiry := by
  intro _ bs h
  cases h

theorem lineActivity (l : LinkPort) : Statement (.lineActivity l) := by
  intro _ bs h
  cases h

theorem lineLoss (l : LinkPort) : Statement (.lineLoss l) := by
  intro _ bs h
  cases h

theorem linkHoldOffExpiry (l : LinkPort) : Statement (.linkHoldOffExpiry l) := by
  intro _ bs h
  cases h

theorem settleExpiry : Statement .settleExpiry := by
  intro _ bs h
  cases h

theorem downstreamTrainStart : Statement .downstreamTrainStart := by
  intro _ bs h
  cases h

theorem trainFrameSend (l : LinkPort) : Statement (.trainFrameSend l) := by
  intro _ bs h
  cases h

theorem trainAttemptTimeout (l : LinkPort) : Statement (.trainAttemptTimeout l) := by
  intro _ bs h
  cases h

theorem trainFrameReceived (l : LinkPort) (f : LinkFrame) : Statement (.trainFrameReceived l f) := by
  intro _ bs h
  cases h

theorem linkBadFrame (l : LinkPort) : Statement (.linkBadFrame l) := by
  intro _ bs h
  cases h

theorem errorCountDecay (l : LinkPort) : Statement (.errorCountDecay l) := by
  intro _ bs h
  cases h

theorem creditReturnTimeout (l : LinkPort) : Statement (.creditReturnTimeout l) := by
  intro _ bs h
  cases h

theorem creditStall (l : LinkPort) : Statement (.creditStall l) := by
  intro _ bs h
  cases h

theorem demandFrameReceived (f : LinkFrame) : Statement (.demandFrameReceived f) := by
  intro _ bs h
  cases h

theorem demandSlotSend : Statement .demandSlotSend := by
  intro _ bs h
  cases h

theorem statusFrameReceived (f : LinkFrame) : Statement (.statusFrameReceived f) := by
  intro _ bs h
  cases h

theorem statusQueueSend : Statement .statusQueueSend := by
  intro _ bs h
  cases h

theorem ownPeriodicStatus : Statement .ownPeriodicStatus := by
  intro _ bs h
  cases h

theorem serviceReqReceived (f : LinkFrame) : Statement (.serviceReqReceived f) := by
  intro _ bs h
  cases h

theorem serviceReqProcess : Statement .serviceReqProcess := by
  intro _ bs h
  cases h

theorem serviceRespReceived (f : LinkFrame) : Statement (.serviceRespReceived f) := by
  intro _ bs h
  cases h

theorem serviceRespJoin : Statement .serviceRespJoin := by
  intro _ bs h
  cases h

theorem serviceQueueSend (l : LinkPort) : Statement (.serviceQueueSend l) := by
  intro _ bs h
  cases h

theorem badCommandFrame (p : Port) : Statement (.badCommandFrame p) := by
  intro _ bs h
  cases h

theorem noCommand (p : Port) : Statement (.noCommand p) := by
  intro _ bs h
  cases h
  exact ⟨p, 0, _, rfl, rfl, Nat.le_of_ble_eq_true rfl⟩

theorem postApply (p : Port) (mask level lifetime : Nat) : Statement (.postApply p mask level lifetime) := by
  intro _ bs h
  cases h
  exact ⟨p, 1, _, rfl, rfl, Nat.le_of_ble_eq_true rfl⟩

theorem postLimit (p : Port) (mask level lifetime : Nat) : Statement (.postLimit p mask level lifetime) := by
  intro _ bs h
  cases h
  exact ⟨p, 2, _, rfl, rfl, Nat.le_of_ble_eq_true rfl⟩

theorem withdraw (p : Port) (mask : Nat) : Statement (.withdraw p mask) := by
  intro _ bs h
  cases h
  exact ⟨p, 3, _, rfl, rfl, Nat.le_of_ble_eq_true rfl⟩

theorem restore (p : Port) (mask : Nat) : Statement (.restore p mask) := by
  intro _ bs h
  cases h
  exact ⟨p, 4, _, rfl, rfl, Nat.le_of_ble_eq_true rfl⟩

theorem forceBackup (p : Port) (mask : Nat) : Statement (.forceBackup p mask) := by
  intro _ bs h
  cases h
  exact ⟨p, 5, _, rfl, rfl, Nat.le_of_ble_eq_true rfl⟩

theorem requestTest (p : Port) (channel : Nat) : Statement (.requestTest p channel) := by
  intro _ bs h
  cases h
  exact ⟨p, 6, _, rfl, rfl, Nat.le_of_ble_eq_true rfl⟩

theorem cancelTest (p : Port) (channel : Nat) : Statement (.cancelTest p channel) := by
  intro _ bs h
  cases h
  exact ⟨p, 7, _, rfl, rfl, Nat.le_of_ble_eq_true rfl⟩

theorem tyreLearn (p : Port) (position : Nat) : Statement (.tyreLearn p position) := by
  intro _ bs h
  cases h
  exact ⟨p, 8, _, rfl, rfl, Nat.le_of_ble_eq_true rfl⟩

theorem tyreAssign (p : Port) (position sensor : Nat) : Statement (.tyreAssign p position sensor) := by
  intro _ bs h
  cases h
  exact ⟨p, 9, _, rfl, rfl, Nat.le_of_ble_eq_true rfl⟩

theorem tyreAdopt (p : Port) (position index : Nat) : Statement (.tyreAdopt p position index) := by
  intro _ bs h
  cases h
  exact ⟨p, 10, _, rfl, rfl, Nat.le_of_ble_eq_true rfl⟩

theorem tyreClear (p : Port) (position : Nat) : Statement (.tyreClear p position) := by
  intro _ bs h
  cases h
  exact ⟨p, 11, _, rfl, rfl, Nat.le_of_ble_eq_true rfl⟩

theorem linkEnable (p : Port) : Statement (.linkEnable p) := by
  intro _ bs h
  cases h
  exact ⟨p, 12, _, rfl, rfl, Nat.le_of_ble_eq_true rfl⟩

theorem linkDisable (p : Port) : Statement (.linkDisable p) := by
  intro _ bs h
  cases h
  exact ⟨p, 13, _, rfl, rfl, Nat.le_of_ble_eq_true rfl⟩

theorem standby (p : Port) : Statement (.standby p) := by
  intro _ bs h
  cases h
  exact ⟨p, 14, _, rfl, rfl, Nat.le_of_ble_eq_true rfl⟩

theorem calBegin (p : Port) : Statement (.calBegin p) := by
  intro _ bs h
  cases h
  exact ⟨p, 15, _, rfl, rfl, Nat.le_of_ble_eq_true rfl⟩

theorem calPointer (p : Port) (index : Nat) : Statement (.calPointer p index) := by
  intro _ bs h
  cases h
  exact ⟨p, 16, _, rfl, rfl, Nat.le_of_ble_eq_true rfl⟩

theorem calWrite (p : Port) (count : Nat) (words : List Nat) : Statement (.calWrite p count words) := by
  intro w bs h
  cases h
  simp only [wellFormed, Bool.and_eq_true, decide_eq_true_eq] at w
  refine ⟨p, 17, _, rfl, rfl, ?_⟩
  rw [List.length_append, bytesOfWords_length, w.1.2]
  show 1 + 2 * wordCount count ≤ 14
  unfold wordCount
  split <;> omega

theorem calRead (p : Port) (index count : Nat) : Statement (.calRead p index count) := by
  intro _ bs h
  cases h
  exact ⟨p, 18, _, rfl, rfl, Nat.le_of_ble_eq_true rfl⟩

theorem calSeal (p : Port) : Statement (.calSeal p) := by
  intro _ bs h
  cases h
  exact ⟨p, 19, _, rfl, rfl, Nat.le_of_ble_eq_true rfl⟩

theorem calConfirm (p : Port) (check : Nat) : Statement (.calConfirm p check) := by
  intro _ bs h
  cases h
  exact ⟨p, 20, _, rfl, rfl, Nat.le_of_ble_eq_true rfl⟩

theorem calAbandon (p : Port) : Statement (.calAbandon p) := by
  intro _ bs h
  cases h
  exact ⟨p, 21, _, rfl, rfl, Nat.le_of_ble_eq_true rfl⟩

theorem read (p : Port) (table index part : Nat) : Statement (.read p table index part) := by
  intro _ bs h
  cases h
  exact ⟨p, 22, _, rfl, rfl, Nat.le_of_ble_eq_true rfl⟩

theorem readAttention (p : Port) (index part : Nat) : Statement (.readAttention p index part) := by
  intro _ bs h
  cases h
  exact ⟨p, 22, _, rfl, rfl, Nat.le_of_ble_eq_true rfl⟩

theorem clearFaults (p : Port) : Statement (.clearFaults p) := by
  intro _ bs h
  cases h
  exact ⟨p, 23, _, rfl, rfl, Nat.le_of_ble_eq_true rfl⟩

theorem portSync (p : Port) : Statement (.portSync p) := by
  intro _ bs h
  cases h
  exact ⟨p, 24, _, rfl, rfl, Nat.le_of_ble_eq_true rfl⟩

theorem onTimeEnd (c : Channel) : Statement (.onTimeEnd c) := by
  intro _ bs h
  cases h

theorem frameOfKindNotReceived (l : LinkPort) (f : LinkFrame) : Statement (.frameOfKindNotReceived l f) := by
  intro _ bs h
  cases h

theorem unknownKindFrame (l : LinkPort) (f : LinkFrame) : Statement (.unknownKindFrame l f) := by
  intro _ bs h
  cases h

end Sys2Proof.Laws.FrameCode
end

