-- ==== Sys2Proof/Laws/SampleFrames.lean ====
section
/-! SUPPORT. Frames of the Calibration Store, the Standby Controller, the chamber response tests, the pressure sample, and of the
two forms that most meanings have: an event that acts while it is due, and a transfer on a controller port. -/

namespace Sys2Proof

open Sys2Proof.Machine

/-! ## Calibration -/

theorem setStaging_frame (g : Staging) (s : State) : OnlyChanges [.staging] s (setStaging g s) := by
  intro q hq; cases q <;> simp_all [samePart, setStaging]

/-- What a return of the Staging Record to FREE may change (R164). -/
def stagingParts : List Part := [.staging, .attention .a, .attention .b]

theorem returnFree_frame (o : CalOutcome) (s : State) : OnlyChanges stagingParts s (returnFree o s) :=
  (raiseCalOutcome_frame _ .b).step ((raiseCalOutcome_frame _ .a).step (setStaging_frame _ s) (l := stagingParts)
    (by simp [stagingParts]) (by simp [stagingParts])) (fun _ h => h) (by simp [stagingParts])

theorem discardBySync_frame (p : Port) (s : State) :
    OnlyChanges [.staging, .attention (otherPort p)] s (discardBySync p s) :=
  (raiseCalOutcome_frame _ _).step (setStaging_frame _ s) (by simp) (by simp)

theorem timeoutStaging_frame (s : State) : OnlyChanges (.staging :: noticeParts) s (timeoutStaging s) :=
  (returnFree_frame .timeout _).step (latchEvent_frame _ s) (by simp) (by simp [stagingParts, noticeParts])

theorem restartWakeTimer_frame (s : State) : OnlyChanges (if isParked s then [.standby] else []) s (restartWakeTimer s) := by
  unfold restartWakeTimer
  split
  · exact setStandby_frame s _
  · exact OnlyChanges.refl _ s

/-- What a calibration apply may change (R163). -/
def applyPieces (s : State) : List Part :=
  .calActive :: (stagingParts ++ raisedParts s ++ activeParts .up ++ (if isParked s then [.standby] else []))

theorem applyCal_frame (s : State) : OnlyChanges (applyPieces s) s (applyCal s) := by
  have h0 : OnlyChanges [.calActive] s (takeStaged s) := by
    intro q hq; cases q <;> simp_all [samePart, takeStaged]
  have h1 := (returnFree_frame .applied _).step h0 (l := .calActive :: stagingParts) (by simp) (by simp)
  have n1 : Part.standby ∉ Part.calActive :: stagingParts := by simp [stagingParts]
  have n1' : isParked s = false → Part.standby ∉ Part.calActive :: stagingParts := fun _ => n1
  have hr : raisedParts (returnFree .applied (takeStaged s)) ⊆ raisedParts s := by
    intro q hq
    simp only [raisedParts, List.mem_cons, List.mem_append] at hq ⊢
    rcases hq with hq | hq | hq | hq
    · exact .inl hq
    · exact .inr (.inl hq)
    · exact .inr (.inr (.inl (loadParts_subset h1 n1' hq)))
    · exact .inr (.inr (.inr hq))
  have h2 := (reloadLoads_frame _).step h1 (l := applyPieces s)
    (by intro q hq; rcases List.mem_cons.mp hq with rfl | h
        · simp [applyPieces]
        · simp [applyPieces, h])
    (by intro q hq; simp [applyPieces, hr hq])
  have h3 := (testReady_frame _).step h2 (fun _ h => h) (by intro q hq; simp [applyPieces, hq])
  refine (restartWakeTimer_frame _).step h3 (fun _ h => h) (fun q hq => ?_)
  cases hp : isParked s with
  | true =>
    have : q = .standby := by
      split at hq <;> simp_all
    simp [applyPieces, hp, this]
  | false =>
    have n3 : Part.standby ∉ applyPieces s := by
      simp [applyPieces, hp, stagingParts, raisedParts, loadParts_standby hp, activeParts, eventParts, noticeParts,
        mem_everyChannel, resolveParts, abortParts]
    rw [h3.parked n3, hp] at hq
    simp at hq

theorem tryApply_frame (s : State) : OnlyChanges (applyPieces s) s (tryApply s) :=
  OnlyChanges.ite (fun _ => applyCal_frame s) (fun _ => OnlyChanges.refl _ s)

theorem applyPieces_standby {s : State} (hp : isParked s = false) : .standby ∉ applyPieces s := by
  simp [applyPieces, hp, stagingParts, raisedParts, loadParts_standby hp, activeParts, eventParts, noticeParts,
    mem_everyChannel, resolveParts, abortParts]

theorem raisedParts_subset {l : List Part} {s t : State} (h : OnlyChanges l s t)
    (hn : isParked s = false → .standby ∉ l) : raisedParts t ⊆ raisedParts s := by
  intro q hq
  simp only [raisedParts, List.mem_cons, List.mem_append] at hq ⊢
  rcases hq with hq | hq | hq | hq
  · exact .inl hq
  · exact .inr (.inl hq)
  · exact .inr (.inr (.inl (loadParts_subset h hn hq)))
  · exact .inr (.inr (.inr hq))

theorem applyPieces_subset {l : List Part} {s t : State} (h : OnlyChanges l s t)
    (hn : isParked s = false → .standby ∉ l) : applyPieces t ⊆ applyPieces s := by
  intro q hq
  simp only [applyPieces, List.mem_cons, List.mem_append] at hq ⊢
  rcases hq with hq | ((hq | hq) | hq) | hq
  · exact .inl hq
  · exact .inr (.inl (.inl (.inl hq)))
  · exact .inr (.inl (.inl (.inr (raisedParts_subset h hn hq))))
  · exact .inr (.inl (.inr hq))
  · cases hp : isParked s with
    | false => rw [h.parked (hn hp), hp] at hq; simp at hq
    | true => refine .inr (.inr ?_); split at hq <;> simp_all

/-! ## Standby -/

theorem setSupply_frame (s : State) (x : SupplyRec) : OnlyChanges [.supply] s (s.setSupply x) := by
  intro q hq; cases q <;> simp_all [samePart]

theorem startupCheck_frame (c : Channel) (s : State) : OnlyChanges (backupParts c) s (startupCheck c s) :=
  OnlyChanges.ite (fun _ => (setCauses_frame c (channelOf s c).causes false).mono (by simpa using causes_mem_backup c))
    (fun _ => addCause_frame .deliverySensor c s)

theorem emptyTables_frame (s : State) :
    OnlyChanges (everyChannel (fun c => [.driver, .ctrlA, .ctrlB, .emerg, .roll, .skid].map (Part.entry c)) ++
      everyChannel resolveParts) s (emptyTables s) := by
  refine (resolveAll_frame _).step (a := everyChannel (fun c => [.driver, .ctrlA, .ctrlB, .emerg, .roll, .skid].map
    (Part.entry c))) ?_ (by simp) (by simp)
  intro q hq
  cases q <;> simp [samePart, mem_everyChannel] at hq ⊢
  rename_i c k
  cases k <;> simp at hq

/-! ## Tests -/

theorem setTest_frame (t : RunningTest) (s : State) : OnlyChanges [.holder] s (setTest t s) := setHolder_frame s _

theorem startTest_frame (q : TestRequest) (s : State) :
    OnlyChanges [.testQueue, .holder, .valves q.channel] s (startTest q s) := by
  have h1 := (setTest_frame (firstPhase q) _).step (dropHead_frame s) (l := [.testQueue, .holder, .valves q.channel])
    (by simp) (by simp)
  exact h1.trans (setChannel_frame (.inr ⟨rfl, rfl⟩) (.inr ⟨rfl, rfl⟩) (.inl (by simp)) (.inr rfl))

theorem endPulse_frame (t : RunningTest) (s : State) :
    OnlyChanges [.holder, .valves t.channel] s (endPulse t s) := by
  have h1 : OnlyChanges [.valves t.channel] s (setChannel s t.channel { channelOf s t.channel with inlet := .closed }) :=
    setChannel_frame (.inr ⟨rfl, rfl⟩) (.inr ⟨rfl, rfl⟩) (.inl (by simp)) (.inr rfl)
  exact (setTest_frame _ _).step h1 (by simp) (by simp)

theorem endSettle_frame (t : RunningTest) (s : State) :
    OnlyChanges [.holder, .valves t.channel] s (endSettle t s) := by
  have h1 : OnlyChanges [.valves t.channel] s (setChannel s t.channel { channelOf s t.channel with exhaust := .held }) :=
    setChannel_frame (.inr ⟨rfl, rfl⟩) (.inr ⟨rfl, rfl⟩) (.inl (by simp)) (.inr rfl)
  exact (setTest_frame _ _).step h1 (by simp) (by simp)

theorem setClass_frame (c : Channel) (v : Option Nat) (s : State) : OnlyChanges [.volume c] s (setClass c v s) :=
  setChannel_frame (.inr ⟨rfl, rfl⟩) (.inr ⟨rfl, rfl⟩) (.inr ⟨rfl, rfl, rfl, rfl, rfl⟩) (.inl (by simp))

theorem outcomeEffect_frame (t : RunningTest) (s : State) : OnlyChanges (testEndParts t) s (outcomeEffect t s) := by
  have h1 (v : Option Nat) (b : Bool) := (setLeak_frame t.channel b _).step (setClass_frame t.channel v s)
    (l := testEndParts t) (by simp [testEndParts]) (by simp [testEndParts])
  unfold outcomeEffect
  split
  · exact h1 _ _
  · exact (addCause_frame .testFault t.channel _).step (h1 _ _) (fun _ h => h) (List.subset_append_right _ _)
  · exact (addCause_frame .testFault t.channel _).step (h1 _ _) (fun _ h => h) (List.subset_append_right _ _)
  · exact (setLeak_frame _ _ _).mono (by simp [testEndParts])
  · exact OnlyChanges.refl _ s
  · exact OnlyChanges.refl _ s

theorem endVent_frame (t : RunningTest) (s : State) : OnlyChanges (testEndParts t) s (endVent t s) := by
  have h1 := (storeResult_frame t.channel t.port (finishedResult t) _).step (setHolder_frame s .free) (l := testEndParts t)
    (by simp [testEndParts]) (by simp [testEndParts])
  exact (outcomeEffect_frame t _).step h1 (fun _ h => h) (fun _ h => h)

theorem sampleTest_frame (s : State) : OnlyChanges (.holder :: everyChannel abortParts) s (sampleTest s) := by
  unfold sampleTest
  split
  · exact OnlyChanges.refl _ s
  · exact OnlyChanges.ite (fun _ => (abortRunning_frame .motion s).mono (by simp))
      (fun _ => (setTest_frame _ s).mono (by simp))

/-- What the examination of the head of the Test Queue may change (R128). -/
def headParts : List Part := .testQueue :: .attention .a :: .attention .b :: everyChannel (fun c => [.result c])

theorem headAlone_frame (s : State) : OnlyChanges [.testQueue] s (headAlone s) := by
  intro p hp; cases p <;> simp_all [samePart, headAlone]

theorem rejoinQueue_frame (q : List TestRequest) (s : State) : OnlyChanges [.testQueue] s (rejoinQueue q s) := by
  intro p hp; cases p <;> simp_all [samePart, rejoinQueue]

/-- The queue between the two is its head alone, and it is whole again after them (R128). -/
theorem headAlone_rejoinQueue (s : State) : rejoinQueue s.tests.queue.tail (headAlone s) = s := by
  have h (q : List TestRequest) : q.take 1 ++ q.tail = q := by cases q <;> simp
  simp only [headAlone, rejoinQueue, State.setTests, h]

theorem sampleHead_frame (s : State) : OnlyChanges headParts s (sampleHead s) := by
  unfold sampleHead
  split
  · exact OnlyChanges.refl _ s
  · refine OnlyChanges.ite (fun _ => refuseHead_frame_all _ s) (fun _ => ?_)
    intro p hp; cases p <;> simp_all [samePart, headParts]

/-! ## The forms of a meaning -/

theorem whenDue_frame {a : List Part} {due : Bool} {f : State → State} {s : State} (h : OnlyChanges a s (f s)) :
    OnlyChanges (a ++ noticeParts) s (whenDue due f s) :=
  OnlyChanges.ite (fun _ => (refreshFaults_frame _).step h (by simp) (by simp)) (fun _ => OnlyChanges.refl _ s)

/-- An event that is not due changes nothing. -/
theorem whenDue_false {f : State → State} {s : State} : whenDue false f s = s := rfl

/-- An event that is due acts, and the live faults are brought up to date. -/
theorem whenDue_true {f : State → State} {s : State} : whenDue true f s = refreshFaults (f s) := rfl

/-- What a transfer may change (R165, R178): what its command changes, the port's responses, notices, a wake from PARKED. -/
theorem transfer_frame {a : List Part} {p : Port} {n : Nat} {act : Action} {s : State}
    (h : OnlyChanges a s (act s).2) :
    OnlyChanges (a ++ transferParts s p) s (transfer p n act s) := by
  have h1 := (answer_frame (act s).2 p { command := n, code := (act s).1.code, record := (act s).1.record }).step h
    (l := a ++ transferParts s p) (by simp) (by simp [transferParts])
  unfold transfer
  dsimp only
  refine (refreshFaults_frame _).step (a := a ++ transferParts s p) ?_ (fun _ h => h)
    (by intro q hq; simp [transferParts, hq])
  refine OnlyChanges.ite (fun hp => ?_) (fun _ => h1)
  exact (wake_frame .port _).step h1 (fun _ h => h) (by intro q hq; simp [transferParts, wakeParts, hp]; simp_all)

/-- A refused command changes nothing but the port's responses, notices, and a wake from PARKED (R166). -/
theorem refuse_frame (k : RespCode) (s : State) : OnlyChanges [] s (refuse k s).2 := OnlyChanges.refl _ s

theorem takenFrom_frame {a : List Part} {q p : Port} {act : Action} {s : State} (h : OnlyChanges a s (act s).2) :
    OnlyChanges a s (takenFrom q p act s).2 := by
  unfold takenFrom
  split
  · exact h
  · exact OnlyChanges.refl _ s

theorem withArgument_frame {a : List Part} {b : Bool} {act : Action} {s : State} (h : OnlyChanges a s (act s).2) :
    OnlyChanges a s (withArgument b act s).2 := by
  unfold withArgument
  split
  · exact h
  · exact OnlyChanges.refl _ s

theorem unlessState_frame {a : List Part} {b : State → Bool} {k : RespCode} {act : Action} {s : State}
    (h : OnlyChanges a s (act s).2) : OnlyChanges a s (unlessState b k act s).2 := by
  unfold unlessState
  split
  · exact OnlyChanges.refl _ s
  · exact h

theorem accept_frame {a : List Part} {f : State → State} {s : State} (h : OnlyChanges a s (f s)) :
    OnlyChanges a s (accept f s).2 := h

end Sys2Proof
end

