-- ==== Sys2Proof/Laws/Values.lean ====
section
/-! SUPPORT. What each shared operation brings about, once for each: the value it writes where its frame says it may write. -/

namespace Sys2Proof

open Sys2Proof.Machine

/-! ## Attention and faults -/

@[simp] theorem liveList_length (s : State) : (liveList s).length = 47 := by simp [liveList, channelLive]

theorem liveList_setFaults (s : State) (x : List FaultRec) : liveList (s.setFaults x) = liveList s := rfl

theorem liveList_setPort (s : State) (p : Port) (u : PortUnit) : liveList (setPort s p u) = liveList s := by
  cases p <;> rfl

/-- The fault records after the live states were brought up to date. -/
theorem refreshFaults_faults (s : State) : (refreshFaults s).faults = List.zipWith latchRec (liveList s) s.faults := by
  simp [refreshFaults, raiseNewFault, setAttention]

theorem refreshFaults_liveList (s : State) : liveList (refreshFaults s) = liveList s := by
  simp [refreshFaults, raiseNewFault, setAttention, liveList_setPort, liveList_setFaults]

@[simp] theorem latchRec_live (b : Bool) (r : FaultRec) : (latchRec b r).live = b := by
  unfold latchRec
  split
  · simp_all
  · rfl

theorem zipWith_latch_live (bs : List Bool) (rs : List FaultRec) (h : rs.length = bs.length) :
    (List.zipWith latchRec bs rs).map FaultRec.live = bs := by
  induction bs generalizing rs with
  | nil => simp
  | cons b bs ih =>
    cases rs with
    | nil => simp at h
    | cons r rs =>
      simp only [List.zipWith_cons_cons, List.map_cons, latchRec_live]
      rw [ih rs (by simpa using h)]

/-- After an update the live states are the conditions. -/
theorem refreshFaults_live (s : State) (h : s.faults.length = 47) :
    (refreshFaults s).faults.map FaultRec.live = liveList (refreshFaults s) := by
  rw [refreshFaults_faults, refreshFaults_liveList, zipWith_latch_live _ _ (by simp [h])]

@[simp] theorem refreshFaults_length (s : State) :
    (refreshFaults s).faults.length = min 47 s.faults.length := by
  simp [refreshFaults_faults]

/-- The live state of fault `i` after an update. -/
theorem refreshFaults_faultOf (s : State) (h : s.faults.length = 47) (i : Nat) (hi : i < 47) :
    (faultOf (refreshFaults s) i).live = (liveList s).getD i false := by
  have h1 := refreshFaults_live s h
  have h2 : ((refreshFaults s).faults.map FaultRec.live).getD i false = (liveList s).getD i false := by
    rw [h1, refreshFaults_liveList]
  rw [← h2]
  have hl : i < (refreshFaults s).faults.length := by simp [h, hi]
  simp [faultOf, List.getD_eq_getElem?_getD, List.getElem?_eq_getElem hl]

/-! ## Resolution -/

/-- Two tables with the same entries are one. -/
theorem table_ext {t u : Table} (h : ∀ k, t.get k = u.get k) : t = u := by
  cases t; cases u
  have h1 := h .driver; have h2 := h .ctrlA; have h3 := h .ctrlB; have h4 := h .emerg; have h5 := h .roll
  have h6 := h .skid
  simp only [Table.get] at h1 h2 h3 h4 h5 h6
  subst h1; subst h2; subst h3; subst h4; subst h5; subst h6; rfl

theorem tableOf_congr {s t : State} {c : Channel} (h : ∀ k, entryOf t c k = entryOf s c k) :
    tableOf t c = tableOf s c := table_ext h

/-- The resolution of a channel depends on its table, the reservoir reading and the raised state alone. -/
theorem OnlyChanges.resolved {l : List Part} {s t : State} (h : OnlyChanges l s t) (c : Channel)
    (h1 : ∀ k, .entry c k ∉ l) (h2 : .front ∉ l) (h3 : .raised ∉ l) :
    tableOf t c = tableOf s c ∧ reservoirCap t = reservoirCap s ∧ applyLevel t c = applyLevel s c ∧
      resolvedLevel t c = resolvedLevel s c := by
  have e1 : tableOf t c = tableOf s c := tableOf_congr (fun k => h (.entry c k) (h1 k))
  have e2 : t.front = s.front := h .front h2
  have e3 : t.load.raised = s.load.raised := h .raised h3
  have e4 : reservoirCap t = reservoirCap s := by simp [reservoirCap, e2]
  have e5 : applyLevel t c = applyLevel s c := by simp [applyLevel, raisedChannel, e1, e3]
  exact ⟨e1, e4, e5, by simp [resolvedLevel, e1, e4, e5]⟩

/-- A resolution writes the setpoint, the flag and the summary of R20, R37, R38. -/
theorem writeResolution_values (c : Channel) (s : State) :
    (channelOf (writeResolution c s) c).setpoint = resolvedLevel s c ∧
    (channelOf (writeResolution c s) c).supplyLimited = decide (reservoirCap s < applyLevel s c) ∧
    (writeResolution c s).demand.applied.get c = appliedAfter s c (resolvedLevel s c) ∧
    (writeResolution c s).demand.summary.get c =
      ⟨applyLevel s c, smallestLimit (reservoirCap s) (tableOf s c), reservoirCap s,
        appliedAfter s c (resolvedLevel s c), s.load.raised⟩ := by
  simp [writeResolution]

theorem resolve_values (c : Channel) (s : State) :
    (channelOf (resolve c s) c).setpoint = resolvedLevel s c ∧
    (channelOf (resolve c s) c).supplyLimited = decide (reservoirCap s < applyLevel s c) ∧
    (resolve c s).demand.applied.get c = appliedAfter s c (resolvedLevel s c) ∧
    (resolve c s).demand.summary.get c =
      ⟨applyLevel s c, smallestLimit (reservoirCap s) (tableOf s c), reservoirCap s,
        appliedAfter s c (resolvedLevel s c), s.load.raised⟩ := by
  have h := writeResolution_values c s
  have hf := abortTestOf_frame c .demand (writeResolution c s)
  have f1 := hf (.setpoint c) (by simp [abortParts])
  have f2 := hf (.resolution c) (by simp [abortParts])
  simp only [samePart] at f1 f2
  unfold resolve
  split
  · rw [f1.1, f1.2, f2.1, f2.2]; exact h
  · exact h

/-- After its resolution a channel's setpoint is the resolution of its table. -/
theorem resolve_setpoint (c : Channel) (s : State) :
    (channelOf (resolve c s) c).setpoint = resolvedLevel (resolve c s) c := by
  rw [(resolve_values c s).1, ((resolve_frame c s).resolved c (by simp [resolveParts, abortParts])
    (by simp [resolveParts, abortParts]) (by simp [resolveParts, abortParts])).2.2.2]

/-- A posted entry stands in its table, its level clamped to 1000 kPa (R23). -/
theorem post_entry (c : Channel) (k : Source) (e : Entry) (s : State) :
    entryOf (post c k e s) c k = some { e with level := min 1000 e.level } := by
  have h := resolve_frame c (putEntry s c k (some { e with level := min 1000 e.level })) (.entry c k)
    (by simp [resolveParts, abortParts])
  simp only [samePart, entryOf_putEntry, and_self, if_true] at h
  exact h

theorem post_setpoint (c : Channel) (k : Source) (e : Entry) (s : State) :
    (channelOf (post c k e s) c).setpoint = resolvedLevel (post c k e s) c := resolve_setpoint c _

/-- A withdrawn entry no longer stands in its table (R22). -/
theorem withdraw_entry (c : Channel) (k : Source) (s : State) : entryOf (withdraw c k s) c k = none := by
  unfold withdraw
  split
  · assumption
  · have h := resolve_frame c (putEntry s c k none) (.entry c k) (by simp [resolveParts, abortParts])
    simp only [samePart, entryOf_putEntry, and_self, if_true] at h
    exact h

theorem withdraw_none (c : Channel) (k : Source) (s : State) (h : entryOf s c k = none) : withdraw c k s = s := by
  unfold withdraw; rw [h]

theorem withdraw_some (c : Channel) (k : Source) (s : State) (e : Entry) (h : entryOf s c k = some e) :
    withdraw c k s = resolve c (putEntry s c k none) := by
  unfold withdraw; rw [h]

/-! ## Operations done for each channel -/

/-- What an operation brings about for a channel stands after it was done for all four, if it holds after the operation, the
others keep it, and it holds whatever the others did before. -/
theorem forChannels_each {g : Channel → State → State} {P : Channel → State → Prop}
    (h1 : ∀ c t, P c (g c t)) (h2 : ∀ c d t, d ≠ c → P c t → P c (g d t)) (s : State) (c : Channel) :
    P c (forChannels g s) := by
  unfold forChannels
  cases c
  · exact h2 _ _ _ (by simp) (h2 _ _ _ (by simp) (h2 _ _ _ (by simp) (h1 _ _)))
  · exact h2 _ _ _ (by simp) (h2 _ _ _ (by simp) (h1 _ _))
  · exact h2 _ _ _ (by simp) (h1 _ _)
  · exact h1 _ _

/-- What each of four operations keeps, all of them keep. -/
theorem forChannels_keeps {g : Channel → State → State} {P : State → Prop} (h : ∀ c t, P t → P (g c t)) (s : State)
    (hs : P s) : P (forChannels g s) := h _ _ (h _ _ (h _ _ (h _ _ hs)))

/-- The form of `forChannels_each` with a premise that every operation keeps. -/
theorem forChannels_each_of {g : Channel → State → State} {P : Channel → State → Prop} {Q : State → Prop}
    (hq : ∀ c t, Q t → Q (g c t)) (h1 : ∀ c t, Q t → P c (g c t)) (h2 : ∀ c d t, d ≠ c → Q t → P c t → P c (g d t))
    (s : State) (hs : Q s) (c : Channel) : P c (forChannels g s) := by
  unfold forChannels
  have q0 := hq .ch0 s hs
  have q1 := hq .ch1 _ q0
  have q2 := hq .ch2 _ q1
  cases c
  · exact h2 _ _ _ (by simp) q2 (h2 _ _ _ (by simp) q1 (h2 _ _ _ (by simp) q0 (h1 _ _ hs)))
  · exact h2 _ _ _ (by simp) q2 (h2 _ _ _ (by simp) q1 (h1 _ _ q0))
  · exact h2 _ _ _ (by simp) q2 (h1 _ _ q1)
  · exact h1 _ _ q2

/-! ## The holder of the generator (R129) -/

/-- The holder is the same, or the generator is FREE: what every operation but a start and a probe leaves. -/
def HolderLe (s t : State) : Prop := t.tests.holder = s.tests.holder ∨ t.tests.holder = .free

theorem HolderLe.refl (s : State) : HolderLe s s := .inl rfl

theorem HolderLe.trans {s t u : State} (h : HolderLe s t) (k : HolderLe t u) : HolderLe s u := by
  rcases k with k | k
  · rcases h with h | h
    · exact .inl (k.trans h)
    · exact .inr (k.trans h)
  · exact .inr k

theorem HolderLe.of_frame {l : List Part} {s t : State} (h : OnlyChanges l s t) (hn : .holder ∉ l) : HolderLe s t :=
  .inl (h .holder hn)

theorem underTest_of_holder {s t : State} (h : t.tests.holder = s.tests.holder) (c : Channel) :
    underTest t c = underTest s c := by simp [underTest, runningTest, h]

theorem underTest_of_free {t : State} (h : t.tests.holder = .free) (c : Channel) : underTest t c = false := by
  simp [underTest, runningTest, h]

theorem HolderLe.underTest {s t : State} (h : HolderLe s t) {c : Channel} (hs : underTest s c = false) :
    underTest t c = false := by
  rcases h with h | h
  · rw [underTest_of_holder h, hs]
  · exact underTest_of_free h c

theorem storeResult_holder (c : Channel) (p : Port) (r : TestResult) (s : State) :
    (storeResult c p r s).tests.holder = s.tests.holder := by simp [storeResult, raiseTestResult, setAttention]

theorem abortRunning_holder (k : TestCause) (s : State) (t : RunningTest) (h : runningTest s = some t) :
    (abortRunning k s).tests.holder = .free := by
  unfold abortRunning
  rw [h]
  dsimp only
  split
  · simp [storeResult_holder]
  · simp [openExhaust, storeResult_holder]

theorem abortTestOf_not {c : Channel} {k : TestCause} {s : State} (h : underTest s c = false) :
    abortTestOf c k s = s := by simp [abortTestOf, h]

theorem abortTestOf_holder (c : Channel) (k : TestCause) (s : State) : HolderLe s (abortTestOf c k s) := by
  unfold abortTestOf
  split
  · rename_i h
    obtain ⟨t, ht, _⟩ := underTest_some h
    exact .inr (abortRunning_holder k s t ht)
  · exact .refl s

/-- After its abort a channel is not under test. -/
theorem abortTestOf_done (c : Channel) (k : TestCause) (s : State) : underTest (abortTestOf c k s) c = false := by
  unfold abortTestOf
  split
  · rename_i h
    obtain ⟨t, ht, _⟩ := underTest_some h
    exact underTest_of_free (abortRunning_holder k s t ht) c
  · rename_i h; simpa using h

theorem resolve_holder (c : Channel) (s : State) : HolderLe s (resolve c s) := by
  have h := HolderLe.of_frame (writeResolution_frame c s) (by simp)
  unfold resolve
  split
  · exact h.trans (abortTestOf_holder c _ _)
  · exact h

theorem post_holder (c : Channel) (k : Source) (e : Entry) (s : State) : HolderLe s (post c k e s) :=
  (HolderLe.of_frame (putEntry_frame s c k _) (by simp)).trans (resolve_holder c _)

theorem withdraw_holder (c : Channel) (k : Source) (s : State) : HolderLe s (withdraw c k s) := by
  unfold withdraw
  split
  · exact .refl s
  · exact (HolderLe.of_frame (putEntry_frame s c k _) (by simp)).trans (resolve_holder c _)

theorem queueEvent_holder (s : State) : HolderLe s (queueEvent s) :=
  .of_frame (queueEvent_frame s) (by simp [eventParts, noticeParts])

theorem freeSkid_holder (c : Channel) (s : State) : HolderLe s (freeSkid c s) := by
  unfold freeSkid
  dsimp only
  split
  · exact .refl s
  · exact ((HolderLe.of_frame (setSkid_frame s c _) (by simp)).trans (withdraw_holder c _ _)).trans (queueEvent_holder _)

theorem testBackupNotice_holder (c : Channel) (s : State) : HolderLe s (testBackupNotice c s) := by
  have h := abortTestOf_holder c .backup s
  unfold testBackupNotice
  dsimp only
  split
  · exact h.trans (.of_frame (refuseHead_frame_all _ _) (by simp [mem_everyChannel]))
  · exact h

theorem enterBackup_holder (c : Channel) (s : State) : HolderLe s (enterBackup c s) :=
  ((HolderLe.of_frame (l := [.valves c]) (s := s) (t := setChannel s c { channelOf s c with
      backupValve := false, inlet := .closed, exhaust := .closed, controlState := .holding, tracking := none })
    (setChannel_frame (.inr ⟨rfl, rfl⟩) (.inr ⟨rfl, rfl⟩) (.inl (by simp)) (.inr rfl)) (by simp)).trans
    ((testBackupNotice_holder c _).trans (freeSkid_holder c _))).trans (queueEvent_holder _)

theorem addCause_holder (k : Cause) (c : Channel) (s : State) : HolderLe s (addCause k c s) := by
  unfold addCause
  dsimp only
  split
  · exact .refl s
  · split
    · exact (HolderLe.of_frame (setCauses_frame (s := s) c ((channelOf s c).causes.put k true) (channelOf s c).startupHeld)
        (by simp)).trans (enterBackup_holder c _)
    · exact .inl rfl

theorem forChannels_holder {g : Channel → State → State} (h : ∀ c t, HolderLe t (g c t)) (s : State) :
    HolderLe s (forChannels g s) := (((h _ _).trans (h _ _)).trans (h _ _)).trans (h _ _)

theorem updateDriver_holder (c : Channel) (s : State) : HolderLe s (updateDriver c s) := by
  unfold updateDriver
  split
  · split
    · exact .refl s
    · exact post_holder _ _ _ s
  · exact withdraw_holder _ _ s

/-! ## Entering BACKUP (R2) -/

/-- The resolution of a channel that is not under test touches no valve. -/
theorem resolve_quiet {c : Channel} {s : State} (h : underTest s c = false) :
    OnlyChanges [.setpoint c, .resolution c] s (resolve c s) := by
  have h1 := writeResolution_frame c s
  unfold resolve
  split
  · rw [abortTestOf_not ((HolderLe.of_frame h1 (by simp)).underTest h)]; exact h1
  · exact h1

theorem post_quiet {c : Channel} {k : Source} {e : Entry} {s : State} (h : underTest s c = false) :
    OnlyChanges [.entry c k, .setpoint c, .resolution c] s (post c k e s) :=
  (resolve_quiet ((HolderLe.of_frame (putEntry_frame s c k _) (by simp)).underTest h)).step (putEntry_frame s c k _)
    (by simp) (by simp)

theorem withdraw_quiet {c : Channel} {k : Source} {s : State} (h : underTest s c = false) :
    OnlyChanges [.entry c k, .setpoint c, .resolution c] s (withdraw c k s) := by
  unfold withdraw
  split
  · exact OnlyChanges.refl _ s
  · exact (resolve_quiet ((HolderLe.of_frame (putEntry_frame s c k _) (by simp)).underTest h)).step
      (putEntry_frame s c k _) (by simp) (by simp)

theorem freeSkid_quiet {c : Channel} {s : State} (h : underTest s c = false) :
    OnlyChanges ([.skid c, .entry c .skid, .setpoint c, .resolution c] ++ eventParts) s (freeSkid c s) := by
  unfold freeSkid
  refine OnlyChanges.ite (fun _ => OnlyChanges.refl _ s) (fun _ => ?_)
  have h1 (k : SkidRec) := (withdraw_quiet (k := .skid) (s := s.setSkid (s.skid.set c k)) (c := c)
    ((HolderLe.of_frame (setSkid_frame s c k) (by simp)).underTest h)).step (setSkid_frame s c k)
    (l := [.skid c, .entry c .skid, .setpoint c, .resolution c] ++ eventParts) (by simp) (by simp)
  exact (queueEvent_frame _).step (h1 _) (fun _ h => h) (List.subset_append_right _ _)

theorem freeSkid_free (c : Channel) (s : State) : ((freeSkid c s).skid.get c).state = .free := by
  unfold freeSkid
  dsimp only
  split
  · assumption
  · have h1 := queueEvent_frame (withdraw c .skid (s.setSkid (s.skid.set c { s.skid.get c with
      state := .free, held := none, timer := 0, stepDue := false }))) (.skid c) (by simp [eventParts, noticeParts])
    have h2 := withdraw_frame c .skid (s.setSkid (s.skid.set c { s.skid.get c with
      state := .free, held := none, timer := 0, stepDue := false })) (.skid c) (by simp [resolveParts, abortParts])
    simp only [samePart] at h1 h2
    rw [h1, h2]
    simp

theorem freeSkid_entry (c : Channel) (s : State) (h : (s.skid.get c).state ≠ .free) :
    entryOf (freeSkid c s) c .skid = none := by
  unfold freeSkid
  dsimp only
  rw [if_neg h]
  have h1 := queueEvent_frame (withdraw c .skid (s.setSkid (s.skid.set c { s.skid.get c with
    state := .free, held := none, timer := 0, stepDue := false }))) (.entry c .skid) (by simp [eventParts, noticeParts])
  simp only [samePart] at h1
  rw [h1, withdraw_entry]

theorem abortRunning_backup_frame (s : State) (t : RunningTest) (h : runningTest s = some t) :
    OnlyChanges [.holder, .result t.channel, .attention .a, .attention .b] s (abortRunning .backup s) := by
  unfold abortRunning
  rw [h]
  exact (storeResult_frame t.channel t.port _ _).step (setHolder_frame s .free) (by simp) (by cases t.port <;> simp)

theorem testBackupNotice_quiet (c : Channel) (s : State) :
    OnlyChanges [.testQueue, .holder, .result c, .attention .a, .attention .b] s (testBackupNotice c s) := by
  have h : OnlyChanges [.testQueue, .holder, .result c, .attention .a, .attention .b] s (abortTestOf c .backup s) := by
    unfold abortTestOf
    refine OnlyChanges.ite (fun hu => ?_) (fun _ => OnlyChanges.refl _ s)
    obtain ⟨t, ht, rfl⟩ := underTest_some hu
    exact (abortRunning_backup_frame s t ht).mono (by simp)
  unfold testBackupNotice
  refine OnlyChanges.ite (fun hc => ?_) (fun _ => h)
  simp only [Bool.and_eq_true] at hc
  exact (refuseHead_frame .notElectronic _ c hc.2).step h (fun _ h => h) (by simp)

theorem testBackupNotice_done (c : Channel) (s : State) : underTest (testBackupNotice c s) c = false := by
  have h := abortTestOf_done c .backup s
  unfold testBackupNotice
  dsimp only
  split
  · exact (HolderLe.of_frame (refuseHead_frame_all _ _) (by simp [mem_everyChannel])).underTest h
  · exact h

/-- What the entry into BACKUP changes: valves, tests and skid state of the channel, the own event. -/
theorem enterBackup_quiet (c : Channel) (s : State) :
    OnlyChanges ([.valves c, .testQueue, .holder, .result c, .skid c, .entry c .skid, .setpoint c, .resolution c] ++
      eventParts) s (enterBackup c s) := by
  have h0 : OnlyChanges [.valves c] s (setChannel s c { channelOf s c with
      backupValve := false, inlet := .closed, exhaust := .closed, controlState := .holding, tracking := none }) :=
    setChannel_frame (.inr ⟨rfl, rfl⟩) (.inr ⟨rfl, rfl⟩) (.inl (by simp)) (.inr rfl)
  have h1 := (testBackupNotice_quiet c _).step h0 (l := [.valves c, .testQueue, .holder, .result c, .skid c, .entry c .skid,
    .setpoint c, .resolution c] ++ eventParts) (by simp) (by simp [eventParts, noticeParts])
  have h2 := (freeSkid_quiet (testBackupNotice_done c _)).step h1 (fun _ h => h) (by simp [eventParts, noticeParts])
  exact (queueEvent_frame _).step h2 (fun _ h => h) (List.subset_append_right _ _)

/-- A channel whose cause set is not empty is left by the entry into BACKUP as R2 says. -/
theorem enterBackup_backedUp (c : Channel) (s : State) (h : electronic s c = false) : BackedUp (enterBackup c s) c := by
  let s1 := setChannel s c { channelOf s c with
    backupValve := false, inlet := .closed, exhaust := .closed, controlState := .holding, tracking := none }
  let s2 := testBackupNotice c s1
  have hu : underTest s2 c = false := testBackupNotice_done c s1
  have f2 := testBackupNotice_quiet c s1
  have f3 := freeSkid_quiet hu
  have f4 := queueEvent_frame (freeSkid c s2)
  have e : enterBackup c s = queueEvent (freeSkid c s2) := rfl
  have v2 := f2 (.valves c) (by simp)
  have v3 := f3 (.valves c) (by simp [eventParts, noticeParts])
  have v4 := f4 (.valves c) (by simp [eventParts, noticeParts])
  have c2 := f2 (.causes c) (by simp)
  have c3 := f3 (.causes c) (by simp [eventParts, noticeParts])
  have c4 := f4 (.causes c) (by simp [eventParts, noticeParts])
  have k4 := f4 (.skid c) (by simp [eventParts, noticeParts])
  simp only [samePart] at v2 v3 v4 c2 c3 c4 k4
  have hs1 : channelOf s1 c = { channelOf s c with
      backupValve := false, inlet := .closed, exhaust := .closed, controlState := .holding, tracking := none } := by
    simp [s1]
  rw [hs1] at v2 c2
  rw [e]
  refine ⟨?_, ?_, ?_, ?_, ?_, ?_, ?_, ?_⟩
  · unfold electronic at h ⊢; rw [c4.1, c3.1, c2.1]; exact h
  · rw [v4.2.2.1, v3.2.2.1, v2.2.2.1]
  · rw [v4.2.2.2.1, v3.2.2.2.1, v2.2.2.2.1]
  · rw [v4.2.2.2.2, v3.2.2.2.2, v2.2.2.2.2]
  · rw [v4.1, v3.1, v2.1]
  · rw [v4.2.1, v3.2.1, v2.2.1]
  · rw [k4]; exact freeSkid_free c s2
  · exact ((freeSkid_holder c s2).trans (queueEvent_holder _)).underTest hu

theorem BackedUp.keeps {l : List Part} {s t : State} {c : Channel} (h : BackedUp s c) (f : OnlyChanges l s t)
    (g : HolderLe s t) (h1 : .causes c ∉ l) (h2 : .valves c ∉ l) (h3 : .skid c ∉ l) : BackedUp t c := by
  have v := f _ h2
  have k := f _ h1
  have q := f _ h3
  simp only [samePart] at v k q
  obtain ⟨a1, a2, a3, a4, a5, a6, a7, a8⟩ := h
  refine ⟨?_, ?_, ?_, ?_, ?_, ?_, ?_, g.underTest a8⟩
  · unfold electronic at a1 ⊢; rw [k.1]; exact a1
  · rw [v.2.2.1]; exact a2
  · rw [v.2.2.2.1]; exact a3
  · rw [v.2.2.2.2]; exact a4
  · rw [v.1]; exact a5
  · rw [v.2.1]; exact a6
  · rw [q]; exact a7

/-! ## Adding a cause (R2) -/

theorem addCause_has {k : Cause} {c : Channel} {s : State} (h : (channelOf s c).causes.has k = true) :
    addCause k c s = s := by simp [addCause, h]

/-- The causes of a channel after the addition of one. -/
theorem addCause_causes (k j : Cause) (c : Channel) (s : State) :
    (channelOf (addCause k c s) c).causes.has j = ((channelOf s c).causes.has j || (j == k)) := by
  cases hk : (channelOf s c).causes.has k with
  | true =>
    rw [addCause_has hk]
    by_cases hj : j = k
    · subst hj; simp [hk]
    · simp [hj]
  | false =>
    have e1 : (channelOf (setChannel s c { channelOf s c with causes := (channelOf s c).causes.put k true }) c).causes =
        (channelOf s c).causes.put k true := by simp
    have e2 := enterBackup_quiet c (setChannel s c { channelOf s c with causes := (channelOf s c).causes.put k true })
      (.causes c) (by simp [eventParts, noticeParts])
    simp only [samePart] at e2
    have e3 : (channelOf (addCause k c s) c).causes = (channelOf s c).causes.put k true := by
      unfold addCause
      simp only [hk]
      rw [if_neg (by simp)]
      split
      · rw [e2.1, e1]
      · exact e1
    rw [e3, CauseSet.has_put]
    by_cases hj : j = k
    · simp [hj]
    · simp [hj]

/-- The first cause of a channel moves it to BACKUP (R2). -/
theorem addCause_backedUp (k : Cause) (c : Channel) (s : State) (h : electronic s c = true) :
    BackedUp (addCause k c s) c := by
  have hk : (channelOf s c).causes.has k = false := ((CauseSet.isEmpty_iff _).mp h) k
  have e : addCause k c s = enterBackup c (setChannel s c { channelOf s c with
      causes := (channelOf s c).causes.put k true }) := by
    unfold electronic at h
    simp [addCause, hk, h]
  rw [e]
  exact enterBackup_backedUp c _ (by simp [electronic])

/-! ## Time -/

/-- Below 50 ms of sample age nothing is lost. -/
theorem expireInertial_young {s : State} (h : inertialAged s = false) : expireInertial s = s := by
  simp [expireInertial, whenDue, h]

/-- At 50 ms the availability ends and the faults are brought up to date (R107). -/
theorem expireInertial_aged {s : State} (h : inertialAged s = true) :
    expireInertial s = refreshFaults (loseInertial s) := by
  simp [expireInertial, whenDue, h]

/-- Below 100 ms of LINK age nothing is lost. -/
theorem expireLink_young {s : State} (h : linkAged s = false) : expireLink s = s := by
  simp [expireLink, whenDue, h]

/-- At 100 ms LINK is absent, D is formed anew and the faults are brought up to date (R29). -/
theorem expireLink_aged {s : State} (h : linkAged s = true) : expireLink s = refreshFaults (loseLink s) := by
  simp [expireLink, whenDue, h]

/-- A millisecond that brings neither age to its limit is a tick alone. -/
theorem passMillisecond_young {s : State} (h : inertialAged (tick s) = false) (hl : linkAged (tick s) = false) :
    passMillisecond s = tick s := by
  simp [passMillisecond, expireInertial_young h, expireLink_young hl]

end Sys2Proof
end

