-- ==== Sys2Proof/Tests/Slice0.lean ====
section
/-! SUPPORT. Tests on small states: the check values and worked tables of the manual, one ill-formed command for each check of
wellFormed, frames written out byte by byte, and for each statement of Certificates/Slice0/Obligations.lean states that meet
its hypotheses, clause by clause, at the ends of their ranges. Expected values come from the manual's examples or from hand
calculation by its rules. -/

namespace Sys2Proof.Tests

set_option Elab.async false

open Sys2Proof Sys2Proof.Machine

/-! ## Small states -/

/-- The state a command leaves. -/
def after (i : Instr) (s : State) : State :=
  match exec i s with
  | .next t => t
  | .fault _ => s
  | .refused _ => s

/-- A channel under electronic control. -/
def freeChannel : ChannelRec :=
  { ChannelRec.reset with causes := CauseSet.empty, startupHeld := false, backupValve := true }

/-- RUNNING, every channel ELECTRONIC, every reading valid, nothing braking. -/
def calm : State :=
  { State.reset with
    standby := { State.reset.standby with opState := .running },
    channels := .const freeChannel,
    front := { delivery := .const (some 0), control := some 0, supply := some 700, reservoir := some 760,
               bagLeft := .const (some 250), bagRight := .const (some 250), liftInput := false } }

/-- The same in PARKED. -/
def parked : State := calm.setStandby { calm.standby with opState := .parked, wakeTimer := some 0 }

/-- A channel record changed. -/
def onChannel (c : Channel) (f : ChannelRec → ChannelRec) (s : State) : State := setChannel s c (f (channelOf s c))

/-- A demand entry with no lifetime put into a table. -/
def withEntry (c : Channel) (k : Source) (n : Nat) (s : State) : State := putEntry s c k (some ⟨n, none, none⟩)

/-- The skid record of a channel replaced. -/
def withSkid (c : Channel) (k : SkidRec) (s : State) : State := s.setSkid (s.skid.set c k)

/-- The delivery reading of a channel replaced. -/
def withDelivery (c : Channel) (r : Reading) (s : State) : State :=
  s.setFront { s.front with delivery := s.front.delivery.set c r }

/-- The stage record replaced. -/
def withStage (r : StageRec) (s : State) : State := s.setRoll { s.roll with stage := r }

/-- The test unit's holder replaced. -/
def testing (r : RunningTest) (s : State) : State := s.setTests { s.tests with holder := .test r }

/-- The Staging Record replaced. -/
def staged (g : Staging) (s : State) : State := s.setCal { s.cal with staging := g }

/-- The sealed check value of the default set: CRC-16 of its 138 bytes, worked out outside the model. -/
def defaultCheck : Nat := 54644

/-- A set opened, sealed or armed by Port A. -/
def openA : Staging := { Staging.reset with state := .opened, claimant := some .a, content := defaultWords }
def sealedA : Staging := { openA with state := .sealed, sealedCheck := some defaultCheck }
def armedA : Staging := { sealedA with state := .armed }

/-- An ACTIVE port record with one credit of each class. -/
def activePort : PortRec := { PortRec.reset with state := .active, partner := some ⟨2, 8, 4⟩, credits := ⟨1, 1, 1⟩ }

/-- The Tow Link up on both sides, at position 2. -/
def linked : State :=
  calm.setLink { calm.link with up := activePort, down := activePort, ownPosition := some 2 }

/-- The record of a Tow Link port changed. -/
def onPort (l : LinkPort) (f : PortRec → PortRec) (s : State) : State := setLinkPort s l (f (linkPort s l))

/-- The Tow Link's own fields changed. -/
def onLink (f : LinkUnit → LinkUnit) (s : State) : State := s.setLink (f s.link)

/-- The driver record replaced. -/
def withDriver (d : DriverRec) (s : State) : State := s.setDriver d

/-- A sample set: every delivery input the same, wheels closed, nothing asked for. -/
def sampleOf (delivery : Int) : SampleSet :=
  { delivery := .const delivery, control := 0, supply := 700, reservoir := 760, bagLeft := .const 250,
    bagRight := .const 250, wheelClosed := .const true, liftRaised := false }

/-- A sample set with every bag input at a reading. -/
def sampleOfBags (b : Int) : SampleSet := { sampleOf 0 with bagLeft := .const b, bagRight := .const b }

/-- A Tow Link frame of a kind, to a target, with a payload. -/
def frame (kind target : Nat) (payload : List Byte) : LinkFrame :=
  { kind := kind, target := target, origin := 1, hop := 0, returns := Credits.zero, payload := payload }

def demandFrame : LinkFrame := frame 1 15 [0x01#8, 0x2C#8, 0x01#8, 0xF4#8, 0x01#8]
def statusFrame : LinkFrame := frame 2 15 (List.replicate 15 0#8)
def requestFrame : LinkFrame := frame 3 2 [0#8, 12#8, 0#8]
def answerOf : LinkFrame := frame 4 15 [12#8, 0#8, 0#8, 0#8]
def trainOf (role offer heard : Nat) : LinkFrame :=
  frame 0 15 [byteOf role, byteOf offer, 1#8, 4#8, 2#8, byteOf heard]

/-! ## Check values (R184) -/

theorem test_crc8_digits :
    crc8 [0x31#8, 0x32#8, 0x33#8, 0x34#8, 0x35#8, 0x36#8, 0x37#8, 0x38#8, 0x39#8] = 0xF4#8 := by decide +kernel

theorem test_crc8_one : crc8 [0x01#8] = 0x07#8 := by decide +kernel

theorem test_crc16_digits :
    crc16 [0x31#8, 0x32#8, 0x33#8, 0x34#8, 0x35#8, 0x36#8, 0x37#8, 0x38#8, 0x39#8] = 0x29B1 := by decide +kernel

theorem crc16From_append (c : BitVec 16) (xs ys : List Byte) :
    crc16From c (xs ++ ys) = crc16From (crc16From c xs) ys := by
  induction xs generalizing c with
  | nil => rfl
  | cons b bs ih => exact ih _

theorem bytesOfWords_append (xs ys : List Nat) : bytesOfWords (xs ++ ys) = bytesOfWords xs ++ bytesOfWords ys := by
  induction xs with
  | nil => rfl
  | cons w ws ih => simp [bytesOfWords, ih]

/-- The check value of the default set, ten words at a time. -/
theorem crc16_default : crc16 (bytesOfWords defaultWords) = defaultCheck := by
  have a1 : crc16From 65535#16 (bytesOfWords defaultAxleWords) = 9828#16 := by decide +kernel
  have a2 : crc16From 9828#16 (bytesOfWords defaultAxleWords) = 20993#16 := by decide +kernel
  have a3 : crc16From 20993#16 (bytesOfWords defaultAxleWords) = 45979#16 := by decide +kernel
  have b : crc16From 45979#16 (bytesOfWords [900, 2700, 1024, 50, 800, 900, 800, 900, 800, 900]) = 11905#16 := by
    decide +kernel
  have c1 : crc16From 11905#16 (bytesOfWords (defaultWindowWords ++ defaultWindowWords)) = 39523#16 := by decide +kernel
  have c2 : crc16From 39523#16 (bytesOfWords (defaultWindowWords ++ defaultWindowWords)) = 1209#16 := by decide +kernel
  have d : crc16From 1209#16 (bytesOfWords [100, 3250, 400, 300, 800, 120, 400, 4, 0]) = 54644#16 := by decide +kernel
  have pieces (u v w x : List Nat) (c : BitVec 16) : crc16From c (bytesOfWords (u ++ (u ++ (u ++ (v ++ (w ++ (w ++ x))))))) =
      crc16From (crc16From (crc16From (crc16From (crc16From (crc16From (crc16From c (bytesOfWords u)) (bytesOfWords u))
        (bytesOfWords u)) (bytesOfWords v)) (bytesOfWords w)) (bytesOfWords w)) (bytesOfWords x) := by
    simp only [bytesOfWords_append, crc16From_append]
  have split : defaultWords = defaultAxleWords ++ (defaultAxleWords ++ (defaultAxleWords ++
      ([900, 2700, 1024, 50, 800, 900, 800, 900, 800, 900] ++ ((defaultWindowWords ++ defaultWindowWords) ++
      ((defaultWindowWords ++ defaultWindowWords) ++ [100, 3250, 400, 300, 800, 120, 400, 4, 0]))))) := rfl
  rw [defaultCheck, crc16, split, pieces, a1, a2, a3, b, c1, c2, d]
  rfl

/-- The check value after reset (R154). -/
theorem test_default_check : State.reset.cal.check = defaultCheck := by
  simp only [State.reset, CalStore.reset, crc16_default]

theorem test_telegram_check : telegramCheck [0x00#8, 0xC4#8, 0x1E#8, 0x07#8, 5#8, 168#8, 70#8, 0#8] = 0x23#8 := by
  decide +kernel

/-! ## Worked tables -/

/-- R61: the table P = 60..460, L = 250..1050 at 40, 90, 115, 304, 297, 275, 460 and 480. -/
theorem test_instant_load :
    ([40, 90, 115, 304, 297, 275, 460, 480].map
      (fun m => instantLoad [60, 160, 260, 360, 460, 250, 450, 650, 850, 1050] .ax1 (some m))) =
    [250, 310, 360, 738, 724, 680, 1050, 1050] := by decide +kernel

/-- R64. -/
theorem test_filter_step :
    [filterStep 738 738, filterStep 360 310, filterStep 738 1050, filterStep 738 1011, filterStep 738 742,
     filterStep 745 739] = [738, 316, 1011, 977, 741, 740] := by decide +kernel

/-- R72 and R73. -/
theorem test_laden_fraction : [2142, 2454, 790, 3000].map (ladenFraction defaultWords) = [706, 884, 0, 1024] := by
  decide +kernel

theorem test_load_gain :
    [706, 884, 0, 113].map (loadGain (defaultWords.set 32 410)) = [833, 940, 410, 477] := by decide +kernel

/-- R75. -/
theorem test_load_curve :
    [curveOf 50 833 40, curveOf 50 833 50, curveOf 50 833 300, curveOf 50 833 800, curveOf 50 940 300,
     curveOf 50 410 300, curveOf 50 1024 1000] = [40, 50, 253, 660, 279, 150, 1000] := by decide +kernel

/-- R41: the effective periods of its table, by the default calibration. -/
theorem test_wheel_speed :
    [speedOf defaultWords ⟨some 1462, 400, 0, true, 0⟩, speedOf defaultWords ⟨some 5850, 3000, 0, true, 0⟩,
     speedOf defaultWords ⟨some 1462, 30000, 0, true, 0⟩, speedOf defaultWords ⟨some 500, 100, 0, true, 0⟩,
     speedOf defaultWords ⟨some 5850, 200000, 0, true, 0⟩, speedOf defaultWords ⟨none, 5, 0, true, 0⟩] =
    [800, 200, 39, 2000, 0, 0] := by decide +kernel

/-- R10. -/
theorem test_on_time :
    [onTime 4 11, onTime 8 50, onTime 8 71, onTime 8 72, onTime 14 25, onTime 14 41] = [1, 7, 9, 10, 6, 9] := by
  decide +kernel

/-- R87. -/
theorem test_compensated :
    [compensated 800 50, compensated 840 30, compensated 850 20, compensated 830 25, compensated 0 125,
     compensated 1275 (-40)] = [716, 808, 850, 814, 0, 1275] := by decide +kernel

/-- R109. -/
theorem test_threshold :
    [0, 706, 1024].map (thresholdOf defaultWords) = [400, 332, 300] ∧ 332 - 332 / 8 = 291 := by decide +kernel

/-- R155: its three examples. -/
theorem test_seal_validation :
    sealFailure defaultWords = none ∧ sealFailure (defaultWords.set 30 5950) = some 30 ∧
    sealFailure ((defaultWords.set 30 2700).set 31 2750) = some 31 ∧ sealFailure (defaultWords.set 12 150) = some 12 := by
  decide +kernel

/-- R131: t50 of 110 ms is class 5, of 30 ms class 1, absent class 6; 10 ms is BLOCKED. -/
theorem test_classes :
    [classOf (some 20), classOf (some 30), classOf (some 50), classOf (some 70), classOf (some 100),
     classOf (some 110), classOf none] = [1, 1, 2, 3, 4, 5, 6] := by decide +kernel

/-! ## Ill-formed commands -/

theorem test_wf_wheel_pulse : wellFormed (.wheelPulse .ch0 1000) = false := by decide +kernel
theorem test_wf_telegram : wellFormed (.tyreTelegram [0#8, 1#8]) = false := by decide +kernel
theorem test_wf_stale : wellFormed (.tyreStale 13) = false := by decide +kernel
theorem test_wf_inertial : wellFormed (.inertialSample [0#8]) = false := by decide +kernel
theorem test_wf_train : wellFormed (.trainFrameReceived .up statusFrame) = false := by decide +kernel
theorem test_wf_demand : wellFormed (.demandFrameReceived { demandFrame with target := 0 }) = false := by decide +kernel
theorem test_wf_status : wellFormed (.statusFrameReceived { statusFrame with hop := 8 }) = false := by decide +kernel
theorem test_wf_request : wellFormed (.serviceReqReceived { requestFrame with origin := 7 }) = false := by decide +kernel
theorem test_wf_answer :
    wellFormed (.serviceRespReceived (frame 4 15 [12#8, 0#8, 0#8, 1#8])) = false := by decide +kernel
theorem test_wf_post_apply : wellFormed (.postApply .a 256 0 0) = false := by decide +kernel
theorem test_wf_post_limit : wellFormed (.postLimit .b 1 65536 0) = false := by decide +kernel
theorem test_wf_withdraw : wellFormed (.withdraw .a 256) = false := by decide +kernel
theorem test_wf_restore : wellFormed (.restore .b 256) = false := by decide +kernel
theorem test_wf_force : wellFormed (.forceBackup .a 256) = false := by decide +kernel
theorem test_wf_request_test : wellFormed (.requestTest .a 256) = false := by decide +kernel
theorem test_wf_cancel_test : wellFormed (.cancelTest .a 256) = false := by decide +kernel
theorem test_wf_learn : wellFormed (.tyreLearn .a 256) = false := by decide +kernel
theorem test_wf_assign : wellFormed (.tyreAssign .a 1 4294967296) = false := by decide +kernel
theorem test_wf_adopt : wellFormed (.tyreAdopt .a 1 256) = false := by decide +kernel
theorem test_wf_clear : wellFormed (.tyreClear .a 256) = false := by decide +kernel
theorem test_wf_pointer : wellFormed (.calPointer .a 256) = false := by decide +kernel
theorem test_wf_write : wellFormed (.calWrite .a 2 [1]) = false := by decide +kernel
theorem test_wf_cal_read : wellFormed (.calRead .a 0 256) = false := by decide +kernel
theorem test_wf_confirm : wellFormed (.calConfirm .b 65536) = false := by decide +kernel
theorem test_wf_read : wellFormed (.read .a 10 0 0) = false := by decide +kernel
theorem test_wf_attention : wellFormed (.readAttention .a 256 0) = false := by decide +kernel
theorem test_wf_stray : wellFormed (.frameOfKindNotReceived .up demandFrame) = false := by decide +kernel
theorem test_wf_unknown : wellFormed (.unknownKindFrame .up demandFrame) = false := by decide +kernel

/-! ## Frames written out from R179 and R181 -/

/-- POST_APPLY of CH0 and CH2 at 300 kPa for 500 ms: code 1, mask 0x05, level 0x012C, lifetime 0x01F4, the rest 0. -/
theorem test_decode_post_apply :
    let body := [1#8, 5#8, 0x01#8, 0x2C#8, 0x01#8, 0xF4#8, 0#8, 0#8, 0#8, 0#8, 0#8, 0#8, 0#8, 0#8, 0#8]
    decodePortFrame .a (body ++ [crc8 body]) = .postApply .a 5 300 500 := by decide +kernel

/-- TYRE_ASSIGN of ID 0x00C41E07 to position 9: code 9, position, four ID bytes; unused bytes are ignored. -/
theorem test_decode_tyre_assign :
    let body := [9#8, 9#8, 0x00#8, 0xC4#8, 0x1E#8, 0x07#8, 7#8, 7#8, 7#8, 7#8, 7#8, 7#8, 7#8, 7#8, 7#8]
    decodePortFrame .a (body ++ [crc8 body]) = .tyreAssign .a 9 12852743 := by decide +kernel

/-- A CAL_WRITE of six words fills bytes 1 to 13. -/
theorem test_decode_cal_write :
    let body := [17#8, 6#8, 0#8, 1#8, 0#8, 2#8, 0#8, 3#8, 0#8, 4#8, 0#8, 5#8, 1#8, 0#8, 9#8]
    decodePortFrame .b (body ++ [crc8 body]) = .calWrite .b 6 [1, 2, 3, 4, 5, 256] := by decide +kernel

/-- Code 25 is no command of the part. -/
theorem test_decode_unknown_code :
    let body := 25#8 :: List.replicate 14 0#8
    decodePortFrame .a (body ++ [crc8 body]) = .badCommandFrame .a := by decide +kernel

/-- A DEMAND frame to ALL from vehicle 1, hop count 1, DEMAND return 1, STATUS return 4, SERVICE return 2, 300 kPa, speed 500,
anti-lock set: bytes 01 F1 49 16 01 2C 01 F4 01. -/
theorem test_decode_demand :
    let body := [0x01#8, 0xF1#8, 0x49#8, 0x16#8, 0x01#8, 0x2C#8, 0x01#8, 0xF4#8, 0x01#8]
    decodeLinkFrame .up (body ++ [crc8 body]) =
      .demandFrameReceived { demandFrame with hop := 1, returns := ⟨1, 4, 2⟩ } := by decide +kernel

/-- The same frame on the downstream port is of a kind that port does not receive (R144). -/
theorem test_decode_stray :
    let body := [0x01#8, 0xF1#8, 0x00#8, 0x14#8, 0x01#8, 0x2C#8, 0x01#8, 0xF4#8, 0x01#8]
    decodeLinkFrame .down (body ++ [crc8 body]) = .frameOfKindNotReceived .down demandFrame := by decide +kernel

/-- R182: a target of 7 makes a bad frame; a kind of 5 does not. -/
theorem test_decode_bad :
    let body := [0x03#8, 0x71#8, 0#8, 0x0C#8, 0#8, 0#8, 0#8]
    let other := [0x05#8, 0x71#8, 0#8, 0#8]
    decodeLinkFrame .up (body ++ [crc8 body]) = .linkBadFrame .up ∧
    decodeLinkFrame .up (other ++ [crc8 other]) =
      .unknownKindFrame .up { kind := 5, target := 7, origin := 1, hop := 0, returns := Credits.zero, payload := [] } := by
  decide +kernel

/-- The response frame of an OK to POST_APPLY. -/
theorem test_response_frame :
    (encodeResponse ⟨1, .ok, []⟩).take 15 = 1#8 :: List.replicate 14 0#8 ∧ (encodeResponse ⟨1, .ok, []⟩).length = 16 := by
  decide +kernel

/-- No word of the table spells a command, so withFetchWord leaves the state as it is. -/
theorem test_no_table_word : decodeTableWord 0 0 = none ∧ calm.withFetchWord 0 0 = calm := ⟨rfl, rfl⟩

/-! ## Witnesses: steps and reset -/

theorem witness_front_command : (calm.setPending [.portSync .a]).pending = .portSync .a :: [] := rfl

theorem witness_idle_row_due :
    let s := State.reset.setStandby { State.reset.standby with startingTimer := 200 }
    s.pending = [] ∧ nextDue s = some .startingTimerExpiry ∧ (startingOver s = true) := by decide +kernel

theorem witness_idle_time_passes :
    let s := withDriver { DriverRec.reset with linkAge := some 65535 } (State.reset.setRoll { State.reset.roll with
      inertial := { InertialRec.reset with age := some 50 } })
    s.pending = [] ∧ nextDue s = none ∧ (tick s).driver.linkAge = some 65535 ∧ (tick s).roll.inertial.age = some 50 ∧
    (tick s).standby.startingTimer = 1 := by decide +kernel

/-- Held valves stay, an on-time, a lifetime and a wake timer fall by 1, an age and a wait rise by 1. -/
theorem witness_idle_timers :
    let e := onChannel .ch1 (fun r => { r with inlet := .pulsed 2, exhaust := .held })
      (putEntry calm .ch2 .ctrlB (some ⟨300, some 7, none⟩))
    let s := (e.setStandby { e.standby with wakeTimer := some 5 }).setTests
      { e.tests with queue := [⟨.ch0, .a⟩], headWait := 9999, headDue := true }
    let t := tick { s with pending := [] }
    (channelOf t .ch1).inlet = .pulsed 1 ∧ (channelOf t .ch1).exhaust = .held ∧
    (entryOf t .ch2 .ctrlB) = some ⟨300, some 6, none⟩ ∧ t.standby.wakeTimer = some 4 ∧ t.tests.headWait = 10000 ∧
    t.tests.headDue = false := by decide +kernel

/-- R107: in the millisecond in which the sample age reaches 50 ms the acceleration is unavailable and INERTIAL_LOST live; not one
before. A sample of that age finds both (R110). -/
theorem witness_inertial_moment :
    let s (a : Nat) := refreshFaults (calm.setRoll { calm.roll with inertial := ⟨some 9, some 3, some a, true⟩ })
    let t (a : Nat) := passMillisecond (s a)
    nextDue (s 49) = none ∧ (s 49).faults.length = faultCount ∧ (faultOf (s 49) 38).live = false ∧
    (t 48).roll.inertial = ⟨some 9, some 3, some 49, true⟩ ∧ (faultOf (t 48) 38).live = false ∧
    (t 49).roll.inertial = ⟨some 9, some 3, some 50, false⟩ ∧ (faultOf (t 49) 38).live = true ∧
    (faultOf (s 50) 38).live = true ∧
    (faultOf (after (.pressureSample (sampleOfBags (-1))) (s 50)) 39).live = true := by decide +kernel

theorem witness_reset_causes :
    ((Instr.powerOnReset = .powerOnReset ∧ ResetCause.powerOn = .powerOn) ∨
      (Instr.powerOnReset = .pinReset ∧ ResetCause.powerOn = .pin)) ∧
    ((Instr.pinReset = .powerOnReset ∧ ResetCause.pin = .powerOn) ∨ (Instr.pinReset = .pinReset ∧ ResetCause.pin = .pin)) ∧
    (after .pinReset linked).standby.resetCause = .pin := by decide +kernel

/-! ## Witnesses: pressure channels -/

theorem witness_tracking_timeout :
    let s := withSkid .ch0 { SkidRec.reset with state := .release } (withEntry .ch0 .skid 0
      (onChannel .ch0 (fun r => { r with tracking := some 400 }) calm))
    electronic s .ch0 = true ∧ 400 ≤ runMs (channelOf s .ch0).tracking ∧ (s.skid.get .ch0).state ≠ .free ∧
    s.faults.length = faultCount ∧ (channelOf (after (.trackingTimeout .ch0) s) .ch0).backupValve = false ∧
    (faultOf (after (.trackingTimeout .ch0) s) 0).latchU = true := by decide +kernel

/-- R16: the EMERG level is 800 kPa under the default calibration. -/
theorem witness_emergency_onset :
    let s := calm.setSupply { SupplyRec.reset with onset := some 200 }
    isRunning s = true ∧ s.faults.length = faultCount ∧ s.supply.emergency = false ∧ 200 ≤ runMs s.supply.onset ∧
    (entryOf (after .emergencyOnset s) .ch3 .emerg).map Entry.level = some 800 := by decide +kernel

theorem witness_emergency_recovery :
    let s := withEntry .ch0 .emerg 800 (calm.setSupply { SupplyRec.reset with emergency := true, recovery := some 1000 })
    isRunning s = true ∧ s.faults.length = faultCount ∧ s.supply.emergency = true ∧ 1000 ≤ runMs s.supply.recovery ∧
    entryOf s .ch0 .emerg ≠ none ∧ entryOf (after .emergencyRecovery s) .ch0 .emerg = none := by decide +kernel

theorem witness_low_reservoir :
    let s := calm.setSupply { SupplyRec.reset with lowMeasure := some 1000 }
    isRunning s = true ∧ s.faults.length = faultCount ∧ s.supply.lowReservoir = false ∧
    1000 ≤ runMs s.supply.lowMeasure ∧ (faultOf (after .lowReservoirOnset s) 27).live = true := by decide +kernel

theorem witness_on_time_end :
    let s := onChannel .ch1 (fun r => { r with inlet := .pulsed 0, exhaust := .held }) calm
    (channelOf s .ch1).inlet = .pulsed 0 ∧ (channelOf (after (.onTimeEnd .ch1) s) .ch1).inlet = .closed ∧
    (channelOf (after (.onTimeEnd .ch1) s) .ch1).exhaust = .held := by decide +kernel

/-! ## Witnesses: driver demand -/

theorem witness_mismatch_onset :
    let s := withDriver { DriverRec.reset with
      linkPresent := true, linkLevel := some 50, linkAge := some 0, lineLevel := some 300, onset := some 500 } calm
    s.driver.linkPresent = true ∧ s.driver.lineLevel = some 300 ∧ s.driver.mismatch = false ∧
    500 ≤ runMs s.driver.onset ∧ (after .mismatchOnset s).driver.demand = 300 ∧
    (entryOf (after .mismatchOnset s) .ch0 .driver).isSome = true := by decide +kernel

theorem witness_mismatch_recovery :
    let s := withDriver { DriverRec.reset with
      linkPresent := true, linkLevel := some 280, linkAge := some 0, lineLevel := some 300, mismatch := true,
      recovery := some 2000 } calm
    s.driver.linkPresent = true ∧ s.driver.lineLevel = some 300 ∧ s.driver.mismatch = true ∧
    2000 ≤ runMs s.driver.recovery ∧ (after .mismatchRecovery s).driver.demand = 280 := by decide +kernel

theorem witness_link_age :
    let s := withDriver { DriverRec.reset with linkPresent := true, linkLevel := some 280, linkAge := some 100 } calm
    s.driver.linkPresent = true ∧ s.driver.linkAge = some 100 ∧ s.driver.lineLevel = none ∧ electronic s .ch2 = true ∧
    (channelOf (after .linkAgeExpiry s) .ch2).causes.noDemandSource = true := by decide +kernel

/-- R29: in the millisecond in which LINK age reaches 100 ms LINK is absent and D comes from LINE, or, without LINE, NO_DEMAND_SOURCE
is held; not one millisecond sooner. -/
theorem witness_link_ages_out :
    let s (a : Nat) (y : Option Nat) := withDriver { DriverRec.reset with
      linkPresent := true, linkLevel := some 280, linkAge := some a, lineLevel := y, demand := 280 } calm
    let t (a : Nat) (y : Option Nat) := passMillisecond (s a y)
    (t 98 none).driver.linkPresent = true ∧ (t 98 none).driver.linkAge = some 99 ∧ (t 98 none).driver.demand = 280 ∧
    (t 99 none).driver.linkPresent = false ∧ (t 99 none).driver.linkAge = some 100 ∧ (t 99 none).driver.demand = 0 ∧
    (channelOf (t 99 none) .ch2).causes.noDemandSource = true ∧ (t 99 (some 50)).driver.demand = 50 ∧
    nextDue (s 99 (some 50)) = none := by
  decide +kernel

theorem witness_entry_expiry :
    let s := putEntry calm .ch2 .ctrlB (some ⟨300, some 0, none⟩)
    entryOf s .ch2 (portSource .b) = some ⟨300, some 0, none⟩ ∧
    entryOf (after (.ctrlEntryExpiry .b .ch2) s) .ch2 .ctrlB = none := by decide +kernel

/-! ## Witnesses: the pressure sample -/

/-- R14, R41 and R43: an out-of-range reading is invalid; 800 at period 1462 µs leads v_ref; an open circuit has no slip. -/
theorem witness_sample_readings :
    let s := { calm with wheels := { calm.wheels with vref := 600, wheel := { calm.wheels.wheel with
      ch0 := ⟨some 1462, 400, 0, true, 0⟩, ch1 := ⟨some 5850, 3000, 0, true, 0⟩ } } }
    let x := { sampleOf 0 with supply := 1101, reservoir := -1, control := 1100,
                               wheelClosed := ⟨true, true, true, false⟩ }
    let t := after (.pressureSample x) s
    t.front.supply = none ∧ t.front.reservoir = none ∧ t.front.control = some 1100 ∧ t.wheels.vref = 800 ∧
    t.wheels.gating = 800 ∧ (t.skid.get .ch1).slip = some 768 ∧ (t.skid.get .ch3).slip = none := by decide +kernel

/-- R44: with every sensor open the gating speed is a tractor speed heard within 100 ms. -/
theorem witness_sample_no_wheel :
    let s := withDriver { DriverRec.reset with tractorSpeed := some 500, tractorAge := some 99 } calm
    let t := after (.pressureSample { sampleOf 0 with wheelClosed := .const false }) s
    t.wheels.vref = 0 ∧ t.wheels.gating = 500 ∧ (t.wheels.wheel.get .ch0).valid = false := by decide +kernel

/-- R118, R123: outside RUNNING a sample takes 10 ms off the hold-off and leaves the stage; in PARKED with no set armed the Driver Demand
record stays, though the control line reads 300 kPa, and the indicators stay. -/
theorem witness_sample_parked :
    let r : StageRec := { StageRec.reset with stage := .off, holdOff := 15 }
    let s := withStage r (parked.setRoll { parked.roll with inertial := ⟨some 300, some 3, some 0, true⟩ })
    let t := after (.pressureSample { sampleOf 0 with control := 300 }) s
    isRunning s = false ∧ isParked s = true ∧ s.cal.staging.state ≠ .armed ∧ t.roll.stage = { r with holdOff := 5 } ∧
    t.driver = s.driver ∧ t.roll.indicator = s.roll.indicator ∧ t.front.control = some 300 := by decide +kernel

/-- What a sample does to CH0's valves. -/
structure Driven where
  setpoint : Nat
  control : ControlState
  inlet : ValveDrive
  exhaust : ValveDrive
  tracking : Option Nat
deriving DecidableEq, Repr

/-- A CTRL_A entry of 300 kPa on CH0. -/
def asking : State := withEntry .ch0 .ctrlA 300 calm

/-- The valves that a sample of delivery `d` drives. -/
def drives (d : Nat) : Driven :=
  let r := channelOf (after (.pressureSample (sampleOf d)) asking) .ch0
  ⟨(channelOf (sampleDemand (sampleSensors (sampleOf d) asking)) .ch0).setpoint, r.controlState, r.inlet, r.exhaust, r.tracking⟩

theorem witness_drives :
    let m := sampleDemand (sampleSensors (sampleOf 289) asking)
    isParked asking = false ∧ underTest asking .ch0 = false ∧ electronic m .ch0 = true ∧
    m.front.delivery.get .ch0 = some 289 := by decide +kernel

/-- R9 and R10 at errors of 11, 10, -10 and -11 kPa: on-time 1 + 11 × 8 / 64 = 2 ms. -/
theorem witness_control_bands :
    drives 289 = ⟨300, .applying, .pulsed 2, .closed, none⟩ ∧ drives 290 = ⟨300, .holding, .closed, .closed, none⟩ ∧
    drives 310 = ⟨300, .holding, .closed, .closed, none⟩ ∧ drives 311 = ⟨300, .venting, .closed, .pulsed 2, none⟩ := by
  decide +kernel

/-- R13: a tracking error stands above 60 kPa alone; 72 kPa of error holds the valve open (R10). -/
theorem witness_tracking_band :
    drives 240 = ⟨300, .applying, .pulsed 8, .closed, none⟩ ∧ drives 239 = ⟨300, .applying, .pulsed 8, .closed, some 0⟩ ∧
    drives 228 = ⟨300, .applying, .held, .closed, some 0⟩ := by decide +kernel

theorem witness_setpoint_zero :
    let m := sampleDemand (sampleSensors (sampleOf 5) calm)
    isParked calm = false ∧ underTest calm .ch0 = false ∧ electronic m .ch0 = true ∧
    m.front.delivery.get .ch0 = some 5 ∧ (channelOf m .ch0).setpoint = 0 ∧
    (channelOf (after (.pressureSample (sampleOf 5)) calm) .ch0).controlState = .vent := by decide +kernel

/-- R5: with D at 14 kPa a PARKED cause whose state has passed leaves; at 15 it stays. -/
theorem witness_automatic_causes :
    let s := onChannel .ch0 (fun r => { r with causes := { CauseSet.empty with parked := true } }) calm
    isParked s = false ∧
    (channelOf (after (.pressureSample { sampleOf 0 with control := 14 }) s) .ch0).causes.parked = false ∧
    (channelOf (after (.pressureSample { sampleOf 0 with control := 15 }) s) .ch0).causes.parked = true := by
  decide +kernel

/-- R4, R5: after STARTING the condition of STARTUP ends at the sample with a valid delivery reading, and the cause leaves with it below
15 kPa alone; in STARTING both stay. -/
theorem witness_startup_ends :
    let s := onChannel .ch0 (fun r => { r with causes := { CauseSet.empty with startup := true }, startupHeld := true }) calm
    let e := s.setStandby { s.standby with opState := .starting }
    let t (d control : Int) (x : State) : ChannelRec :=
      channelOf (after (.pressureSample { sampleOf d with control := control }) x) .ch0
    isParked s = false ∧ isParked e = false ∧ (t 0 0 s).startupHeld = false ∧ (t 0 0 s).causes.startup = false ∧
    (t 1101 0 s).startupHeld = true ∧ (t 1101 0 s).causes.startup = true ∧
    (t 0 15 s).startupHeld = false ∧ (t 0 15 s).causes.startup = true ∧
    (t 0 0 e).startupHeld = true ∧ (t 0 0 e).causes.startup = true := by decide +kernel

/-- R15, R19: below 250 kPa the onset run begins; at 400 the recovery run; a reservoir of 500 ends LOW_RESERVOIR. -/
theorem witness_supply_runs :
    let low := calm.setSupply { SupplyRec.reset with emergency := true, lowReservoir := true }
    (after (.pressureSample { sampleOf 0 with supply := 249 }) calm).supply.onset = some 0 ∧
    (after (.pressureSample { sampleOf 0 with supply := 250 }) calm).supply.onset = none ∧
    (after (.pressureSample { sampleOf 0 with supply := 400 }) low).supply.recovery = some 0 ∧
    (after (.pressureSample { sampleOf 0 with reservoir := 500 }) low).supply.lowReservoir = false ∧
    (after (.pressureSample { sampleOf 0 with reservoir := 499 }) low).supply.lowReservoir = true := by decide +kernel

/-! ## Witnesses: what a sample forms -/

/-- The state a sample leaves. -/
def sampled (x : SampleSet) (s : State) : State := after (.pressureSample x) s

/-- Bag readings are those of the set, within 0..1100 (R14); a delivery reading that becomes invalid backs its channel up. -/
theorem witness_sample_bags :
    let t := sampled { sampleOf 0 with bagLeft := ⟨1100, 1101, 0⟩, bagRight := ⟨-1, 250, 250⟩,
                                       delivery := ⟨1101, 1100, 0, 0⟩ } calm
    t.front.bagLeft = ⟨some 1100, none, some 0⟩ ∧ t.front.bagRight = ⟨none, some 250, some 250⟩ ∧
    (channelOf t .ch0).causes.deliverySensor = true ∧ (channelOf t .ch1).causes.deliverySensor = false := by decide +kernel

/-- R19: with LOW_RESERVOIR not live the measurement starts below 450 kPa, grows by 10 ms, and ends at 450. -/
theorem witness_reservoir_measure :
    let s := calm.setSupply { SupplyRec.reset with lowMeasure := some 995 }
    (sampled { sampleOf 0 with reservoir := 449 } calm).supply.lowMeasure = some 0 ∧
    (sampled { sampleOf 0 with reservoir := 449 } s).supply.lowMeasure = some 1000 ∧
    (sampled { sampleOf 0 with reservoir := 450 } s).supply.lowMeasure = none := by decide +kernel

/-- R30: LINE at 14, 15, 1000 and 1001 kPa, and without a reading. R32: without LINK and LINE no channel keeps its mode. -/
theorem witness_line_level :
    let at_ (v : Int) : State := sampled { sampleOf 0 with control := v } calm
    isParked calm = false ∧ [14, 15, 1000, 1001, -1].map (fun v => (at_ v).driver.lineLevel) =
      [some 0, some 15, some 1000, some 1000, none] ∧ (at_ 15).driver.demand = 15 ∧
    (entryOf (at_ 14) .ch0 .driver) = none ∧ (entryOf (at_ 300) .ch0 .driver).map Entry.level = some 300 ∧
    (channelOf (at_ (-1)) .ch3).causes.noDemandSource = true := by decide +kernel

/-- R31, R33, R34: LINK at 280 kPa. A gap of 101 starts the onset run, one of 100 ends it; in a mismatch D is the larger level up to
the sample at which the recovery run reaches 2000 ms, and the LINK level at that one; a gap of 31 ends the run. -/
theorem witness_mismatch_at_sample :
    let s (m : Bool) (o r : Run) : State := withDriver { DriverRec.reset with
      linkPresent := true, linkLevel := some 280, linkAge := some 0, mismatch := m, onset := o, recovery := r } calm
    let d (v : Int) (x : State) : DriverRec := (sampled { sampleOf 0 with control := v } x).driver
    (d 381 (s false none none)).onset = some 0 ∧ (d 380 (s false (some 9) none)).onset = none ∧
    (d 381 (s false (some 495) none)).onset = some 500 ∧ (d 310 (s true none (some 1989))).demand = 310 ∧
    (d 310 (s true none (some 1989))).recovery = some 1999 ∧ (d 310 (s true none (some 1990))).demand = 280 ∧
    (d 311 (s true none (some 1990))).recovery = none ∧ (d (-1) (s true none none)).mismatch = false := by decide +kernel

/-- A calibration with a lift axle: word 67 is 6. -/
def lifting : State := calm.setCal { calm.cal with active := defaultWords.set 67 6 }

/-- R67 to R69: a raise takes the effective load of axle 3 away, a lowering brings it back at its instant load of 600 kg at
250 kPa, and a set without a lift axle never raises. -/
theorem witness_axle3 :
    let up : SampleSet := { sampleOf 0 with liftRaised := true }
    let raised := sampled up lifting
    isParked lifting = false ∧ lifting.cal.staging.state ≠ .armed ∧ raised.load.raised = true ∧
    raised.load.axle.ax3.effective = 0 ∧ (sampled (sampleOf 0) raised).load.raised = false ∧
    (sampled (sampleOf 0) raised).load.axle.ax3.effective = 600 ∧ (sampled up calm).load.raised = false := by decide +kernel

/-- Every wheel at a period, v_ref falling from `v` by 4 at the sample, and a CTRL_A entry of 300 kPa on every channel. -/
def rolling (v period : Nat) (k : SkidRec) : State :=
  { refreshFaults (after (.postApply .a 15 300 1000) calm) with
    wheels := { calm.wheels with vref := v, wheel := .const ⟨some period, 0, 0, true, 0⟩ }
    skid := .const k }

/-- The skid record of CH0 that a sample of delivery 140 kPa leaves; with v_ref 1024 a slip is 1024 less the speed. -/
def skids (period : Nat) (k : SkidRec) : SkidState × Option Nat × Nat × Nat :=
  let r := (sampled (sampleOf 140) (rolling 1028 period k)).skid.ch0
  (r.state, r.held, r.timer, r.forcedCount)

/-- A skid record 20 ms into a state, after two forced holds. -/
def cycling (x : SkidState) (h : Option Nat) : SkidRec :=
  { SkidRec.reset with state := x, held := h, timer := 20, forcedCount := 2 }

/-- R49 at slips of 205 and 204, with the hypotheses of a watched channel. -/
theorem witness_skid_onset :
    let s := rolling 1028 1428 SkidRec.reset
    isParked s = false ∧ electronic s .ch0 = true ∧ s.roll.stage.probed = none ∧
    (sampled (sampleOf 140) s).skid.ch0.slip = some 205 ∧
    ((sampleResolved (sampleOf 140) s).demand.summary.get .ch0).largestApply = 300 ∧
    skids 1428 SkidRec.reset = (.release, none, 0, 0) ∧ skids 1426 SkidRec.reset = (.free, none, 0, 0) := by decide +kernel

/-- R50 at slips of 101 and 102, R51 at 50 and 51. -/
theorem witness_skid_hold :
    skids 1267 (cycling .release none) = (.hold, some 140, 0, 0) ∧
    skids 1268 (cycling .release none) = (.release, none, 30, 2) ∧
    skids 1201 (cycling .hold (some 140)) = (.reapply, some 140, 0, 2) ∧
    skids 1202 (cycling .hold (some 140)) = (.hold, some 140, 30, 2) := by decide +kernel

/-- R52 at slips of 205 and 204, R53 at a held level of 300 kPa. -/
theorem witness_skid_reapply :
    skids 1428 (cycling .reapply (some 140)) = (.release, none, 0, 2) ∧
    skids 1426 (cycling .reapply (some 140)) = (.reapply, some 140, 30, 2) ∧
    skids 1428 (cycling .hold (some 300)) = (.free, none, 0, 2) := by decide +kernel

/-- A channel in a skid cycle that is no longer watched is FREE after the sample (R48). -/
theorem witness_skid_unwatched :
    let s := rolling 1028 1428 { SkidRec.reset with state := .hold, held := some 140, disabled := true }
    (sampled (sampleOf 140) s).skid.ch0.state = .free := by decide +kernel

/-- A stage record, an acceleration, and all wheels at a period, v_ref falling to `v - 4`. -/
def leaning (v period : Nat) (ay : Int) (r : StageRec) : State :=
  { calm with
    roll := { calm.roll with inertial := ⟨some ay, some 3, some 0, true⟩, stage := r, inner := .left }
    wheels := { calm.wheels with vref := v, wheel := .const ⟨some period, 0, 0, true, 0⟩ } }

/-- The stage that a sample leaves. -/
def stageOf (s : State) : Stage := (sampled (sampleOf 0) s).roll.stage.stage

/-- The threshold is 300: accelerations of 179, 180, 209, 210, 255 and 300 are risks of 610, 614, 713, 716, 870 and 1024. R115: OFF to
QUIET, QUIET to WATCH at 716; R116: WATCH to PROBE at 870 and 200 (20.0 km/h) once the hold-off is over, to INTERVENE at 1024. -/
theorem witness_stage_onsets :
    let st (x : Stage) : StageRec := { StageRec.reset with stage := x }
    isRunning (leaning 0 5850 0 (st .off)) = true ∧ calRollEnabled calm.cal.active = true ∧
    (sampled (sampleOf 0) (leaning 204 5850 255 (st .watch))).roll.indicator.risk = some 870 ∧
    stageOf (leaning 0 5850 0 (st .off)) = .quiet ∧ stageOf (leaning 0 5850 209 (st .quiet)) = .quiet ∧
    stageOf (leaning 0 5850 210 (st .quiet)) = .watch ∧ stageOf (leaning 204 5850 254 (st .watch)) = .watch ∧
    stageOf (leaning 204 5850 255 { st .watch with holdOff := 10 }) = .probe ∧
    stageOf (leaning 204 5850 255 { st .watch with holdOff := 11 }) = .watch ∧
    stageOf (leaning 204 5850 300 (st .watch)) = .intervene ∧ stageOf (leaning 203 5900 300 (st .watch)) = .watch ∧
    (sampled (sampleOf 0) (leaning 0 5850 179 (st .watch))).roll.stage.calm = some 0 ∧
    (sampled (sampleOf 0) (leaning 0 5850 180 (st .watch))).roll.stage.calm = none := by decide +kernel

/-- R117, R119: a probe of the left side finds lift at a slip of 307 (140 of 200) and not at 302, goes on while nothing spoils it, and
is given up below 20 km/h or when the inner side changes; the limit of 1024 passes to INTERVENE. -/
theorem witness_stage_probe :
    let r : StageRec := { StageRec.reset with stage := .probe, probed := some .left, probeTimer := 290 }
    let s (v period : Nat) (ay : Int) : State := (leaning v period ay r).setTests { calm.tests with holder := .probe }
    let t := sampled (sampleOf 0) (s 203 5900 255)
    stageOf (s 204 8357 255) = .intervene ∧ stageOf (s 204 8297 255) = .probe ∧
    (sampled (sampleOf 0) (s 204 5850 255)).roll.stage.probeTimer = 300 ∧ stageOf (s 204 5850 300) = .intervene ∧
    t.roll.stage.stage = .watch ∧ t.roll.stage.holdOff = 1000 ∧ t.tests.holder = .free ∧ stageOf (s 204 5850 (-255)) = .watch := by
  decide +kernel

/-- R119, R120: INTERVENE holds the outer side at 400 kPa and the inner at half, and follows a change of the inner side; R121: RECOVER
returns to INTERVENE at the limit and else counts its ramp. -/
theorem witness_stage_levels :
    let r (x : Stage) : StageRec := { StageRec.reset with stage := x, level := ⟨some 200, some 400, some 200, some 400⟩, ramp := 95 }
    let t := sampled (sampleOf 0) (leaning 204 5850 (-255) (r .intervene))
    let full := calIntervene calm.cal.active
    t.roll.inner = .right ∧ t.roll.stage.stage = .intervene ∧
    (∀ c ∈ allChannels, t.roll.stage.level.get c = some (if channelSide c = .right then full / 2 else full)) ∧
    stageOf (leaning 204 5850 300 (r .recover)) = .intervene ∧
    (sampled (sampleOf 0) (leaning 204 5850 255 (r .recover))).roll.stage.ramp = 100 := by decide +kernel

/-- R112: without an acceleration the sign of LTR decides, and at 0 the side stays. R107: at an age of 50 ms it is absent. -/
theorem witness_inner_side :
    let s (age : Nat) := calm.setRoll { calm.roll with inertial := ⟨some (-300), some 3, some age, true⟩, inner := .right }
    let t (age : Nat) (l : Int) := sampled { sampleOf 0 with bagLeft := .const l } (s age)
    isParked (s 50) = false ∧ (t 50 249).roll.indicator.ay = none ∧ (t 50 249).roll.inner = .left ∧
    (t 50 250).roll.inner = .right ∧ (t 49 249).roll.indicator.ay = some (-300) ∧ (t 49 249).roll.inner = .right ∧
    tableRecord .a (s 50) 5 2 = some ([1#8, 0xFE#8, 0xD4#8, 3#8, 50#8] ++ [0#8]) := by decide +kernel

/-- R130, R133: the timer of a running test grows by 10 ms and t50 is taken at 50 kPa; it is aborted with MOTION above a v_ref of 0. -/
theorem witness_sample_test :
    let s := testing ⟨.ch1, .a, .pulse, 40, none, 0, 0⟩ calm
    let m := testing ⟨.ch1, .a, .pulse, 40, none, 0, 0⟩ (calm.setWheels { calm.wheels with vref := 5 })
    s.tests.holder = .test ⟨.ch1, .a, .pulse, 40, none, 0, 0⟩ ∧ Channel.ch1 ∉ s.tests.queue.map TestRequest.channel ∧
    (sampleResolved (sampleOf 50) s).tests.holder = s.tests.holder ∧
    (sampled (sampleOf 50) s).tests.holder = .test ⟨.ch1, .a, .pulse, 50, some 50, 0, 0⟩ ∧
    (sampled (sampleOf 49) s).tests.holder = .test ⟨.ch1, .a, .pulse, 50, none, 0, 0⟩ ∧
    (sampled (sampleOf 50) m).tests.result.ch1.cause = some .motion := by decide +kernel

/-- R128: of two queued channels that lose their delivery readings at one sample only the head is refused; a head stays, and may start
at a delivery reading of 10 kPa but not of 11. -/
theorem witness_sample_head :
    let s := calm.setTests { calm.tests with queue := [⟨.ch0, .a⟩, ⟨.ch1, .b⟩], headWait := 40 }
    let t := sampled (sampleOf 1101) s
    isRunning s = true ∧ electronic t .ch0 = false ∧ electronic t .ch1 = false ∧ t.tests.queue = [⟨.ch1, .b⟩] ∧
    t.tests.result.ch0.cause = some .notElectronic ∧ t.tests.result.ch1.outcome = none ∧
    (sampled (sampleOf 10) s).tests.queue = s.tests.queue ∧ (sampled (sampleOf 10) s).tests.headDue = true ∧
    (sampled (sampleOf 11) s).tests.headDue = false := by decide +kernel

/-! ## Witnesses: wheels and anti-lock -/

theorem witness_pulse :
    let s := { calm with wheels := { calm.wheels with wheel := .const ⟨none, 199000, 0, true, 0⟩ } }
    (after (.wheelPulse .ch0 999) s).wheels.wheel.ch0.period = some 199999 ∧
    isParked (parked.setWheels s.wheels) = true ∧
    (after (.wheelPulse .ch0 999) (parked.setWheels s.wheels)).standby.wakeReason = some .motion := by decide +kernel

/-- A channel in a skid state, its step due, with a CTRL_A entry of 300 kPa resolved and a delivery reading of 140 kPa. -/
def skidding (k : SkidRec) : State :=
  resolve .ch0 (withSkid .ch0 { k with stepDue := true } (withDelivery .ch0 (some 140) (withEntry .ch0 .ctrlA 300 calm)))

theorem witness_forced_hold :
    let k : SkidRec := { SkidRec.reset with state := .release, timer := 600, forcedCount := 1 }
    ((skidding k).skid.get .ch0).stepDue = true ∧ ((skidding k).skid.get .ch0).state = .release ∧
    (skidding k).front.delivery.get .ch0 = some 140 ∧
    ((after (.skidForcedHold .ch0) (skidding k)).skid.get .ch0).held = some 140 ∧
    ((after (.skidForcedHold .ch0) (skidding { k with forcedCount := 2 })).skid.get .ch0).disabled = true := by
  decide +kernel

theorem witness_hold_timeout :
    let k : SkidRec := { SkidRec.reset with state := .hold, timer := 100, held := some 140 }
    ((skidding k).skid.get .ch0).stepDue = true ∧ ((skidding k).skid.get .ch0).state = .hold ∧
    (channelOf (after (.skidHoldTimeout .ch0) (skidding k)) .ch0).setpoint = 140 := by decide +kernel

/-- R52: steps of 20 kPa up to 280 under 300, and the end of the cycle at the step that would give 300. -/
theorem witness_reapply_step :
    let k : SkidRec := { SkidRec.reset with state := .reapply, timer := 50, held := some 260 }
    let l : SkidRec := { k with held := some 280 }
    ((skidding k).skid.get .ch0).stepDue = true ∧ ((skidding k).demand.summary.get .ch0).largestApply = 300 ∧
    ((after (.skidReapplyStep .ch0) (skidding k)).skid.get .ch0).held = some 280 ∧
    ((after (.skidReapplyStep .ch0) (skidding l)).skid.get .ch0).state = .free := by decide +kernel

/-! ## Witnesses: loads, tyres -/

/-- R63, R66: a bag that fails sets jump pending while the filter is frozen; unfrozen the jump is served and the flag cleared. -/
theorem witness_jump_pending :
    let failed := (calm.setFront { calm.front with bagLeft := .const none }).setLoad { calm.load with sinceUpdate := 100 }
    let braking := onChannel .ch0 (fun r => { r with setpoint := 1 }) failed
    (after .loadUpdate braking).load.axle.ax1.jumpPending = true ∧
    (after .loadUpdate failed).load.axle.ax1.jumpPending = false ∧
    (after .loadUpdate failed).load.axle.ax1.effective = 1000 := by decide +kernel

theorem witness_load_update :
    let s := (calm.setLoad { calm.load with sinceUpdate := 100 }).setSupply { SupplyRec.reset with emergency := true }
    isRunning s = true ∧ 100 ≤ s.load.sinceUpdate ∧ s.supply.emergency = true ∧
    (after .loadUpdate s).load.axle.ax1.instant = 600 ∧ (after .loadUpdate s).load.axle.ax1.effective = 950 ∧
    (entryOf (after .loadUpdate s) .ch1 .emerg).isSome = true := by decide +kernel

/-- The telegram of R184: 840 kPa at 30 °C from ID 0x00C41E07. -/
def telegram : List Byte := [0x00#8, 0xC4#8, 0x1E#8, 0x07#8, 0x05#8, 168#8, 70#8, 0x23#8]

/-- The same with the learn flag set: the check falls by 16. -/
def learnTelegram : List Byte := [0x00#8, 0xC4#8, 0x1E#8, 0x07#8, 0x15#8, 168#8, 70#8, 0x13#8]

/-- The ID of the telegram of R184. -/
def telegramId : Nat := 0x00C41E07

/-- The part with that ID at position 9. -/
def assigned : State := putPosition 9 ⟨some telegramId, none, none⟩ calm

/-- R87: p_comp is 808; the default target is 900, so 808 is below 900 × 922 / 1024 = 810 and the tyre is LOW. -/
theorem witness_telegram_for_position :
    let g := telegramOf telegram
    assigned.tyre.positions.length = 12 ∧ telegram.length = 8 ∧ telegram.getD 7 0#8 = ~~~ (byteSum (telegram.take 7)) ∧
    byteAt telegram 6 ≤ 165 ∧ isDuplicate assigned g = false ∧ isAccepted assigned.cal.active g.sensor = true ∧
    learnTarget assigned g = none ∧ holderOf assigned g.sensor = some 9 ∧
    ((positionOf (after (.tyreTelegram telegram) assigned) 9).data.map TyreData.pComp) = some 808 ∧
    positionCondition (after (.tyreTelegram telegram) assigned) 9 = some .low := by decide +kernel

theorem witness_telegram_of_stranger :
    let g := telegramOf telegram
    calm.tyre.positions.length = 12 ∧ isDuplicate calm g = false ∧ isAccepted calm.cal.active g.sensor = true ∧
    learnTarget calm g = none ∧ holderOf calm g.sensor = none ∧
    (after (.tyreTelegram telegram) calm).tyre.strangers.map Stranger.hits = [1] := by decide +kernel

theorem witness_telegram_learned :
    let s := calm.setTyre { calm.tyre with learn := some ⟨12, 1⟩ }
    let g := telegramOf learnTelegram
    s.tyre.positions.length = 12 ∧ isDuplicate s g = false ∧ isAccepted s.cal.active g.sensor = true ∧
    learnTelegram.getD 7 0#8 = ~~~ (byteSum (learnTelegram.take 7)) ∧ learnTarget s g = some 12 ∧ 12 ∈ allPositions ∧
    (positionOf (after (.tyreTelegram learnTelegram) s) 12).sensor = some telegramId := by decide +kernel

theorem witness_telegram_dropped :
    let s := putPosition 9 ⟨some telegramId, some ⟨5, 1999⟩, none⟩ calm
    s.tyre.positions.length = 12 ∧ isDuplicate s (telegramOf telegram) = true ∧
    (after (.tyreTelegram telegram) s).tyre.positions = s.tyre.positions ∧
    (after (.tyreTelegram (telegram.set 7 0x24#8)) calm).tyre.strangers = [] := by decide +kernel

/-- R97, R90: a CRITICAL telegram (500 kPa) that completes a learn at a position already CRITICAL is a new entry, with its own event. -/
theorem witness_learned_severe :
    let g : List Byte := [0x00#8, 0xC4#8, 0x1E#8, 0x07#8, 0x15#8, 100#8, 70#8, 0x57#8]
    let s := putPosition 9 ⟨some 7, none, some ⟨500, 30, 485, false, true, true, false, 0, false, false⟩⟩
      (linked.setTyre { linked.tyre with learn := some ⟨9, 1⟩ })
    let t := after (.tyreTelegram g) s
    s.tyre.positions.length = 12 ∧ positionCondition s 9 = some .critical ∧ (positionOf t 9).sensor = some telegramId ∧
    positionCondition t 9 = some .critical ∧ t.link.statusQueue.length = 1 := by decide +kernel

/-- R83: the counter of the last telegram is repeated up to 1999 ms, not at 2000. R84: one enabled window accepts its IDs alone. -/
theorem witness_telegram_filters :
    let at_ (age : Nat) := putPosition 9 ⟨some telegramId, some ⟨5, age⟩, none⟩ calm
    let windows (v : Nat) := assigned.setCal { calm.cal with active :=
      ((((defaultWords.set 40 1).set 41 0x00C4).set 42 v).set 43 0xFFFF).set 44 0xFFFF }
    (positionOf (after (.tyreTelegram telegram) (at_ 1999)) 9).data = none ∧
    ((positionOf (after (.tyreTelegram telegram) (at_ 2000)) 9).data).isSome = true ∧
    ((positionOf (after (.tyreTelegram telegram) (windows 0x1E07)) 9).data).isSome = true ∧
    (positionOf (after (.tyreTelegram telegram) (windows 0x1E08)) 9).data = none := by decide +kernel

/-- R89: p_comp 808 against 823 of data 120 s old is a fall of 15 kPa and sets leak; against 822, or of 121 s, it does not. -/
theorem witness_leak :
    let t (p sec : Nat) := after (.tyreTelegram telegram)
      (putPosition 9 ⟨some telegramId, none, some ⟨p, 20, p, false, false, false, false, sec * 1000, false, false⟩⟩ calm)
    let leak (p sec : Nat) := (positionOf (t p sec) 9).data.map TyreData.leak
    leak 823 120 = some true ∧ leak 822 120 = some false ∧ leak 823 121 = some false := by decide +kernel

theorem witness_learn_timeout :
    let s := calm.setTyre { calm.tyre with learn := some ⟨1, 0⟩ }
    s.tyre.learn = some ⟨1, 0⟩ ∧ (after .learnTimeout s).tyre.learnOutcome = some .timeout ∧
    (after .learnTimeout s).portA.attention.learnOutcome = true := by decide +kernel

theorem witness_stale :
    let d : TyreData := ⟨850, 20, 850, false, false, false, false, 600000, false, false⟩
    let s := putPosition 12 ⟨some 7, none, some d⟩ calm
    s.tyre.positions.length = 12 ∧ 12 ∈ allPositions ∧ (positionOf s 12).data = some d ∧ 600000 ≤ d.ageMs ∧
    d.stale = false ∧ ((positionOf (after (.tyreStale 12) s) 12).data.map TyreData.stale) = some true := by decide +kernel

/-! ## Witnesses: rollover -/

/-- An inertial sample of +1500 with counter 3. -/
def inertialBytes : List Byte := [0x05#8, 0xDC#8, 0x03#8, crc8 [0x05#8, 0xDC#8, 0x03#8]]

theorem witness_inertial_taken :
    inertialBytes.length = 4 ∧ inertialBytes.getD 3 0#8 = crc8 (inertialBytes.take 3) ∧
    calm.roll.inertial.counter ≠ some 3 ∧
    (after (.inertialSample inertialBytes) calm).roll.inertial = ⟨some 1500, some 3, some 0, true⟩ := by decide +kernel

theorem witness_inertial_dropped :
    let s := calm.setRoll { calm.roll with inertial := ⟨some 0, some 3, some 20, true⟩ }
    s.roll.inertial.counter = some 3 ∧
    (after (.inertialSample inertialBytes) s).roll.inertial = s.roll.inertial := by decide +kernel

theorem witness_inertial_age :
    let s := calm.setRoll { calm.roll with inertial := ⟨some 9, some 3, some 50, true⟩ }
    s.roll.inertial.available = true ∧ s.roll.inertial.age = some 50 ∧ s.faults.length = faultCount ∧
    (after .inertialAgeExpiry s).roll.inertial = ⟨some 9, some 3, some 50, false⟩ := by decide +kernel

/-- R108 to R112: 300 of acceleration over a threshold of 300 is a risk of 1024, and a positive sign points LEFT. -/
theorem witness_indicators :
    let s := (after (.pinReset) calm).setRoll { calm.roll with inertial := ⟨some 300, some 3, some 0, true⟩, inner := .right }
    isParked s = false ∧ s.cal.staging.state ≠ .armed ∧
    (after (.pressureSample (sampleOf 0)) s).roll.indicator.risk = some 1024 ∧
    (after (.pressureSample (sampleOf 0)) s).roll.inner = .left := by decide +kernel

theorem witness_stage_off :
    let x := { sampleOf 0 with bagLeft := .const (-1) }
    isParked calm = false ∧ calm.cal.staging.state ≠ .armed ∧ isRunning calm = true ∧ calm.roll.stage.stage ≠ .off ∧
    (after (.pressureSample x) calm).roll.indicator.risk = none ∧
    (after (.pressureSample x) calm).roll.stage.stage = .off := by decide +kernel

/-- R114: a PROBE that finds no indicator gives back its ROLL entry and the generator, and the hold-off runs on. -/
theorem witness_stage_off_probe :
    let r : StageRec := { StageRec.reset with
      stage := .probe, probed := some .left, probeTimer := 90, holdOff := 30, level := ⟨some 100, none, some 100, none⟩ }
    let s := withEntry .ch0 .roll 100 (withStage r (calm.setTests { calm.tests with holder := .probe }))
    let t := sampled { sampleOf 0 with bagLeft := .const (-1) } s
    isParked s = false ∧ isRunning s = true ∧ t.roll.indicator.risk = none ∧ entryOf t .ch0 .roll = none ∧
    t.tests.holder = .free ∧ t.roll.stage = { StageRec.reset with stage := .off, holdOff := 20 } ∧
    (sampled { sampleOf 0 with bagLeft := .const (-1) } t).roll.stage.holdOff = 10 := by decide +kernel

theorem witness_calm_to_quiet :
    let s := withStage { StageRec.reset with stage := .watch, calm := some 300 } calm
    isRunning s = true ∧ s.roll.stage.stage = .watch ∧ 300 ≤ runMs s.roll.stage.calm ∧
    (after .rolloverCalmToQuiet s).roll.stage.stage = .quiet := by decide +kernel

theorem witness_probe_timeout :
    let s := withStage { StageRec.reset with stage := .probe, probed := some .left, probeTimer := 300 }
      (calm.setTests { calm.tests with holder := .probe })
    isRunning s = true ∧ s.roll.stage.stage = .probe ∧ 300 ≤ s.roll.stage.probeTimer ∧ s.tests.holder = .probe ∧
    (after .probeTimeout s).tests.holder = .free ∧ (after .probeTimeout s).roll.stage.holdOff = 1000 := by decide +kernel

theorem witness_intervene_end :
    let s := withStage { StageRec.reset with
      stage := .intervene, minTimer := 500, calm := none, level := .const (some 400) } calm
    isRunning s = true ∧ s.roll.stage.stage = .intervene ∧ 500 ≤ s.roll.stage.minTimer ∧ s.wheels.gating < 200 ∧
    (after .interveneEnd s).roll.stage.stage = .recover := by decide +kernel

theorem witness_recover_step :
    let s (n : Nat) := withStage { StageRec.reset with stage := .recover, ramp := 100, level := .const (some n) } calm
    isRunning (s 51) = true ∧ (s 51).roll.stage.stage = .recover ∧ 100 ≤ (s 51).roll.stage.ramp ∧
    (after .recoverStep (s 51)).roll.stage.level.ch2 = some 1 ∧ (after .recoverStep (s 50)).roll.stage.stage = .quiet := by
  decide +kernel

/-! ## Witnesses: chamber response tests -/

theorem witness_test_start :
    let s := withDelivery .ch3 (some 10) (calm.setTests { calm.tests with
      queue := [⟨.ch3, .b⟩], headDue := true, headWait := 9999 })
    s.tests.queue = [⟨.ch3, .b⟩] ∧ s.tests.headDue = true ∧ s.tests.headWait < 10000 ∧ s.tests.holder = .free ∧
    electronic s .ch3 = true ∧ (channelOf s .ch3).setpoint = 0 ∧ s.front.delivery.get .ch3 = some 10 ∧
    s.wheels.vref = 0 ∧ s.roll.stage.stage = .quiet ∧ (channelOf (after .testStart s) .ch3).inlet = .held := by
  decide +kernel

theorem witness_test_head_timeout :
    let s := calm.setTests { calm.tests with queue := [⟨.ch3, .b⟩], headDue := true, headWait := 10000 }
    s.tests.queue = [⟨.ch3, .b⟩] ∧ s.tests.headDue = true ∧ 10000 ≤ s.tests.headWait ∧
    (after .testHeadTimeout s).portB.attention.testResult = true := by decide +kernel

theorem witness_test_phases :
    let p := withDelivery .ch1 (some 200) (testing ⟨.ch1, .a, .pulse, 150, some 60, 0, 0⟩ calm)
    let q := withDelivery .ch1 (some 190) (testing ⟨.ch1, .a, .settle, 250, some 60, 200, 0⟩ calm)
    p.front.delivery.get .ch1 = some 200 ∧ (after .testPulseEnd p).tests.holder = .test ⟨.ch1, .a, .settle, 150, some 60, 200, 0⟩ ∧
    (after .testSettleEnd q).tests.holder = .test ⟨.ch1, .a, .vent, 250, some 60, 200, 190⟩ := by decide +kernel

/-- R131: p_hold 160 is not below 200 - 40, 159 is; t50 of 10 ms is BLOCKED; no t50 below 20 kPa is OPEN. -/
theorem witness_test_outcomes :
    let s (t50 : Option Nat) (e h n : Nat) := testing ⟨.ch1, .a, .vent, n, t50, e, h⟩ calm
    let out (x : State) := (after .testVentEnd x).tests.result.ch1.outcome
    (s none 19 0 260).front.delivery.get .ch1 = some 0 ∧ 250 < 260 ∧
    Channel.ch1 ∉ (s none 19 0 260).tests.queue.map TestRequest.channel ∧
    out (s none 19 0 260) = some .opened ∧ out (s (some 10) 200 200 750) = some .blocked ∧
    out (s (some 60) 200 159 260) = some .leaking ∧ out (s (some 60) 200 160 260) = some .normal ∧
    (channelOf (after .testVentEnd (s (some 60) 200 160 260)) .ch1).volumeClass = some 3 := by decide +kernel


/-! ## Witnesses: controller ports -/

/-- R165: the transfer shifts out the response that was pending; R166: STANDBY from Port B is DENIED. -/
theorem witness_port_answer :
    let t := after (.standby .b) calm
    portCommand (.standby .b) = some (.b, 14) ∧ permitted calm (.standby .b) = false ∧
    t.portB.pending = ⟨14, .denied, []⟩ ∧ t.portB.shiftedOut = some ⟨0, .ok, []⟩ := by decide +kernel

/-- R178: a refused transfer wakes a PARKED part for reason PORT. -/
theorem witness_port_wake :
    let t := after (.postApply .a 1 100 100) parked
    isParked parked = true ∧ responseCode parked (.postApply .a 1 100 100) = .notNow ∧
    t.portA.pending.code = .notNow ∧ t.standby.opState = .starting ∧ t.standby.wakeReason = some .port ∧
    (channelOf t .ch3).causes.startup = true := by decide +kernel

/-- R166: check 1 comes before check 2, and check 2 before check 3. -/
theorem witness_check_order :
    responseCode calm (.tyreLearn .b 13) = .denied ∧ responseCode calm (.tyreLearn .a 13) = .badArg ∧
    responseCode calm (.tyreLearn .a 12) = .ok ∧ responseCode calm (.calConfirm .a 0) = .notNow := by decide +kernel

/-- R165 and R180: the record of table 12 is one part long; a channel record reaches part 1 only when it is longer than 13 bytes. -/
theorem witness_read :
    let t := after (.read .a 12 0 0) calm
    (tableRecord .a calm 12 0).isSome = true ∧ t.portA.pending.code = .ok ∧ t.portA.pending.record.length = 13 ∧
    (after (.read .a 0 4 0) calm).portA.pending.code = .badArg ∧ (after (.noCommand .b) calm).portB.pending = ⟨0, .ok, []⟩ ∧
    (after (.badCommandFrame .b) calm).portB.pending = ⟨0, .badArg, []⟩ := by decide +kernel

/-- The number of parts that a record has: its last part is read, the one after is BAD_ARG. -/
theorem witness_read_parts :
    let n := ((tableRecord .a calm 8 70).getD []).length
    0 < n ∧ responseCode calm (.read .a 8 70 ((n - 1) / 13)) = .ok ∧
    responseCode calm (.read .a 8 70 ((n - 1) / 13 + 1)) = .badArg ∧ responseCode calm (.read .a 8 71 0) = .badArg := by
  decide +kernel

/-- R1, R40 and R180: CH2 after reset is BACKUP for STARTUP, setpoint 0, no delivery reading, HOLDING, no class, tracking 0, not
supply-limited; no pulse period and an age of 200000 µs. -/
theorem witness_channel_record :
    (tableRecord .a State.reset 0 2).map (fun r => r.take 17) = some [1#8, 1#8, 0#8, 0#8, 255#8, 255#8, 2#8, 255#8, 0#8, 0#8,
      1#8, 255#8, 255#8, 255#8, 0x03#8, 0x0D#8, 0x40#8] := by decide +kernel

theorem witness_read_attention :
    let s := (refreshFaults calm).setPortA { PortUnit.reset with attention := ⟨false, true, false, false, true⟩ }
    isParked s = false ∧ s.faults.map FaultRec.live = liveList s ∧
    (after (.readAttention .a 0 0) s).portA.attention = Attention.empty ∧
    (after (.readAttention .a 0 0) s).portA.pending.record.take 2 ≠ [0#8, 0#8] := by decide +kernel

/-- R24: level 1001 becomes 1000, a lifetime of 19 ms becomes 20 and one of 1001 becomes 1000; mask 1 names CH0 alone. -/
theorem witness_posts :
    entryOf (after (.postApply .a 1 1001 19) calm) .ch0 .ctrlA = some ⟨1000, some 20, none⟩ ∧
    entryOf (after (.postApply .a 1 1001 19) calm) .ch1 .ctrlA = none ∧
    entryOf (after (.postLimit .b 15 1000 1001) calm) .ch3 .ctrlB = some ⟨1000, some 1000, none⟩ ∧
    entryOf (after (.withdraw .a 15) (withEntry .ch3 .ctrlA 300 calm)) .ch3 .ctrlA = none ∧ isParked calm = false := by
  decide +kernel

/-- R37: an APPLY of 500 under a LIMIT of 200 resolves to 200. -/
theorem witness_limit_wins :
    (channelOf (after (.postLimit .b 1 200 500) (after (.postApply .a 1 500 500) calm)) .ch0).setpoint = 200 := by
  decide +kernel

theorem witness_force_backup :
    let t := after (.forceBackup .a 1) calm
    electronic calm .ch0 = true ∧ electronic t .ch0 = false ∧ electronic t .ch1 = true ∧
    (channelOf t .ch0).backupValve = false := by decide +kernel

/-- R7: with D at 14 kPa FORCED goes and the channel is energised; at 15 the command is NOT_NOW. -/
theorem witness_restore :
    let s (d : Nat) := withDriver { DriverRec.reset with linkPresent := true, demand := d } (after (.forceBackup .b 15) calm)
    (s 14).driver.demand < 15 ∧ electronic (s 14) .ch3 = false ∧
    (channelOf (after (.restore .b 15) (s 14)) .ch3).backupValve = true ∧
    (after (.restore .b 15) (s 15)).portB.pending.code = .notNow := by decide +kernel

theorem witness_request_test :
    let q : List TestRequest := [⟨.ch0, .a⟩, ⟨.ch1, .a⟩, ⟨.ch2, .b⟩]
    let s := calm.setTests { calm.tests with queue := q, headWait := 70 }
    isParked s = false ∧ s.tests.queue.any (fun r => r.channel == .ch3) = false ∧ underTest s .ch3 = false ∧
    (after (.requestTest .b 3) s).tests.queue.length = 4 ∧ (after (.requestTest .b 2) s).portB.pending.code = .already := by
  decide +kernel

theorem witness_cancel_queued :
    let s := calm.setTests { calm.tests with queue := [⟨.ch2, .b⟩], headWait := 70 }
    s.tests.queue.find? (fun r => r.channel == .ch2) = some ⟨.ch2, .b⟩ ∧ underTest s .ch2 = false ∧
    (after (.cancelTest .a 2) s).tests.queue = [] ∧ (after (.cancelTest .a 2) s).portB.attention.testResult = true := by
  decide +kernel

theorem witness_cancel_running :
    let s := testing ⟨.ch2, .b, .pulse, 40, none, 0, 0⟩ calm
    s.tests.holder = .test ⟨.ch2, .b, .pulse, 40, none, 0, 0⟩ ∧
    (after (.cancelTest .a 2) s).tests.holder = .free ∧ (channelOf (after (.cancelTest .a 2) s) .ch2).exhaust = .held := by
  decide +kernel

theorem witness_cancel_none :
    calm.tests.queue.any (fun r => r.channel == .ch3) = false ∧ underTest calm .ch3 = false ∧
    (after (.cancelTest .b 3) calm).portB.pending = ⟨7, .ok, []⟩ ∧
    (after (.cancelTest .b 3) calm).tests = calm.tests := by decide +kernel

theorem witness_tyre_learn :
    calm.tyre.positions.length = 12 ∧ 12 ∈ allPositions ∧ 1 ∈ allPositions ∧ calm.tyre.learn = none ∧
    (after (.tyreLearn .a 12) calm).tyre.learn = some ⟨12, 120000⟩ := by decide +kernel

/-- R99: an ID that position 9 held moves to position 1, and a learn at position 1 is cancelled. -/
theorem witness_tyre_assign :
    let s := assigned.setTyre { assigned.tyre with learn := some ⟨1, 5⟩ }
    let t := after (.tyreAssign .a 1 telegramId) s
    s.tyre.positions.length = 12 ∧ (positionOf s 1).sensor ≠ some telegramId ∧ positionOf t 1 = ⟨some telegramId, none, none⟩ ∧
    positionOf t 9 = PositionRec.empty ∧ t.tyre.learnOutcome = some .cancelled := by decide +kernel

theorem witness_tyre_adopt :
    let s := after (.tyreTelegram telegram) calm
    let t := after (.tyreAdopt .a 12 0) s
    s.tyre.positions.length = 12 ∧ (s.tyre.strangers[0]?).isSome = true ∧ (positionOf t 12).sensor = some telegramId ∧
    t.tyre.strangers = [] := by decide +kernel

/-- R90, R178: in PARKED an adoption of a CRITICAL reading wakes the part for reason TYRE, also at a position that was CRITICAL. -/
theorem witness_adopt_wakes :
    let s := putPosition 12 ⟨some 7, none, some ⟨500, 30, 485, false, true, true, false, 0, false, false⟩⟩
      (parked.setTyre { parked.tyre with strangers := [⟨9, 500, 30, 1, 0, 1, 0⟩] })
    let t := after (.tyreAdopt .a 12 0) s
    (s.tyre.strangers[0]?).isSome = true ∧ positionCondition t 12 = some .critical ∧ t.standby.wakeReason = some .tyre := by
  decide +kernel

theorem witness_tyre_clear :
    positionOf (after (.tyreClear .a 9) assigned) 9 = PositionRec.empty ∧ (positionOf assigned 9).sensor = some telegramId := by
  decide +kernel

theorem witness_link_enable :
    let s := onPort .up (fun r => { r with state := .ready, credits := Credits.zero }) linked
    s.link.up.state = .ready ∧ (after (.linkEnable .a) s).link.up.state = .active ∧
    (after (.linkEnable .a) s).link.up.credits = ⟨2, 8, 4⟩ ∧ calm.link.up.state ≠ .ready ∧
    (after (.linkEnable .a) calm).link.enable = .enabled := by decide +kernel

theorem witness_link_disable :
    linked.link.up.state ≠ .down ∧ (after (.linkDisable .a) linked).link.up.state = .down ∧
    (after (.linkDisable .a) linked).link.down.lastDrop = some .upstreamDown ∧ calm.link.up.state = .down ∧
    (after (.linkDisable .a) calm).link.enable = .disabled := by decide +kernel

/-- R175: the reasons in order, and the last of them an attention flag of Port A. -/
theorem witness_park_refused :
    parkReason State.reset = some 0 ∧ parkReason linked = some 1 ∧
    parkReason (calm.setWheels { calm.wheels with vref := 1 }) = some 2 ∧
    parkReason (onChannel .ch3 (fun r => { r with setpoint := 1 }) calm) = some 3 ∧
    parkReason (calm.setPortA { PortUnit.reset with attention := { Attention.empty with wakeReason := true } }) = some 6 ∧
    (after (.standby .a) linked).portA.pending = ⟨14, .notNow, [1#8]⟩ := by decide +kernel

theorem witness_parked :
    let t := after (.standby .a) calm
    parkReason calm = none ∧ t.standby.opState = .parked ∧ electronic t .ch0 = false ∧ t.roll.stage.stage = .off ∧
    t.link.up.lastDrop = some .parked ∧ t.portA.pending.code = .ok := by decide +kernel

/-- R169, R171: a latch whose fault is not live is cleared in the sender's view alone. -/
theorem witness_views :
    let s := refreshFaults (calm.setFaults (calm.faults.set 45 ⟨false, true, true, true⟩))
    s.faults.map FaultRec.live = liveList s ∧ isParked s = false ∧
    faultOf (after (.clearFaults .b) s) 45 = ⟨false, true, false, true⟩ ∧
    (after (.clearFaults .b) s).portB.attention = s.portB.attention ∧
    faultOf (after (.portSync .a) s) 45 = ⟨false, false, true, true⟩ := by decide +kernel

theorem witness_port_sync :
    let s := refreshFaults (staged { openA with claimant := some .b } (withEntry .ch1 .ctrlB 90 calm))
    s.faults.map FaultRec.live = liveList s ∧ s.cal.staging.claimant = some .b ∧ s.cal.staging.state = .opened ∧
    (after (.portSync .b) s).cal.staging.lastOutcome = some .discarded ∧ entryOf (after (.portSync .b) s) .ch1 .ctrlB = none ∧
    (after (.portSync .a) s).cal.staging = s.cal.staging ∧ (after (.portSync .b) s).portA.attention.calOutcome = true := by
  decide +kernel

/-- R133, R171: a PORT_SYNC of B that lets the setpoint of a channel under Port A's test rise aborts it, and only Port A's result flag
is raised. -/
theorem witness_port_sync_other :
    let e := withEntry .ch1 .ctrlA 90 (putEntry calm .ch1 .ctrlB (some ⟨0, some 500, none⟩))
    let s := refreshFaults (testing ⟨.ch1, .a, .pulse, 40, none, 0, 0⟩ e)
    let t := after (.portSync .b) s
    s.faults.map FaultRec.live = liveList s ∧ s.tests.holder = .test ⟨.ch1, .a, .pulse, 40, none, 0, 0⟩ ∧
    t.tests.holder = .free ∧ t.portA.attention = { s.portA.attention with testResult := true } := by decide +kernel

theorem witness_port_sync_learn :
    let s := refreshFaults (calm.setTyre { calm.tyre with learn := some ⟨1, 5⟩ })
    s.faults.map FaultRec.live = liveList s ∧ s.tyre.learn ≠ none ∧
    (after (.portSync .a) s).tyre.learnOutcome = some .cancelled ∧
    (after (.portSync .b) s).tyre.learn = some ⟨1, 5⟩ := by decide +kernel

/-! ## Witnesses: calibration -/

theorem witness_cal_begin :
    calm.cal.staging.state = .free ∧ (after (.calBegin .b) calm).cal.staging.content = defaultWords ∧
    (after (.calBegin .b) calm).cal.staging.claimant = some .b := by decide +kernel

/-- R158: six words from index 66 reach index 68, three are ignored, and the pointer stops at 69. -/
theorem witness_cal_write :
    let s := staged { openA with pointer := 66, idleTimer := 9 } calm
    let t := after (.calWrite .a 6 [1, 2, 3, 4, 5, 65535]) s
    s.cal.staging.state = .opened ∧ s.cal.staging.claimant = some .a ∧ s.cal.staging.content.length = 69 ∧
    t.cal.staging.content.drop 66 = [1, 2, 3] ∧ t.cal.staging.pointer = 69 ∧ t.portA.pending.record = [69#8] ∧
    t.cal.staging.idleTimer = 0 := by decide +kernel

theorem witness_cal_write_past_the_end :
    let s := staged { openA with pointer := 69 } calm
    (after (.calWrite .a 1 [7]) s).cal.staging.content = defaultWords ∧
    (after (.calWrite .a 1 [7]) s).cal.staging.pointer = 69 ∧
    (after (.calWrite .a 1 [7]) (staged { openA with pointer := 255 } calm)).cal.staging.pointer = 255 ∧
    (after (.calPointer .a 255) s).cal.staging.pointer = 255 := by decide +kernel

theorem witness_cal_read :
    let s := staged openA calm
    s.cal.staging.state ≠ .free ∧ s.cal.staging.content.length = 69 ∧
    (after (.calRead .b 68 2) s).portB.pending.code = .ok ∧
    (after (.calRead .b 68 2) s).portB.pending.record = bytes16 (defaultWords.getD 68 0) ++ [0#8, 0#8] := by decide +kernel

theorem witness_cal_seal :
    let s := staged openA calm
    sealFailure s.cal.staging.content = none ∧ (after (.calSeal .a) s).cal.staging.state = .sealed ∧
    (after (.calSeal .a) s).portA.pending.code = .ok := by decide +kernel

theorem witness_cal_seal_fails :
    let s := staged { openA with content := defaultWords.set 12 150 } calm
    sealFailure s.cal.staging.content = some 12 ∧ (after (.calSeal .a) s).portA.pending = ⟨19, .badArg, [12#8]⟩ ∧
    (after (.calSeal .a) s).cal.staging.state = .opened := by decide +kernel

/-- R160, R163: the other port's confirmation applies the set at a safe point, and arms it with a setpoint standing. -/
theorem witness_cal_confirm :
    let s := staged sealedA calm
    let b := onChannel .ch0 (fun r => { r with setpoint := 1 }) s
    s.cal.staging.state = .sealed ∧ s.cal.staging.claimant ≠ some .b ∧ s.cal.staging.sealedCheck = some defaultCheck ∧
    safePoint s = true ∧ (after (.calConfirm .b defaultCheck) s).cal.generation = 1 ∧ safePoint b = false ∧
    (after (.calConfirm .b defaultCheck) b).cal.staging.state = .armed := by decide +kernel

theorem witness_cal_mismatch :
    let t := after (.calConfirm .b (defaultCheck - 1)) (staged sealedA calm)
    (staged sealedA calm).cal.staging.sealedCheck ≠ some (defaultCheck - 1) ∧ t.cal.staging.lastOutcome = some .mismatch ∧
    (faultOf t 45).latchU = true := by decide +kernel

theorem witness_cal_abandon :
    (staged armedA calm).cal.staging.state = .armed ∧
    (after (.calAbandon .b) (staged armedA calm)).cal.staging.lastOutcome = some .abandoned ∧
    (staged openA calm).cal.staging.state ≠ .free ∧ (staged openA calm).cal.staging.claimant = some .a ∧
    (after (.calAbandon .a) (staged openA calm)).cal.staging.state = .free := by decide +kernel

/-- R163: an armed set is applied at a sample with a control pressure of 14 kPa and waits at one of 15. -/
theorem witness_armed :
    let s := staged armedA calm
    s.cal.staging.state = .armed ∧ s.cal.staging.sealedCheck ≠ none ∧
    (after (.pressureSample { sampleOf 0 with control := 14 }) s).cal.generation = 1 ∧
    (after (.pressureSample { sampleOf 0 with control := 15 }) s).cal.staging = armedA := by decide +kernel

/-- R163: it waits under a setpoint, in WATCH and under a running test; applied in PARKED it sets the wake timer anew (word 68 is 0). -/
theorem witness_armed_waits :
    let waits (s : State) : Bool := (sampled (sampleOf 0) (staged armedA s)).cal.staging == armedA
    waits asking = true ∧ waits (leaning 0 5850 210 { StageRec.reset with stage := .quiet }) = true ∧
    waits (testing ⟨.ch1, .a, .pulse, 40, none, 0, 0⟩ calm) = true ∧ waits calm = false ∧
    (sampled (sampleOf 0) (staged armedA parked)).standby.wakeTimer = none := by decide +kernel

/-- R158: a claimant's command refused in OPEN starts the idle timer again; R160: a wrong confirmation in SEALED discards the set. -/
theorem witness_refused_staging :
    let s := staged { openA with idleTimer := 9 } calm
    responseCode s (.calPointer .a 256) = .badArg ∧
    (after (.calPointer .a 256) s).cal.staging = { openA with idleTimer := 0 } ∧
    responseCode s (.calPointer .b 0) = .denied ∧ (after (.calPointer .b 0) s).cal.staging = { openA with idleTimer := 9 } ∧
    responseCode (staged sealedA calm) (.calConfirm .b 1) = .badArg ∧
    (after (.calConfirm .b 1) (staged sealedA calm)).cal.staging.lastOutcome = some .mismatch := by decide +kernel

/-- R163, R91, R104, R178: an apply in PARKED whose new targets make a tyre CRITICAL wakes the part, and the wake timer is absent
(R177); the new words 34 to 39 hold the targets. -/
theorem witness_armed_wakes :
    let hard := staged { armedA with content := (((defaultWords.set 34 1200).set 35 1200).set 68 5) } parked
    let tyre : TyreData := ⟨800, 20, 800, false, false, false, false, 0, false, false⟩
    let s := putPosition 1 ⟨some 7, none, some tyre⟩ hard
    let t := sampled (sampleOf 0) s
    isParked s = true ∧ (sampled (sampleOf 0) hard).standby.wakeTimer = some 300000 ∧ isParked t = false ∧
    t.standby.wakeReason = some .tyre ∧ t.standby.wakeTimer = none := by decide +kernel

/-! ## Witnesses: start-up, wake and timeouts -/

theorem witness_starting :
    let s := withDelivery .ch0 (some 0) (State.reset.setStandby { State.reset.standby with startingTimer := 200 })
    s.standby.opState = .starting ∧ 200 ≤ s.standby.startingTimer ∧
    (after .startingTimerExpiry s).standby.opState = .running ∧
    (channelOf (after .startingTimerExpiry s) .ch0).causes.deliverySensor = false ∧
    (channelOf (after .startingTimerExpiry s) .ch1).causes.deliverySensor = true := by decide +kernel

theorem witness_wake_timer :
    isParked parked = true ∧ parked.standby.wakeTimer = some 0 ∧
    (after .wakeTimerExpiry parked).standby.wakeReason = some .timer := by decide +kernel

theorem witness_cal_timeouts :
    let o := staged { openA with idleTimer := 30000 } calm
    let x := staged { sealedA with sealTimer := 5000 } calm
    o.cal.staging.state = .opened ∧ 30000 ≤ o.cal.staging.idleTimer ∧
    (faultOf (after .calIdleTimeout o) 46).latchA = true ∧ x.cal.staging.state = .sealed ∧
    5000 ≤ x.cal.staging.sealTimer ∧ (after .calSealTimeout x).cal.staging.lastOutcome = some .timeout := by decide +kernel

/-! ## Witnesses: bringing a link up and down -/

theorem witness_line_activity :
    isParked calm = false ∧ calm.link.up.state = .down ∧ calm.link.up.holdOff = 0 ∧ calm.link.up.holdOffRunning = false ∧
    (after (.lineActivity .up) calm).link.up.state = .settle ∧ isParked parked = true ∧
    (after (.lineActivity .up) parked).standby.wakeReason = some .link ∧
    (after (.lineActivity .down) parked).standby.opState = .parked := by decide +kernel

theorem witness_line_loss :
    linked.link.down.state ≠ .down ∧ (after (.lineLoss .down) linked).link.down.lastDrop = some .lineLoss ∧
    (after (.lineLoss .down) linked).link.up.state = .active ∧ calm.link.up.state = .down ∧
    (after (.lineLoss .up) calm).link.up.lastDrop = none := by decide +kernel

theorem witness_hold_off_over :
    let s := onPort .down (fun _ => { PortRec.reset with activity := true, holdOffRunning := true, errorHoldOff := true }) calm
    let q := onPort .up (fun _ => { PortRec.reset with holdOffRunning := true }) calm
    (linkPort s .down).holdOffRunning = true ∧ (linkPort s .down).holdOff = 0 ∧ (linkPort s .down).state = .down ∧
    (linkPort s .down).activity = true ∧ (after (.linkHoldOffExpiry .down) s).link.down.state = .settle ∧
    (linkPort q .up).activity = false ∧ (after (.linkHoldOffExpiry .up) q).link.up.state = .down := by decide +kernel

theorem witness_settled :
    let s := onPort .up (fun _ => { PortRec.reset with state := .settle, settleTimer := 200 }) calm
    let d := onPort .down (fun _ => { PortRec.reset with state := .settle, settleTimer := 200 }) linked
    s.link.up.state = .settle ∧ 200 ≤ s.link.up.settleTimer ∧ (after .settleExpiry s).link.up.state = .train ∧
    d.link.down.state = .settle ∧ 200 ≤ d.link.down.settleTimer ∧ d.link.ownPosition ≠ none ∧ d.link.up.state = .active ∧
    (after .downstreamTrainStart d).link.down.attempt = some ⟨1, 0⟩ := by decide +kernel

/-- The upstream port in TRAIN, with an attempt. -/
def training (a : Attempt) : State :=
  onPort .up (fun _ => { PortRec.reset with state := .train, attempt := some a }) calm

theorem witness_train_send :
    (linkPort (training ⟨1, 299⟩) .up).state = .train ∧ (linkPort (training ⟨1, 299⟩) .up).attempt = some ⟨1, 299⟩ ∧
    (linkPort (training ⟨1, 299⟩) .up).sendTimer = 0 ∧
    ((after (.trainFrameSend .up) (training ⟨1, 299⟩)).link.up.lastSent.map LinkFrame.payload) =
      some [1#8, 0#8, 1#8, 4#8, 2#8, 0#8] := by decide +kernel

theorem witness_train_attempts :
    (linkPort (training ⟨2, 300⟩) .up).attempt = some ⟨2, 300⟩ ∧
    (after (.trainAttemptTimeout .up) (training ⟨2, 300⟩)).link.up.attempt = some ⟨3, 0⟩ ∧
    (after (.trainAttemptTimeout .up) (training ⟨3, 300⟩)).link.up.lastDrop = some .trainFailed ∧
    (after (.trainAttemptTimeout .up) (training ⟨3, 300⟩)).link.up.holdOff = 5000 := by decide +kernel

/-- R138: an offer of 6 is in range and one of 7 is not; R137: a depth of 0 fails the attempt. -/
theorem witness_train_received :
    let s := training ⟨3, 10⟩
    let zero : LinkFrame := frame 0 15 [0#8, 6#8, 0#8, 4#8, 2#8, 1#8]
    (trainOf 0 6 1).kind = 0 ∧ frameBad (trainOf 0 6 1) = false ∧
    (after (.trainFrameReceived .up (trainOf 0 6 1)) s).link.ownPosition = some 6 ∧
    (after (.trainFrameReceived .up (trainOf 0 7 1)) s).link.up.lastDrop = some .positionRange ∧
    (after (.trainFrameReceived .up zero) s).link.up.lastDrop = some .trainFailed ∧
    (after (.trainFrameReceived .up zero) (training ⟨2, 10⟩)).link.up.attempt = some ⟨3, 0⟩ ∧
    (after (.trainFrameReceived .up (trainOf 0 1 0)) s).link.up.heard = true ∧
    (after (.trainFrameReceived .up (trainOf 1 1 1)) s).link.up = s.link.up := by decide +kernel

/-- R139: a set of enable AUTO completes to READY or ACTIVE by word 67; DISABLED always to READY. -/
theorem witness_train_completed :
    let s := onLink (fun k => { k with enable := .disabled }) (training ⟨1, 10⟩)
    let e := onLink (fun k => { k with enable := .enabled }) (training ⟨1, 10⟩)
    (after (.trainFrameReceived .up (trainOf 0 2 1)) s).link.up.state = .ready ∧
    (after (.trainFrameReceived .up (trainOf 0 2 1)) e).link.up.state = .active ∧
    (after (.trainFrameReceived .up (trainOf 0 2 1)) e).link.up.credits = ⟨1, 4, 2⟩ ∧
    (after (.trainFrameReceived .up (trainOf 0 2 1)) e).link.statusQueue.any isPeriodic = true := by decide +kernel

theorem witness_train_restart :
    let s := onPort .up (fun r => { r with state := .ready, credits := Credits.zero }) linked
    let tooMany : LinkFrame := { trainOf 0 2 1 with returns := ⟨0, 0, 2⟩ }
    let most := onPort .up (fun r => { r with credits := ⟨2, 8, 3⟩ }) linked
    (after (.trainFrameReceived .up (trainOf 0 2 0)) s).link.up.lastDrop = some .partnerRestart ∧
    (after (.trainFrameReceived .up (trainOf 0 2 1)) s).link.up.state = .ready ∧
    (after (.trainFrameReceived .up (trainOf 0 2 0)) linked).link.up.lastDrop = some .partnerRestart ∧
    (after (.trainFrameReceived .up tooMany) linked).link.up.credits = ⟨1, 1, 3⟩ ∧
    (after (.trainFrameReceived .up tooMany) most).link.up.lastDrop = some .creditError := by decide +kernel

theorem witness_bad_frames :
    let s (n : Nat) := onPort .up (fun r => { r with errorCount := n }) linked
    ((linkPort (s 6) .up).state = .active) ∧ (after (.linkBadFrame .up) (s 6)).link.up.errorCount = 7 ∧
    (after (.linkBadFrame .up) (s 7)).link.up.lastDrop = some .linkErrors ∧
    (after (.linkBadFrame .up) (s 7)).link.up.holdOff = 5000 ∧ calm.link.up.state = .down ∧
    (after (.linkBadFrame .up) calm).link.up.errorCount = 0 := by decide +kernel

theorem witness_decay :
    let s := onPort .up (fun r => { r with errorCount := 7, decayTimer := 125 }) linked
    125 ≤ (linkPort s .up).decayTimer ∧ (after (.errorCountDecay .up) s).link.up.errorCount = 6 := by decide +kernel

theorem witness_credit_timers :
    let s := onPort .up (fun r => { r with owed := ⟨0, 3, 0⟩, owedTimer := 20 }) linked
    let w := onPort .up (fun r => { r with credits := ⟨1, 0, 1⟩, stall := ⟨0, 500, 0⟩ })
      (onLink (fun k => { k with statusQueue := [.forwarded statusFrame] }) linked)
    (linkPort s .up).owed ≠ Credits.zero ∧ 20 ≤ (linkPort s .up).owedTimer ∧
    (after (.creditReturnTimeout .up) s).link.up.owed = Credits.zero ∧ creditOf (linkPort w .up).credits .status = 0 ∧
    500 ≤ creditOf (linkPort w .up).stall .status ∧ frameWaits w .up .status = true ∧
    (after (.creditStall .up) w).link.up.lastDrop = some .creditStall := by decide +kernel

/-- R143: a credit that comes back while a frame waits starts the stall time again. -/
theorem witness_stall_again :
    let w := onPort .up (fun r => { r with credits := ⟨1, 0, 1⟩, stall := ⟨0, 499, 0⟩ })
      (onLink (fun k => { k with statusQueue := [.forwarded statusFrame] }) linked)
    (after (.demandFrameReceived { demandFrame with returns := ⟨0, 1, 0⟩ }) w).link.up.stall.status = 0 ∧
    (after (.demandFrameReceived demandFrame) w).link.up.stall.status = 499 := by decide +kernel

/-! ## Witnesses: traffic -/

/-- R29, R145: bytes 01 2C 01 F4 01 are 300 kPa, speed 500 and anti-lock present. -/
theorem witness_demand_frame :
    let t := after (.demandFrameReceived demandFrame) linked
    demandFrame.kind = 1 ∧ frameBad demandFrame = false ∧ linked.link.up.state = .active ∧
    creditsLe (addCredits linked.link.up.credits demandFrame.returns) (partnerDepths linked.link.up) = true ∧
    linked.link.up.occupied.demand = 0 ∧ t.driver.demand = 300 ∧ t.driver.tractorSpeed = some 500 ∧
    t.driver.tractorAntiLock = true ∧ t.link.demandSlot = some { demandFrame with hop := 1 } := by decide +kernel

theorem witness_demand_frame_passed_on :
    let f : LinkFrame := { demandFrame with target := 3 }
    let g : LinkFrame := { demandFrame with hop := 7 }
    (after (.demandFrameReceived f) linked).driver = linked.driver ∧
    (after (.demandFrameReceived f) linked).link.demandSlot = some { f with hop := 1 } ∧
    (after (.demandFrameReceived g) linked).link.demandSlot = none ∧
    (after (.demandFrameReceived demandFrame) (onPort .up (fun r => { r with occupied := ⟨1, 0, 0⟩ }) linked)).link.up.lastDrop =
      some .creditError ∧
    (after (.demandFrameReceived demandFrame) (onPort .up (fun r => { r with state := .ready }) linked)).link.up.owed.demand =
      1 := by decide +kernel

theorem witness_sends :
    let s := onLink (fun k => { k with demandSlot := some demandFrame, downService := [requestFrame] }) linked
    let q := onLink (fun k => { k with statusQueue := [.forwarded statusFrame], upService := [.answer answerOf] })
      (onPort .down (fun r => { r with occupied := ⟨0, 1, 0⟩ }) linked)
    s.link.demandSlot = some demandFrame ∧ s.link.down.state = .active ∧ 0 < s.link.down.credits.demand ∧
    (after .demandSlotSend s).link.down.credits.demand = 0 ∧ (after (.serviceQueueSend .down) s).link.downService = [] ∧
    q.link.up.state = .active ∧ (after .statusQueueSend q).link.down.owed.status = 1 ∧
    (after (.serviceQueueSend .up) q).link.up.credits.service = 0 := by decide +kernel

/-- R149, R144: a status frame of hop count 6 waits, one of 7 is dropped; with all four receive slots taken it is a credit
error. -/
theorem witness_status_received :
    let f (h : Nat) : LinkFrame := { statusFrame with hop := h }
    let full := onPort .down (fun r => { r with occupied := ⟨0, 4, 0⟩ }) linked
    frameBad (f 7) = false ∧ linked.link.down.state = .active ∧
    (after (.statusFrameReceived (f 6)) linked).link.statusQueue = [.forwarded (f 7)] ∧
    (after (.statusFrameReceived (f 7)) linked).link.down.owed.status = 1 ∧
    (after (.statusFrameReceived (f 0)) full).link.down.lastDrop = some .creditError := by decide +kernel

theorem witness_service_received :
    let full := onPort .up (fun r => { r with occupied := ⟨0, 0, 2⟩ }) linked
    let ready := onPort .up (fun r => { r with state := .ready }) linked
    frameBad requestFrame = false ∧ frameBad answerOf = false ∧ requestFrame.kind = 3 ∧ answerOf.kind = 4 ∧
    (after (.serviceReqReceived requestFrame) linked).link.heldReqs = [requestFrame] ∧
    (after (.serviceReqReceived requestFrame) full).link.up.lastDrop = some .creditError ∧
    (after (.serviceReqReceived requestFrame) ready).link.up.owed.service = 1 ∧
    (after (.serviceRespReceived answerOf) linked).link.heldResps = [⟨answerOf, 0⟩] ∧
    (after (.serviceRespReceived { answerOf with hop := 7 }) linked).link.down.owed.service = 1 := by decide +kernel

/-- R143: a service response in READY is discarded and owed back; in DOWN it changes nothing. -/
theorem witness_service_outside_active :
    let s (x : LinkState) := onPort .down (fun r => { r with state := x, credits := Credits.zero }) linked
    let t (x : LinkState) := after (.serviceRespReceived answerOf) (s x)
    (t .ready).link.down.owed.service = 1 ∧ (t .ready).link.heldResps = [] ∧ (t .down).link = (s .down).link ∧
    (t .settle).link = (s .settle).link ∧ (t .train).link = (s .train).link := by decide +kernel

/-- R148: a first own event joins with count 1, one that waits is rebuilt with its count increased, up to 255. -/
theorem witness_own_event :
    let s := onChannel .ch0 (fun r => { r with tracking := some 400 }) linked
    let f (n : Nat) := onLink (fun k => { k with statusQueue := [.event n statusFrame] }) s
    let counts (x : State) : List Nat := (after (.trackingTimeout .ch0) x).link.statusQueue.map (fun x =>
      match x with
      | .event n _ => n
      | .forwarded _ => 0
      | .periodic _ => 0)
    counts s = [1] ∧ counts (f 1) = [2] ∧ counts (f 254) = [255] ∧ counts (f 255) = [255] := by decide +kernel

theorem witness_periodic :
    let s := onLink (fun k => { k with sincePeriodic := 100 }) linked
    s.link.up.state = .active ∧ 100 ≤ s.link.sincePeriodic ∧ s.link.statusQueue.any isPeriodic = false ∧
    (after .ownPeriodicStatus s).link.statusQueue.length = 1 ∧ (after .ownPeriodicStatus s).link.sincePeriodic = 0 ∧
    (after .ownPeriodicStatus (onLink (fun k => { k with sincePeriodic := 100 }) (after .ownPeriodicStatus s))).link.statusQueue.length
      = 1 := by decide +kernel

theorem witness_join :
    let s := onLink (fun k => { k with heldResps := [⟨answerOf, 3⟩], upService := [.answer answerOf] }) linked
    s.link.heldResps = [⟨answerOf, 3⟩] ∧ s.link.upService.length < 2 ∧ answerWaits s = false ∧
    (after .serviceRespJoin s).link.upService.length = 2 := by decide +kernel

/-- Requests held for this vehicle, one behind it, and none before it: position 2 answers 2, forwards 3, refuses 1. -/
def holding (f : LinkFrame) : State := onLink (fun k => { k with heldReqs := [f] }) linked

theorem witness_request_answered :
    (holding requestFrame).link.heldReqs = [requestFrame] ∧ (holding requestFrame).link.ownPosition = some requestFrame.target ∧
    (holding requestFrame).link.upService.length < 2 ∧ (holding requestFrame).link.heldResps.head? = none ∧
    (tableRecord .u (holding requestFrame) 12 0).isSome = true ∧
    ((after .serviceReqProcess (holding requestFrame)).link.upService.map
      (fun x => byteAt (serviceFrame x).payload 2)) = [0] ∧
    ((after .serviceReqProcess (holding { requestFrame with payload := [0#8, 12#8, 1#8] })).link.upService.map
      (fun x => byteAt (serviceFrame x).payload 2)) = [1] := by decide +kernel

theorem witness_request_clears_view :
    let s := refreshFaults ((holding { requestFrame with payload := [1#8, 0#8, 0#8] }).setFaults
      (calm.faults.set 45 ⟨false, true, true, true⟩))
    s.faults.map FaultRec.live = liveList s ∧ faultOf (after .serviceReqProcess s) 45 = ⟨false, true, true, false⟩ := by
  decide +kernel

theorem witness_request_elsewhere :
    let behind : LinkFrame := { requestFrame with target := 3 }
    let cut := onPort .down (fun _ => PortRec.reset) (holding behind)
    let codes (s : State) : List Nat := (after .serviceReqProcess s).link.upService.map (fun x => byteAt (serviceFrame x).payload 2)
    (after .serviceReqProcess (holding behind)).link.downService = [{ behind with hop := 1 }] ∧
    (after .serviceReqProcess (holding { behind with hop := 7 })).link.downService = [] ∧
    (after .serviceReqProcess (holding { behind with hop := 7 })).link.heldReqs = [] ∧
    cut.link.down.state ≠ .active ∧ codes cut = [2] ∧ codes (holding { requestFrame with target := 1 }) = [1] ∧
    codes (holding { requestFrame with target := 15 }) = [1] := by decide +kernel

/-- R144, R182: a DEMAND frame on the downstream port gives its credit back; a frame of kind 5 gives nothing. -/
theorem witness_stray :
    let f : LinkFrame := { demandFrame with kind := 5, returns := ⟨1, 0, 0⟩ }
    let full := onPort .down (fun r => { r with occupied := ⟨1, 0, 0⟩ }) linked
    strayFrame .down demandFrame = true ∧ (linkPort linked .down).state = .active ∧
    (after (.frameOfKindNotReceived .down demandFrame) linked).link.down.owed = ⟨1, 0, 0⟩ ∧
    (after (.frameOfKindNotReceived .down demandFrame) full).link.down.lastDrop = some .creditError ∧ 4 < f.kind ∧
    (after (.unknownKindFrame .down f) linked).link.down.credits = ⟨2, 1, 1⟩ ∧
    (after (.unknownKindFrame .down { f with returns := ⟨1, 0, 0⟩ })
      (onPort .down (fun r => { r with credits := ⟨2, 0, 0⟩ }) linked)).link.down.lastDrop = some .creditError := by
  decide +kernel

/-! ## Witnesses: formats and invariants -/

theorem witness_port_round_trip :
    wellFormed (.postApply .a 255 65535 0) = true ∧ portCommand (.postApply .a 255 65535 0) = some (.a, 1) ∧
    (encodePortFrame (.postApply .a 255 65535 0)).isSome = true ∧ 15 < 16 ∧ (1#8 : Byte) ≠ 0#8 := by decide +kernel

theorem witness_link_round_trip :
    headerFits { demandFrame with returns := ⟨1, 7, 3⟩, hop := 7 } = true ∧
    headerFits (frame 255 7 (List.replicate 63 0#8)) = true ∧
    decodeLinkFrame .up (encodeLinkFrame demandFrame) = .demandFrameReceived demandFrame := by decide +kernel

theorem witness_reset_invariants_count : State.reset.faults.length = 47 ∧ State.reset.tyre.positions.length = 12 := by
  decide +kernel

/-- A calm machine with its faults up to date, and a demand of Controller A standing in every table. -/
def posted : State := refreshFaults (after (.postApply .a 15 300 500) calm)

/-- The command of the steps below, waiting. -/
def stepping (s : State) : State := s.setPending [.forceBackup .b 2]

theorem witness_resolution :
    ResolutionInv (stepping posted) ∧ step (stepping posted) = .next (after (.forceBackup .b 2) posted) :=
  ⟨fun c => by cases c <;> decide +kernel, rfl⟩

theorem witness_entries : EntriesInv (stepping posted) ∧ (entryOf posted .ch3 .ctrlA).isSome = true := by
  refine ⟨⟨fun c => by cases c <;> decide +kernel, fun c => ⟨by cases c <;> decide +kernel, by cases c <;> decide +kernel,
    by cases c <;> decide +kernel, by cases c <;> decide +kernel, by cases c <;> decide +kernel, fun k e h => ?_⟩⟩,
    by decide +kernel⟩
  have h2 : some e = entryOf (stepping posted) c k := h.symm
  have h3 : entryOf (stepping posted) c k = if k = .ctrlA then some ⟨300, some 500, none⟩ else none := by
    cases c <;> cases k <;> decide +kernel
  rw [h3] at h2
  split at h2
  · rename_i hk
    cases h2
    simp [hk]
  · cases h2

theorem witness_valves : ValveInv (stepping posted) ∧ QueueInv (stepping posted) := by
  have hold : (stepping posted).tests.holder = .free := by decide +kernel
  have stage : (stepping posted).roll.stage.stage = .quiet := by decide +kernel
  have prob : (stepping posted).roll.stage.probed = none := by decide +kernel
  exact ⟨⟨fun c => by cases c <;> decide +kernel, by simp [hold], by simp [hold, stage], by simp [prob, stage]⟩,
    by decide +kernel, by decide +kernel, by simp [hold]⟩

theorem witness_faults : FaultInv (stepping posted) := by
  have old : (stepping posted).roll.inertial = InertialRec.reset := by decide +kernel
  refine ⟨by decide +kernel, by simp [old, InertialRec.reset], ?_⟩
  have h : (stepping posted).faults.all (fun r => !r.live || (r.latchA && r.latchB && r.latchU)) = true := by decide +kernel
  intro r hr hl
  have := List.all_eq_true.mp h r hr
  simp [hl] at this
  exact ⟨this.1.1, this.1.2, this.2⟩

theorem witness_calibration : CalInv (staged sealedA calm) := by
  have words : (staged sealedA calm).cal.active = defaultWords := rfl
  have check : (staged sealedA calm).cal.check = defaultCheck := by
    simp only [staged, State.setCal, calm, State.reset, CalStore.reset, crc16_default]
  have g : (staged sealedA calm).cal.staging = sealedA := rfl
  have content : sealedA.content = defaultWords := rfl
  have good : sealFailure defaultWords = none := by decide +kernel
  simp only [CalInv, words, check, g, content, good, crc16_default]
  exact ⟨rfl, trivial, trivial, by decide +kernel, by decide +kernel, by decide +kernel, by decide, by decide, by decide,
    fun _ => ⟨trivial, rfl⟩⟩

theorem witness_load_curve : CalInv (staged sealedA calm) ∧ curve State.reset 0 = 0 := ⟨witness_calibration, by decide +kernel⟩

theorem witness_link : LinkInv linked := by
  have p : ∀ l, PortInv (linkPort linked l) := by
    intro l
    cases l <;> exact ⟨by decide +kernel, by decide +kernel, by decide +kernel, by decide +kernel, by decide +kernel,
      by decide +kernel⟩
  refine ⟨p .up, p .down, by decide +kernel, ?_, by decide +kernel, by decide +kernel, by decide +kernel⟩
  intro n h
  have : n = 2 := by
    have : (some n : Option Nat) = some 2 := h.symm
    simpa using this
  omega

/-- A sensor assigned to position 9 that has told a CRITICAL pressure, with every derived value formed anew. -/
def critical : State := after (.tyreTelegram [0x00#8, 0xC4#8, 0x1E#8, 0x07#8, 5#8, 100#8, 70#8, 103#8]) assigned

theorem witness_tyre : TyreInv critical := by
  have ids : ∀ n, n ∈ allPositions → (positionOf critical n).sensor = if n = 9 then some telegramId else none := by
    decide +kernel
  have conds : ∀ n, n ∈ allPositions → positionCondition critical n = if n = 9 then some .critical else none := by
    decide +kernel
  have worst : critical.tyre.worst = some (.critical, 9) := by decide +kernel
  have strangers : critical.tyre.strangers = [] := by decide +kernel
  have learn : critical.tyre.learn = none := by decide +kernel
  have flag : critical.tyre.rollFlag = true := by decide +kernel
  have derate : ∀ c, critical.load.derate.get c = if c = positionChannel 9 then 768 else 1024 := by
    intro c; cases c <;> decide +kernel
  have at9 : (9 : Nat) ∈ allPositions := by decide
  refine ⟨by decide +kernel, ?_, by decide +kernel, by simp [strangers], by simp [strangers], by simp [strangers],
    by simp [learn], ?_, ?_, ?_, ?_⟩
  · intro m n id hm hn h1 h2
    rw [ids m hm] at h1
    rw [ids n hn] at h2
    split at h1 <;> split at h2 <;> simp_all
  · intro c
    rw [derate]
    by_cases h : c = positionChannel 9
    · rw [if_pos h, if_pos ⟨9, at9, h.symm, by rw [conds 9 at9]; rfl⟩]
    · rw [if_neg h, if_neg]
      rintro ⟨n, hn, rfl, hs⟩
      rw [conds n hn] at hs
      split at hs
      · subst n; exact h rfl
      · exact absurd hs (by decide)
  · exact ⟨fun _ => ⟨9, at9, by decide +kernel, by rw [conds 9 at9]; rfl⟩, fun _ => flag⟩
  · intro n hn k hk
    rw [conds n hn] at hk
    split at hk
    · cases hk; exact ⟨_, _, worst, Nat.le_refl _⟩
    · cases hk
  · intro j m h
    rw [worst] at h
    cases h
    refine ⟨at9, conds 9 at9, fun n hn hlt h9 => ?_⟩
    rw [conds n hn] at h9
    split at h9
    · omega
    · cases h9

/-- R36: a telegram of a CRITICAL pressure on position 9 lowers the current derate of CH2 and leaves the applied one while the setpoint
is above 0; a withdrawal and a new post take it up. -/
theorem witness_derate_latched :
    let s := after (.postApply .a 15 300 500) assigned
    let t := after (.tyreTelegram [0x00#8, 0xC4#8, 0x1E#8, 0x07#8, 5#8, 100#8, 70#8, 103#8]) s
    let u := after (.withdraw .a 4) t
    let v := after (.postApply .a 4 300 500) u
    (∀ c, (channelOf s c).setpoint = resolvedLevel s c) ∧ (channelOf s .ch2).setpoint = 300 ∧
    (channelOf t .ch2).setpoint = 300 ∧ t.load.derate.get .ch2 = 768 ∧ t.demand.applied.get .ch2 = 1024 ∧
    (channelOf u .ch2).setpoint = 0 ∧ isRunning u = true ∧ (channelOf v .ch2).setpoint = 300 ∧
    v.demand.applied.get .ch2 = 768 :=
  ⟨fun c => by cases c <;> decide +kernel, by decide +kernel⟩

/-- R36: a sample that keeps the setpoint above 0 keeps the applied derate. -/
theorem witness_derate_at_sample :
    let s := sampled (sampleOf 300) posted
    ResolutionInv s ∧ 0 < (channelOf s .ch3).setpoint ∧ 0 < (channelOf (sampleResolved (sampleOf 300) s) .ch3).setpoint ∧
    (sampled (sampleOf 300) s).roll.stage.stage ≠ .probe :=
  ⟨fun c => by cases c <;> decide +kernel, by decide +kernel⟩

/-- R169, R170: a sample that breaks a wheel circuit latches WHEEL_SENSOR and raises both new-fault flags. -/
theorem witness_new_fault :
    let s := ((refreshFaults calm).setPortA PortUnit.reset).setPortB PortUnit.reset
    let t := sampled { sampleOf 0 with wheelClosed := ⟨false, true, true, true⟩ } s
    s.faults.map FaultRec.live = liveList s ∧ faultOf s 2 = ⟨false, false, false, false⟩ ∧ faultOf t 2 = ⟨true, true, true, true⟩ ∧
    t.portA.attention.newFault = true ∧ t.portB.attention.newFault = true ∧
    (sampled (sampleOf 0) s).portA.attention.newFault = false := by decide +kernel

/-- The steps of the invariants answer a next state. -/
theorem witness_invariant_steps :
    (∃ t, step (stepping posted) = .next t) ∧ (∃ t, step (staged sealedA calm) = .next t) ∧ (∃ t, step linked = .next t) ∧
    ∃ t, step critical = .next t :=
  ⟨⟨_, rfl⟩, ⟨_, rfl⟩, ⟨_, rfl⟩, ⟨_, rfl⟩⟩

end Sys2Proof.Tests
end

