-- ==== Sys2Proof/Proofs/CoreMoves.lean ====
section
/-! What a command can do to the core of the state: the parts that the invariants of the pressure channels, the Demand Tables and the
Test Queue speak of. Most commands leave the core alone (`Quiet`), form derates and wake the part (`TyreRun`), or form D anew once
(`DemandRun`); the proofs of the invariants treat these three shapes once instead of treating every command. -/

namespace Sys2Proof

open Sys2Proof.Machine

/-! ## The core of the state -/

/-- The parts that the resolution, the Demand Tables, the valves and the Test Queue depend on. -/
def isCore : Part → Bool
  | .standby | .front | .supply | .driver | .raised | .stage | .testQueue | .holder => true
  | .causes _ | .setpoint _ | .valves _ | .entry _ _ | .resolution _ | .skid _ | .derate _ => true
  | _ => false

/-- The parts that a test selects are the same in two states. -/
def SameOn (f : Part → Bool) (s t : State) : Prop := ∀ q, f q = true → samePart s t q

section SameOn
variable {f g : Part → Bool} {s t u : State}

theorem SameOn.refl (f : Part → Bool) (s : State) : SameOn f s s := fun q _ => samePart.refl s q

theorem SameOn.trans (h : SameOn f s t) (k : SameOn f t u) : SameOn f s u := fun q hq => (h q hq).trans (k q hq)

theorem SameOn.mono (h : SameOn f s t) (hg : ∀ q, g q = true → f q = true) : SameOn g s t := fun q hq => h q (hg q hq)

theorem SameOn.of_frame {l : List Part} (h : OnlyChanges l s t) (hl : l.all (fun q => !f q) = true) : SameOn f s t := by
  intro q hq
  refine h q (fun hm => ?_)
  have := List.all_eq_true.mp hl q hm
  simp [hq] at this

end SameOn

/-- The core is the same in two states. -/
def Quiet (s t : State) : Prop := SameOn isCore s t

theorem Quiet.refl (s : State) : Quiet s s := SameOn.refl _ s

theorem Quiet.trans {s t u : State} (h : Quiet s t) (k : Quiet t u) : Quiet s u := SameOn.trans h k

theorem Quiet.of_frame {l : List Part} {s t : State} (h : OnlyChanges l s t) (hl : l.all (fun q => !isCore q) = true) :
    Quiet s t := SameOn.of_frame h hl

theorem Quiet.running {s t : State} (h : Quiet s t) : isRunning t = isRunning s := by
  have e : t.standby = s.standby := h .standby rfl
  simp [isRunning, e]

theorem Quiet.parked {s t : State} (h : Quiet s t) : isParked t = isParked s := isParked_of_standby (h .standby rfl)

theorem refreshFaults_quiet (s : State) : Quiet s (refreshFaults s) := .of_frame (refreshFaults_frame s) rfl

theorem queueEvent_quiet (s : State) : Quiet s (queueEvent s) := .of_frame (queueEvent_frame s) rfl

theorem latchEvent_quiet (i : Nat) (s : State) : Quiet s (latchEvent i s) := .of_frame (latchEvent_frame i s) rfl

theorem setPending_quiet (s : State) (q : List Instr) : Quiet s (s.setPending q) := by
  intro p hp
  cases p <;> simp_all [samePart, isCore]

theorem answer_quiet (s : State) (p : Port) (r : Response) : Quiet s (answer s p r) := .of_frame (answer_frame s p r) rfl

/-! ## Derates and wakes (chapters 4, 5 and 11) -/

/-- A move that leaves the core alone, forms one derate anew (R77), or wakes the part (R178). -/
inductive TyreMove : State → State → Prop
  | quiet {s t : State} (h : Quiet s t) : TyreMove s t
  | derate (c : Channel) (s : State) : TyreMove s (formDerate c s)
  | wake (r : WakeReason) (s : State) : TyreMove s (wake r s)

/-- Any number of such moves: what every command on tyres, loads and wakes does. -/
def TyreRun : State → State → Prop := Relation.ReflTransGen TyreMove

theorem TyreRun.refl (s : State) : TyreRun s s := Relation.ReflTransGen.refl

theorem TyreRun.trans {s t u : State} (h : TyreRun s t) (k : TyreRun t u) : TyreRun s u := Relation.ReflTransGen.trans h k

theorem TyreRun.quiet {s t : State} (h : Quiet s t) : TyreRun s t := .single (.quiet h)

theorem TyreRun.wake (r : WakeReason) (s : State) : TyreRun s (Machine.wake r s) := .single (.wake r s)

theorem TyreRun.frame {l : List Part} {s t : State} (h : OnlyChanges l s t) (hl : l.all (fun q => !isCore q) = true) :
    TyreRun s t := .quiet (.of_frame h hl)

theorem TyreRun.refresh {s t : State} (h : TyreRun s t) : TyreRun s (refreshFaults t) :=
  h.trans (.quiet (refreshFaults_quiet t))

theorem TyreRun.foldl {α : Type} {g : State → α → State} (h : ∀ t a, TyreRun t (g t a)) :
    ∀ (as : List α) (s : State), TyreRun s (as.foldl g s)
  | [], s => .refl s
  | a :: as, s => (h s a).trans (TyreRun.foldl h as (g s a))

theorem writePosition_run (n : Nat) (r : PositionRec) (s : State) : TyreRun s (writePosition n r s) := by
  have hput : TyreRun s (putPosition n r s) := .frame (putPosition_frame n r s) rfl
  have hform : TyreRun s (formWorst (formRollFlag (formDerate (positionChannel n) (putPosition n r s)))) :=
    ((hput.trans (.single (.derate _ _))).trans (.frame (formRollFlag_frame _) rfl)).trans (.frame (formWorst_frame _) rfl)
  have hnew (t : State) : TyreRun t (newEntry t) := (TyreRun.quiet (queueEvent_quiet t)).trans (.wake _ _)
  unfold writePosition
  dsimp only
  split
  · exact hput
  · split
    · exact hform.trans (hnew _)
    · exact hform

theorem reevaluate_run (n : Nat) (s : State) : TyreRun s (reevaluate n s) := by
  unfold reevaluate
  split
  · exact .refl s
  · exact writePosition_run n _ s

theorem setTyre_run {s : State} {x : TyreUnit} : TyreRun s (s.setTyre x) := by
  refine .quiet (fun q hq => ?_)
  cases q <;> simp_all [samePart, isCore]

theorem formTargets_run (s : State) : TyreRun s (formTargets s) :=
  setTyre_run.trans (TyreRun.foldl (fun t n => reevaluate_run n t) _ _)

/-- A Load Table written with the raised state and the derates it has. -/
theorem setLoad_quiet {s : State} {x : LoadTable} (hr : x.raised = s.load.raised) (hd : x.derate = s.load.derate) :
    Quiet s (s.setLoad x) := by
  intro q hq
  cases q <;> simp_all [samePart, isCore]

theorem handOnLoads_run (s : State) : TyreRun s (handOnLoads s) := by
  have hload : Quiet s (s.setLoad (formGroup s.cal.active s.load)) := setLoad_quiet rfl rfl
  exact (TyreRun.quiet hload).trans (formTargets_run _)

theorem takeOut_run (id n : Nat) (s : State) : TyreRun s (takeOut id n s) := by
  refine (TyreRun.foldl (fun t m => ?_) allPositions s).trans setTyre_run
  split
  · exact writePosition_run m _ t
  · exact .refl t

theorem fillPosition_run (n id : Nat) (dup : DupMemory) (d : TyreData) (s : State) :
    TyreRun s (fillPosition n id dup d s) := (writePosition_run n _ s).trans (writePosition_run n _ _)

theorem cancelLearnAt_run (n : Nat) (s : State) : TyreRun s (cancelLearnAt n s) :=
  .frame (cancelLearnAt_frame n s) rfl

theorem assignSensor_run (n id : Nat) (s : State) : TyreRun s (assignSensor n id s) :=
  ((cancelLearnAt_run n s).trans (takeOut_run id n _)).trans (writePosition_run n _ _)

theorem adoptStranger_run (n : Nat) (e : Stranger) (s : State) : TyreRun s (adoptStranger n e s) :=
  ((cancelLearnAt_run n s).trans (takeOut_run e.sensor n _)).trans (fillPosition_run n _ _ _ _)

theorem clearPosition_run (n : Nat) (s : State) : TyreRun s (clearPosition n s) :=
  (cancelLearnAt_run n s).trans (writePosition_run n _ _)

theorem completeLearn_run (n : Nat) (t : Telegram) (s : State) : TyreRun s (completeLearn n t s) :=
  (((takeOut_run t.sensor n s).trans (fillPosition_run n _ _ _ _)).trans (.frame (endLearn_frame _ _ _) rfl)).trans
    (.frame (raiseLearnOutcome_frame _) rfl)

theorem takeTelegram_run (bs : List Byte) (s : State) : TyreRun s (takeTelegram bs s) := by
  unfold takeTelegram dispatchTelegram
  dsimp only
  split
  · split
    · exact completeLearn_run _ _ s
    · split
      · exact writePosition_run _ _ s
      · exact .frame (takeStranger_frame _ s) rfl
  · exact .refl s

/-! ## Forming D anew (R31) -/

/-- A command that forms D anew at most once, from a Driver Demand record it has just written, and leaves the core alone otherwise:
what every command of the Tow Link and of the two demand sources does. -/
def DemandRun (s t : State) : Prop :=
  ∃ u v, Quiet s u ∧ (v = u ∨ ∃ d, v = formDemand (u.setDriver d)) ∧ Quiet v t

theorem DemandRun.of_quiet {s t : State} (h : Quiet s t) : DemandRun s t := ⟨t, t, h, .inl rfl, .refl t⟩

theorem DemandRun.forms (s : State) (d : DriverRec) : DemandRun s (formDemand (s.setDriver d)) :=
  ⟨s, _, .refl s, .inr ⟨d, rfl⟩, .refl _⟩

theorem DemandRun.before {s t u : State} (h : Quiet s t) (k : DemandRun t u) : DemandRun s u := by
  obtain ⟨a, b, ha, hb, hu⟩ := k
  exact ⟨a, b, h.trans ha, hb, hu⟩

theorem DemandRun.after {s t u : State} (h : DemandRun s t) (k : Quiet t u) : DemandRun s u := by
  obtain ⟨a, b, ha, hb, ht⟩ := h
  exact ⟨a, b, ha, hb, ht.trans k⟩

theorem DemandRun.refresh {s t : State} (h : DemandRun s t) : DemandRun s (refreshFaults t) :=
  h.after (refreshFaults_quiet t)

theorem DemandRun.frame {l : List Part} {s t : State} (h : OnlyChanges l s t) (hl : l.all (fun q => !isCore q) = true) :
    DemandRun s t := .of_quiet (.of_frame h hl)

theorem loseLink_run (s : State) : DemandRun s (loseLink s) := by
  unfold loseLink
  split
  · exact .forms s _
  · exact .of_quiet (.refl s)

theorem setLink_quiet {s : State} {x : LinkUnit} : Quiet s (s.setLink x) := by
  intro q hq
  cases q <;> simp_all [samePart, isCore]

theorem setLinkPort_quiet (s : State) (l : LinkPort) (r : PortRec) : Quiet s (setLinkPort s l r) :=
  .of_frame (setLinkPort_frame s l r) rfl

theorem dropDown_quiet (k : DropCause) (n : Nat) (b : Bool) (s : State) : Quiet s (dropDown k n b s) := setLink_quiet

theorem enterDown_run (l : LinkPort) (k : DropCause) (n : Nat) (b : Bool) (s : State) :
    DemandRun s (enterDown l k n b s) := by
  unfold enterDown
  split
  · exact .of_quiet (.refl s)
  · cases l with
    | down => exact .of_quiet (dropDown_quiet k n b s)
    | up =>
      have hlose : DemandRun s (loseLink (s.setLink { s.link with
          up := downRec k n b s.link.up, statusQueue := [], upService := [], heldReqs := [], answerWait := 0,
          ownPosition := none })) := .before setLink_quiet (loseLink_run _)
      dsimp only [dropUp]
      split
      · exact hlose
      · exact hlose.after (dropDown_quiet _ _ _ _)

theorem creditError_run (l : LinkPort) (s : State) : DemandRun s (creditError l s) :=
  .before (latchEvent_quiet _ s) (enterDown_run l _ _ _ _)

theorem countBad_run (l : LinkPort) (s : State) : DemandRun s (countBad l s) := by
  have hbump (r : PortRec) : DemandRun s (countBad.bump l s r) := by
    unfold countBad.bump
    split
    · exact enterDown_run l _ _ _ s
    · exact .of_quiet (setLinkPort_quiet s l _)
  unfold countBad
  dsimp only
  split
  · exact .of_quiet (.refl s)
  · exact .of_quiet (.refl s)
  · exact hbump _
  · exact hbump _
  · exact hbump _

theorem failAttempt_run (l : LinkPort) (s : State) : DemandRun s (failAttempt l s) := by
  unfold failAttempt
  dsimp only
  split
  · exact .frame (startAttempt_frame l _ s) rfl
  · exact enterDown_run l _ _ _ s

theorem testReady_quiet (s : State) : Quiet s (testReady s) := .of_frame (testReady_frame s) rfl

theorem completeTraining_quiet (l : LinkPort) (f : LinkFrame) (s : State) : Quiet s (completeTraining l f s) :=
  .of_frame (completeTraining_frame l f s) (by cases l <;> rfl)

theorem positionRange_run (s : State) : DemandRun s (positionRange s) := (enterDown_run .up _ _ _ s).after setLink_quiet

theorem trainInTraining_run (l : LinkPort) (f : LinkFrame) (s : State) : DemandRun s (trainInTraining l f s) := by
  unfold trainInTraining
  split
  · exact positionRange_run s
  · split
    · exact failAttempt_run l s
    · split
      · exact .of_quiet (completeTraining_quiet l f s)
      · exact .of_quiet (setLinkPort_quiet s l _)

theorem addReturns_quiet (l : LinkPort) (f : LinkFrame) (s : State) : Quiet s (addReturns l f s) := setLinkPort_quiet s l _

theorem sendTrain_quiet (l : LinkPort) (b : Bool) (s : State) : Quiet s (sendTrain l b s) := setLinkPort_quiet s l _

theorem trainInActive_run (l : LinkPort) (f : LinkFrame) (s : State) : DemandRun s (trainInActive l f s) := by
  unfold trainInActive
  split
  · exact .of_quiet (.refl s)
  · exact enterDown_run l _ _ _ s

theorem receiveTrain_run (l : LinkPort) (f : LinkFrame) (s : State) : DemandRun s (receiveTrain l f s) := by
  unfold receiveTrain
  split
  · exact countBad_run l s
  · dsimp only
    split
    · exact .of_quiet (.refl s)
    · exact .of_quiet (.refl s)
    · split
      · exact trainInTraining_run l f s
      · exact .of_quiet (.refl s)
    · split
      · exact .of_quiet (.refl s)
      · split
        · exact .of_quiet (sendTrain_quiet l true s)
        · exact enterDown_run l _ _ _ s
    · split
      · exact creditError_run l s
      · split
        · exact .before (addReturns_quiet l f s) (trainInActive_run l f _)
        · exact .of_quiet (addReturns_quiet l f s)

/-- A traffic frame received: what its handler does, or the end of the link. -/
theorem receiveTraffic_run {h : State → State} (l : LinkPort) (x : TrafficClass) (f : LinkFrame)
    (hh : ∀ t, DemandRun t (h t)) (s : State) : DemandRun s (receiveTraffic l x f h s) := by
  have hret := addReturns_quiet l f s
  unfold receiveTraffic
  split
  · exact countBad_run l s
  · split
    · exact .of_quiet (.refl s)
    · exact .of_quiet (.refl s)
    · exact .of_quiet (.refl s)
    · exact .frame (oweReturn_frame l x s) rfl
    · split
      · exact creditError_run l s
      · split
        · exact .before (hret.trans (setLinkPort_quiet _ l _)) (hh _)
        · exact .before hret (creditError_run l _)

theorem freeSlot_quiet (l : LinkPort) (x : TrafficClass) (s : State) : Quiet s (freeSlot l x s) :=
  .of_frame (freeSlot_frame l x s) rfl

theorem forwardDemand_quiet (f : LinkFrame) (s : State) : Quiet s (forwardDemand f s) :=
  .of_frame (forwardDemand_frame f s) rfl

theorem relayDemand_run (f : LinkFrame) (s : State) : DemandRun s (relayDemand f s) := by
  have hcons (b : Bool) : DemandRun s (if b then consumeDemand f s else s) := by
    split
    · exact .forms s _
    · exact .of_quiet (.refl s)
  unfold relayDemand
  refine DemandRun.after ?_ (freeSlot_quiet .up .demand _)
  split
  · exact (hcons _).after (forwardDemand_quiet f _)
  · exact hcons _

end Sys2Proof
end

