-- ==== Sys2Proof/Proofs/RowGroups.lean ====
section
/-! Which rows of the opcode table do no more than one of the plain runs of the core, and what a port transfer adds to its command. -/

namespace Sys2Proof

open Sys2Proof.Machine

/-! ## Port transfers (R165, R166) -/

section Actions
variable {P : State → Prop} {s : State} {act : Action}

theorem takenFrom_state {q p : Port} (h0 : P s) (h : P (act s).2) : P (takenFrom q p act s).2 := by
  unfold takenFrom
  split
  · exact h
  · exact h0

theorem withArgument_state {b : Bool} (h0 : P s) (h : b = true → P (act s).2) : P (withArgument b act s).2 := by
  unfold withArgument
  split
  · exact h ‹_›
  · exact h0

theorem unlessState_state {b : State → Bool} {k : RespCode} (h0 : P s) (h : b s = false → P (act s).2) :
    P (unlessState b k act s).2 := by
  unfold unlessState
  split
  · exact h0
  · exact h (by simpa using ‹¬ b s = true›)

theorem withChannel_state {n : Nat} {act : Channel → Action} (h0 : P s) (h : ∀ c, P (act c s).2) :
    P (withChannel n act s).2 := by
  unfold withChannel
  cases channelArg n with
  | none => exact h0
  | some c => exact h c

theorem partReply_state {r : List Byte} {n : Nat} {f : State → State} (h0 : P s) (h : P (f s)) :
    P (partReply r n f s).2 := by
  unfold partReply
  split
  · exact h0
  · exact h

end Actions

/-- After its command a transfer adds the answer and, where it arrives in PARKED, a wake. -/
theorem transfer_run (p : Port) (n : Nat) (act : Action) (s : State) : TyreRun (act s).2 (transfer p n act s) := by
  unfold transfer
  dsimp only
  refine TyreRun.refresh ?_
  split
  · exact (TyreRun.quiet (answer_quiet _ p _)).trans (.wake _ _)
  · exact .quiet (answer_quiet _ p _)

/-- Outside PARKED a transfer adds the answer alone. -/
theorem transfer_quiet {p : Port} {n : Nat} {act : Action} {s : State} (h : isParked s = false) :
    Quiet (act s).2 (transfer p n act s) := by
  have e : transfer p n act s = refreshFaults (answer (act s).2 p ⟨n, (act s).1.code, (act s).1.record⟩) := by
    simp [transfer, h]
  rw [e]
  exact (answer_quiet _ p _).trans (refreshFaults_quiet _)

theorem transfer_run_of {p : Port} {n : Nat} {act : Action} {s : State} (h : TyreRun s (act s).2) :
    TyreRun s (transfer p n act s) := h.trans (transfer_run p n act s)

/-! ## Rows of the Tow Link, of the demand sources and of timers outside the core -/

/-- The rows that leave the core alone or form D anew once. -/
def isDemandRow : Instr → Bool
  | .mismatchOnset | .mismatchRecovery | .linkAgeExpiry | .lineLoss _ | .linkHoldOffExpiry _ | .settleExpiry
  | .downstreamTrainStart | .trainFrameSend _ | .trainAttemptTimeout _ | .trainFrameReceived _ _ | .linkBadFrame _
  | .errorCountDecay _ | .creditReturnTimeout _ | .creditStall _ | .demandFrameReceived _ | .demandSlotSend
  | .statusFrameReceived _ | .statusQueueSend | .ownPeriodicStatus | .serviceReqReceived _ | .serviceReqProcess
  | .serviceRespReceived _ | .serviceRespJoin | .serviceQueueSend _ | .frameOfKindNotReceived _ _ | .unknownKindFrame _ _
  | .calIdleTimeout | .calSealTimeout | .learnTimeout | .tyreStale _ | .inertialSample _ | .inertialAgeExpiry => true
  | _ => false

theorem whenDue_demandRun {b : Bool} {f : State → State} {s : State} (h : DemandRun s (f s)) :
    DemandRun s (whenDue b f s) := by
  unfold whenDue
  split
  · exact h.refresh
  · exact .of_quiet (.refl s)

theorem endHoldOff_quiet (l : LinkPort) (s : State) : Quiet s (endHoldOff l s) := by
  unfold endHoldOff
  dsimp only
  split
  · exact (setLinkPort_quiet s l _).trans (setLinkPort_quiet _ l _)
  · exact setLinkPort_quiet s l _

theorem receiveUnknown_run (l : LinkPort) (f : LinkFrame) (s : State) : DemandRun s (receiveUnknown l f s) := by
  unfold receiveUnknown
  split
  · split
    · exact creditError_run l s
    · exact .of_quiet (addReturns_quiet l f s)
  · exact .of_quiet (.refl s)

theorem setActivity_quiet (l : LinkPort) (b : Bool) (s : State) : Quiet s (setActivity l b s) := setLinkPort_quiet s l _

theorem serviceReqProcess_run (s : State) : ∃ t, exec .serviceReqProcess s = .next t ∧ DemandRun s t := by
  simp only [exec, execServiceReqProcess]
  split
  · exact ⟨_, rfl, .of_quiet (.refl s)⟩
  · exact ⟨_, rfl, (DemandRun.frame (processRequest_frame s _) rfl).refresh⟩

theorem serviceRespJoin_run (s : State) : ∃ t, exec .serviceRespJoin s = .next t ∧ DemandRun s t := by
  simp only [exec, execServiceRespJoin]
  split
  · exact ⟨_, rfl, .of_quiet (.refl s)⟩
  · exact ⟨_, rfl, (DemandRun.frame (joinResponse_frame _ s) rfl).refresh⟩

/-- A demand row leaves the core alone but for forming D anew once. -/
theorem exec_demandRun {i : Instr} (hi : isDemandRow i = true) (s : State) :
    ∃ t, exec i s = .next t ∧ DemandRun s t := by
  cases i with
  | mismatchOnset => exact ⟨_, rfl, whenDue_demandRun (.forms s _)⟩
  | mismatchRecovery => exact ⟨_, rfl, whenDue_demandRun (.forms s _)⟩
  | linkAgeExpiry => exact ⟨_, rfl, whenDue_demandRun (loseLink_run s)⟩
  | lineLoss l => exact ⟨_, rfl, (DemandRun.before (setActivity_quiet l false s) (enterDown_run l _ _ _ _)).refresh⟩
  | linkHoldOffExpiry l => exact ⟨_, rfl, whenDue_demandRun (.of_quiet (endHoldOff_quiet l s))⟩
  | settleExpiry => exact ⟨_, rfl, whenDue_demandRun (.frame (enterTrain_frame .up s) rfl)⟩
  | downstreamTrainStart => exact ⟨_, rfl, whenDue_demandRun (.frame (enterTrain_frame .down s) rfl)⟩
  | trainFrameSend l =>
    exact ⟨_, rfl, whenDue_demandRun (.of_quiet ((sendTrain_quiet l _ s).trans (setLinkPort_quiet _ l _)))⟩
  | trainAttemptTimeout l => exact ⟨_, rfl, whenDue_demandRun (failAttempt_run l s)⟩
  | trainFrameReceived l f => exact ⟨_, rfl, (receiveTrain_run l _ s).refresh⟩
  | linkBadFrame l => exact ⟨_, rfl, (countBad_run l s).refresh⟩
  | errorCountDecay l => exact ⟨_, rfl, whenDue_demandRun (.of_quiet (setLinkPort_quiet s l _))⟩
  | creditReturnTimeout l => exact ⟨_, rfl, whenDue_demandRun (.of_quiet (sendTrain_quiet l true s))⟩
  | creditStall l => exact ⟨_, rfl, whenDue_demandRun (enterDown_run l _ _ _ s)⟩
  | demandFrameReceived f => exact ⟨_, rfl, (receiveTraffic_run .up .demand _ (relayDemand_run _) s).refresh⟩
  | demandSlotSend => exact ⟨_, rfl, whenDue_demandRun (.frame (sendDemandSlot_frame s) rfl)⟩
  | statusFrameReceived f =>
    exact ⟨_, rfl, (receiveTraffic_run .down .status _ (fun t => .frame (relayStatus_frame _ t) rfl) s).refresh⟩
  | statusQueueSend => exact ⟨_, rfl, whenDue_demandRun (.frame (sendStatusHead_frame s) rfl)⟩
  | ownPeriodicStatus =>
    exact ⟨_, rfl, whenDue_demandRun (.before setLink_quiet (.frame (queuePeriodic_frame _) rfl))⟩
  | serviceReqReceived f =>
    exact ⟨_, rfl, (receiveTraffic_run .up .service _ (fun t => .frame (holdRequest_frame _ t) rfl) s).refresh⟩
  | serviceReqProcess => exact serviceReqProcess_run s
  | serviceRespReceived f =>
    exact ⟨_, rfl, (receiveTraffic_run .down .service _ (fun t => .frame (holdResponse_frame _ t) rfl) s).refresh⟩
  | serviceRespJoin => exact serviceRespJoin_run s
  | serviceQueueSend l =>
    exact ⟨_, rfl, whenDue_demandRun (.frame (sendServiceHead_frame l s) (by cases l <;> rfl))⟩
  | frameOfKindNotReceived l f =>
    exact ⟨_, rfl, (receiveTraffic_run l _ f (fun t => .of_quiet (freeSlot_quiet l _ t)) s).refresh⟩
  | unknownKindFrame l f => exact ⟨_, rfl, (receiveUnknown_run l f s).refresh⟩
  | calIdleTimeout => exact ⟨_, rfl, whenDue_demandRun (.frame (timeoutStaging_frame s) rfl)⟩
  | calSealTimeout => exact ⟨_, rfl, whenDue_demandRun (.frame (timeoutStaging_frame s) rfl)⟩
  | learnTimeout =>
    exact ⟨_, rfl, whenDue_demandRun (.of_quiet ((Quiet.of_frame (endLearn_frame _ _ s) rfl).trans
      (.of_frame (raiseLearnOutcome_frame _) rfl)))⟩
  | tyreStale n => exact ⟨_, rfl, whenDue_demandRun (.frame (setStale_frame n s) rfl)⟩
  | inertialSample bs => exact ⟨_, rfl, (DemandRun.frame (takeInertial_frame bs s) rfl).refresh⟩
  | inertialAgeExpiry =>
    exact ⟨_, rfl, whenDue_demandRun (.frame (l := [.inertial])
      (setRoll_frame (.inl (by simp)) (.inr rfl) (.inr rfl) (.inr rfl)) rfl)⟩
  | _ => simp [isDemandRow] at hi

/-! ## Rows of tyres, wakes, reads and the Staging Record -/

/-- The rows that form derates, wake the part, or leave the core alone. -/
def isTyreRow : Instr → Bool
  | .wheelPulse _ _ | .tyreTelegram _ | .wakeTimerExpiry | .lineActivity _ | .badCommandFrame _ | .noCommand _
  | .tyreLearn _ _ | .tyreAssign _ _ _ | .tyreAdopt _ _ _ | .tyreClear _ _ | .linkEnable _ | .calBegin _
  | .calPointer _ _ | .calWrite _ _ _ | .calRead _ _ _ | .calSeal _ | .calAbandon _ | .read _ _ _ _
  | .readAttention _ _ _ | .clearFaults _ => true
  | _ => false

theorem setStaging_run (g : Staging) (s : State) : TyreRun s (setStaging g s) := .frame (setStaging_frame g s) rfl

theorem touching_run {p : Port} {act : Action} {s : State} (h : ∀ t, TyreRun t (act t).2) :
    TyreRun s (touching p act s).2 := by
  have htouch : TyreRun s (touchIdle p s) := by
    unfold touchIdle
    split
    · exact setStaging_run _ s
    · exact .refl s
  exact htouch.trans (h _)

theorem lineActivity_run (l : LinkPort) (s : State) : ∃ t, exec (.lineActivity l) s = .next t ∧ TyreRun s t := by
  have hset : TyreRun s (setActivity l true s) := .quiet (setActivity_quiet l true s)
  refine ⟨_, rfl, TyreRun.refresh ?_⟩
  split
  · cases l with
    | up => exact hset.trans (.wake _ _)
    | down => exact hset
  · split
    · exact hset.trans (.frame (enterSettle_frame l _) rfl)
    · exact hset

theorem attentionAction_run (p : Port) (index part : Nat) (s : State) : TyreRun s (attentionAction p index part s).2 := by
  unfold attentionAction
  split
  · exact partReply_state (.refl s) (.frame (setAttention_frame s p _) (by cases p <;> rfl))
  · exact .refl s

theorem readAction_run (p : Port) (table index part : Nat) (s : State) :
    TyreRun s (readAction p table index part s).2 := by
  unfold readAction
  split
  · exact .refl s
  · exact partReply_state (.refl s) (.refl s)

theorem adoptAction_run (position index : Nat) (s : State) : TyreRun s (adoptAction position index s).2 := by
  unfold adoptAction
  split
  · exact .refl s
  · exact adoptStranger_run _ _ s

theorem sealAction_run (s : State) : TyreRun s (sealAction s).2 := by
  unfold sealAction
  split
  · exact .refl s
  · exact setStaging_run _ s

/-- A tyre row forms derates, wakes the part, or leaves the core alone. -/
theorem exec_tyreRun {i : Instr} (hi : isTyreRow i = true) (s : State) : ∃ t, exec i s = .next t ∧ TyreRun s t := by
  cases i with
  | wheelPulse c micros =>
    exact ⟨_, rfl, ((TyreRun.frame (setWheel_frame s c _) rfl).trans (.wake _ _)).refresh⟩
  | tyreTelegram bs => exact ⟨_, rfl, (takeTelegram_run bs s).refresh⟩
  | wakeTimerExpiry =>
    refine ⟨_, rfl, ?_⟩
    unfold whenDue
    split
    · exact (TyreRun.wake _ s).refresh
    · exact .refl s
  | lineActivity l => exact lineActivity_run l s
  | badCommandFrame p => exact ⟨_, rfl, transfer_run_of (.refl s)⟩
  | noCommand p => exact ⟨_, rfl, transfer_run_of (.refl s)⟩
  | tyreLearn p n =>
    exact ⟨_, rfl, transfer_run_of (takenFrom_state (.refl s) (withArgument_state (.refl s) fun _ =>
      unlessState_state (.refl s) fun _ => .frame (beginLearn_frame n s) rfl))⟩
  | tyreAssign p n id =>
    exact ⟨_, rfl, transfer_run_of (takenFrom_state (.refl s) (withArgument_state (.refl s) fun _ =>
      unlessState_state (.refl s) fun _ => assignSensor_run n id s))⟩
  | tyreAdopt p n index =>
    exact ⟨_, rfl, transfer_run_of (takenFrom_state (.refl s) (withArgument_state (.refl s) fun _ =>
      adoptAction_run n index s))⟩
  | tyreClear p n =>
    exact ⟨_, rfl, transfer_run_of (takenFrom_state (.refl s) (withArgument_state (.refl s) fun _ =>
      clearPosition_run n s))⟩
  | linkEnable p =>
    exact ⟨_, rfl, transfer_run_of (takenFrom_state (.refl s) (.quiet (setLink_quiet.trans (testReady_quiet _))))⟩
  | calBegin p =>
    exact ⟨_, rfl, transfer_run_of (unlessState_state (.refl s) fun _ => setStaging_run _ s)⟩
  | calPointer p index =>
    exact ⟨_, rfl, transfer_run_of (touching_run fun t => unlessState_state (.refl t) fun _ =>
      withArgument_state (.refl t) fun _ => unlessState_state (.refl t) fun _ => setStaging_run _ t)⟩
  | calWrite p count words =>
    exact ⟨_, rfl, transfer_run_of (touching_run fun t => unlessState_state (.refl t) fun _ =>
      withArgument_state (.refl t) fun _ => unlessState_state (.refl t) fun _ => setStaging_run _ t)⟩
  | calRead p index count =>
    exact ⟨_, rfl, transfer_run_of (touching_run fun t =>
      withArgument_state (.refl t) fun _ => unlessState_state (.refl t) fun _ => .refl t)⟩
  | calSeal p =>
    exact ⟨_, rfl, transfer_run_of (touching_run fun t => unlessState_state (.refl t) fun _ =>
      unlessState_state (.refl t) fun _ => sealAction_run t)⟩
  | calAbandon p =>
    exact ⟨_, rfl, transfer_run_of (unlessState_state (.refl s) fun _ => unlessState_state (.refl s) fun _ =>
      .frame (returnFree_frame .abandoned s) rfl)⟩
  | read p table index part =>
    refine ⟨_, rfl, transfer_run_of ?_⟩
    split
    · exact attentionAction_run p index part s
    · exact readAction_run p table index part s
  | readAttention p index part => exact ⟨_, rfl, transfer_run_of (attentionAction_run p index part s)⟩
  | clearFaults p => exact ⟨_, rfl, transfer_run_of (.frame (clearFaultView_frame _ s) rfl)⟩
  | _ => simp [isTyreRow] at hi

end Sys2Proof
end

