-- ==== Sys2Proof/Proofs/Resolution.lean ====
section
/-! Setpoints and applied derates (R20, R36 to R38): what each operation does to the resolution of a channel, and the step lemma of
`ResolutionInv`. A setpoint changes in a resolution alone; so the applied derate of a channel whose setpoint stays above 0 can change
only where the setpoint touches 0 within the step, which no command but a pressure sample brings about. -/

namespace Sys2Proof

open Sys2Proof.Machine

/-! ## What a resolution depends on -/

/-- The resolved setpoint of a channel. -/
abbrev setpointOf (s : State) (c : Channel) : Nat := (channelOf s c).setpoint

/-- The applied derate of a channel. -/
abbrev appliedOf (s : State) (c : Channel) : Nat := s.demand.applied.get c

/-- The current derate of a channel. -/
abbrev currentOf (s : State) (c : Channel) : Nat := s.load.derate.get c

/-- The parts that `ResolutionInv` speaks of. -/
def isResolution : Part → Bool
  | .front | .raised | .entry _ _ | .setpoint _ | .resolution _ | .derate _ => true
  | _ => false

/-- The parts that `ResolutionInv` speaks of for one channel. -/
def isResolutionOf (c : Channel) : Part → Bool
  | .front | .raised => true
  | .entry d _ | .setpoint d | .resolution d | .derate d => d == c
  | _ => false

/-- The results of a channel's last resolution (R20, R36) and its current derate. -/
def isResultOf (c : Channel) : Part → Bool
  | .setpoint d | .resolution d | .derate d => d == c
  | _ => false

/-- `ResolutionInv` for one channel. -/
def ChannelResolved (s : State) (c : Channel) : Prop :=
  setpointOf s c = resolvedLevel s c ∧
    (channelOf s c).supplyLimited = decide (reservoirCap s < applyLevel s c) ∧
    (s.demand.summary.get c).largestApply = applyLevel s c ∧
    (s.demand.summary.get c).smallestLimit = smallestLimit (reservoirCap s) (tableOf s c) ∧
    (s.demand.summary.get c).cap = reservoirCap s ∧ (s.demand.summary.get c).raised = s.load.raised ∧
    (setpointOf s c = 0 → appliedOf s c = currentOf s c)

theorem resolutionInv_iff (s : State) : ResolutionInv s ↔ ∀ c, ChannelResolved s c := Iff.rfl

theorem isResolutionOf_le (c : Channel) (q : Part) (h : isResolutionOf c q = true) : isResolution q = true := by
  cases q <;> simp_all [isResolutionOf, isResolution]

theorem isResultOf_le (c : Channel) (q : Part) (h : isResultOf c q = true) : isResolutionOf c q = true := by
  cases q <;> simp_all [isResolutionOf, isResultOf]

theorem isResolution_le_core (q : Part) (h : isResolution q = true) : isCore q = true := by
  cases q <;> simp_all [isResolution, isCore]

theorem Quiet.resolution {s t : State} (h : Quiet s t) : SameOn isResolution s t := h.mono isResolution_le_core

section Inputs
variable {s t : State} {c : Channel}

theorem SameOn.table (h : SameOn (isResolutionOf c) s t) : tableOf t c = tableOf s c :=
  tableOf_congr (fun k => h (.entry c k) (by simp [isResolutionOf]))

theorem SameOn.cap (h : SameOn (isResolutionOf c) s t) : reservoirCap t = reservoirCap s := by
  have e : t.front = s.front := h .front rfl
  simp [reservoirCap, e]

theorem SameOn.raised (h : SameOn (isResolutionOf c) s t) : t.load.raised = s.load.raised := h .raised rfl

theorem applyLevel_congr (ht : tableOf t c = tableOf s c) (hr : t.load.raised = s.load.raised) :
    applyLevel t c = applyLevel s c := by
  simp [applyLevel, raisedChannel, ht, hr]

theorem SameOn.applyLevel (h : SameOn (isResolutionOf c) s t) : Machine.applyLevel t c = Machine.applyLevel s c :=
  applyLevel_congr h.table h.raised

theorem SameOn.results (h : SameOn (isResultOf c) s t) :
    setpointOf t c = setpointOf s c ∧ appliedOf t c = appliedOf s c ∧ currentOf t c = currentOf s c := by
  have h1 := h (.setpoint c) (by simp [isResultOf])
  have h2 := h (.resolution c) (by simp [isResultOf])
  have h3 := h (.derate c) (by simp [isResultOf])
  exact ⟨h1.1, h2.1, h3⟩

theorem ChannelResolved.keeps (hs : ChannelResolved s c) (h : SameOn (isResolutionOf c) s t) : ChannelResolved t c := by
  have h1 := h (.setpoint c) (by simp [isResolutionOf])
  have h2 := h (.resolution c) (by simp [isResolutionOf])
  have h3 := h (.derate c) (by simp [isResolutionOf])
  simp only [samePart] at h1 h2 h3
  simp only [ChannelResolved, resolvedLevel, h1.1, h1.2, h2.1, h2.2, h3, h.table, h.cap, h.applyLevel, h.raised] at hs ⊢
  exact hs

theorem ResolutionInv.keeps (hs : ResolutionInv s) (h : SameOn isResolution s t) : ResolutionInv t :=
  fun c => ChannelResolved.keeps (hs c) (h.mono (isResolutionOf_le c))

end Inputs

/-! ## The resolution of one channel -/

theorem resolve_frame_other {c d : Channel} (hd : d ≠ c) (s : State) : SameOn (isResolutionOf d) s (resolve c s) :=
  .of_frame (resolve_frame c s) (by simp [resolveParts, abortParts, isResolutionOf, hd.symm])

theorem putEntry_frame_other {c d : Channel} (hd : d ≠ c) (k : Source) (e : Option Entry) (s : State) :
    SameOn (isResolutionOf d) s (putEntry s c k e) :=
  .of_frame (putEntry_frame s c k e) (by simp [isResolutionOf, hd.symm])

theorem currentOf_resolve (c d : Channel) (s : State) : currentOf (resolve c s) d = currentOf s d :=
  resolve_frame c s (.derate d) (by simp [resolveParts, abortParts])

theorem resolve_applyLevel (c d : Channel) (s : State) : applyLevel (resolve c s) d = applyLevel s d := by
  have h := (resolve_frame c s).resolved d (by simp [resolveParts, abortParts]) (by simp [resolveParts, abortParts])
    (by simp [resolveParts, abortParts])
  exact h.2.2.1

/-- A resolution leaves its channel resolved, whatever stood before (R38). -/
theorem resolve_resolved (c : Channel) (s : State) : ChannelResolved (resolve c s) c := by
  obtain ⟨hsp, hlim, happ, hsum⟩ := resolve_values c s
  obtain ⟨etab, ecap, eapp, eres⟩ := (resolve_frame c s).resolved c (by simp [resolveParts, abortParts])
    (by simp [resolveParts, abortParts]) (by simp [resolveParts, abortParts])
  have hraised : (resolve c s).load.raised = s.load.raised :=
    resolve_frame c s .raised (by simp [resolveParts, abortParts])
  simp only [ChannelResolved, setpointOf, appliedOf, currentOf_resolve, hsp, hlim, happ, hsum, etab, ecap, eapp, eres,
    hraised, true_and]
  intro h0
  simp [appliedAfter, h0]

/-- A resolution takes the current derate at setpoint 0, and keeps the applied one above 0 (R36). -/
theorem resolve_applied (c : Channel) (s : State) :
    appliedOf (resolve c s) c = if setpointOf (resolve c s) c = 0 then currentOf s c else appliedOf s c := by
  obtain ⟨hsp, _, happ, _⟩ := resolve_values c s
  rw [appliedOf, happ, setpointOf, hsp]
  rfl

/-- An entry replaced or removed, and its channel resolved: what every post and every withdrawal does (R23). -/
theorem replace_resolved {s : State} (hs : ResolutionInv s) (c : Channel) (k : Source) (e : Option Entry) :
    ResolutionInv (resolve c (putEntry s c k e)) := by
  intro d
  by_cases hd : d = c
  · subst hd
    exact resolve_resolved d _
  · exact ChannelResolved.keeps (hs d) ((putEntry_frame_other hd k e s).trans (resolve_frame_other hd _))

/-! ## How setpoint and applied derate move -/

/-- A setpoint above 0 afterwards leaves the applied derate as it was: what one resolution brings about. -/
def HoldsDerate (c : Channel) (s t : State) : Prop := 0 < setpointOf t c → appliedOf t c = appliedOf s c

/-- The applied derate is kept, or takes the current derate, which itself does not move (R36). -/
def FollowsDerate (c : Channel) (s t : State) : Prop :=
  currentOf t c = currentOf s c ∧ (appliedOf t c = appliedOf s c ∨ appliedOf t c = currentOf s c)

/-- A setpoint above 0 stays above 0 with its applied derate, and the largest APPLY level is the same. -/
def Lifts (c : Channel) (s t : State) : Prop :=
  (0 < setpointOf s c → 0 < setpointOf t c ∧ appliedOf t c = appliedOf s c) ∧ applyLevel t c = applyLevel s c

section Moves
variable {c : Channel} {s t u : State}

theorem FollowsDerate.trans (h : FollowsDerate c s t) (k : FollowsDerate c t u) : FollowsDerate c s u := by
  unfold FollowsDerate at *
  omega

theorem FollowsDerate.of_same (h : SameOn (isResultOf c) s t) : FollowsDerate c s t := by
  have := h.results
  unfold FollowsDerate
  omega

theorem HoldsDerate.of_same (h : SameOn (isResultOf c) s t) : HoldsDerate c s t := fun _ => h.results.2.1

theorem HoldsDerate.before (h : SameOn (isResultOf c) s t) (k : HoldsDerate c t u) : HoldsDerate c s u := by
  have := h.results
  unfold HoldsDerate at *
  omega

theorem HoldsDerate.after (h : HoldsDerate c s t) (k : SameOn (isResultOf c) t u) : HoldsDerate c s u := by
  have := k.results
  unfold HoldsDerate at *
  omega

theorem Lifts.trans (h : Lifts c s t) (k : Lifts c t u) : Lifts c s u := by
  unfold Lifts at *
  omega

theorem Lifts.of_same (h : SameOn (isResolutionOf c) s t) : Lifts c s t := by
  have := (h.mono (isResultOf_le c)).results
  have := h.applyLevel
  unfold Lifts
  omega

theorem replace_follows (d k) (e : Option Entry) : FollowsDerate c s (resolve d (putEntry s d k e)) := by
  by_cases hd : c = d
  · subst hd
    have h := resolve_applied c (putEntry s c k e)
    refine ⟨currentOf_resolve c c _, ?_⟩
    split at h
    · exact .inr h
    · exact .inl h
  · exact .of_same (((putEntry_frame_other hd k e s).trans (resolve_frame_other hd _)).mono (isResultOf_le c))

theorem replace_holds (d k) (e : Option Entry) : HoldsDerate c s (resolve d (putEntry s d k e)) := by
  by_cases hd : c = d
  · subst hd
    intro hpos
    have h := resolve_applied c (putEntry s c k e)
    rwa [if_neg (by omega)] at h
  · exact .of_same (((putEntry_frame_other hd k e s).trans (resolve_frame_other hd _)).mono (isResultOf_le c))

end Moves

/-- What the turn of a channel does to it, an operation done for every channel does, if the turns of the others leave it alone. -/
theorem forChannels_turn {R : State → State → Prop} {S : State → State → Prop} {g : Channel → State → State} (c : Channel)
    (hbefore : ∀ s t u, S s t → R t u → R s u) (hafter : ∀ s t u, R s t → S t u → R s u)
    (hself : ∀ t, R t (g c t)) (hother : ∀ d t, d ≠ c → S t (g d t)) (s : State) : R s (forChannels g s) := by
  unfold forChannels
  cases c
  · exact hafter _ _ _ (hafter _ _ _ (hafter _ _ _ (hself _) (hother _ _ (by simp))) (hother _ _ (by simp)))
      (hother _ _ (by simp))
  · exact hbefore _ _ _ (hother .ch0 _ (by simp)) (hafter _ _ _ (hafter _ _ _ (hself _) (hother _ _ (by simp)))
      (hother _ _ (by simp)))
  · exact hbefore _ _ _ (hother .ch0 _ (by simp)) (hbefore _ _ _ (hother .ch1 _ (by simp)) (hafter _ _ _ (hself _)
      (hother _ _ (by simp))))
  · exact hbefore _ _ _ (hother .ch0 _ (by simp)) (hbefore _ _ _ (hother .ch1 _ (by simp)) (hbefore _ _ _
      (hother .ch2 _ (by simp)) (hself _)))

/-- The same for a relation that composes. -/
theorem forChannels_rel {R : State → State → Prop} {g : Channel → State → State}
    (htrans : ∀ s t u, R s t → R t u → R s u) (h : ∀ d t, R t (g d t)) (s : State) : R s (forChannels g s) := by
  unfold forChannels
  exact htrans _ _ _ (htrans _ _ _ (htrans _ _ _ (h _ _) (h _ _)) (h _ _)) (h _ _)

/-! ## Posts and withdrawals -/

theorem withdraw_cases (c : Channel) (k : Source) (s : State) :
    withdraw c k s = s ∨ withdraw c k s = resolve c (putEntry s c k none) := by
  cases h : entryOf s c k with
  | none => exact .inl (withdraw_none c k s h)
  | some e => exact .inr (withdraw_some c k s e h)

section Entries
variable {c : Channel} {s : State}

theorem post_resolved (hs : ResolutionInv s) (d k e) : ResolutionInv (post d k e s) := replace_resolved hs d k _

theorem post_holds (d k e) : HoldsDerate c s (post d k e s) := replace_holds d k _

theorem post_follows (d k e) : FollowsDerate c s (post d k e s) := replace_follows d k _

theorem withdraw_resolved (hs : ResolutionInv s) (d k) : ResolutionInv (withdraw d k s) := by
  rcases withdraw_cases d k s with h | h <;> rw [h]
  · exact hs
  · exact replace_resolved hs d k none

theorem withdraw_holds (d k) : HoldsDerate c s (withdraw d k s) := by
  rcases withdraw_cases d k s with h | h <;> rw [h]
  · exact fun _ => rfl
  · exact replace_holds d k none

theorem withdraw_follows (d k) : FollowsDerate c s (withdraw d k s) := by
  rcases withdraw_cases d k s with h | h <;> rw [h]
  · exact ⟨rfl, .inl rfl⟩
  · exact replace_follows d k none

/-! ### A withdrawal and the levels of a table (R37) -/

theorem levelOr0_none : levelOr0 none = 0 := rfl

theorem limitOr_none (n : Nat) : limitOr n none = n := rfl

theorem largestApply_put_none_le (t : Table) (k : Source) : largestApply (t.put k none) ≤ largestApply t := by
  cases k <;> simp only [Table.put, largestApply, levelOr0_none] <;> omega

theorem smallestLimit_le_put_none (n : Nat) (t : Table) (k : Source) :
    smallestLimit n t ≤ smallestLimit n (t.put k none) := by
  cases k <;> simp only [Table.put, smallestLimit, limitOr_none] <;> omega

theorem largestApply_put_limit {k : Source} (hk : k.isApply = false) (t : Table) (e : Option Entry) :
    largestApply (t.put k e) = largestApply t := by
  cases k <;> simp_all [Source.isApply, Table.put, largestApply]

theorem smallestLimit_put_apply {k : Source} (hk : k.isApply = true) (n : Nat) (t : Table) (e : Option Entry) :
    smallestLimit n (t.put k e) = smallestLimit n t := by
  cases k <;> simp_all [Source.isApply, Table.put, smallestLimit]

theorem applyLevel_putEntry (s : State) (c : Channel) (k : Source) (e : Option Entry) :
    applyLevel (putEntry s c k e) c = if raisedChannel s c then 0 else largestApply ((tableOf s c).put k e) := by
  simp [applyLevel, raisedChannel]

theorem replace_setpoint (s : State) (c : Channel) (k : Source) (e : Option Entry) :
    setpointOf (resolve c (putEntry s c k e)) c =
      min (applyLevel (putEntry s c k e) c) (smallestLimit (reservoirCap s) ((tableOf s c).put k e)) := by
  have hcap : reservoirCap (putEntry s c k e) = reservoirCap s := rfl
  rw [setpointOf, (resolve_values c _).1, resolvedLevel, tableOf_putEntry, if_pos rfl, hcap]

/-- A withdrawal at another channel, or of no entry, leaves the results of a channel. -/
theorem withdraw_cases_at (c d : Channel) (k : Source) (s : State) :
    SameOn (isResolutionOf c) s (withdraw d k s) ∨ (d = c ∧ withdraw d k s = resolve c (putEntry s c k none)) := by
  rcases withdraw_cases d k s with h | h <;> rw [h]
  · exact .inl (.refl _ s)
  · by_cases hd : c = d
    · subst hd; exact .inr ⟨rfl, rfl⟩
    · exact .inl ((putEntry_frame_other hd k none s).trans (resolve_frame_other hd _))

/-- A removed LIMIT can only raise the setpoint; the APPLY levels stay. -/
theorem withdraw_limit_lifts {k : Source} (hk : k.isApply = false) (hs : ChannelResolved s c) (d : Channel) :
    Lifts c s (withdraw d k s) := by
  rcases withdraw_cases_at c d k s with h | ⟨rfl, h⟩
  · exact .of_same h
  · rw [h]
    have happly : applyLevel (putEntry s d k none) d = applyLevel s d := by
      rw [applyLevel_putEntry, largestApply_put_limit hk]; rfl
    have hsp : setpointOf s d = min (applyLevel s d) (smallestLimit (reservoirCap s) (tableOf s d)) := hs.1
    have hlim := smallestLimit_le_put_none (reservoirCap s) (tableOf s d) k
    have hnew := replace_setpoint s d k none
    refine ⟨fun hpos => ?_, by rw [resolve_applyLevel, happly]⟩
    have hup : 0 < setpointOf (resolve d (putEntry s d k none)) d := by omega
    exact ⟨hup, replace_holds d k none hup⟩

theorem applyLevel_putEntry_none_le (s : State) (c : Channel) (k : Source) :
    applyLevel (putEntry s c k none) c ≤ applyLevel s c := by
  have hle := largestApply_put_none_le (tableOf s c) k
  rw [applyLevel_putEntry]
  unfold applyLevel
  split <;> omega

/-- A removed APPLY leaves a setpoint of 0 there. -/
theorem withdraw_apply_falls {k : Source} (hk : k.isApply = true) (hs : ChannelResolved s c) (d : Channel)
    (h0 : setpointOf s c = 0) : setpointOf (withdraw d k s) c = 0 := by
  rcases withdraw_cases_at c d k s with h | ⟨rfl, h⟩
  · rw [(h.mono (isResultOf_le c)).results.1, h0]
  · rw [h, replace_setpoint, smallestLimit_put_apply hk]
    have hle := applyLevel_putEntry_none_le s d k
    have hsp : setpointOf s d = min (applyLevel s d) (smallestLimit (reservoirCap s) (tableOf s d)) := hs.1
    omega

/-- Where the removal of an entry takes a setpoint down to 0, no APPLY level is left. -/
theorem withdraw_dip (hs : ChannelResolved s c) (d : Channel) (k : Source) (hpos : 0 < setpointOf s c) :
    0 < setpointOf (withdraw d k s) c ∨ applyLevel (withdraw d k s) c = 0 := by
  rcases withdraw_cases_at c d k s with h | ⟨rfl, h⟩
  · exact .inl (by rw [(h.mono (isResultOf_le c)).results.1]; exact hpos)
  · rw [h, resolve_applyLevel, replace_setpoint]
    have hlim := smallestLimit_le_put_none (reservoirCap s) (tableOf s d) k
    have hsp : setpointOf s d = min (applyLevel s d) (smallestLimit (reservoirCap s) (tableOf s d)) := hs.1
    omega

end Entries

end Sys2Proof
end

