-- ==== Sys2Proof/Proofs/ResolutionMoves.lean ====
section
/-! Setpoints under backup causes, wakes, tyres and a new D, and the step lemma of `ResolutionInv` for every row but the pressure
sample. -/

namespace Sys2Proof

open Sys2Proof.Machine

/-! ## Shapes of the shared operations -/

/-- A skid state that returns to FREE does so in one withdrawal; a channel that is FREE stays as it is (R48). -/
theorem freeSkid_cases (c : Channel) (s : State) : freeSkid c s = s ∨ ∃ k : SkidRec,
    k.state = .free ∧ freeSkid c s = queueEvent (withdraw c .skid (s.setSkid (s.skid.set c k))) := by
  unfold freeSkid
  dsimp only
  split
  · exact .inl rfl
  · exact .inr ⟨_, rfl, rfl⟩

/-- A record that entered BACKUP: the valves and the control state of R2. -/
def deEnergised (r : ChannelRec) : ChannelRec :=
  { r with backupValve := false, inlet := .closed, exhaust := .closed, controlState := .holding, tracking := none }

theorem enterBackup_eq (c : Channel) (s : State) : enterBackup c s =
    queueEvent (freeSkid c (testBackupNotice c (setChannel s c (deEnergised (channelOf s c))))) := rfl

theorem deEnergise_frame (c : Channel) (s : State) :
    OnlyChanges [.valves c] s (setChannel s c (deEnergised (channelOf s c))) :=
  setChannel_frame (.inr ⟨rfl, rfl⟩) (.inr ⟨rfl, rfl⟩) (.inl (by simp)) (.inr rfl)

/-- The causes of a channel with one more, and what the first one brings about (R2). -/
theorem addCause_cases (k : Cause) (c : Channel) (s : State) :
    let s1 := setChannel s c { channelOf s c with causes := (channelOf s c).causes.put k true }
    (addCause k c s = s ∧ (channelOf s c).causes.has k = true) ∨
    (addCause k c s = enterBackup c s1 ∧ electronic s c = true) ∨
    (addCause k c s = s1 ∧ electronic s c = false) := by
  cases hk : (channelOf s c).causes.has k with
  | true => exact .inl ⟨addCause_has hk, rfl⟩
  | false =>
    cases he : (channelOf s c).causes.isEmpty with
    | true => exact .inr (.inl ⟨by simp [addCause, hk, he], he⟩)
    | false => exact .inr (.inr ⟨by simp [addCause, hk, he], he⟩)

/-- D written, and NO_DEMAND_SOURCE added where no source is left (R31, R32). -/
def writeDemand (s : State) : State :=
  let s1 := s.setDriver { settleMismatch s.driver with demand := demandOf (settleMismatch s.driver) }
  if noSource s1 then forChannels (addCause .noDemandSource) s1 else s1

theorem formDemand_eq (s : State) : formDemand s = forChannels updateDriver (writeDemand s) := rfl

theorem updateDriver_cases (c : Channel) (s : State) :
    updateDriver c s = s ∨ (∃ e, updateDriver c s = post c .driver e s) ∨ updateDriver c s = withdraw c .driver s := by
  unfold updateDriver
  split
  · split
    · exact .inl rfl
    · exact .inr (.inl ⟨_, rfl⟩)
  · exact .inr (.inr rfl)

/-! ## Operations that raise setpoints -/

/-- The setpoints stay resolved, none that is above 0 falls to 0, and the applied derates follow R36. -/
def Raises (s t : State) : Prop :=
  (ResolutionInv s → ResolutionInv t ∧ ∀ c, Lifts c s t) ∧ ∀ c, FollowsDerate c s t

theorem Raises.trans {s t u : State} (h : Raises s t) (k : Raises t u) : Raises s u := by
  obtain ⟨h1, h2⟩ := h
  obtain ⟨k1, k2⟩ := k
  refine ⟨fun hs => ?_, fun c => (h2 c).trans (k2 c)⟩
  obtain ⟨ht, hup⟩ := h1 hs
  obtain ⟨hu, kup⟩ := k1 ht
  exact ⟨hu, fun c => (hup c).trans (kup c)⟩

theorem Raises.of_same {s t : State} (h : SameOn isResolution s t) : Raises s t := by
  have hc (c : Channel) := h.mono (isResolutionOf_le c)
  exact ⟨fun hs => ⟨hs.keeps h, fun c => .of_same (hc c)⟩, fun c => .of_same ((hc c).mono (isResultOf_le c))⟩

theorem Raises.frame {l : List Part} {s t : State} (h : OnlyChanges l s t)
    (hl : l.all (fun q => !isResolution q) = true) : Raises s t := .of_same (.of_frame h hl)

theorem Raises.of_quiet {s t : State} (h : Quiet s t) : Raises s t := .of_same h.resolution

theorem withdraw_limit_raises {k : Source} (hk : k.isApply = false) (c : Channel) (s : State) :
    Raises s (withdraw c k s) :=
  ⟨fun hs => ⟨withdraw_resolved hs c k, fun d => withdraw_limit_lifts hk (hs d) c⟩, fun _ => withdraw_follows c k⟩

theorem freeSkid_raises (c : Channel) (s : State) : Raises s (freeSkid c s) := by
  rcases freeSkid_cases c s with h | ⟨k, -, h⟩ <;> rw [h]
  · exact .of_same (.refl _ s)
  · exact ((Raises.frame (setSkid_frame s c k) rfl).trans (withdraw_limit_raises rfl c _)).trans
      (.of_quiet (queueEvent_quiet _))

theorem enterBackup_raises (c : Channel) (s : State) : Raises s (enterBackup c s) := by
  rw [enterBackup_eq]
  exact (((Raises.frame (deEnergise_frame c s) rfl).trans (.frame (testBackupNotice_quiet c _) rfl)).trans
    (freeSkid_raises c _)).trans (.of_quiet (queueEvent_quiet _))

theorem addCause_raises (k : Cause) (c : Channel) (s : State) : Raises s (addCause k c s) := by
  have hput := Raises.frame (setCauses_frame (s := s) c ((channelOf s c).causes.put k true) (channelOf s c).startupHeld) rfl
  rcases addCause_cases k c s with ⟨h, -⟩ | ⟨h, -⟩ | ⟨h, -⟩ <;> rw [h]
  · exact .of_same (.refl _ s)
  · exact hput.trans (enterBackup_raises c _)
  · exact hput

theorem addStartup_raises (c : Channel) (s : State) : Raises s (addStartup c s) :=
  (Raises.frame (setCauses_frame (s := s) c (channelOf s c).causes true) rfl).trans (addCause_raises .startup c _)

theorem forChannels_raises {g : Channel → State → State} (h : ∀ d t, Raises t (g d t)) (s : State) :
    Raises s (forChannels g s) := forChannels_rel (fun _ _ _ => .trans) h s

theorem forMask_raises {g : Channel → State → State} (mask : Nat) (h : ∀ d t, Raises t (g d t)) (s : State) :
    Raises s (forMask mask g s) := by
  refine forChannels_raises (fun d t => ?_) s
  split
  · exact h d t
  · exact .of_same (.refl _ t)

theorem startupCheck_raises (c : Channel) (s : State) : Raises s (startupCheck c s) := by
  unfold startupCheck
  split
  · exact .frame (setCauses_frame (s := s) c (channelOf s c).causes false) rfl
  · exact addCause_raises _ c s

theorem wake_raises (r : WakeReason) (s : State) : Raises s (wake r s) := by
  unfold wake
  split
  · exact ((Raises.frame (setStandby_frame s _) rfl).trans (.frame (raiseWakeReason_frame _) rfl)).trans
      (forChannels_raises addStartup_raises _)
  · exact .of_same (.refl _ s)

/-! ## Runs of derates and wakes -/

/-- A derate formed anew moves the applied derate at setpoint 0 alone (R36). -/
theorem formDerate_values (c d : Channel) (s : State) :
    setpointOf (formDerate c s) d = setpointOf s d ∧
    currentOf (formDerate c s) d = (if d = c then derateOf s c else currentOf s d) ∧
    appliedOf (formDerate c s) d = (if d = c ∧ setpointOf s c = 0 then derateOf s c else appliedOf s d) := by
  unfold formDerate
  dsimp only
  split <;> simp_all [setpointOf, appliedOf, currentOf, channelOf]

theorem formDerate_lifting (c : Channel) {s : State} (hs : ResolutionInv s) :
    ResolutionInv (formDerate c s) ∧ ∀ d, Lifts d s (formDerate c s) := by
  have hframe := formDerate_frame c s
  have hinput (d : Channel) := hframe.resolved d (by simp) (by simp) (by simp)
  have hraised : (formDerate c s).load.raised = s.load.raised := hframe .raised (by simp)
  have hsetpoint (d : Channel) := hframe (.setpoint d) (by simp)
  have hsummary : (formDerate c s).demand.summary = s.demand.summary := by
    unfold formDerate; dsimp only; split <;> rfl
  refine ⟨fun d => ?_, fun d => ?_⟩
  · obtain ⟨etab, ecap, eapp, eres⟩ := hinput d
    obtain ⟨-, hcur, happ⟩ := formDerate_values c d s
    obtain ⟨hsp, hlim⟩ := hsetpoint d
    obtain ⟨rsp, rlim, rapply, rsmall, rcap, rraised, rzero⟩ := hs d
    simp only [hsp, hlim, hsummary, etab, ecap, eapp, eres, hraised]
    refine ⟨rsp, rlim, rapply, rsmall, rcap, rraised, fun h0 => ?_⟩
    have hzero : appliedOf s d = currentOf s d := rzero h0
    show appliedOf (formDerate c s) d = currentOf (formDerate c s) d
    rw [happ, hcur]
    by_cases hd : d = c
    · subst hd; simp [setpointOf, h0]
    · simp [hd, hzero]
  · obtain ⟨hsp, -, happ⟩ := formDerate_values c d s
    refine ⟨fun hpos => ⟨by omega, ?_⟩, (hinput d).2.2.1⟩
    rw [happ, if_neg]
    rintro ⟨rfl, h0⟩
    omega

theorem TyreMove.lifting {s t : State} (h : TyreMove s t) (hs : ResolutionInv s) :
    ResolutionInv t ∧ ∀ c, Lifts c s t := by
  cases h with
  | quiet hq => exact (Raises.of_quiet hq).1 hs
  | derate c => exact formDerate_lifting c hs
  | wake r => exact (wake_raises r s).1 hs

/-- Derates and wakes keep the setpoints resolved, and take none down to 0. -/
theorem TyreRun.lifting {s t : State} (h : TyreRun s t) (hs : ResolutionInv s) :
    ResolutionInv t ∧ ∀ c, Lifts c s t := by
  induction h with
  | refl => exact ⟨hs, fun c => .of_same (.refl _ s)⟩
  | tail _ hmove ih =>
    obtain ⟨hmid, hup⟩ := ih
    obtain ⟨hend, hlast⟩ := hmove.lifting hmid
    exact ⟨hend, fun c => (hup c).trans (hlast c)⟩

/-- In RUNNING derates move no setpoint, and the applied derate follows at setpoint 0 (R36). -/
def RestsInRunning (s t : State) : Prop :=
  isRunning s = true → isRunning t = true ∧ ∀ c, setpointOf t c = setpointOf s c ∧
    (setpointOf s c = 0 → appliedOf s c = currentOf s c → appliedOf t c = currentOf t c)

theorem TyreMove.rests {s t : State} (h : TyreMove s t) : RestsInRunning s t := by
  intro hrun
  cases h with
  | quiet hq =>
    refine ⟨by rw [hq.running, hrun], fun c => ?_⟩
    obtain ⟨hsp, happ, hcur⟩ := ((hq.resolution.mono (isResolutionOf_le c)).mono (isResultOf_le c)).results
    exact ⟨hsp, fun _ h => by omega⟩
  | derate c s =>
    refine ⟨by rw [(formDerate_frame c s).running (by simp), hrun], fun d => ?_⟩
    obtain ⟨hsp, hcur, happ⟩ := formDerate_values c d s
    refine ⟨hsp, fun h0 h => ?_⟩
    rw [hcur, happ]
    by_cases hd : d = c
    · subst hd; simp [h0]
    · simp [hd, h]
  | wake r s =>
    have hp : isParked s = false := by
      cases ho : s.standby.opState <;> simp_all [isRunning, isParked]
    rw [wake_awake r s hp]
    exact ⟨hrun, fun c => ⟨rfl, fun _ h => h⟩⟩

theorem TyreRun.rests {s t : State} (h : TyreRun s t) : RestsInRunning s t := by
  intro hrun
  induction h with
  | refl => exact ⟨hrun, fun c => ⟨rfl, fun _ h => h⟩⟩
  | tail _ hmove ih =>
    obtain ⟨hmid, hval⟩ := ih
    obtain ⟨hend, hlast⟩ := hmove.rests hmid
    refine ⟨hend, fun c => ?_⟩
    obtain ⟨h1, h2⟩ := hval c
    obtain ⟨k1, k2⟩ := hlast c
    exact ⟨by omega, fun h0 h => k2 (by omega) (h2 h0 h)⟩

/-! ## A new D (R31) -/

theorem updateDriver_resolved {s : State} (hs : ResolutionInv s) (c : Channel) : ResolutionInv (updateDriver c s) := by
  rcases updateDriver_cases c s with h | ⟨e, h⟩ | h <;> rw [h]
  · exact hs
  · exact post_resolved hs c .driver e
  · exact withdraw_resolved hs c .driver

theorem updateDriver_holds (c : Channel) (s : State) : HoldsDerate c s (updateDriver c s) := by
  rcases updateDriver_cases c s with h | ⟨e, h⟩ | h <;> rw [h]
  · exact fun _ => rfl
  · exact post_holds c .driver e
  · exact withdraw_holds c .driver

theorem updateDriver_follows (c d : Channel) (s : State) : FollowsDerate c s (updateDriver d s) := by
  rcases updateDriver_cases d s with h | ⟨e, h⟩ | h <;> rw [h]
  · exact ⟨rfl, .inl rfl⟩
  · exact post_follows d .driver e
  · exact withdraw_follows d .driver

theorem writeDemand_raises (s : State) : Raises s (writeDemand s) := by
  have hset := Raises.frame (setDriver_frame s { settleMismatch s.driver with demand := demandOf (settleMismatch s.driver) }) rfl
  unfold writeDemand
  dsimp only
  split
  · exact hset.trans (forChannels_raises (addCause_raises .noDemandSource) _)
  · exact hset

/-- What each channel's own resolution brings about holds of an operation done for every channel. -/
theorem forChannels_holds {f : Channel → List Part} {g : Channel → State → State} (c : Channel)
    (hf : ∀ d t, OnlyChanges (f d) t (g d t))
    (hother : ∀ d, d ≠ c → (f d).all (fun q => !isResultOf c q) = true) (h : ∀ t, HoldsDerate c t (g c t)) (s : State) :
    HoldsDerate c s (forChannels g s) :=
  forChannels_turn (S := SameOn (isResultOf c)) c (fun _ _ _ h k => .before h k) (fun _ _ _ h k => h.after k) h
    (fun d t hd => .of_frame (hf d t) (hother d hd)) s

theorem resolveParts_other {c d : Channel} (hd : d ≠ c) (k : Source) :
    (Part.entry d k :: resolveParts d).all (fun q => !isResultOf c q) = true := by
  simp [resolveParts, abortParts, isResultOf, hd]

theorem formDemand_resolved {s : State} (hs : ResolutionInv s) : ResolutionInv (formDemand s) := by
  rw [formDemand_eq]
  have hmid : ResolutionInv (writeDemand s) := ((writeDemand_raises s).1 hs).1
  exact forChannels_keeps (P := ResolutionInv) (fun c t ht => updateDriver_resolved ht c) _ hmid

theorem formDemand_follows (c : Channel) (s : State) : FollowsDerate c s (formDemand s) := by
  rw [formDemand_eq]
  exact ((writeDemand_raises s).2 c).trans (forChannels_rel (fun _ _ _ => .trans) (fun d t => updateDriver_follows c d t) _)

/-- The applied derate of a channel whose setpoint is above 0 before and after (R36). -/
def KeepsDerate (c : Channel) (s t : State) : Prop :=
  0 < setpointOf s c → 0 < setpointOf t c → appliedOf t c = appliedOf s c

theorem HoldsDerate.keeps {c : Channel} {s t : State} (h : HoldsDerate c s t) : KeepsDerate c s t := fun _ => h

theorem Lifts.keeps {c : Channel} {s t : State} (h : Lifts c s t) : KeepsDerate c s t := fun hpos _ => (h.1 hpos).2

theorem Lifts.keeps_of {c : Channel} {s t u : State} (h : Lifts c s t) (k : KeepsDerate c t u) : KeepsDerate c s u := by
  unfold KeepsDerate Lifts at *
  omega

theorem formDemand_keeps {s : State} (hs : ResolutionInv s) (c : Channel) : KeepsDerate c s (formDemand s) := by
  rw [formDemand_eq]
  refine (((writeDemand_raises s).1 hs).2 c).keeps_of (HoldsDerate.keeps ?_)
  exact forChannels_holds c updateDriver_frame (fun d hd => resolveParts_other hd .driver) (updateDriver_holds c) _

theorem KeepsDerate.around {c : Channel} {s t u v : State} (h : Quiet s t) (k : KeepsDerate c t u) (g : Quiet u v) :
    KeepsDerate c s v := by
  have h1 := ((h.resolution.mono (isResolutionOf_le c)).mono (isResultOf_le c)).results
  have h2 := ((g.resolution.mono (isResolutionOf_le c)).mono (isResultOf_le c)).results
  unfold KeepsDerate at *
  omega

/-- A demand row keeps the setpoints resolved, and the applied derates follow R36. -/
theorem DemandRun.resolves {s t : State} (h : DemandRun s t) (hs : ResolutionInv s) :
    ResolutionInv t ∧ ∀ c, KeepsDerate c s t ∧ FollowsDerate c s t := by
  obtain ⟨u, v, hu, hv, ht⟩ := h
  have hresu := hs.keeps hu.resolution
  have hmid : ResolutionInv v ∧ ∀ c, KeepsDerate c u v ∧ FollowsDerate c u v := by
    rcases hv with rfl | ⟨d, rfl⟩
    · exact ⟨hresu, fun c => ⟨fun _ _ => rfl, .of_same (.refl _ _)⟩⟩
    · have hset : Raises u (u.setDriver d) := .frame (setDriver_frame u d) rfl
      have hresd := (hset.1 hresu).1
      exact ⟨formDemand_resolved hresd, fun c => ⟨((hset.1 hresu).2 c).keeps_of (formDemand_keeps hresd c),
        (hset.2 c).trans (formDemand_follows c _)⟩⟩
  refine ⟨hmid.1.keeps ht.resolution, fun c => ⟨.around hu (hmid.2 c).1 ht, ?_⟩⟩
  exact (((Raises.of_quiet hu).2 c).trans (hmid.2 c).2).trans ((Raises.of_quiet ht).2 c)

end Sys2Proof
end

