-- ==== Sys2Proof/Proofs/LatchRows.lean ====
section
/-! The rows that move setpoints one by one: the applied derate of a channel whose setpoint stays above 0 is kept, and one that rises
from 0 takes the current derate (R36). -/

namespace Sys2Proof

open Sys2Proof.Machine

/-! ## Operations that resolve each channel at most once -/

/-- The setpoints stay resolved and the applied derates follow R36, a setpoint above 0 keeping its own. -/
def Latching (s t : State) : Prop :=
  (ResolutionInv s → ResolutionInv t ∧ ∀ c, KeepsDerate c s t) ∧ ∀ c, FollowsDerate c s t

theorem Raises.latching {s t : State} (h : Raises s t) : Latching s t :=
  ⟨fun hs => ⟨(h.1 hs).1, fun c => ((h.1 hs).2 c).keeps⟩, h.2⟩

theorem Raises.then {s t u : State} (h : Raises s t) (k : Latching t u) : Latching s u := by
  obtain ⟨k1, k2⟩ := k
  refine ⟨fun hs => ?_, fun c => (h.2 c).trans (k2 c)⟩
  obtain ⟨ht, hup⟩ := h.1 hs
  obtain ⟨hu, hkeep⟩ := k1 ht
  exact ⟨hu, fun c => (hup c).keeps_of (hkeep c)⟩

theorem Latching.after {s t u : State} (h : Latching s t) (k : SameOn isResolution t u) : Latching s u := by
  have hres (c : Channel) := ((k.mono (isResolutionOf_le c)).mono (isResultOf_le c)).results
  refine ⟨fun hs => ⟨(h.1 hs).1.keeps k, fun c => ?_⟩, fun c => (h.2 c).trans ((Raises.of_same k).2 c)⟩
  have hkeep := (h.1 hs).2 c
  have := hres c
  unfold KeepsDerate at *
  omega

theorem Latching.event {s t : State} (h : Latching s t) : Latching s (queueEvent t) :=
  h.after (queueEvent_quiet t).resolution

theorem Latching.refresh {s t : State} (h : Latching s t) : Latching s (refreshFaults t) :=
  h.after (refreshFaults_quiet t).resolution

theorem Latching.refl (s : State) : Latching s s := (Raises.of_same (.refl _ s)).latching

theorem DemandRun.latching {s t : State} (h : DemandRun s t) (hs : ResolutionInv s) :
    ResolutionInv t ∧ (∀ c, KeepsDerate c s t) ∧ ∀ c, FollowsDerate c s t := by
  obtain ⟨ht, hc⟩ := h.resolves hs
  exact ⟨ht, fun c => (hc c).1, fun c => (hc c).2⟩

theorem post_latching (c : Channel) (k : Source) (e : Entry) (s : State) : Latching s (post c k e s) :=
  ⟨fun hs => ⟨post_resolved hs c k e, fun _ => (post_holds c k e).keeps⟩, fun _ => post_follows c k e⟩

theorem withdraw_latching (c : Channel) (k : Source) (s : State) : Latching s (withdraw c k s) :=
  ⟨fun hs => ⟨withdraw_resolved hs c k, fun _ => (withdraw_holds c k).keeps⟩, fun _ => withdraw_follows c k⟩

/-- An operation done for every channel, each turn resolving its own channel at most once. -/
theorem forChannels_latching {f : Channel → List Part} {g : Channel → State → State}
    (hf : ∀ d t, OnlyChanges (f d) t (g d t))
    (hother : ∀ c d, d ≠ c → (f d).all (fun q => !isResultOf c q) = true)
    (hres : ∀ d t, ResolutionInv t → ResolutionInv (g d t)) (hholds : ∀ c t, HoldsDerate c t (g c t))
    (hfollows : ∀ c d t, FollowsDerate c t (g d t)) (s : State) : Latching s (forChannels g s) :=
  ⟨fun hs => ⟨forChannels_keeps (P := ResolutionInv) hres s hs,
    fun c => (forChannels_holds c hf (hother c) (hholds c) s).keeps⟩,
   fun c => forChannels_rel (fun _ _ _ => .trans) (hfollows c) s⟩

theorem forChannels_withdraw (k : Source) (s : State) : Latching s (forChannels (fun c t => withdraw c k t) s) :=
  forChannels_latching (fun d t => withdraw_frame d k t) (fun _ _ hd => resolveParts_other hd k)
    (fun d _ ht => withdraw_resolved ht d k) (fun c _ => withdraw_holds c k) (fun _ d _ => withdraw_follows d k) s

/-- The turn of a channel that a mask may leave out. -/
def maskTurn (mask : Nat) (g : Channel → State → State) (c : Channel) (t : State) : State :=
  if inMask mask c then g c t else t

theorem forMask_eq (mask : Nat) (g : Channel → State → State) (s : State) :
    forMask mask g s = forChannels (maskTurn mask g) s := rfl

theorem maskTurn_cases (mask : Nat) (g : Channel → State → State) (c : Channel) (t : State) :
    maskTurn mask g c t = t ∨ maskTurn mask g c t = g c t := by
  unfold maskTurn
  split
  · exact .inr rfl
  · exact .inl rfl

theorem maskTurn_rel {R : State → State → Prop} {mask : Nat} {g : Channel → State → State} {c : Channel} {t : State}
    (h0 : R t t) (h : R t (g c t)) : R t (maskTurn mask g c t) := by
  rcases maskTurn_cases mask g c t with e | e <;> rw [e]
  · exact h0
  · exact h

theorem forMask_latching {k : Source} {g : Channel → State → State} (mask : Nat)
    (hf : ∀ d t, OnlyChanges (.entry d k :: resolveParts d) t (g d t))
    (hres : ∀ d t, ResolutionInv t → ResolutionInv (g d t)) (hholds : ∀ c t, HoldsDerate c t (g c t))
    (hfollows : ∀ c d t, FollowsDerate c t (g d t)) (s : State) : Latching s (forMask mask g s) := by
  rw [forMask_eq]
  refine forChannels_latching (f := fun d => .entry d k :: resolveParts d) (fun d t => ?_)
    (fun _ _ hd => resolveParts_other hd k) (fun d t => ?_) (fun c t => ?_) (fun c d t => ?_) s
  · exact maskTurn_rel (R := OnlyChanges _) (.refl _ t) (hf d t)
  · exact maskTurn_rel (R := fun t u => ResolutionInv t → ResolutionInv u) id (hres d t)
  · exact maskTurn_rel (R := HoldsDerate c) (fun _ => rfl) (hholds c t)
  · exact maskTurn_rel (R := FollowsDerate c) ⟨rfl, .inl rfl⟩ (hfollows c d t)

/-! ## Supply, skid cycle and stages -/

theorem setSupply_raises (s : State) (x : SupplyRec) : Raises s (s.setSupply x) := .frame (setSupply_frame s x) rfl

theorem setSkid_raises (s : State) (c : Channel) (k : SkidRec) : Raises s (s.setSkid (s.skid.set c k)) :=
  .frame (setSkid_frame s c k) rfl

theorem setStage_raises (r : StageRec) (s : State) : Raises s (setStage r s) := .frame (setStage_frame r s) rfl

theorem postEmerg_latching (s : State) : Latching s (forChannels postEmerg s) :=
  forChannels_latching postEmerg_frame (fun _ _ hd => resolveParts_other hd .emerg)
    (fun d _ ht => post_resolved ht d .emerg _) (fun c _ => post_holds c .emerg _)
    (fun _ d _ => post_follows d .emerg _) s

theorem setEmergency_latching (s : State) : Latching s (setEmergency s) :=
  ((setSupply_raises s _).then (postEmerg_latching _)).event

theorem clearEmergency_latching (s : State) : Latching s (clearEmergency s) :=
  ((setSupply_raises s _).then (forChannels_withdraw .emerg _)).event

theorem disableAntiLock_raises (c : Channel) (s : State) : Raises s (disableAntiLock c s) :=
  ((setSkid_raises s c _).trans (freeSkid_raises c _)).trans (.of_quiet (queueEvent_quiet _))

theorem forcedHold_latching (c : Channel) (s : State) : Latching s (forcedHold c s) := by
  unfold forcedHold
  dsimp only
  split
  · exact (setSkid_raises s c _).then (post_latching c .skid _ _)
  · exact (disableAntiLock_raises c s).latching

theorem enterReapply_latching (n : Nat) (c : Channel) (s : State) : Latching s (enterReapply n c s) :=
  (setSkid_raises s c _).then (post_latching c .skid _ _)

theorem reapplyStep_latching (c : Channel) (s : State) : Latching s (reapplyStep c s) := by
  unfold reapplyStep
  dsimp only
  split
  · exact (freeSkid_raises c s).latching
  · exact enterReapply_latching _ c s

theorem withdrawRoll_latching (s : State) : Latching s (withdrawRoll s) :=
  (setStage_raises _ s).then (forChannels_withdraw .roll _)

theorem freeGenerator_raises (s : State) : Raises s (freeGenerator s) := .frame (freeGenerator_frame s) rfl

theorem probeToWatch_latching (s : State) : Latching s (probeToWatch s) :=
  (((setStage_raises _ s).trans (freeGenerator_raises _)).then (withdrawRoll_latching _)).event

theorem stageOff_latching (s : State) : Latching s (stageOff s) :=
  (((setStage_raises _ s).trans (freeGenerator_raises _)).then (withdrawRoll_latching _)).event

theorem rollParts_other {c d : Channel} (hd : d ≠ c) : (rollParts d).all (fun q => !isResultOf c q) = true := by
  simp [rollParts, resolveParts, abortParts, isResultOf, hd]

theorem postRoll_resolved {s : State} (hs : ResolutionInv s) (g : Stage) (n : Nat) (c : Channel) :
    ResolutionInv (postRoll g n c s) :=
  post_resolved (((setStage_raises _ s).1 hs).1) c .roll _

theorem postRoll_holds (g : Stage) (n : Nat) (c : Channel) (s : State) : HoldsDerate c s (postRoll g n c s) :=
  .before (.of_frame (setStage_frame _ s) rfl) (post_holds c .roll _)

theorem postRoll_follows (g : Stage) (n : Nat) (c d : Channel) (s : State) : FollowsDerate c s (postRoll g n d s) :=
  ((setStage_raises _ s).2 c).trans (post_follows d .roll _)

theorem forChannels_postRoll {g : Channel → State → State}
    (hg : ∀ d t, g d t = t ∨ ∃ k n, g d t = postRoll k n d t) (s : State) : Latching s (forChannels g s) := by
  refine forChannels_latching (f := rollParts) (fun d t => ?_) (fun _ _ => rollParts_other) (fun d t ht => ?_)
    (fun c t => ?_) (fun c d t => ?_) s <;> rcases hg _ t with h | ⟨k, n, h⟩ <;> rw [h]
  · exact .refl _ t
  · exact postRoll_frame k n d t
  · exact ht
  · exact postRoll_resolved ht k n d
  · exact fun _ => rfl
  · exact postRoll_holds k n c t
  · exact ⟨rfl, .inl rfl⟩
  · exact postRoll_follows k n c d t

theorem enterRecover_latching (s : State) : Latching s (enterRecover s) :=
  ((setStage_raises _ s).then (forChannels_postRoll (fun _ _ => .inr ⟨_, _, rfl⟩) _)).event

theorem lowerRoll_cases (c : Channel) (s : State) : lowerRoll c s = s ∨ ∃ k n, lowerRoll c s = postRoll k n c s := by
  unfold lowerRoll
  dsimp only
  split
  · exact .inl rfl
  · exact .inr ⟨_, _, rfl⟩

theorem withdrawRoll_falls {s : State} (hs : ResolutionInv s) (c : Channel) (h0 : setpointOf s c = 0) :
    setpointOf (withdrawRoll s) c = 0 := by
  have hstage := ((setStage_raises { s.roll.stage with level := .const none } s).1 hs).1
  refine (forChannels_keeps (P := fun t => ResolutionInv t ∧ setpointOf t c = 0) (fun d t ht => ?_) _ ⟨hstage, h0⟩).2
  exact ⟨withdraw_resolved ht.1 d .roll, withdraw_apply_falls rfl (ht.1 c) d ht.2⟩

/-- The two courses of a RECOVER step (R121): the levels lowered, and, where all have come to 0, the end of the recovery. -/
theorem stepRecover_cases (s : State) :
    let lowered := forChannels lowerRoll (setStage { s.roll.stage with ramp := 0 } s)
    stepRecover s = lowered ∨ ∃ g, (g = .watch ∨ g = .quiet) ∧
      stepRecover s = queueEvent (withdrawRoll (setStage { lowered.roll.stage with stage := g, calm := none } lowered)) := by
  unfold stepRecover
  dsimp only
  split
  · refine .inr ⟨_, ?_, rfl⟩
    split
    · exact .inl rfl
    · exact .inr rfl
  · exact .inl rfl

/-- What lowers no setpoint of 0 may follow. -/
theorem Latching.then_fall {s t u : State} (h : Latching s t) (k : Latching t u)
    (hfall : ResolutionInv t → ∀ c, setpointOf t c = 0 → setpointOf u c = 0) : Latching s u := by
  refine ⟨fun hs => ?_, fun c => (h.2 c).trans (k.2 c)⟩
  obtain ⟨ht, hkeep⟩ := h.1 hs
  obtain ⟨hu, kkeep⟩ := k.1 ht
  refine ⟨hu, fun c hpos hpos' => ?_⟩
  have hmid : 0 < setpointOf t c := Nat.pos_of_ne_zero (fun h0 => by have := hfall ht c h0; omega)
  rw [kkeep c hmid hpos', hkeep c hpos hmid]

/-- A RECOVER step lowers each level at most once, and its end withdraws levels of 0 (R121). -/
theorem stepRecover_latching (s : State) : Latching s (stepRecover s) := by
  have hlower : Latching s (forChannels lowerRoll (setStage { s.roll.stage with ramp := 0 } s)) :=
    (setStage_raises _ s).then (forChannels_postRoll lowerRoll_cases _)
  rcases stepRecover_cases s with h | ⟨g, -, h⟩ <;> rw [h]
  · exact hlower
  · refine Latching.event (hlower.then_fall ((setStage_raises _ _).then (withdrawRoll_latching _)) fun ht c h0 => ?_)
    exact withdrawRoll_falls ((setStage_raises _ _).1 ht).1 c h0

/-! ## Rows outside the controller ports -/

theorem whenDue_latching {b : Bool} {f : State → State} {s : State} (h : Latching s (f s)) : Latching s (whenDue b f s) := by
  unfold whenDue
  split
  · exact h.refresh
  · exact .refl s

theorem endVent_raises (t : RunningTest) (s : State) : Raises s (endVent t s) := by
  have hstore : Raises s (storeResult t.channel t.port (finishedResult t) (s.setTests { s.tests with holder := .free })) :=
    (Raises.frame (setHolder_frame s .free) rfl).trans (.frame (storeResult_frame _ _ _ _) rfl)
  have hclass (v : Option Nat) (b : Bool) (u : State) : Raises u (setLeak t.channel b (setClass t.channel v u)) :=
    (Raises.frame (setClass_frame t.channel v u) rfl).trans (.frame (setLeak_frame t.channel b _) rfl)
  refine hstore.trans (u := outcomeEffect t _) ?_
  unfold outcomeEffect
  split
  · exact hclass _ _ _
  · exact (hclass _ _ _).trans (addCause_raises _ _ _)
  · exact (hclass _ _ _).trans (addCause_raises _ _ _)
  · exact .frame (setLeak_frame _ _ _) rfl
  · exact .of_same (.refl _ _)
  · exact .of_same (.refl _ _)

/-- The rows outside the controller ports that move the core and resolve each channel at most once. -/
def isLatchRow : Instr → Bool
  | .trackingTimeout _ | .emergencyOnset | .emergencyRecovery | .lowReservoirOnset | .ctrlEntryExpiry _ _
  | .skidForcedHold _ | .skidHoldTimeout _ | .skidReapplyStep _ | .rolloverCalmToQuiet | .probeTimeout | .interveneEnd
  | .recoverStep | .testStart | .testHeadTimeout | .testPulseEnd | .testSettleEnd | .testVentEnd | .onTimeEnd _ => true
  | _ => false

/-- The four rows of a test do nothing where the last sample found nothing due. -/
theorem exec_testStart (s : State) : exec .testStart s = .next s ∨
    ∃ q, startableHead s = some q ∧ exec .testStart s = .next (refreshFaults (startTest q s)) := by
  cases h : startableHead s <;> simp [exec, execTestStart, h]

theorem exec_testPulseEnd (s : State) : exec .testPulseEnd s = .next s ∨
    ∃ q, testOver .pulse s = some q ∧ exec .testPulseEnd s = .next (refreshFaults (endPulse q s)) := by
  cases h : testOver .pulse s <;> simp [exec, execTestPulseEnd, h]

theorem exec_testSettleEnd (s : State) : exec .testSettleEnd s = .next s ∨
    ∃ q, testOver .settle s = some q ∧ exec .testSettleEnd s = .next (refreshFaults (endSettle q s)) := by
  cases h : testOver .settle s <;> simp [exec, execTestSettleEnd, h]

theorem exec_testVentEnd (s : State) : exec .testVentEnd s = .next s ∨
    ∃ q, testOver .vent s = some q ∧ exec .testVentEnd s = .next (refreshFaults (endVent q s)) := by
  cases h : testOver .vent s <;> simp [exec, execTestVentEnd, h]

theorem exec_latching {i : Instr} (hi : isLatchRow i = true) (s : State) : ∃ t, exec i s = .next t ∧ Latching s t := by
  cases i with
  | trackingTimeout c => exact ⟨_, rfl, whenDue_latching (addCause_raises .tracking c s).latching⟩
  | emergencyOnset => exact ⟨_, rfl, whenDue_latching (setEmergency_latching s)⟩
  | emergencyRecovery => exact ⟨_, rfl, whenDue_latching (clearEmergency_latching s)⟩
  | lowReservoirOnset => exact ⟨_, rfl, whenDue_latching (setSupply_raises s _).latching.event⟩
  | ctrlEntryExpiry p c => exact ⟨_, rfl, whenDue_latching (withdraw_latching c _ s)⟩
  | skidForcedHold c => exact ⟨_, rfl, whenDue_latching (forcedHold_latching c s)⟩
  | skidHoldTimeout c => exact ⟨_, rfl, whenDue_latching (enterReapply_latching _ c s)⟩
  | skidReapplyStep c => exact ⟨_, rfl, whenDue_latching (reapplyStep_latching c s)⟩
  | rolloverCalmToQuiet => exact ⟨_, rfl, whenDue_latching (setStage_raises _ s).latching.event⟩
  | probeTimeout => exact ⟨_, rfl, whenDue_latching (probeToWatch_latching s)⟩
  | interveneEnd => exact ⟨_, rfl, whenDue_latching (enterRecover_latching s)⟩
  | recoverStep => exact ⟨_, rfl, whenDue_latching (stepRecover_latching s)⟩
  | testStart =>
    rcases exec_testStart s with h | ⟨q, -, h⟩ <;> rw [h]
    · exact ⟨_, rfl, .refl s⟩
    · exact ⟨_, rfl, (Raises.frame (startTest_frame q s) rfl).latching.refresh⟩
  | testHeadTimeout => exact ⟨_, rfl, whenDue_latching (Raises.frame (refuseHead_frame_all _ s) rfl).latching⟩
  | testPulseEnd =>
    rcases exec_testPulseEnd s with h | ⟨q, -, h⟩ <;> rw [h]
    · exact ⟨_, rfl, .refl s⟩
    · exact ⟨_, rfl, (Raises.frame (endPulse_frame q s) rfl).latching.refresh⟩
  | testSettleEnd =>
    rcases exec_testSettleEnd s with h | ⟨q, -, h⟩ <;> rw [h]
    · exact ⟨_, rfl, .refl s⟩
    · exact ⟨_, rfl, (Raises.frame (endSettle_frame q s) rfl).latching.refresh⟩
  | testVentEnd =>
    rcases exec_testVentEnd s with h | ⟨q, -, h⟩ <;> rw [h]
    · exact ⟨_, rfl, .refl s⟩
    · exact ⟨_, rfl, (endVent_raises q s).latching.refresh⟩
  | onTimeEnd c =>
    refine ⟨_, rfl, whenDue_latching (Raises.frame (l := [.valves c]) ?_ rfl).latching⟩
    exact setChannel_frame (.inr ⟨rfl, rfl⟩) (.inr ⟨rfl, rfl⟩) (.inl (by simp)) (.inr rfl)
  | _ => simp [isLatchRow] at hi

end Sys2Proof
end

