-- ==== Sys2Proof/Proofs/StandbyAndSets.lean ====
section
/-! The step lemma of `ResolutionInv` (R20, R36 to R38): loads, controller ports, standby, the calibration apply, the pressure sample, and
the step as a whole. -/

namespace Sys2Proof

open Sys2Proof.Machine

/-! ## What a step owes its applied derates (R36) -/

/-- A setpoint that stays above 0 keeps its applied derate; one that rises from 0 in RUNNING takes the current derate. -/
def LatchesDerate (s t : State) : Prop :=
  ∀ c, 0 < setpointOf t c → (0 < setpointOf s c → appliedOf t c = appliedOf s c) ∧
    (setpointOf s c = 0 → isRunning s = true → appliedOf t c = currentOf t c)

/-- Every applied derate is the current one. -/
def CurrentDerates (s : State) : Prop := ∀ c, appliedOf s c = currentOf s c

theorem current_of_zero {s : State} (hs : ResolutionInv s) {c : Channel} (h0 : setpointOf s c = 0) :
    appliedOf s c = currentOf s c := by
  obtain ⟨-, -, -, -, -, -, hzero⟩ := hs c
  exact hzero h0

theorem FollowsDerate.current {c : Channel} {s t : State} (h : FollowsDerate c s t) (hc : appliedOf s c = currentOf s c) :
    appliedOf t c = currentOf t c := by
  unfold FollowsDerate at h
  omega

theorem Latching.latches {s t : State} (h : Latching s t) (hs : ResolutionInv s) :
    ResolutionInv t ∧ LatchesDerate s t := by
  obtain ⟨ht, hkeep⟩ := h.1 hs
  exact ⟨ht, fun c hpos => ⟨fun hpos' => hkeep c hpos' hpos, fun h0 _ => (h.2 c).current (current_of_zero hs h0)⟩⟩

theorem DemandRun.latches {s t : State} (h : DemandRun s t) (hs : ResolutionInv s) :
    ResolutionInv t ∧ LatchesDerate s t := by
  obtain ⟨ht, hkeep, hfollow⟩ := h.latching hs
  exact ⟨ht, fun c hpos => ⟨fun hpos' => hkeep c hpos' hpos, fun h0 _ => (hfollow c).current (current_of_zero hs h0)⟩⟩

/-- Derates are formed first and setpoints resolved after (log entry 50). -/
theorem TyreRun.latches_then {s m t : State} (h : TyreRun s m) (k : Latching m t) (hs : ResolutionInv s) :
    ResolutionInv t ∧ LatchesDerate s t := by
  obtain ⟨hm, hup⟩ := h.lifting hs
  obtain ⟨ht, hkeep⟩ := k.1 hm
  refine ⟨ht, fun c hpos => ⟨fun hpos' => (hup c).keeps_of (hkeep c) hpos' hpos, fun h0 hrun => ?_⟩⟩
  obtain ⟨-, hrest⟩ := h.rests hrun
  exact (k.2 c).current ((hrest c).2 h0 (current_of_zero hs h0))

theorem TyreRun.latches {s t : State} (h : TyreRun s t) (hs : ResolutionInv s) : ResolutionInv t ∧ LatchesDerate s t :=
  h.latches_then (.refl t) hs

/-! ## Loads (R59) and the entry into RUNNING (R174) -/

/-- A load update forms derates, and then posts the EMERG levels where the emergency is set (R16, R59). -/
theorem loadUpdate_cases (s : State) : ∃ m, TyreRun s m ∧ m.supply = s.supply ∧
    ((m.supply.emergency = false ∧ loadUpdate s = m) ∨
      (m.supply.emergency = true ∧ loadUpdate s = forChannels postEmerg m)) := by
  have hload : Quiet s (s.setLoad { s.load with axle := updatedAxles s, frozen := filterFrozen s, sinceUpdate := 0 }) :=
    setLoad_quiet rfl rfl
  refine ⟨_, (TyreRun.quiet hload).trans (handOnLoads_run _), ?_, ?_⟩
  · have hhand := handOnLoads_frame (s.setLoad { s.load with
      axle := updatedAxles s, frozen := filterFrozen s, sinceUpdate := 0 }) .supply (by
        simp [loadParts, positionParts, mem_everyChannel, eventParts, noticeParts]
        exact not_mem_wakeParts (by simp) (by simp [backupParts, freeParts, resolveParts, abortParts, eventParts, noticeParts]))
    exact hhand
  · unfold loadUpdate
    dsimp only
    cases hem : (handOnLoads (s.setLoad { s.load with
      axle := updatedAxles s, frozen := filterFrozen s, sinceUpdate := 0 })).supply.emergency with
    | false => exact .inl ⟨rfl, by simp⟩
    | true => exact .inr ⟨rfl, by simp⟩

theorem loadUpdate_latches {s : State} (hs : ResolutionInv s) :
    ResolutionInv (loadUpdate s) ∧ LatchesDerate s (loadUpdate s) := by
  obtain ⟨m, hrun, -, ⟨-, h⟩ | ⟨-, h⟩⟩ := loadUpdate_cases s <;> rw [h]
  · exact hrun.latches hs
  · exact hrun.latches_then (postEmerg_latching m) hs

/-- The state in which the entry into RUNNING forms the loads (R174). -/
def startedUp (s : State) : State :=
  let s2 := forChannels startupCheck (s.setStandby { s.standby with opState := .running, startingTimer := 0 })
  s2.setSupply { s2.supply with onset := none, recovery := none, lowMeasure := none }

theorem enterRunning_eq (s : State) : enterRunning s = loadUpdate (startedUp s) := rfl

theorem startedUp_raises (s : State) : Raises s (startedUp s) :=
  ((Raises.frame (setStandby_frame s _) rfl).trans (forChannels_raises startupCheck_raises _)).trans (setSupply_raises _ _)

theorem enterRunning_latches {s : State} (hstart : isRunning s = false) (hs : ResolutionInv s) :
    ResolutionInv (enterRunning s) ∧ LatchesDerate s (enterRunning s) := by
  obtain ⟨hmid, hup⟩ := (startedUp_raises s).1 hs
  obtain ⟨hend, hlatch⟩ := loadUpdate_latches hmid
  rw [enterRunning_eq]
  refine ⟨hend, fun c hpos => ⟨fun hpos' => ?_, fun _ hrun => by simp [hstart] at hrun⟩⟩
  obtain ⟨hmidpos, happ⟩ := (hup c).1 hpos'
  rw [(hlatch c hpos).1 hmidpos, happ]

/-! ## Transfers in PARKED: a wake after the command -/

/-- A setpoint falls to 0 only where no APPLY level is left. -/
def Dips (c : Channel) (s t : State) : Prop := 0 < setpointOf s c → 0 < setpointOf t c ∨ applyLevel t c = 0

theorem Lifts.dips {c : Channel} {s t : State} (h : Lifts c s t) : Dips c s t := fun hpos => .inl (h.1 hpos).1

theorem Dips.then_lift {c : Channel} {s t u : State} (h : Dips c s t) (k : Lifts c t u) : Dips c s u := by
  unfold Dips Lifts at *
  omega

theorem Lifts.then_dip {c : Channel} {s t u : State} (h : Lifts c s t) (k : Dips c t u) : Dips c s u := by
  unfold Dips Lifts at *
  omega

/-- The resolved setpoint is at most the largest APPLY level. -/
theorem setpoint_le_apply {s : State} {c : Channel} (hs : ChannelResolved s c) : setpointOf s c ≤ applyLevel s c := by
  have hsp : setpointOf s c = min (applyLevel s c) (smallestLimit (reservoirCap s) (tableOf s c)) := hs.1
  omega

/-- A wake may raise a setpoint, but not one that fell to 0 for want of an APPLY level. -/
theorem KeepsDerate.then_wake {c : Channel} {s m t : State} (h : KeepsDerate c s m) (hd : Dips c s m) (k : Lifts c m t)
    (ht : ChannelResolved t c) : KeepsDerate c s t := by
  have := setpoint_le_apply ht
  unfold KeepsDerate Dips Lifts at *
  omega

theorem replace_apply_dips {k : Source} (hk : k.isApply = true) (e : Option Entry) {c : Channel} {s : State}
    (hs : ChannelResolved s c) : Dips c s (resolve c (putEntry s c k e)) := by
  intro hpos
  have hsp : setpointOf s c = min (applyLevel s c) (smallestLimit (reservoirCap s) (tableOf s c)) := hs.1
  have hnew := replace_setpoint s c k e
  rw [smallestLimit_put_apply hk] at hnew
  rw [resolve_applyLevel]
  omega

theorem withdraw_dips {c : Channel} {s : State} (k : Source) (hs : ChannelResolved s c) : Dips c s (withdraw c k s) :=
  fun hpos => withdraw_dip hs c k hpos

theorem updateDriver_dips {c : Channel} {s : State} (hs : ChannelResolved s c) : Dips c s (updateDriver c s) := by
  rcases updateDriver_cases c s with h | ⟨e, h⟩ | h <;> rw [h]
  · exact fun hpos => .inl hpos
  · exact replace_apply_dips rfl _ hs
  · exact withdraw_dips .driver hs

/-- What each channel's own turn may take down, an operation done for every channel may. -/
theorem forChannels_dips {f : Channel → List Part} {g : Channel → State → State} (c : Channel)
    (hf : ∀ d t, OnlyChanges (f d) t (g d t))
    (hother : ∀ d, d ≠ c → (f d).all (fun q => !isResolutionOf c q) = true)
    (h : ∀ t, ChannelResolved t c → Dips c t (g c t)) {s : State} (hs : ChannelResolved s c) :
    Dips c s (forChannels g s) := by
  refine forChannels_turn (R := fun t u => ChannelResolved t c → Dips c t u) (S := SameOn (isResolutionOf c)) c
    (fun a b d hab hbd ha => ?_) (fun a b d hab hbd ha => ?_) h (fun d t hd => .of_frame (hf d t) (hother d hd)) s hs
  · exact (Lifts.of_same hab).then_dip (hbd (ha.keeps hab))
  · exact (hab ha).then_lift (.of_same hbd)

theorem resolveParts_other_input {c d : Channel} (hd : d ≠ c) (k : Source) :
    (Part.entry d k :: resolveParts d).all (fun q => !isResolutionOf c q) = true := by
  simp [resolveParts, abortParts, isResolutionOf, hd]

theorem formDemand_dips {s : State} (hs : ResolutionInv s) (c : Channel) : Dips c s (formDemand s) := by
  rw [formDemand_eq]
  obtain ⟨hmid, hup⟩ := (writeDemand_raises s).1 hs
  exact (hup c).then_dip (forChannels_dips c updateDriver_frame (fun d hd => resolveParts_other_input hd .driver)
    (fun t ht => updateDriver_dips ht) (hmid c))

theorem DemandRun.dips {s t : State} (h : DemandRun s t) (hs : ResolutionInv s) (c : Channel) : Dips c s t := by
  obtain ⟨u, v, hu, hv, ht⟩ := h
  have hsame {a b : State} (h : SameOn isResolution a b) : Lifts c a b := .of_same (h.mono (isResolutionOf_le c))
  have hresu := hs.keeps hu.resolution
  have hmid : Dips c u v := by
    rcases hv with rfl | ⟨d, rfl⟩
    · exact fun hpos => .inl hpos
    · have hset : SameOn isResolution u (u.setDriver d) := .of_frame (setDriver_frame u d) rfl
      exact (hsame hset).then_dip (formDemand_dips (hresu.keeps hset) c)
  exact ((hsame hu.resolution).then_dip hmid).then_lift (hsame ht.resolution)

theorem not_running_of_parked {s : State} (h : isParked s = true) : isRunning s = false := by
  cases ho : s.standby.opState <;> simp_all [isRunning, isParked]

theorem not_parked_of_running {s : State} (h : isRunning s = true) : isParked s = false := by
  cases ho : s.standby.opState <;> simp_all [isRunning, isParked]

/-- What a port command owes, where the state its action leaves is `m`: its setpoints resolved and latched, and, in PARKED, none taken
down to 0 while an APPLY level is left. -/
def PortLatches (s m : State) : Prop :=
  ResolutionInv s → ResolutionInv m ∧ (∀ c, KeepsDerate c s m) ∧ (isRunning s = true → ∀ c, FollowsDerate c s m) ∧
    (isParked s = true → ∀ c, Dips c s m)

theorem PortLatches.refl (s : State) : PortLatches s s :=
  fun hs => ⟨hs, fun _ _ _ => rfl, fun _ _ => ⟨rfl, .inl rfl⟩, fun _ _ hpos => .inl hpos⟩

theorem Raises.port {s t : State} (h : Raises s t) : PortLatches s t := fun hs =>
  ⟨(h.1 hs).1, fun c => ((h.1 hs).2 c).keeps, fun _ => h.2, fun _ c => ((h.1 hs).2 c).dips⟩

theorem Latching.port {s t : State} (h : Latching s t)
    (hd : isParked s = true → ResolutionInv s → ∀ c, Dips c s t) : PortLatches s t := fun hs =>
  ⟨(h.1 hs).1, (h.1 hs).2, fun _ => h.2, fun hp => hd hp hs⟩

theorem transfer_latches {p : Port} {n : Nat} {act : Action} {s : State} (h : PortLatches s (act s).2)
    (hs : ResolutionInv s) : ResolutionInv (transfer p n act s) ∧ LatchesDerate s (transfer p n act s) := by
  obtain ⟨hm, hkeep, hfollow, hdip⟩ := h hs
  obtain ⟨ht, hup⟩ := (transfer_run p n act s).lifting hm
  refine ⟨ht, fun c hpos => ⟨fun hpos' => ?_, fun h0 hrun => ?_⟩⟩
  · cases hp : isParked s with
    | true => exact (hkeep c).then_wake (hdip hp c) (hup c) (ht c) hpos' hpos
    | false =>
      have hq := (((transfer_quiet (p := p) (n := n) (act := act) hp).resolution.mono (isResolutionOf_le c)).mono
        (isResultOf_le c)).results
      rw [hq.2.1]
      exact hkeep c hpos' (by omega)
  · have hq := transfer_quiet (p := p) (n := n) (act := act) (not_parked_of_running hrun)
    exact ((hfollow hrun c).trans ((Raises.of_quiet hq).2 c)).current (current_of_zero hs h0)

theorem withdrawTurn_dips {s : State} (mask : Nat) (k : Source) (hs : ResolutionInv s) (c : Channel) :
    Dips c s (forMask mask (fun d => withdraw d k) s) := by
  rw [forMask_eq]
  refine forChannels_dips (f := fun d => .entry d k :: resolveParts d) c
    (fun d t => maskTurn_rel (R := OnlyChanges _) (.refl _ t) (withdraw_frame d k t))
    (fun d hd => resolveParts_other_input hd k) (fun t ht => ?_) (hs c)
  exact maskTurn_rel (R := Dips c) (fun hpos => .inl hpos) (withdraw_dips k ht)

theorem withdrawEach_dips {s : State} (k : Source) (hs : ResolutionInv s) (c : Channel) :
    Dips c s (forChannels (fun d t => withdraw d k t) s) :=
  forChannels_dips (f := fun d => .entry d k :: resolveParts d) c (fun d t => withdraw_frame d k t)
    (fun _ hd => resolveParts_other_input hd k) (fun _ ht => withdraw_dips k ht) (hs c)

theorem forMask_post_latching (mask : Nat) (k : Source) (e : Entry) (s : State) :
    Latching s (forMask mask (fun c => post c k e) s) :=
  forMask_latching mask (fun d t => post_frame d k e t) (fun d _ ht => post_resolved ht d k e)
    (fun c _ => post_holds c k e) (fun _ d _ => post_follows d k e) s

theorem forMask_withdraw_latching (mask : Nat) (k : Source) (s : State) :
    Latching s (forMask mask (fun c => withdraw c k) s) :=
  forMask_latching mask (fun d t => withdraw_frame d k t) (fun d _ ht => withdraw_resolved ht d k)
    (fun c _ => withdraw_holds c k) (fun _ d _ => withdraw_follows d k) s

theorem restoreChannel_raises (c : Channel) (s : State) : Raises s (restoreChannel c s) :=
  (Raises.frame (keepCauses_frame _ c s) rfl).trans (.frame (reenableAntiLock_frame c _) rfl)

theorem syncStaging_quiet (p : Port) (s : State) : Quiet s (syncStaging p s) := by
  unfold syncStaging
  dsimp only
  split
  · exact .of_frame (discardBySync_frame p s) rfl
  · exact .refl s

theorem syncLearn_quiet (p : Port) (s : State) : Quiet s (syncLearn p s) := by
  unfold syncLearn
  split
  · exact .refl s
  · split
    · exact .of_frame (endLearn_frame _ _ s) rfl
    · exact .refl s

/-- A PORT_SYNC withdraws the port's entries and its requests; what follows leaves the core alone (R171). -/
theorem syncPort_quiet (p : Port) (s : State) : Quiet
    (keepRequests (fun q => q.port != p) (forChannels (fun c t => withdraw c (portSource p) t) s)) (syncPort p s) :=
  ((((syncStaging_quiet p _).trans (syncLearn_quiet p _)).trans (refreshFaults_quiet _)).trans
    (.of_frame (setAttention_frame _ p _) rfl)).trans (.of_frame (clearFaultView_frame _ _) rfl)

theorem cancelTest_raises (c : Channel) (s : State) : Raises s (cancelTest c s) := by
  have hqueue : Raises s (cancelQueued c s) := by
    unfold cancelQueued
    split
    · exact .of_same (.refl _ s)
    · exact (Raises.frame (keepRequests_frame _ s) rfl).trans (.frame (storeResult_frame _ _ _ _) rfl)
  exact hqueue.trans (.frame (abortTestOf_frame c .cancelled _) rfl)

theorem enqueueTest_frame (p : Port) (c : Channel) (s : State) : OnlyChanges [.testQueue] s (enqueueTest p c s) :=
  setQueue_frame s _ _ _

/-! ## Operations that resolve more than once -/

/-- The setpoints stay resolved, and the applied derates follow R36. -/
def Following (s t : State) : Prop := (ResolutionInv s → ResolutionInv t) ∧ ∀ c, FollowsDerate c s t

theorem Following.trans {s t u : State} (h : Following s t) (k : Following t u) : Following s u :=
  ⟨fun hs => k.1 (h.1 hs), fun c => (h.2 c).trans (k.2 c)⟩

theorem Following.refl (s : State) : Following s s := ⟨id, fun _ => ⟨rfl, .inl rfl⟩⟩

theorem Latching.following {s t : State} (h : Latching s t) : Following s t := ⟨fun hs => (h.1 hs).1, h.2⟩

theorem Raises.following {s t : State} (h : Raises s t) : Following s t := h.latching.following

theorem formDemand_following (s : State) : Following s (formDemand s) :=
  ⟨formDemand_resolved, fun c => formDemand_follows c s⟩

theorem DemandRun.following {s t : State} (h : DemandRun s t) : Following s t := by
  obtain ⟨u, v, hu, hv, ht⟩ := h
  refine ((Raises.of_quiet hu).following.trans ?_).trans (Raises.of_quiet ht).following
  rcases hv with rfl | ⟨d, rfl⟩
  · exact .refl v
  · exact (Raises.frame (setDriver_frame u d) rfl).following.trans (formDemand_following _)

theorem resolve_follows (c d : Channel) (s : State) : FollowsDerate c s (resolve d s) := by
  by_cases hd : c = d
  · subst hd
    have h := resolve_applied c s
    refine ⟨currentOf_resolve c c s, ?_⟩
    split at h
    · exact .inr h
    · exact .inl h
  · exact .of_same ((resolve_frame_other hd s).mono (isResultOf_le c))

/-- The resolution of all channels leaves them resolved, whatever stood before (R38). -/
theorem resolveAll_resolved (s : State) : ResolutionInv (resolveAll s) := fun c =>
  forChannels_each (P := fun c t => ChannelResolved t c) resolve_resolved
    (fun _ _ t hd ht => ht.keeps (resolve_frame_other hd.symm t)) s c

theorem resolveAll_follows (c : Channel) (s : State) : FollowsDerate c s (resolveAll s) :=
  forChannels_rel (R := FollowsDerate c) (fun _ _ _ => .trans) (fun d t => resolve_follows c d t) s

theorem emptyTables_following (s : State) : Following s (emptyTables s) := by
  have hset (c : Channel) : FollowsDerate c s (s.setDemand { s.demand with table := .const Table.empty }) :=
    ⟨rfl, .inl rfl⟩
  exact ⟨fun _ => resolveAll_resolved _, fun c => (hset c).trans (resolveAll_follows c _)⟩

/-! ## Standby (R176) -/

theorem parkPort_run (l : LinkPort) (s : State) : DemandRun s (parkPort l s) := by
  unfold parkPort
  dsimp only
  split
  · exact .of_quiet (setLinkPort_quiet s l _)
  · exact enterDown_run l _ _ _ s

/-- The state in which an entry into PARKED empties the Demand Tables: PARKED on every channel, the demand records reset (R176). -/
def parkedRecords (s : State) : State :=
  ((forChannels (addCause .parked)
    (s.setStandby { s.standby with opState := .parked, wakeTimer := wakeTimerOf s.cal.active })).setDriver
      DriverRec.reset).setSupply SupplyRec.reset

/-- The stage passes to OFF where it is not OFF (R176). -/
def offStage (s : State) : State := if s.roll.stage.stage = .off then s else stageOff s

/-- The entry into PARKED is the emptying of the tables and the passage of the stage to OFF, the Tow Link ports aside (R176). -/
theorem enterParked_run (s : State) : DemandRun (parkPort .up (offStage (emptyTables (parkedRecords s)))) (enterParked s) :=
  (parkPort_run .down _).after setLink_quiet

theorem parkedRecords_raises (s : State) : Raises s (parkedRecords s) :=
  (((Raises.frame (setStandby_frame s _) rfl).trans (forChannels_raises (addCause_raises .parked) _)).trans
    (.frame (setDriver_frame _ _) rfl)).trans (setSupply_raises _ _)

theorem offStage_latching (s : State) : Latching s (offStage s) := by
  unfold offStage
  split
  · exact .refl s
  · exact stageOff_latching s

theorem enterParked_following (s : State) : Following s (enterParked s) :=
  ((((parkedRecords_raises s).following.trans (emptyTables_following _)).trans (offStage_latching _).following).trans
    (parkPort_run .up _).following).trans (enterParked_run s).following

theorem setpointsZero_iff (s : State) : setpointsZero s = true ↔ ∀ c, setpointOf s c = 0 := by
  simp only [setpointsZero, List.all_eq_true, mem_allChannels, forall_const, decide_eq_true_eq, setpointOf]

/-- From a state in which no channel is braked nothing is owed but the latching of a rise. -/
theorem Following.port {s t : State} (h : Following s t) (h0 : ∀ c, setpointOf s c = 0) : PortLatches s t := fun hs =>
  ⟨h.1 hs, fun c hpos => by have := h0 c; omega, fun _ => h.2, fun _ c hpos => by have := h0 c; omega⟩

theorem standbyRefusal_none {s : State} (h : standbyRefusal s = none) :
    isRunning s = true ∧ s.link.up.state = .down ∧ setpointsZero s = true ∧ (runningTest s).isSome = false ∧
      s.tests.queue = [] := by
  unfold standbyRefusal at h
  split_ifs at h
  simp_all

theorem standbyAction_port (s : State) : PortLatches s (standbyAction s).2 := by
  unfold standbyAction
  split
  · exact .refl s
  · rename_i h
    obtain ⟨-, -, hzero, -, -⟩ := standbyRefusal_none h
    exact (enterParked_following s).port ((setpointsZero_iff s).mp hzero)

/-! ## The calibration apply (R163) -/

/-- The Load Estimator at an apply: the axles are measured and the raised state is formed (R70). -/
def measuredLoads (s : State) : State :=
  s.setLoad { s.load with
    raised := raisedNow s,
    axle := ⟨reloadAxle s (raisedNow s) s.load.axle.ax1 .ax1, reloadAxle s (raisedNow s) s.load.axle.ax2 .ax2,
      reloadAxle s (raisedNow s) s.load.axle.ax3 .ax3⟩ }

/-- The loads are handed on; a change of the raised state resolves every channel (R67, R70). -/
theorem reloadLoads_cases (s : State) :
    (raisedNow s = s.load.raised ∧ reloadLoads s = handOnLoads (measuredLoads s)) ∨
    reloadLoads s = formRollFlag (resolveAll (handOnLoads (measuredLoads s))) := by
  unfold reloadLoads
  dsimp only
  split
  · exact .inl ⟨‹_›, rfl⟩
  · exact .inr rfl

theorem formRollFlag_quiet (s : State) : Quiet s (formRollFlag s) := .of_frame (formRollFlag_frame s) rfl

theorem reloadLoads_resolved {s : State} (hs : ResolutionInv s) : ResolutionInv (reloadLoads s) := by
  rcases reloadLoads_cases s with ⟨hr, h⟩ | h <;> rw [h]
  · have hload : Quiet s (measuredLoads s) := setLoad_quiet hr rfl
    exact ((handOnLoads_run _).lifting (hs.keeps hload.resolution)).1
  · exact (resolveAll_resolved _).keeps (formRollFlag_quiet _).resolution

/-- At an apply in RUNNING with no channel braked, every applied derate is the current one, also where a lowering raises a
setpoint (log entry 50). -/
theorem reloadLoads_current {s : State} (hrun : isRunning s = true) (h0 : ∀ c, setpointOf s c = 0)
    (hc : CurrentDerates s) : CurrentDerates (reloadLoads s) := by
  have hmid : CurrentDerates (handOnLoads (measuredLoads s)) := fun c =>
    (((handOnLoads_run (measuredLoads s)).rests hrun).2 c).2 (h0 c) (hc c)
  rcases reloadLoads_cases s with ⟨-, h⟩ | h <;> rw [h]
  · exact hmid
  · exact fun c => ((resolveAll_follows c _).trans
      ((Raises.of_quiet (formRollFlag_quiet _)).2 c)).current (hmid c)

/-- The words taken and the record freed: what an apply does before the consumers re-initialise (R163). -/
def takenSet (s : State) : State := returnFree .applied (takeStaged s)

theorem takenSet_quiet (s : State) : Quiet s (takenSet s) := by
  have htake : Quiet s (takeStaged s) := by
    intro q hq
    cases q <;> simp_all [samePart, isCore, takeStaged]
  exact htake.trans (.of_frame (returnFree_frame _ _) rfl)

theorem applyCal_eq (s : State) : applyCal s = restartWakeTimer (testReady (reloadLoads (takenSet s))) := rfl

theorem afterReload_same (s : State) : SameOn isResolution s (restartWakeTimer (testReady s)) := by
  refine (testReady_quiet s).resolution.trans ?_
  unfold restartWakeTimer
  split
  · exact .of_frame (setStandby_frame _ _) rfl
  · exact .refl _ _

theorem applyCal_resolved {s : State} (hs : ResolutionInv s) : ResolutionInv (applyCal s) := by
  rw [applyCal_eq]
  exact (reloadLoads_resolved (hs.keeps (takenSet_quiet s).resolution)).keeps (afterReload_same _)

theorem applyCal_current {s : State} (hrun : isRunning s = true) (h0 : ∀ c, setpointOf s c = 0)
    (hs : ResolutionInv s) : CurrentDerates (applyCal s) := by
  have hq := takenSet_quiet s
  have hres (c : Channel) := ((hq.resolution.mono (isResolutionOf_le c)).mono (isResultOf_le c)).results
  have hmid := reloadLoads_current (s := takenSet s) (by rw [hq.running, hrun])
    (fun c => by rw [(hres c).1, h0 c]) (fun c => current_of_zero (hs.keeps hq.resolution) (by rw [(hres c).1, h0 c]))
  rw [applyCal_eq]
  exact fun c => ((Raises.of_same (afterReload_same _)).2 c).current (hmid c)

/-- The safe-point test of an armed set applies it or leaves everything (R163). -/
theorem tryApply_cases (s : State) :
    tryApply s = s ∨ (s.cal.staging.state = .armed ∧ safePoint s = true ∧ tryApply s = applyCal s) := by
  unfold tryApply
  split
  · rename_i h
    exact .inr ⟨h.1, h.2, rfl⟩
  · exact .inl rfl

theorem safePoint_zero {s : State} (h : safePoint s = true) : ∀ c, setpointOf s c = 0 := by
  simp only [safePoint, Bool.and_eq_true] at h
  exact (setpointsZero_iff s).mp h.1.1.2

theorem tryApply_resolved {s : State} (hs : ResolutionInv s) : ResolutionInv (tryApply s) := by
  rcases tryApply_cases s with h | ⟨-, -, h⟩ <;> rw [h]
  · exact hs
  · exact applyCal_resolved hs

/-- What CAL_CONFIRM leaves: the core as it was, or an armed set applied at once (R160). -/
def ConfirmLeaves (s m : State) : Prop := Quiet s m ∨ ∃ u, Quiet s u ∧ safePoint u = true ∧ m = applyCal u

theorem confirmAction_leaves (check : Nat) (s : State) : ConfirmLeaves s (confirmAction check s).2 := by
  have hset (g : Staging) : Quiet s (setStaging g s) := .of_frame (setStaging_frame g s) rfl
  unfold confirmAction
  split
  · rcases tryApply_cases (setStaging { s.cal.staging with state := .armed } s) with h | ⟨-, hsafe, h⟩
    · exact .inl (by simp only [accept, armStaging, h]; exact hset _)
    · exact .inr ⟨_, hset _, hsafe, by simp only [accept, armStaging, h]⟩
  · exact .inl ((latchEvent_quiet _ s).trans (.of_frame (returnFree_frame _ _) rfl))

theorem confirm_leaves (p : Port) (check : Nat) (s : State) : ConfirmLeaves s
    ((unlessState (isClaimant p) .denied (unlessState (fun t => !stagingIs .sealed t) .notNow
      (confirmAction check))) s).2 :=
  unlessState_state (P := ConfirmLeaves s) (.inl (.refl s)) fun _ =>
    unlessState_state (P := ConfirmLeaves s) (.inl (.refl s)) fun _ => confirmAction_leaves check s

theorem calConfirm_latches (p : Port) (check : Nat) {s : State} (hs : ResolutionInv s) :
    ∃ t, exec (.calConfirm p check) s = .next t ∧ ResolutionInv t ∧ LatchesDerate s t := by
  refine ⟨_, rfl, ?_⟩
  rcases confirm_leaves p check s with hm | ⟨u, hu, hsafe, hm⟩
  · exact transfer_latches (Raises.of_quiet hm).port hs
  · have hresu := hs.keeps hu.resolution
    have hzero (c : Channel) : setpointOf s c = 0 := by
      rw [← ((hu.resolution.mono (isResolutionOf_le c)).mono (isResultOf_le c)).results.1]
      exact safePoint_zero hsafe c
    have happly := applyCal_resolved hresu
    rw [← hm] at happly
    refine ⟨((transfer_run p 20 _ s).lifting happly).1, fun c _ => ⟨fun hpos => ?_, fun _ hrun => ?_⟩⟩
    · have := hzero c
      omega
    · have hcur := applyCal_current (by rw [hu.running, hrun]) (safePoint_zero hsafe) hresu c
      rw [← hm] at hcur
      exact ((Raises.of_quiet (transfer_quiet (not_parked_of_running hrun))).2 c).current hcur

end Sys2Proof
end

