-- ==== Sys2Proof/Proofs/StepsResolved.lean ====
section
/-! The pressure sample and the step as a whole keep the setpoints resolved (O54). -/

namespace Sys2Proof

open Sys2Proof.Machine

/-! ## Shapes of the pressure sample -/

theorem controlSample_frame (tested : Option Channel) (c : Channel) (s : State) :
    OnlyChanges [.valves c] s (controlSample tested c s) := by
  unfold controlSample
  split
  · split
    · exact .refl _ s
    · refine setChannel_frame (.inr ?_) (.inr ?_) (.inl (by simp)) (.inr ?_) <;>
        · unfold controlRec
          dsimp only
          split_ifs <;> simp
  · exact .refl _ s

theorem sampleSupply_frame (s : State) : OnlyChanges (.supply :: eventParts) s (sampleSupply s) := by
  have hset (x : SupplyRec) := setSupply_frame s x
  unfold sampleSupply
  split
  · exact .refl _ s
  · dsimp only
    split
    · exact (queueEvent_frame _).step (hset _) (by simp) (by simp)
    · exact (hset _).mono (by simp)

theorem sampleLoadClock_quiet (s : State) : Quiet s (sampleLoadClock s) := by
  unfold sampleLoadClock
  split
  · exact setLoad_quiet rfl rfl
  · exact .refl s

/-- The monitors of a sample: supply and tests, the skid cycle, the stage, the head of the queue. -/
theorem sampleMonitors_cases (s : State) :
    sampleMonitors s = sampleRollover (forChannels skidSample (sampleSupply (sampleTest s))) ∨
    sampleMonitors s = sampleHead (sampleRollover (forChannels skidSample (sampleSupply (sampleTest s)))) := by
  unfold sampleMonitors
  dsimp only
  split
  · exact .inr rfl
  · exact .inl rfl

/-! ## Skid cycle and stage at a sample -/

theorem enterRelease_latching (c : Channel) (s : State) : Latching s (enterRelease c s) :=
  (setSkid_raises s c _).then (post_latching c .skid _ _)

theorem enterHold_latching (n : Nat) (c : Channel) (s : State) : Latching s (enterHold n c s) :=
  (setSkid_raises s c _).then (post_latching c .skid _ _)

theorem skidTick_raises (c : Channel) (s : State) : Raises s (skidTick c s) := setSkid_raises s c _

theorem markStep_raises (c : Channel) (s : State) : Raises s (markStep c s) := setSkid_raises s c _

theorem stepWatched_latching (c : Channel) (s : State) : Latching s (stepWatched c s) := by
  have htick := skidTick_raises c s
  have hmark := (htick.trans (markStep_raises c _)).latching
  have hfree := (freeSkid_raises c s).latching
  unfold stepWatched
  split
  · split
    · exact (enterRelease_latching c s).event
    · exact .refl s
  · dsimp only
    split_ifs
    · exact hfree
    · exact htick.then (enterHold_latching 0 c _)
    · exact hmark
  · dsimp only
    split_ifs
    · exact hfree
    · exact htick.then (enterReapply_latching _ c _)
    · exact hmark
  · dsimp only
    split_ifs
    · exact hfree
    · exact htick.then (enterRelease_latching c _)
    · exact hmark

theorem skidSample_latching (c : Channel) (s : State) : Latching s (skidSample c s) := by
  unfold skidSample
  split
  · exact stepWatched_latching c s
  · exact (freeSkid_raises c s).latching

theorem enterIntervene_latching (s : State) : Latching s (enterIntervene s) :=
  (((setStage_raises _ s).trans (freeGenerator_raises _)).then (forChannels_postRoll (fun _ _ => .inr ⟨_, _, rfl⟩) _)).event

theorem probeChannel_latching (c : Channel) (s : State) : Latching s (probeChannel c s) := by
  unfold probeChannel
  split
  · exact (freeSkid_raises c s).then ((setStage_raises _ _).then (post_latching c .roll _ _))
  · exact .refl s

/-- The machine as the stage enters PROBE, before the inner channels take the probe pressure (R116). -/
def probing (s : State) : State :=
  let t := abortRunning .rollover s
  setStage { t.roll.stage with stage := .probe, probed := some t.roll.inner, probeTimer := 0, calm := none }
    (t.setTests { t.tests with holder := .probe })

theorem enterProbe_eq (s : State) : enterProbe s = queueEvent (forChannels probeChannel (probing s)) := rfl

theorem probing_raises (s : State) : Raises s (probing s) := by
  have habort : Raises s (abortRunning .rollover s) := .frame (abortRunning_frame .rollover s) rfl
  have hhold (t : State) : Raises t (t.setTests { t.tests with holder := .probe }) := .frame (setHolder_frame t .probe) rfl
  exact (habort.trans (hhold _)).trans (setStage_raises _ _)

theorem enterProbe_resolved {s : State} (hs : ResolutionInv s) : ResolutionInv (enterProbe s) := by
  have hposts := forChannels_keeps (P := ResolutionInv) (fun c t ht => ((probeChannel_latching c t).1 ht).1) _
    ((probing_raises s).1 hs).1
  rw [enterProbe_eq]
  exact hposts.keeps (queueEvent_quiet _).resolution

theorem followSide_cases (c : Channel) (s : State) : followSide c s = s ∨ ∃ k n, followSide c s = postRoll k n c s := by
  unfold followSide
  split
  · exact .inl rfl
  · exact .inr ⟨_, _, rfl⟩

theorem plainStage_raises (g : Stage) (s : State) : Raises s (plainStage g s) :=
  (setStage_raises _ s).trans (.of_quiet (queueEvent_quiet _))

theorem stageTests_resolved {s : State} (hs : ResolutionInv s) : ResolutionInv (stageTests s) := by
  have hset (r : StageRec) : ResolutionInv (setStage r s) := ((setStage_raises r s).1 hs).1
  have hint {t : State} (ht : ResolutionInv t) : ResolutionInv (enterIntervene t) := ((enterIntervene_latching t).1 ht).1
  have hplain (g : Stage) : ResolutionInv (plainStage g s) := ((plainStage_raises g s).1 hs).1
  have hprobe {t : State} (ht : ResolutionInv t) : ResolutionInv (enterProbe t) := enterProbe_resolved ht
  cases hstage : s.roll.stage.stage <;> simp only [stageTests, hstage]
  case off => exact hplain _
  case quiet =>
    split_ifs
    · exact hplain _
    · exact hs
  case watch =>
    split_ifs
    · exact hint (hset _)
    · exact hint (hset _)
    · exact hprobe (hset _)
    · exact hset _
  case probe =>
    split_ifs
    · exact hint (hset _)
    · exact hint (hset _)
    · exact ((probeToWatch_latching _).1 (hset _)).1
    · exact hset _
  case intervene => exact ((forChannels_postRoll followSide_cases _).1 (hset _)).1
  case recover =>
    split_ifs
    · exact hint hs
    · exact hset _

theorem stageSample_cases (s : State) : stageSample s = s ∨ stageSample s = stageOff s ∨ stageSample s = stageTests s := by
  unfold stageSample
  dsimp only
  split_ifs
  · exact .inl rfl
  · exact .inr (.inl rfl)
  · exact .inr (.inr rfl)

theorem sampleRollover_cases (s : State) :
    sampleRollover s = fallHoldOff s ∨ sampleRollover s = formIndicators (fallHoldOff s) ∨
    sampleRollover s = stageSample (formIndicators (fallHoldOff s)) := by
  unfold sampleRollover
  dsimp only
  split
  · exact .inl rfl
  · exact .inr (.inl rfl)
  · exact .inr (.inr rfl)

theorem formIndicators_quiet (s : State) : Quiet s (formIndicators s) := .of_frame (formIndicators_frame s) rfl

theorem sampleRollover_resolved {s : State} (hs : ResolutionInv s) : ResolutionInv (sampleRollover s) := by
  have hfall : ResolutionInv (fallHoldOff s) := ((setStage_raises _ s).1 hs).1
  have hind := hfall.keeps (formIndicators_quiet _).resolution
  rcases sampleRollover_cases s with h | h | h <;> rw [h]
  · exact hfall
  · exact hind
  · rcases stageSample_cases (formIndicators (fallHoldOff s)) with h | h | h <;> rw [h]
    · exact hind
    · exact ((stageOff_latching _).1 hind).1
    · exact stageTests_resolved hind

theorem sampleMonitors_resolved {s : State} (hs : ResolutionInv s) : ResolutionInv (sampleMonitors s) := by
  have htest : Raises s (sampleTest s) := .frame (sampleTest_frame s) rfl
  have hsupply := (htest.trans (.frame (sampleSupply_frame _) rfl)).1 hs
  have hskid := forChannels_keeps (P := ResolutionInv) (fun c t ht => ((skidSample_latching c t).1 ht).1) _ hsupply.1
  have hroll := sampleRollover_resolved hskid
  rcases sampleMonitors_cases s with h | h <;> rw [h]
  · exact hroll
  · exact hroll.keeps (.of_frame (sampleHead_frame _) rfl)

theorem removeAll_resolved {s : State} (hs : ResolutionInv s) : ResolutionInv (forChannels removeAutomatic s) :=
  forChannels_keeps (P := ResolutionInv) (fun c _ ht => ht.keeps (.of_frame (removeAutomatic_frame c _) rfl)) _ hs

/-- The channels are resolved when the control samples begin (R38). -/
theorem sampleResolved_resolved (x : SampleSet) (s : State) : ResolutionInv (sampleResolved x s) := by
  unfold sampleResolved sampleDemand
  exact removeAll_resolved (resolveAll_resolved _)

/-- A pressure sample leaves every channel resolved, whatever stood before (R38). -/
theorem pressureSample_resolved (x : SampleSet) (s : State) : ResolutionInv (pressureSample x s) := by
  have hcontrol (tested : Option Channel) : ResolutionInv (forChannels (controlSample tested) (sampleResolved x s)) :=
    forChannels_keeps (P := ResolutionInv) (fun c _ ht => ht.keeps (.of_frame (controlSample_frame tested c _) rfl)) _
      (sampleResolved_resolved x s)
  have hbefore : ResolutionInv (sampleBeforeApply x s) :=
    (sampleMonitors_resolved (hcontrol _)).keeps (.of_frame (rejoinQueue_frame _ _) rfl)
  exact ((tryApply_resolved hbefore).keeps (sampleLoadClock_quiet _).resolution).keeps (refreshFaults_quiet _).resolution

/-! ## The step -/

/-- A reset leaves the reset values but for the commands that wait, the reset cause and the activity on the lines (R173). -/
theorem resetState_frame (k : ResetCause) (s : State) :
    OnlyChanges [.pending, .standby, .linkPort .up, .linkPort .down] State.reset (resetState k s) := by
  intro q hq
  cases q with
  | pending => simp at hq
  | standby => simp at hq
  | linkPort l => cases l <;> simp at hq
  | _ =>
    simp only [samePart]
    and_intros <;> rfl

theorem resetState_resolved (k : ResetCause) (s : State) : ResolutionInv (resetState k s) := by
  have hreset : ResolutionInv State.reset := by
    intro c
    cases c <;> decide
  exact hreset.keeps (.of_frame (resetState_frame k s) rfl)

theorem resetState_latches (k : ResetCause) (s : State) : LatchesDerate s (resetState k s) := by
  intro c hpos
  have h0 : setpointOf (resetState k s) c = 0 := by cases c <;> rfl
  omega

/-- The rows of the controller ports that move the core. -/
def isPortRow : Instr → Bool
  | .postApply _ _ _ _ | .postLimit _ _ _ _ | .withdraw _ _ | .restore _ _ | .forceBackup _ _ | .requestTest _ _
  | .cancelTest _ _ | .linkDisable _ | .standby _ | .portSync _ => true
  | _ => false

theorem exec_port_latches {i : Instr} (hi : isPortRow i = true) {s : State} (hs : ResolutionInv s) :
    ∃ t, exec i s = .next t ∧ ResolutionInv t ∧ LatchesDerate s t := by
  have h0 := PortLatches.refl s
  have hpost (k : Source) (e : Entry) (mask : Nat) (hp : isParked s = false) :
      PortLatches s (forMask mask (fun c => post c k e) s) :=
    (forMask_post_latching mask k e s).port (fun h => by simp [hp] at h)
  cases i with
  | postApply p mask level lifetime =>
    exact ⟨_, rfl, transfer_latches (takenFrom_state h0 (withArgument_state h0 fun _ => unlessState_state h0 fun hp =>
      hpost .ctrlA _ mask hp)) hs⟩
  | postLimit p mask level lifetime =>
    exact ⟨_, rfl, transfer_latches (takenFrom_state h0 (withArgument_state h0 fun _ => unlessState_state h0 fun hp =>
      hpost .ctrlB _ mask hp)) hs⟩
  | withdraw p mask =>
    exact ⟨_, rfl, transfer_latches (withArgument_state h0 fun _ => (forMask_withdraw_latching mask _ s).port
      (fun _ hs c => withdrawTurn_dips mask _ hs c)) hs⟩
  | restore p mask =>
    exact ⟨_, rfl, transfer_latches (takenFrom_state h0 (withArgument_state h0 fun _ => unlessState_state h0 fun _ =>
      (forMask_raises mask restoreChannel_raises s).port)) hs⟩
  | forceBackup p mask =>
    exact ⟨_, rfl, transfer_latches (withArgument_state h0 fun _ =>
      (forMask_raises mask (addCause_raises .forced) s).port) hs⟩
  | requestTest p n =>
    exact ⟨_, rfl, transfer_latches (withChannel_state h0 fun c => unlessState_state h0 fun _ => unlessState_state h0 fun _ =>
      unlessState_state h0 fun _ => (Raises.frame (enqueueTest_frame p c s) rfl).port) hs⟩
  | cancelTest p n =>
    exact ⟨_, rfl, transfer_latches (withChannel_state h0 fun c => (cancelTest_raises c s).port) hs⟩
  | linkDisable p =>
    have hrun : DemandRun s (disableLink s) := .before setLink_quiet (enterDown_run .up _ _ _ _)
    refine ⟨_, rfl, transfer_latches (takenFrom_state h0 fun hs => ?_) hs⟩
    obtain ⟨ht, hkeep, hfollow⟩ := hrun.latching hs
    exact ⟨ht, hkeep, fun _ => hfollow, fun _ c => hrun.dips hs c⟩
  | standby p => exact ⟨_, rfl, transfer_latches (takenFrom_state h0 (standbyAction_port s)) hs⟩
  | portSync p =>
    have hsync : SameOn isResolution (forChannels (fun c t => withdraw c (portSource p) t) s) (syncPort p s) :=
      (SameOn.of_frame (keepRequests_frame _ _) rfl).trans (syncPort_quiet p s).resolution
    exact ⟨_, rfl, transfer_latches (((forChannels_withdraw _ s).after hsync).port fun _ hs c =>
      (withdrawEach_dips _ hs c).then_lift (.of_same (hsync.mono (isResolutionOf_le c)))) hs⟩
  | _ => simp [isPortRow] at hi

/-- What is left beside the groups: resets, the entry into RUNNING, load updates, confirmations and pressure samples. -/
theorem exec_resolved (i : Instr) {s : State} (hs : ResolutionInv s) : ∃ t, exec i s = .next t ∧ ResolutionInv t ∧
    ((∀ x, i ≠ .pressureSample x) → LatchesDerate s t) := by
  have hdone : (∃ t, exec i s = .next t ∧ ResolutionInv t ∧ LatchesDerate s t) →
      ∃ t, exec i s = .next t ∧ ResolutionInv t ∧ ((∀ x, i ≠ .pressureSample x) → LatchesDerate s t) :=
    fun ⟨t, h, ht, hl⟩ => ⟨t, h, ht, fun _ => hl⟩
  by_cases hd : isDemandRow i = true
  · obtain ⟨t, h, hrun⟩ := exec_demandRun hd s
    exact hdone ⟨t, h, hrun.latches hs⟩
  by_cases hty : isTyreRow i = true
  · obtain ⟨t, h, hrun⟩ := exec_tyreRun hty s
    exact hdone ⟨t, h, hrun.latches hs⟩
  by_cases hla : isLatchRow i = true
  · obtain ⟨t, h, hlatch⟩ := exec_latching hla s
    exact hdone ⟨t, h, hlatch.latches hs⟩
  by_cases hp : isPortRow i = true
  · exact hdone (exec_port_latches hp hs)
  cases i with
  | powerOnReset => exact hdone ⟨_, rfl, resetState_resolved _ s, resetState_latches _ s⟩
  | pinReset => exact hdone ⟨_, rfl, resetState_resolved _ s, resetState_latches _ s⟩
  | startingTimerExpiry =>
    refine hdone ⟨_, rfl, ?_⟩
    unfold whenDue
    split
    · rename_i h
      have hstart : isRunning s = false := by
        cases ho : s.standby.opState <;> simp_all [startingOver, isRunning]
      obtain ⟨hend, hlatch⟩ := enterRunning_latches hstart hs
      refine ⟨hend.keeps (refreshFaults_quiet _).resolution, fun c => ?_⟩
      have hq := (((refreshFaults_quiet (enterRunning s)).resolution.mono (isResolutionOf_le c)).mono (isResultOf_le c)).results
      rw [hq.1, hq.2.1, hq.2.2]
      exact hlatch c
    · exact (TyreRun.refl s).latches hs
  | loadUpdate =>
    refine hdone ⟨_, rfl, ?_⟩
    unfold whenDue
    split
    · obtain ⟨m, hrun, -, ⟨-, h⟩ | ⟨-, h⟩⟩ := loadUpdate_cases s <;> rw [h]
      · exact hrun.refresh.latches hs
      · exact hrun.latches_then (postEmerg_latching m).refresh hs
    · exact (TyreRun.refl s).latches hs
  | calConfirm p check => exact hdone (calConfirm_latches p check hs)
  | pressureSample x => exact ⟨_, rfl, pressureSample_resolved x s, fun h => absurd rfl (h x)⟩
  | _ => simp_all [isDemandRow, isTyreRow, isLatchRow, isPortRow]

/-- No row that the block takes by itself is a pressure sample (log entry 10). -/
theorem nextDue_not_sample {s : State} {i : Instr} (h : nextDue s = some i) (x : SampleSet) : i ≠ .pressureSample x := by
  rintro rfl
  unfold nextDue at h
  obtain ⟨r, hr, he⟩ := Option.map_eq_some_iff.mp h
  have hmem := List.mem_of_find?_eq_some hr
  obtain ⟨b, i⟩ := r
  subst he
  simp [sampleRows, timeRows, linkRows, portRows] at hmem

theorem limitOr_tick (n : Nat) (e : Option Entry) : limitOr n (tickEntry e) = limitOr n e := by cases e <;> rfl

theorem levelOr0_tick (e : Option Entry) : levelOr0 (tickEntry e) = levelOr0 e := by cases e <;> rfl

/-- A millisecond moves lifetimes, and no level. -/
theorem tick_resolved {s : State} (hs : ResolutionInv s) : ResolutionInv (tick s) := by
  have htable (c : Channel) : tableOf (tick s) c = tickTable (tableOf s c) := by simp [tableOf, tick]
  have hchannel (c : Channel) : channelOf (tick s) c = tickChannel (channelOf s c) := by simp [channelOf, tick]
  have happly (c : Channel) : applyLevel (tick s) c = applyLevel s c := by
    unfold applyLevel
    rw [htable]
    simp only [largestApply, tickTable, levelOr0_tick]
    rfl
  have hlimit (n : Nat) (c : Channel) : smallestLimit n (tableOf (tick s) c) = smallestLimit n (tableOf s c) := by
    rw [htable]
    simp only [smallestLimit, tickTable, limitOr_tick]
  have hcap : reservoirCap (tick s) = reservoirCap s := rfl
  intro c
  rw [hchannel, happly, hlimit, hcap, resolvedLevel, happly, hlimit, hcap]
  exact hs c

theorem tick_results (c : Channel) (s : State) :
    setpointOf (tick s) c = setpointOf s c ∧ appliedOf (tick s) c = appliedOf s c ∧ currentOf (tick s) c = currentOf s c := by
  refine ⟨?_, rfl, rfl⟩
  simp [setpointOf, channelOf, tick, tickChannel]

theorem tick_running (s : State) : isRunning (tick s) = isRunning s := rfl

theorem expireInertial_quiet (s : State) : Quiet s (expireInertial s) := by
  have hroll : Quiet s (loseInertial s) := by
    intro q hq
    cases q <;> simp_all [samePart, isCore, loseInertial]
  unfold expireInertial whenDue
  split
  · exact hroll.trans (refreshFaults_quiet _)
  · exact .refl s

/-- The millisecond that passes is a tick, and D formed anew where LINK is lost with it (log entry 16). -/
theorem passMillisecond_run (s : State) : DemandRun (tick s) (passMillisecond s) :=
  .before (expireInertial_quiet _) (whenDue_demandRun (loseLink_run _))

theorem idle_resolved {s : State} (hs : ResolutionInv s) :
    ∃ t, idle s = .next t ∧ ResolutionInv t ∧ LatchesDerate s t := by
  unfold idle
  cases h : nextDue s with
  | some i =>
    obtain ⟨t, ht, hres, hlatch⟩ := exec_resolved i hs
    exact ⟨t, ht, hres, hlatch (nextDue_not_sample h)⟩
  | none =>
    obtain ⟨hres, hlatch⟩ := (passMillisecond_run s).latches (tick_resolved hs)
    refine ⟨_, rfl, hres, fun c hpos => ?_⟩
    obtain ⟨hsp, happ, -⟩ := tick_results c s
    have := hlatch c hpos
    rwa [hsp, happ, tick_running] at this

/-- Settles O54: the setpoints are resolved after every step, by what each group of rows does to them. -/
theorem stepsKeepSetpointsResolved : Obligations.StepsKeepSetpointsResolved := by
  intro s t hstep hs
  cases hp : s.pending with
  | nil =>
    obtain ⟨u, hu, hres, hlatch⟩ := idle_resolved hs
    have heq : t = u := by simpa [step, hp, hu] using hstep.symm
    subst heq
    exact ⟨hres, fun _ => hlatch⟩
  | cons i rest =>
    have hquiet := setPending_quiet s rest
    obtain ⟨u, hu, hres, hlatch⟩ := exec_resolved i (hs.keeps hquiet.resolution)
    have heq : t = u := by simpa [step, hp, hu] using hstep.symm
    subst heq
    refine ⟨hres, fun hsample => ?_⟩
    exact hlatch (fun x hx => hsample x (by simp [hx]))

end Sys2Proof
end

