-- ==== Sys2Proof/Proofs/CoreWalk.lean ====
section
/-! A walk over the rows of the opcode table, done once for every invariant of the Demand Tables, the valves and the Test Queue: a
predicate that the shared operations keep (`CoreKept`) is kept by every row built from them. The rows that put a request into the Test
Queue, start a test or reset the part, and the queue at a pressure sample, stand outside the walk. -/

namespace Sys2Proof

open Sys2Proof.Machine

/-! ## What the walk asks of a predicate -/

/-- The parts that the invariants of the Demand Tables, the valves and the Test Queue speak of. -/
def isOrder : Part → Bool
  | .supply | .driver | .stage | .testQueue | .holder => true
  | .causes _ | .setpoint _ | .valves _ | .entry _ _ | .skid _ => true
  | _ => false

theorem isOrder_le_core (q : Part) (h : isOrder q = true) : isCore q = true := by
  cases q <;> simp_all [isOrder, isCore]

theorem Quiet.order {s t : State} (h : Quiet s t) : SameOn isOrder s t := h.mono isOrder_le_core

/-- The stages in which no ROLL level stands (R113, R122). -/
def IdleStage (g : Stage) : Prop := g = .off ∨ g = .quiet ∨ g = .watch

/-- The shared operations keep a predicate, each from the states in which the rows use it. -/
structure CoreKept (P : State → Prop) : Prop where
  same {s t : State} : SameOn isOrder s t → P s → P t
  resolve (c : Channel) {s : State} : P s → P (resolve c s)
  formDemand (d : DriverRec) {s : State} : P s → P (formDemand (s.setDriver d))
  addCause (k : Cause) (c : Channel) {s : State} : P s → P (addCause k c s)
  startupHeld (b : Bool) (c : Channel) {s : State} : P s → P (setChannel s c { channelOf s c with startupHeld := b })
  keepCauses {k : CauseSet} {c : Channel} {s : State} :
    (∀ j, k.has j = true → (channelOf s c).causes.has j = true) → P s → P (keepCauses k c s)
  setSupply {x : SupplyRec} {s : State} : x.emergency = s.supply.emergency → P s → P (s.setSupply x)
  setEmergency {s : State} : P s → P (setEmergency s)
  clearEmergency {s : State} : P s → P (clearEmergency s)
  postEmerg {s : State} : s.supply.emergency = true → P s → P (forChannels postEmerg s)
  postPort (p : Port) (level lifetime : Nat) (c : Channel) {s : State} :
    P s → P (post c (portSource p) (portEntry level lifetime) s)
  withdrawPort (p : Port) (c : Channel) {s : State} : P s → P (withdraw c (portSource p) s)
  setSkid {k : SkidRec} {c : Channel} {s : State} : k.state = (s.skid.get c).state → P s → P (s.setSkid (s.skid.set c k))
  freeSkid (c : Channel) {s : State} : P s → P (freeSkid c s)
  enterSkid {k : SkidRec} {c : Channel} {s : State} (n : Nat) : electronic s c = true ∨ (s.skid.get c).state ≠ .free →
    k.state ≠ .free → P s → P (post c .skid (skidEntry k.state n) (s.setSkid (s.skid.set c k)))
  controlSample (tested : Option Channel) (c : Channel) {s : State} : P s → P (controlSample tested c s)
  endOnTime (c : Channel) {s : State} : P s → P (endOnTime c s)
  sampleTest {s : State} : P s → P (sampleTest s)
  endPulse {q : RunningTest} {s : State} : runningTest s = some q → P s → P (endPulse q s)
  endSettle {q : RunningTest} {s : State} : runningTest s = some q → P s → P (endSettle q s)
  abortTestOf (c : Channel) (k : TestCause) {s : State} : P s → P (abortTestOf c k s)
  freeHolder {q : RunningTest} {s : State} : runningTest s = some q → P s → P (s.setTests { s.tests with holder := .free })
  keepRequests (keep : TestRequest → Bool) {s : State} : P s → P (keepRequests keep s)
  dropHead {s : State} : P s → P (dropHead s)
  markHead (b : Bool) {s : State} : P s → P (s.setTests { s.tests with headDue := b })
  stageOff {s : State} : P s → P (stageOff s)
  probeToWatch {s : State} : P s → P (probeToWatch s)
  enterIntervene {s : State} : P s → P (enterIntervene s)
  setStage {r : StageRec} {s : State} : r.stage = s.roll.stage.stage → r.probed = s.roll.stage.probed →
    r.level = s.roll.stage.level → P s → P (setStage r s)
  plainStage {g : Stage} {s : State} : IdleStage s.roll.stage.stage → IdleStage g → P s → P (plainStage g s)
  enterProbe {s : State} : IdleStage s.roll.stage.stage → P s → P (enterProbe s)
  enterRecover {s : State} : s.roll.stage.stage = .intervene → P s → P (enterRecover s)
  stepRecover {s : State} : s.roll.stage.stage = .recover → P s → P (stepRecover s)
  followSide {s : State} : s.roll.stage.stage = .intervene → P s → P (forChannels followSide s)
  parking {s : State} : P s → P (offStage (emptyTables (parkedRecords s)))
  tick {s : State} : P s → P (tick s)

/-! ## Facts about the conditions of the rows -/

theorem watched_electronic {s : State} {c : Channel} (h : watched s c = true) : electronic s c = true := by
  simp only [watched, Bool.and_eq_true] at h
  exact h.1.1.1.1

/-- What is left of the causes of a channel is among them (R5). -/
theorem remainingCauses_le (s : State) (c : Channel) (j : Cause) (h : (remainingCauses s c).has j = true) :
    (channelOf s c).causes.has j = true := by
  cases j <;> simp_all [remainingCauses, CauseSet.has]

theorem supplyRuns_emergency (r : Reading) (e : SupplyRec) : (supplyRuns r e).emergency = e.emergency := by
  unfold supplyRuns
  split
  · rfl
  · split <;> rfl

theorem reservoirRun_emergency (r : Reading) (e : SupplyRec) : (reservoirRun r e).emergency = e.emergency := by
  cases r <;> rfl

theorem skidDue_state {k : SkidState} {n : Nat} {s : State} {c : Channel} (h : skidDue k n s c = true) :
    (s.skid.get c).state = k := by
  simp only [skidDue, Bool.and_eq_true, beq_iff_eq] at h
  exact h.1.2

theorem testOver_running {k : Phase} {s : State} {q : RunningTest} (h : testOver k s = some q) :
    runningTest s = some q := by
  unfold testOver at h
  cases hr : runningTest s with
  | none => simp [hr] at h
  | some t =>
    rw [hr] at h
    dsimp only at h
    split at h
    · exact h
    · simp at h

/-- What a RESTORE leaves of the causes of a channel is among them (R7). -/
theorem restoredCauses_le (s : State) (c : Channel) (j : Cause) (h : (restoredCauses s c).has j = true) :
    (channelOf s c).causes.has j = true := by
  cases j <;> simp_all [restoredCauses, CauseSet.has]

theorem forMask_keeps {P : State → Prop} {g : Channel → State → State} (mask : Nat) (h : ∀ c t, P t → P (g c t)) {s : State} (hs : P s) :
    P (forMask mask g s) := by
  rw [forMask_eq]
  exact forChannels_keeps (P := P) (fun c t ht => maskTurn_rel (R := fun _ u => P u) ht (h c t ht)) _ hs

/-- The rows outside the walk: the resets, the pressure sample, and the two that put a request into the Test Queue or start a test. -/
def isSpecialRow : Instr → Bool
  | .powerOnReset | .pinReset | .testStart | .requestTest _ _ | .pressureSample _ => true
  | _ => false

section Walk
variable {P : State → Prop} (hP : CoreKept P)
include hP

/-! ## Runs of the core and port transfers -/

theorem CoreKept.frame {l : List Part} {s t : State} (h : OnlyChanges l s t) (hl : l.all (fun q => !isOrder q) = true)
    (hs : P s) : P t := hP.same (.of_frame h hl) hs

theorem CoreKept.quiet {s t : State} (h : Quiet s t) (hs : P s) : P t := hP.same h.order hs

theorem CoreKept.event {s : State} (hs : P s) : P (queueEvent s) := hP.quiet (queueEvent_quiet s) hs

theorem CoreKept.refresh {s : State} (hs : P s) : P (refreshFaults s) := hP.quiet (refreshFaults_quiet s) hs

theorem CoreKept.wake (r : WakeReason) {s : State} (hs : P s) : P (wake r s) := by
  unfold Machine.wake
  split
  · have hset (r : StandbyRec) := hP.frame (setStandby_frame s r) rfl hs
    exact forChannels_keeps (P := P) (fun c _ ht => hP.addCause .startup c (hP.startupHeld true c ht)) _
      (hP.frame (raiseWakeReason_frame _) rfl (hP.frame (setStandby_frame s _) rfl hs))
  · exact hs

theorem CoreKept.tyreMove {s t : State} (h : TyreMove s t) (hs : P s) : P t := by
  cases h with
  | quiet hq => exact hP.quiet hq hs
  | derate c => exact hP.frame (formDerate_frame c s) rfl hs
  | wake r => exact hP.wake r hs

theorem CoreKept.tyreRun {s t : State} (h : TyreRun s t) (hs : P s) : P t := by
  induction h with
  | refl => exact hs
  | tail _ hmove ih => exact hP.tyreMove hmove ih

theorem CoreKept.demandRun {s t : State} (h : DemandRun s t) (hs : P s) : P t := by
  obtain ⟨u, v, hu, rfl | ⟨d, rfl⟩, ht⟩ := h
  · exact hP.quiet ht (hP.quiet hu hs)
  · exact hP.quiet ht (hP.formDemand d (hP.quiet hu hs))

theorem CoreKept.whenDue {b : Bool} {f : State → State} {s : State} (h : b = true → P (f s)) (hs : P s) :
    P (whenDue b f s) := by
  unfold Machine.whenDue
  split
  · exact hP.refresh (h ‹_›)
  · exact hs

theorem CoreKept.transfer {p : Port} {n : Nat} {act : Action} {s : State} (h : P (act s).2) : P (transfer p n act s) :=
  hP.tyreRun (transfer_run p n act s) h

/-! ## Skid cycle -/

theorem CoreKept.enterHold (n : Nat) (c : Channel) {s : State}
    (h : electronic s c = true ∨ (s.skid.get c).state ≠ .free) (hs : P s) : P (enterHold n c s) :=
  hP.enterSkid (k := { s.skid.get c with
    state := .hold, held := some (holdLevel s c), timer := 0, forcedCount := n, stepDue := false }) _ h (by simp) hs

theorem CoreKept.enterReapply (n : Nat) (c : Channel) {s : State}
    (h : electronic s c = true ∨ (s.skid.get c).state ≠ .free) (hs : P s) : P (enterReapply n c s) :=
  hP.enterSkid (k := { s.skid.get c with state := .reapply, held := some n, timer := 0, stepDue := false }) _ h (by simp) hs

theorem CoreKept.enterRelease (c : Channel) {s : State}
    (h : electronic s c = true ∨ (s.skid.get c).state ≠ .free) (hs : P s) : P (enterRelease c s) :=
  hP.enterSkid (k := { s.skid.get c with state := .release, held := none, timer := 0, stepDue := false }) _ h (by simp) hs

theorem CoreKept.skidTick (c : Channel) {s : State} (hs : P s) : P (skidTick c s) := hP.setSkid rfl hs

theorem CoreKept.markStep (c : Channel) {s : State} (hs : P s) : P (markStep c s) := hP.setSkid rfl hs

theorem CoreKept.disableAntiLock (c : Channel) {s : State} (hs : P s) : P (disableAntiLock c s) := by
  have hset := hP.setSkid (c := c) (k := { s.skid.get c with forcedCount := 3, disabled := true }) rfl hs
  exact hP.event (hP.freeSkid c hset)

theorem CoreKept.forcedHold (c : Channel) {s : State} (h : (s.skid.get c).state ≠ .free) (hs : P s) :
    P (forcedHold c s) := by
  unfold Machine.forcedHold
  dsimp only
  split
  · exact hP.enterHold _ c (.inr h) hs
  · exact hP.disableAntiLock c hs

theorem CoreKept.reapplyStep (c : Channel) {s : State} (h : (s.skid.get c).state ≠ .free) (hs : P s) :
    P (reapplyStep c s) := by
  unfold Machine.reapplyStep
  dsimp only
  split
  · exact hP.freeSkid c hs
  · exact hP.enterReapply _ c (.inr h) hs

theorem CoreKept.stepWatched (c : Channel) {s : State} (he : electronic s c = true) (hs : P s) : P (stepWatched c s) := by
  have htick := hP.skidTick c hs
  have hetick : electronic (Machine.skidTick c s) c = true := he
  have hmark := hP.markStep c htick
  have hfree := hP.freeSkid c hs
  cases hstate : (s.skid.get c).state <;> simp only [Machine.stepWatched, hstate]
  case free =>
    split_ifs
    · exact hP.event (hP.enterRelease c (.inl he) hs)
    · exact hs
  case release =>
    split_ifs
    · exact hfree
    · exact hP.enterHold 0 c (.inl hetick) htick
    · exact hmark
  case hold =>
    split_ifs
    · exact hfree
    · exact hP.enterReapply _ c (.inl hetick) htick
    · exact hmark
  case reapply =>
    split_ifs
    · exact hfree
    · exact hP.enterRelease c (.inl hetick) htick
    · exact hmark

theorem CoreKept.skidSample (c : Channel) {s : State} (hs : P s) : P (skidSample c s) := by
  unfold Machine.skidSample
  split
  · exact hP.stepWatched c (watched_electronic ‹_›) hs
  · exact hP.freeSkid c hs

/-! ## Stages -/

theorem CoreKept.stageTests {s : State} (hs : P s) : P (stageTests s) := by
  have hset (r : StageRec) (h1 : r.stage = s.roll.stage.stage) (h2 : r.probed = s.roll.stage.probed)
      (h3 : r.level = s.roll.stage.level) : P (Machine.setStage r s) := hP.setStage h1 h2 h3 hs
  cases hstage : s.roll.stage.stage <;> simp only [Machine.stageTests, hstage]
  case off => exact hP.plainStage (.inl hstage) (.inr (.inl rfl)) hs
  case quiet =>
    split_ifs
    · exact hP.plainStage (.inr (.inl hstage)) (.inr (.inr rfl)) hs
    · exact hs
  case watch =>
    split_ifs
    · exact hP.enterIntervene (hset _ hstage.symm rfl rfl)
    · exact hP.enterIntervene (hset _ hstage.symm rfl rfl)
    · exact hP.enterProbe (.inr (.inr rfl)) (hset _ hstage.symm rfl rfl)
    · exact hset _ hstage.symm rfl rfl
  case probe =>
    split_ifs
    · exact hP.enterIntervene (hset _ hstage.symm rfl rfl)
    · exact hP.enterIntervene (hset _ hstage.symm rfl rfl)
    · exact hP.probeToWatch (hset _ hstage.symm rfl rfl)
    · exact hset _ hstage.symm rfl rfl
  case intervene => exact hP.followSide rfl (hset _ hstage.symm rfl rfl)
  case recover =>
    split_ifs
    · exact hP.enterIntervene hs
    · exact hset _ hstage.symm rfl rfl

theorem CoreKept.sampleRollover {s : State} (hs : P s) : P (sampleRollover s) := by
  have hfall : P (fallHoldOff s) := hP.setStage rfl rfl rfl hs
  have hind := hP.quiet (formIndicators_quiet _) hfall
  rcases sampleRollover_cases s with h | h | h <;> rw [h]
  · exact hfall
  · exact hind
  · rcases stageSample_cases (formIndicators (fallHoldOff s)) with h | h | h <;> rw [h]
    · exact hind
    · exact hP.stageOff hind
    · exact hP.stageTests hind

/-! ## Tests -/

theorem CoreKept.storeResult (c : Channel) (p : Port) (r : TestResult) {s : State} (hs : P s) :
    P (storeResult c p r s) := hP.frame (storeResult_frame c p r s) rfl hs

theorem CoreKept.refuseHead (k : TestCause) {s : State} (hs : P s) : P (refuseHead k s) := by
  unfold Machine.refuseHead
  split
  · exact hs
  · exact hP.storeResult _ _ _ (hP.dropHead hs)

theorem CoreKept.sampleHead {s : State} (hs : P s) : P (sampleHead s) := by
  unfold Machine.sampleHead
  split
  · exact hs
  · split
    · exact hP.refuseHead _ hs
    · exact hP.markHead _ hs

theorem CoreKept.cancelTest (c : Channel) {s : State} (hs : P s) : P (cancelTest c s) := by
  have hqueue : P (cancelQueued c s) := by
    unfold cancelQueued
    split
    · exact hs
    · exact hP.storeResult _ _ _ (hP.keepRequests _ hs)
  exact hP.abortTestOf c .cancelled hqueue

theorem CoreKept.endVent {q : RunningTest} {s : State} (h : runningTest s = some q) (hs : P s) : P (endVent q s) := by
  have hfree := hP.storeResult q.channel q.port (finishedResult q) (hP.freeHolder h hs)
  have hclass (v : Option Nat) (b : Bool) {u : State} (hu : P u) : P (setLeak q.channel b (setClass q.channel v u)) :=
    hP.frame (setLeak_frame q.channel b _) rfl (hP.frame (setClass_frame q.channel v u) rfl hu)
  unfold Machine.endVent outcomeEffect
  split
  · exact hclass _ _ hfree
  · exact hP.addCause _ _ (hclass _ _ hfree)
  · exact hP.addCause _ _ (hclass _ _ hfree)
  · exact hP.frame (setLeak_frame _ _ _) rfl hfree
  · exact hfree
  · exact hfree

/-! ## Loads, standby and the calibration apply -/

theorem CoreKept.loadUpdate {s : State} (hs : P s) : P (loadUpdate s) := by
  obtain ⟨m, hrun, -, ⟨-, h⟩ | ⟨he, h⟩⟩ := loadUpdate_cases s <;> rw [h]
  · exact hP.tyreRun hrun hs
  · exact hP.postEmerg he (hP.tyreRun hrun hs)

theorem CoreKept.resolveAll {s : State} (hs : P s) : P (resolveAll s) := forChannels_keeps (P := P) (fun c _ ht => hP.resolve c ht) _ hs

theorem CoreKept.setLoad (x : LoadTable) {s : State} (hs : P s) : P (s.setLoad x) := by
  refine hP.same (fun q hq => ?_) hs
  cases q <;> simp_all [samePart, isOrder]

theorem CoreKept.formRaised {s : State} (hs : P s) : P (formRaised s) := by
  have hmove (x : LoadTable) : P (handOnRaised (handOnLoads (s.setLoad x))) :=
    hP.quiet (formRollFlag_quiet _) (hP.resolveAll (hP.tyreRun (handOnLoads_run _) (hP.setLoad x hs)))
  unfold Machine.formRaised
  split
  · exact hs
  · split
    · exact hmove _
    · exact hmove _

theorem CoreKept.startupCheck (c : Channel) {s : State} (hs : P s) : P (startupCheck c s) := by
  unfold Machine.startupCheck
  split
  · exact hP.startupHeld false c hs
  · exact hP.addCause _ c hs

theorem CoreKept.startedUp {s : State} (hs : P s) : P (startedUp s) := by
  have hset (r : StandbyRec) := hP.frame (setStandby_frame s r) rfl hs
  have hcheck (r : StandbyRec) := forChannels_keeps (P := P) (fun c _ ht => hP.startupCheck c ht) _ (hset r)
  unfold Sys2Proof.startedUp
  dsimp only
  refine hP.setSupply ?_ (hcheck _)
  rfl

theorem CoreKept.enterRunning {s : State} (hs : P s) : P (enterRunning s) := by
  rw [enterRunning_eq]
  exact hP.loadUpdate (hP.startedUp hs)

theorem CoreKept.enterParked {s : State} (hs : P s) : P (enterParked s) :=
  hP.demandRun (enterParked_run s) (hP.demandRun (parkPort_run .up _) (hP.parking hs))

theorem CoreKept.applyCal {s : State} (hs : P s) : P (applyCal s) := by
  have htaken := hP.quiet (takenSet_quiet s) hs
  have hhand : P (handOnLoads (measuredLoads (takenSet s))) := hP.tyreRun (handOnLoads_run _) (hP.setLoad _ htaken)
  have hreload : P (reloadLoads (takenSet s)) := by
    rcases reloadLoads_cases (takenSet s) with ⟨-, h⟩ | h <;> rw [h]
    · exact hhand
    · exact hP.quiet (formRollFlag_quiet _) (hP.resolveAll hhand)
  rw [applyCal_eq]
  unfold restartWakeTimer
  split
  · exact hP.frame (setStandby_frame _ _) rfl (hP.quiet (testReady_quiet _) hreload)
  · exact hP.quiet (testReady_quiet _) hreload

theorem CoreKept.tryApply {s : State} (hs : P s) : P (tryApply s) := by
  rcases tryApply_cases s with h | ⟨-, -, h⟩ <;> rw [h]
  · exact hs
  · exact hP.applyCal hs

/-! ## The pressure sample -/

theorem CoreKept.checkDelivery (before : PerChannel Reading) (c : Channel) {s : State} (hs : P s) :
    P (checkDelivery before c s) := by
  unfold Machine.checkDelivery
  split_ifs
  · exact hs
  · exact hP.startupHeld false c hs
  · exact hP.addCause _ c hs
  · exact hs

theorem CoreKept.formSlips {s : State} (hs : P s) : P (forChannels formSlip s) := by
  refine forChannels_keeps (P := P) (fun c t ht => ?_) _ hs
  exact hP.setSkid (by rfl) ht

theorem CoreKept.setFront (x : FrontEnd) {s : State} (hs : P s) : P (s.setFront x) := by
  refine hP.same (fun q hq => ?_) hs
  cases q <;> simp_all [samePart, isOrder]

theorem CoreKept.sampleSensors (x : SampleSet) {s : State} (hs : P s) : P (sampleSensors x s) := by
  have hslips := hP.formSlips (hP.frame (sampleWheels_frame x.wheelClosed _) rfl (hP.setFront (frontOf x) hs))
  unfold Machine.sampleSensors
  dsimp only
  refine forChannels_keeps (P := P) (fun c _ ht => hP.checkDelivery _ c ht) _ ?_
  split
  · exact hslips
  · exact hP.formRaised hslips

theorem CoreKept.removeAutomatic (c : Channel) {s : State} (hs : P s) : P (removeAutomatic c s) := by
  unfold Machine.removeAutomatic
  split
  · exact hP.keepCauses (remainingCauses_le s c) hs
  · exact hs

theorem CoreKept.sampleDemand {s : State} (hs : P s) : P (sampleDemand s) := by
  have hdriver : P (sampleDriver s) := by
    unfold sampleDriver
    split
    · exact hs
    · exact hP.formDemand _ hs
  exact forChannels_keeps (P := P) (fun c _ ht => hP.removeAutomatic c ht) _ (hP.resolveAll hdriver)

theorem CoreKept.sampleSupply {s : State} (hs : P s) : P (sampleSupply s) := by
  have hruns : (reservoirRun s.front.reservoir (supplyRuns s.front.supply s.supply)).emergency = s.supply.emergency := by
    rw [reservoirRun_emergency, supplyRuns_emergency]
  unfold Machine.sampleSupply
  dsimp only
  split_ifs
  · exact hs
  · exact hP.event (hP.setSupply hruns hs)
  · exact hP.setSupply hruns hs

theorem CoreKept.sampleMonitors {s : State} (hs : P s) : P (sampleMonitors s) := by
  have hskid := forChannels_keeps (P := P) (fun c _ ht => hP.skidSample c ht) _ (hP.sampleSupply (hP.sampleTest hs))
  have hroll := hP.sampleRollover hskid
  rcases sampleMonitors_cases s with h | h <;> rw [h]
  · exact hroll
  · exact hP.sampleHead hroll

/-- A pressure sample up to the entries that move up behind the head, the head alone in view. -/
theorem CoreKept.sampleSteps (tested : Option Channel) (x : SampleSet) {s : State} (hs : P (headAlone s)) :
    P (Machine.sampleMonitors (forChannels (Machine.controlSample tested) (sampleResolved x s))) := by
  have hresolved : P (sampleResolved x s) := by
    unfold sampleResolved
    exact hP.sampleDemand (hP.sampleSensors x hs)
  exact hP.sampleMonitors (forChannels_keeps (P := P) (fun c _ ht => hP.controlSample tested c ht) _ hresolved)

theorem CoreKept.sampleEnd {s : State} (hs : P s) : P (refreshFaults (sampleLoadClock (Machine.tryApply s))) :=
  hP.refresh (hP.quiet (sampleLoadClock_quiet _) (hP.tryApply hs))

/-! ## The rows -/

theorem CoreKept.latchRow {i : Instr} (hi : isLatchRow i = true) (hstart : i ≠ .testStart) {s : State} (hs : P s) :
    ∃ t, exec i s = .next t ∧ P t := by
  cases i with
  | trackingTimeout c => exact ⟨_, rfl, hP.whenDue (fun _ => hP.addCause _ c hs) hs⟩
  | emergencyOnset => exact ⟨_, rfl, hP.whenDue (fun _ => hP.setEmergency hs) hs⟩
  | emergencyRecovery => exact ⟨_, rfl, hP.whenDue (fun _ => hP.clearEmergency hs) hs⟩
  | lowReservoirOnset => exact ⟨_, rfl, hP.whenDue (fun _ => hP.event (hP.setSupply rfl hs)) hs⟩
  | ctrlEntryExpiry p c => exact ⟨_, rfl, hP.whenDue (fun _ => hP.withdrawPort p c hs) hs⟩
  | skidForcedHold c =>
    exact ⟨_, rfl, hP.whenDue (fun h => hP.forcedHold c (by simp [skidDue_state h]) hs) hs⟩
  | skidHoldTimeout c =>
    exact ⟨_, rfl, hP.whenDue (fun h => hP.enterReapply _ c (.inr (by simp [skidDue_state h])) hs) hs⟩
  | skidReapplyStep c =>
    exact ⟨_, rfl, hP.whenDue (fun h => hP.reapplyStep c (by simp [skidDue_state h]) hs) hs⟩
  | rolloverCalmToQuiet =>
    refine ⟨_, rfl, hP.whenDue (fun h => hP.plainStage (.inr (.inr ?_)) (.inr (.inl rfl)) hs) hs⟩
    simp only [calmOver, Bool.and_eq_true, beq_iff_eq] at h
    exact h.1.2
  | probeTimeout => exact ⟨_, rfl, hP.whenDue (fun _ => hP.probeToWatch hs) hs⟩
  | interveneEnd =>
    refine ⟨_, rfl, hP.whenDue (fun h => hP.enterRecover ?_ hs) hs⟩
    simp only [interveneDue, Bool.and_eq_true, beq_iff_eq] at h
    exact h.1.2
  | recoverStep =>
    refine ⟨_, rfl, hP.whenDue (fun h => hP.stepRecover ?_ hs) hs⟩
    simp only [recoverDue, Bool.and_eq_true, beq_iff_eq] at h
    exact h.1.2
  | testStart => exact absurd rfl hstart
  | testHeadTimeout => exact ⟨_, rfl, hP.whenDue (fun _ => hP.refuseHead _ hs) hs⟩
  | testPulseEnd =>
    rcases exec_testPulseEnd s with h | ⟨q, hq, h⟩ <;> rw [h]
    · exact ⟨_, rfl, hs⟩
    · exact ⟨_, rfl, hP.refresh (hP.endPulse (testOver_running hq) hs)⟩
  | testSettleEnd =>
    rcases exec_testSettleEnd s with h | ⟨q, hq, h⟩ <;> rw [h]
    · exact ⟨_, rfl, hs⟩
    · exact ⟨_, rfl, hP.refresh (hP.endSettle (testOver_running hq) hs)⟩
  | testVentEnd =>
    rcases exec_testVentEnd s with h | ⟨q, hq, h⟩ <;> rw [h]
    · exact ⟨_, rfl, hs⟩
    · exact ⟨_, rfl, hP.refresh (hP.endVent (testOver_running hq) hs)⟩
  | onTimeEnd c => exact ⟨_, rfl, hP.whenDue (fun _ => hP.endOnTime c hs) hs⟩
  | _ => simp [isLatchRow] at hi

theorem CoreKept.restoreChannel (c : Channel) {s : State} (hs : P s) : P (restoreChannel c s) :=
  hP.setSkid rfl (hP.keepCauses (restoredCauses_le s c) hs)

theorem CoreKept.portRow {i : Instr} (hi : isPortRow i = true) (hrequest : ∀ p n, i ≠ .requestTest p n) {s : State}
    (hs : P s) : ∃ t, exec i s = .next t ∧ P t := by
  cases i with
  | postApply p mask level lifetime =>
    exact ⟨_, rfl, hP.transfer (takenFrom_state hs (withArgument_state hs fun _ => unlessState_state hs fun _ =>
      forMask_keeps mask (fun c _ ht => hP.postPort .a level lifetime c ht) hs))⟩
  | postLimit p mask level lifetime =>
    exact ⟨_, rfl, hP.transfer (takenFrom_state hs (withArgument_state hs fun _ => unlessState_state hs fun _ =>
      forMask_keeps mask (fun c _ ht => hP.postPort .b level lifetime c ht) hs))⟩
  | withdraw p mask =>
    exact ⟨_, rfl, hP.transfer (withArgument_state hs fun _ => forMask_keeps mask (fun c _ ht => hP.withdrawPort p c ht) hs)⟩
  | restore p mask =>
    exact ⟨_, rfl, hP.transfer (takenFrom_state hs (withArgument_state hs fun _ => unlessState_state hs fun _ =>
      forMask_keeps mask (fun c _ ht => hP.restoreChannel c ht) hs))⟩
  | forceBackup p mask =>
    exact ⟨_, rfl, hP.transfer (withArgument_state hs fun _ => forMask_keeps mask (fun c _ ht => hP.addCause .forced c ht) hs)⟩
  | requestTest p n => exact absurd rfl (hrequest p n)
  | cancelTest p n => exact ⟨_, rfl, hP.transfer (withChannel_state hs fun c => hP.cancelTest c hs)⟩
  | linkDisable p =>
    have hrun : DemandRun s (disableLink s) := .before setLink_quiet (enterDown_run .up _ _ _ _)
    exact ⟨_, rfl, hP.transfer (takenFrom_state hs (hP.demandRun hrun hs))⟩
  | standby p =>
    refine ⟨_, rfl, hP.transfer (takenFrom_state hs ?_)⟩
    unfold standbyAction
    split
    · exact hs
    · exact hP.enterParked hs
  | portSync p =>
    have hwithdrawn := forChannels_keeps (P := P) (fun c _ ht => hP.withdrawPort p c ht) _ hs
    exact ⟨_, rfl, hP.transfer (hP.quiet (syncPort_quiet p s) (hP.keepRequests _ hwithdrawn))⟩
  | _ => simp [isPortRow] at hi

theorem CoreKept.calConfirm (p : Port) (check : Nat) {s : State} (hs : P s) :
    ∃ t, exec (.calConfirm p check) s = .next t ∧ P t := by
  refine ⟨_, rfl, hP.transfer ?_⟩
  rcases confirm_leaves p check s with hm | ⟨u, hu, -, hm⟩
  · exact hP.quiet hm hs
  · rw [hm]
    exact hP.applyCal (hP.quiet hu hs)

/-- Every other row keeps what the shared operations keep. -/
theorem CoreKept.exec {i : Instr} (hi : isSpecialRow i = false) {s : State} (hs : P s) : ∃ t, exec i s = .next t ∧ P t := by
  by_cases hd : isDemandRow i = true
  · obtain ⟨t, h, hrun⟩ := exec_demandRun hd s
    exact ⟨t, h, hP.demandRun hrun hs⟩
  by_cases hty : isTyreRow i = true
  · obtain ⟨t, h, hrun⟩ := exec_tyreRun hty s
    exact ⟨t, h, hP.tyreRun hrun hs⟩
  by_cases hla : isLatchRow i = true
  · exact hP.latchRow hla (by rintro rfl; simp [isSpecialRow] at hi) hs
  by_cases hp : isPortRow i = true
  · exact hP.portRow hp (by rintro p n rfl; simp [isSpecialRow] at hi) hs
  cases i with
  | startingTimerExpiry => exact ⟨_, rfl, hP.whenDue (fun _ => hP.enterRunning hs) hs⟩
  | loadUpdate => exact ⟨_, rfl, hP.whenDue (fun _ => hP.loadUpdate hs) hs⟩
  | calConfirm p check => exact hP.calConfirm p check hs
  | _ => simp_all [isDemandRow, isTyreRow, isLatchRow, isPortRow, isSpecialRow]

theorem CoreKept.passMillisecond {s : State} (hs : P s) : P (passMillisecond s) :=
  hP.demandRun (passMillisecond_run s) (hP.tick hs)

end Walk

/-- A step keeps what every row and the passing millisecond keep. -/
theorem step_keeps {P : State → Prop} (hquiet : ∀ {s t}, Quiet s t → P s → P t)
    (hexec : ∀ i {s}, P s → ∃ t, exec i s = .next t ∧ P t) (hpass : ∀ {s}, P s → P (passMillisecond s)) {s t : State}
    (hstep : step s = .next t) (hs : P s) : P t := by
  unfold step at hstep
  split at hstep
  · unfold idle at hstep
    split at hstep
    · rename_i i _
      obtain ⟨u, hu, hPu⟩ := hexec i hs
      rw [hu] at hstep
      cases hstep
      exact hPu
    · cases hstep
      exact hpass hs
  · rename_i i rest _
    obtain ⟨u, hu, hPu⟩ := hexec i (hquiet (setPending_quiet s rest) hs)
    rw [hu] at hstep
    cases hstep
    exact hPu

end Sys2Proof
end

