-- ==== Sys2Proof/Proofs/EntryOwnership.lean ====
section
/-! The entries of the Demand Tables are those of their owners (R15, R22, R35, R46, R113, R122), and every step keeps them so. An
operation on one source is followed with that source left open; the invariant is closed again once every channel has had its turn. -/

namespace Sys2Proof

open Sys2Proof.Machine

/-! ## The owner of an entry -/

/-- The stages that hold a ROLL level on a channel (R122). -/
def RollStands (r : StageRec) (c : Channel) : Prop :=
  r.stage = .intervene ∨ r.stage = .recover ∨ (r.stage = .probe ∧ r.probed = some (channelSide c))

/-- An entry of a source stands in the table of a channel exactly while its owner's record says so. -/
def Owns (k : Source) (s : State) (c : Channel) : Prop :=
  match k with
  | .driver => (entryOf s c .driver).isSome = decide (15 ≤ s.driver.demand)
  | .emerg => (entryOf s c .emerg).isSome = s.supply.emergency
  | .roll => (entryOf s c .roll).isSome = (s.roll.stage.level.get c).isSome ∧
      ((s.roll.stage.level.get c).isSome = true ↔ RollStands s.roll.stage c)
  | .skid => (entryOf s c .skid).isSome = ((s.skid.get c).state != .free)
  | .ctrlA => True
  | .ctrlB => True

/-- An entry of a source is at most 1000 kPa, with a lifetime where a controller posted it. -/
def ShapedEntry (k : Source) (o : Option Entry) : Prop :=
  ∀ e, o = some e → e.level ≤ 1000 ∧ (e.lifetime.isSome = true ↔ k = .ctrlA ∨ k = .ctrlB)

/-- The entries of the sources that a test selects are those of their owners, and every entry has its form. -/
def Held (f : Source → Prop) (s : State) : Prop :=
  (∀ c k, f k → Owns k s c) ∧ ∀ c k, ShapedEntry k (entryOf s c k)

/-- A channel that is not FREE is ELECTRONIC. -/
def SkidActive (s : State) (c : Channel) : Prop := (s.skid.get c).state ≠ .free → electronic s c = true

/-- `EntriesInv` for the sources that a test selects. -/
def Owned (f : Source → Prop) (s : State) : Prop := Held f s ∧ ∀ c, SkidActive s c

/-- Every source. -/
def anySource (_ : Source) : Prop := True

theorem entriesInv_iff (s : State) : EntriesInv s ↔ Owned anySource s := by
  constructor
  · rintro ⟨hlevel, h⟩
    refine ⟨⟨fun c k _ => ?_, fun c k => (h c).2.2.2.2.2 k⟩, fun c => (h c).2.2.2.2.1⟩
    obtain ⟨hdriver, hemerg, hroll, hskid, -, -⟩ := h c
    cases k with
    | driver => exact hdriver
    | emerg => exact hemerg
    | roll => exact ⟨hroll, hlevel c⟩
    | skid => exact hskid
    | ctrlA => trivial
    | ctrlB => trivial
  · rintro ⟨⟨howns, hshape⟩, hactive⟩
    refine ⟨fun c => (howns c .roll trivial).2, fun c => ⟨howns c .driver trivial, howns c .emerg trivial,
      (howns c .roll trivial).1, howns c .skid trivial, hactive c, hshape c⟩⟩

/-- The parts that the ownership of an entry depends on. -/
def isOwnerOf (k : Source) (c : Channel) : Part → Bool
  | .entry d j => d == c && j == k
  | .driver => k == .driver
  | .supply => k == .emerg
  | .stage => k == .roll
  | .skid d => d == c && k == .skid
  | _ => false

/-- The parts that the ownership of all entries depends on. -/
def isOwner : Part → Bool
  | .driver | .supply | .stage => true
  | .entry _ _ | .skid _ => true
  | _ => false

/-- The parts that say whether a channel that is not FREE is ELECTRONIC. -/
def isActivity (c : Channel) : Part → Bool
  | .skid d | .causes d => d == c
  | _ => false

theorem isOwnerOf_le (k : Source) (c : Channel) (q : Part) (h : isOwnerOf k c q = true) : isOwner q = true := by
  cases q <;> simp_all [isOwnerOf, isOwner]

theorem isOwner_le (q : Part) (h : isOwner q = true) : isOrder q = true := by
  cases q <;> simp_all [isOwner, isOrder]

theorem isActivity_le (c : Channel) (q : Part) (h : isActivity c q = true) : isOrder q = true := by
  cases q <;> simp_all [isActivity, isOrder]

section Keeping
variable {f : Source → Prop} {s t : State}

theorem SameOn.entry {k : Source} {c : Channel} (h : SameOn (isOwnerOf k c) s t) : entryOf t c k = entryOf s c k :=
  h (.entry c k) (by simp [isOwnerOf])

theorem Owns.keeps {k : Source} {c : Channel} (hs : Owns k s c) (h : SameOn (isOwnerOf k c) s t) : Owns k t c := by
  have hentry := h.entry
  cases k with
  | driver =>
    have hrec : t.driver = s.driver := h .driver rfl
    simpa [Owns, hentry, hrec] using hs
  | emerg =>
    have hrec : t.supply = s.supply := h .supply rfl
    simpa [Owns, hentry, hrec] using hs
  | roll =>
    have hrec : t.roll.stage = s.roll.stage := h .stage rfl
    simpa [Owns, hentry, hrec] using hs
  | skid =>
    have hrec : t.skid.get c = s.skid.get c := h (.skid c) (by simp [isOwnerOf])
    simpa [Owns, hentry, hrec] using hs
  | ctrlA => trivial
  | ctrlB => trivial

theorem Held.same (hs : Held f s) (h : SameOn isOwner s t) : Held f t := by
  refine ⟨fun c k hk => (hs.1 c k hk).keeps (h.mono (isOwnerOf_le k c)), fun c k => ?_⟩
  rw [(h.mono (isOwnerOf_le k c)).entry]
  exact hs.2 c k

theorem Held.frame {l : List Part} (hs : Held f s) (h : OnlyChanges l s t) (hl : l.all (fun q => !isOwner q) = true) :
    Held f t := hs.same (.of_frame h hl)

theorem SkidActive.keeps {c : Channel} (hs : SkidActive s c) (h : SameOn (isActivity c) s t) : SkidActive t c := by
  have hskid : t.skid.get c = s.skid.get c := h (.skid c) (by simp [isActivity])
  have hcauses := (h (.causes c) (by simp [isActivity])).1
  simpa [SkidActive, electronic, hskid, hcauses] using hs

theorem Owned.same (hs : Owned f s) (h : SameOn isOrder s t) : Owned f t :=
  ⟨hs.1.same (h.mono isOwner_le), fun c => (hs.2 c).keeps (h.mono (isActivity_le c))⟩

theorem Owned.mono {g : Source → Prop} (hs : Owned f s) (h : ∀ k, g k → f k) : Owned g s :=
  ⟨⟨fun c k hk => hs.1.1 c k (h k hk), hs.1.2⟩, hs.2⟩

/-- An operation on one entry: it answers for the entry that it writes, and leaves the others and their owners. -/
theorem Held.at_entry {l : List Part} {c : Channel} {k : Source} (hs : Held f s) (h : OnlyChanges l s t)
    (hown : ∀ d j, f j → ¬ (d = c ∧ j = k) → l.all (fun q => !isOwnerOf j d q) = true)
    (hentry : ∀ d j, ¬ (d = c ∧ j = k) → .entry d j ∉ l)
    (hnew : f k → Owns k t c) (hshape : ShapedEntry k (entryOf t c k)) : Held f t := by
  refine ⟨fun d j hj => ?_, fun d j => ?_⟩
  · by_cases hdj : d = c ∧ j = k
    · obtain ⟨rfl, rfl⟩ := hdj
      exact hnew hj
    · exact (hs.1 d j hj).keeps (.of_frame h (hown d j hj hdj))
  · by_cases hdj : d = c ∧ j = k
    · obtain ⟨rfl, rfl⟩ := hdj
      exact hshape
    · have hsame : entryOf t d j = entryOf s d j := h (.entry d j) (hentry d j hdj)
      rw [hsame]
      exact hs.2 d j

end Keeping

/-! ## Entries posted, withdrawn and replaced -/

/-- The sources beside one. -/
def Beside (k : Source) (j : Source) : Prop := j ≠ k

theorem Owned.beside {s : State} (k : Source) (hs : Owned anySource s) : Owned (Beside k) s := hs.mono fun _ _ => trivial

theorem Owned.close {k : Source} {s : State} (hs : Owned (Beside k) s) (h : ∀ c, Owns k s c) : Owned anySource s := by
  refine ⟨⟨fun c j _ => ?_, hs.1.2⟩, hs.2⟩
  by_cases hj : j = k
  · subst hj
    exact h c
  · exact hs.1.1 c j hj

theorem shapedEntry_none (k : Source) : ShapedEntry k none := by
  rintro e ⟨⟩

/-- An entry of the machine's own sources has no lifetime. -/
theorem shapedEntry_own {k : Source} {e : Entry} (hk : k ≠ .ctrlA ∧ k ≠ .ctrlB) (he : e.lifetime = none) :
    ShapedEntry k (some { e with level := min 1000 e.level }) := by
  rintro e' ⟨⟩
  simp [he, hk.1, hk.2]

section Entries
variable {f : Source → Prop} {s : State}

theorem resolve_owned (c : Channel) (hs : Owned f s) : Owned f (resolve c s) := by
  refine ⟨hs.1.frame (resolve_frame c s) rfl, fun d => (hs.2 d).keeps (.of_frame (resolve_frame c s) ?_)⟩
  simp [resolveParts, abortParts, isActivity]

/-- The parts of a posting or a withdrawal, but for the entry itself, are no owner's record. -/
theorem entryParts_owner {c d : Channel} {k j : Source} (h : ¬ (d = c ∧ j = k)) :
    (Part.entry c k :: resolveParts c).all (fun q => !isOwnerOf j d q) = true := by
  simp [resolveParts, abortParts, isOwnerOf]
  grind

theorem entryParts_entry {c d : Channel} {k j : Source} (h : ¬ (d = c ∧ j = k)) :
    .entry d j ∉ Part.entry c k :: resolveParts c := by
  simpa [resolveParts, abortParts] using h

theorem entryParts_activity (c d : Channel) (k : Source) :
    (Part.entry c k :: resolveParts c).all (fun q => !isActivity d q) = true := by
  simp [resolveParts, abortParts, isActivity]

theorem post_owned {c : Channel} {k : Source} {e : Entry} (hs : Owned f s)
    (hshape : ShapedEntry k (some { e with level := min 1000 e.level })) (hnew : f k → Owns k (post c k e s) c) :
    Owned f (post c k e s) := by
  refine ⟨hs.1.at_entry (post_frame c k e s) (fun d j _ h => entryParts_owner h) (fun d j h => entryParts_entry h) hnew ?_,
    fun d => (hs.2 d).keeps (.of_frame (post_frame c k e s) (entryParts_activity c d k))⟩
  rw [post_entry]
  exact hshape

theorem withdraw_owned {c : Channel} {k : Source} (hs : Owned f s) (hnew : f k → Owns k (withdraw c k s) c) :
    Owned f (withdraw c k s) := by
  refine ⟨hs.1.at_entry (withdraw_frame c k s) (fun d j _ h => entryParts_owner h) (fun d j h => entryParts_entry h) hnew ?_,
    fun d => (hs.2 d).keeps (.of_frame (withdraw_frame c k s) (entryParts_activity c d k))⟩
  rw [withdraw_entry]
  exact shapedEntry_none k

theorem postPort_owned (p : Port) (level lifetime : Nat) (c : Channel) (hs : Owned f s) :
    Owned f (post c (portSource p) (portEntry level lifetime) s) := by
  refine post_owned hs ?_ (fun _ => by cases p <;> trivial)
  rintro e ⟨⟩
  cases p <;> simp [portEntry, portSource]

theorem withdrawPort_owned (p : Port) (c : Channel) (hs : Owned f s) : Owned f (withdraw c (portSource p) s) :=
  withdraw_owned hs (fun _ => by cases p <;> trivial)

end Entries

/-! ## Skid states and backup causes -/

section Skid
variable {f : Source → Prop} {s : State}

theorem freeSkid_held (c : Channel) (hs : Held f s) : Held f (freeSkid c s) := by
  have hfree := freeSkid_free c s
  have hframe := freeSkid_frame c s
  by_cases h : (s.skid.get c).state = .free
  · have hsame : freeSkid c s = s := by simp [freeSkid, h]
    rwa [hsame]
  · have hnone := freeSkid_entry c s h
    refine hs.at_entry (c := c) (k := .skid) hframe (fun d j _ hdj => ?_) (fun d j hdj => ?_) (fun _ => ?_) ?_
    · simp [freeParts, resolveParts, abortParts, eventParts, noticeParts, isOwnerOf]
      grind
    · simpa [freeParts, resolveParts, abortParts, eventParts, noticeParts] using hdj
    · simp [Owns, hnone, hfree]
    · rw [hnone]
      exact shapedEntry_none .skid

theorem freeSkid_owned (c : Channel) (hs : Owned f s) : Owned f (freeSkid c s) := by
  refine ⟨freeSkid_held c hs.1, fun d => ?_⟩
  by_cases hd : d = c
  · subst hd
    exact fun h => absurd (freeSkid_free d s) h
  · refine (hs.2 d).keeps (.of_frame (freeSkid_frame c s) ?_)
    simp [freeParts, resolveParts, abortParts, eventParts, noticeParts, isActivity, Ne.symm hd]

theorem enterBackup_held (c : Channel) (hs : Held f s) : Held f (enterBackup c s) := by
  rw [enterBackup_eq]
  have hnotice := (hs.frame (deEnergise_frame c s) rfl).frame (testBackupNotice_quiet c _) rfl
  exact (freeSkid_held c hnotice).frame (queueEvent_frame _) rfl

theorem enterBackup_free (c : Channel) (s : State) : ((enterBackup c s).skid.get c).state = .free := by
  rw [enterBackup_eq]
  have hskid := queueEvent_frame (freeSkid c (testBackupNotice c (setChannel s c (deEnergised (channelOf s c)))))
    (.skid c) (by simp [eventParts, noticeParts])
  simp only [samePart] at hskid
  rw [hskid]
  exact freeSkid_free c _

theorem addCause_owned (k : Cause) (c : Channel) (hs : Owned f s) : Owned f (addCause k c s) := by
  have hput := hs.1.frame (setCauses_frame (s := s) c ((channelOf s c).causes.put k true) (channelOf s c).startupHeld) rfl
  have hother (d : Channel) (hd : d ≠ c) : SkidActive (addCause k c s) d := by
    refine (hs.2 d).keeps (.of_frame (addCause_frame k c s) ?_)
    simp [backupParts, freeParts, resolveParts, abortParts, eventParts, noticeParts, isActivity, Ne.symm hd]
  suffices h : Held f (addCause k c s) ∧ SkidActive (addCause k c s) c by
    refine ⟨h.1, fun d => ?_⟩
    by_cases hd : d = c
    · subst hd
      exact h.2
    · exact hother d hd
  rcases addCause_cases k c s with ⟨h, -⟩ | ⟨h, -⟩ | ⟨h, he⟩ <;> rw [h]
  · exact ⟨hs.1, hs.2 c⟩
  · exact ⟨enterBackup_held c hput, fun hne => absurd (enterBackup_free c _) hne⟩
  · refine ⟨hput, fun hne => ?_⟩
    have := hs.2 c hne
    simp [he] at this

theorem startupHeld_owned (b : Bool) (c : Channel) (hs : Owned f s) :
    Owned f (setChannel s c { channelOf s c with startupHeld := b }) := by
  refine ⟨hs.1.frame (setCauses_frame (s := s) c (channelOf s c).causes b) rfl, fun d hne => ?_⟩
  have := hs.2 d hne
  simp only [electronic, channelOf_setChannel] at this ⊢
  split <;> simp_all

theorem keepCauses_causes (k : CauseSet) (c d : Channel) (s : State) :
    (channelOf (keepCauses k c s) d).causes = if d = c then k else (channelOf s d).causes := by
  have hset : (channelOf (setChannel s c { channelOf s c with causes := k }) d).causes =
      if d = c then k else (channelOf s d).causes := by
    rw [channelOf_setChannel]
    split <;> rfl
  unfold keepCauses
  dsimp only
  split
  · rw [(enterElectronic_frame c _ (.causes d) (by simp [eventParts, noticeParts])).1, hset]
  · exact hset

theorem isEmpty_of_le {k j : CauseSet} (h : ∀ x, k.has x = true → j.has x = true) (hj : j.isEmpty = true) :
    k.isEmpty = true := by
  rw [CauseSet.isEmpty_iff] at hj ⊢
  intro x
  by_contra hx
  have := h x (by simpa using hx)
  simp [hj x] at this

/-- A channel whose causes shrink stays ELECTRONIC where it is so. -/
theorem keepCauses_electronic {k : CauseSet} {c d : Channel} {s : State}
    (hk : ∀ j, k.has j = true → (channelOf s c).causes.has j = true) (he : electronic s d = true) :
    electronic (keepCauses k c s) d = true := by
  unfold electronic at he ⊢
  rw [keepCauses_causes]
  split
  · subst d
    exact isEmpty_of_le hk he
  · exact he

theorem keepCauses_owned {k : CauseSet} {c : Channel}
    (hk : ∀ j, k.has j = true → (channelOf s c).causes.has j = true) (hs : Owned f s) : Owned f (keepCauses k c s) := by
  refine ⟨hs.1.frame (keepCauses_frame k c s) rfl, fun d hne => ?_⟩
  have hskid : (keepCauses k c s).skid.get d = s.skid.get d :=
    keepCauses_frame k c s (.skid d) (by simp [eventParts, noticeParts])
  rw [hskid] at hne
  exact keepCauses_electronic hk (hs.2 d hne)

theorem setSkid_owned {k : SkidRec} {c : Channel} (hk : k.state = (s.skid.get c).state) (hs : Owned f s) :
    Owned f (s.setSkid (s.skid.set c k)) := by
  have hstate (d : Channel) : (((s.setSkid (s.skid.set c k)).skid).get d).state = (s.skid.get d).state := by
    simp only [State.setSkid_skid, PerChannel.get_set]
    split <;> simp_all
  refine ⟨⟨fun d j hj => ?_, fun d j => ?_⟩, fun d hne => ?_⟩
  · by_cases hskid : j = .skid
    · subst hskid
      have := hs.1.1 d .skid hj
      simpa only [Owns, hstate, entryOf_setSkid] using this
    · refine (hs.1.1 d j hj).keeps (.of_frame (setSkid_frame s c k) ?_)
      simp [isOwnerOf, hskid]
  · exact hs.1.2 d j
  · exact hs.2 d (by rwa [hstate] at hne)

theorem enterSkid_owned {k : SkidRec} {c : Channel} (n : Nat)
    (he : electronic s c = true ∨ (s.skid.get c).state ≠ .free) (hk : k.state ≠ .free) (hs : Owned f s) :
    Owned f (post c .skid (skidEntry k.state n) (s.setSkid (s.skid.set c k))) := by
  have hframe := postSkid_frame c (skidEntry k.state n) k s
  have hentry := post_entry c .skid (skidEntry k.state n) (s.setSkid (s.skid.set c k))
  have hskid := post_frame c .skid (skidEntry k.state n) (s.setSkid (s.skid.set c k)) (.skid c)
    (by simp [resolveParts, abortParts])
  have hcauses := (hframe (.causes c) (by simp [skidParts, resolveParts, abortParts])).1
  simp only [samePart, State.setSkid_skid, PerChannel.get_set, if_true] at hskid
  refine ⟨hs.1.at_entry (c := c) (k := .skid) hframe (fun d j _ h => ?_) (fun d j h => ?_) (fun _ => ?_) ?_, fun d => ?_⟩
  · simp [skidParts, resolveParts, abortParts, isOwnerOf]
    grind
  · simpa [skidParts, resolveParts, abortParts] using h
  · simp only [Owns, hentry, hskid]
    simp [hk]
  · rw [hentry]
    exact shapedEntry_own (by simp) rfl
  · by_cases hd : d = c
    · subst hd
      intro _
      have := he.elim id (hs.2 d)
      simpa [electronic, hcauses] using this
    · refine (hs.2 d).keeps (.of_frame hframe ?_)
      simp [skidParts, resolveParts, abortParts, isActivity, Ne.symm hd]

end Skid

end Sys2Proof
end

