-- ==== Sys2Proof/Proofs/EntriesKept.lean ====
section
/-! The operations that write an owner's record and then the entries of all four channels, and the step lemma of `EntriesInv` (O55). -/

namespace Sys2Proof

open Sys2Proof.Machine

/-! ## One source for every channel -/

/-- The ownership of a source is closed once each channel has had its turn. -/
theorem forChannels_close {k : Source} {g : Channel → State → State} {Q : State → Prop}
    (hkeep : ∀ c t, Q t → Owned (Beside k) t → Owned (Beside k) (g c t) ∧ Q (g c t))
    (hown : ∀ c t, Q t → Owns k (g c t) c) (hother : ∀ c d t, d ≠ c → Q t → Owns k t c → Owns k (g d t) c)
    {s : State} (hs : Owned (Beside k) s) (hQ : Q s) : Owned anySource (forChannels g s) ∧ Q (forChannels g s) := by
  have hboth : Q (forChannels g s) ∧ Owned (Beside k) (forChannels g s) :=
    forChannels_keeps (P := fun t => Q t ∧ Owned (Beside k) t) (fun c t ht => (hkeep c t ht.1 ht.2).symm) s ⟨hQ, hs⟩
  have hturn := forChannels_each_of (P := fun c t => Owns k t c) (Q := fun t => Q t ∧ Owned (Beside k) t)
    (fun c t ht => (hkeep c t ht.1 ht.2).symm) (fun c t ht => hown c t ht.1)
    (fun c d t hd ht => hother c d t hd ht.1) s ⟨hQ, hs⟩
  exact ⟨hboth.2.close hturn, hboth.1⟩

/-- A record of a source written while its ownership is left open. -/
theorem Owned.setRecord {k : Source} {l : List Part} {s t : State} (hs : Owned (Beside k) s) (h : OnlyChanges l s t)
    (hown : ∀ j d, j ≠ k → l.all (fun q => !isOwnerOf j d q) = true) (hentry : ∀ j d, .entry d j ∉ l)
    (hactive : ∀ d, l.all (fun q => !isActivity d q) = true) : Owned (Beside k) t := by
  refine ⟨⟨fun c j hj => (hs.1.1 c j hj).keeps (.of_frame h (hown j c hj)), fun c j => ?_⟩,
    fun c => (hs.2 c).keeps (.of_frame h (hactive c))⟩
  have hsame : entryOf t c j = entryOf s c j := h (.entry c j) (hentry j c)
  rw [hsame]
  exact hs.1.2 c j

theorem setDriver_owned {s : State} (d : DriverRec) (hs : Owned (Beside .driver) s) :
    Owned (Beside .driver) (s.setDriver d) :=
  hs.setRecord (setDriver_frame s d) (fun _ _ hj => by simp [isOwnerOf, hj]) (by simp) (by simp [isActivity])

theorem writeSupply_owned {s : State} (x : SupplyRec) (hs : Owned (Beside .emerg) s) :
    Owned (Beside .emerg) (s.setSupply x) :=
  hs.setRecord (setSupply_frame s x) (fun _ _ hj => by simp [isOwnerOf, hj]) (by simp) (by simp [isActivity])

theorem writeStage_owned {s : State} (r : StageRec) (hs : Owned (Beside .roll) s) : Owned (Beside .roll) (setStage r s) :=
  hs.setRecord (setStage_frame r s) (fun _ _ hj => by simp [isOwnerOf, hj]) (by simp) (by simp [isActivity])

/-- An entry of a channel is no owner's business of another one. -/
theorem Owns.other {k : Source} {c d : Channel} {s t : State} (hs : Owns k s c) (hd : d ≠ c)
    (h : OnlyChanges (.entry d k :: resolveParts d) s t) : Owns k t c :=
  hs.keeps (.of_frame h (entryParts_owner (by simp [Ne.symm hd])))

/-! ## DRIVER entries (R35) -/

theorem updateDriver_owned {s : State} (c : Channel) (hs : Owned (Beside .driver) s) :
    Owned (Beside .driver) (updateDriver c s) := by
  have hpost (n : Nat) : Owned (Beside .driver) (post c .driver { level := n, lifetime := none, detail := none } s) :=
    post_owned hs (shapedEntry_own (by simp) rfl) (fun h => absurd rfl h)
  unfold updateDriver
  split_ifs
  · exact hs
  · exact hpost _
  · exact withdraw_owned hs (fun h => absurd rfl h)

theorem updateDriver_driver (c : Channel) (s : State) : (updateDriver c s).driver = s.driver :=
  updateDriver_frame c s .driver (by simp [resolveParts, abortParts])

theorem updateDriver_owns (c : Channel) (s : State) : Owns .driver (updateDriver c s) c := by
  have hdriver := updateDriver_driver c s
  simp only [Owns, hdriver]
  unfold updateDriver
  split_ifs with hd hsame
  · cases he : entryOf s c .driver with
    | none => simp [he] at hsame
    | some e => simp [hd]
  · rw [post_entry]
    simp [hd]
  · rw [withdraw_entry]
    simp [hd]

theorem formDemand_owned (d : DriverRec) {s : State} (hs : Owned anySource s) :
    Owned anySource (formDemand (s.setDriver d)) := by
  have hwrite (x : DriverRec) := setDriver_owned x (setDriver_owned d (hs.beside .driver))
  have hmid : Owned (Beside .driver) (writeDemand (s.setDriver d)) := by
    unfold writeDemand
    dsimp only
    split
    · exact forChannels_keeps (P := Owned (Beside .driver)) (fun c _ ht => addCause_owned .noDemandSource c ht) _ (hwrite _)
    · exact hwrite _
  rw [formDemand_eq]
  exact (forChannels_close (Q := fun _ => True) (fun c _ _ ht => ⟨updateDriver_owned c ht, trivial⟩)
    (fun c t _ => updateDriver_owns c t) (fun _ d t hd _ ht => ht.other hd (updateDriver_frame d t)) hmid trivial).1

/-- The cause set of a channel. -/
def isCauses : Part → Bool
  | .causes _ => true
  | _ => false

theorem Owned.outside {f : Source → Prop} {l : List Part} {s t : State} (hs : Owned f s) (h : OnlyChanges l s t)
    (hl : l.all (fun q => !isOwner q && !isCauses q) = true) : Owned f t := by
  simp only [List.all_eq_true, Bool.and_eq_true] at hl
  refine ⟨hs.1.frame h (List.all_eq_true.mpr fun q hq => (hl q hq).1), fun d => (hs.2 d).keeps (.of_frame h ?_)⟩
  refine List.all_eq_true.mpr fun q hq => ?_
  have := hl q hq
  cases q <;> simp_all [isOwner, isCauses, isActivity]

/-! ## EMERG entries (R15, R16) -/

theorem setSupply_owned {x : SupplyRec} {s : State} (hx : x.emergency = s.supply.emergency) (hs : Owned anySource s) :
    Owned anySource (s.setSupply x) := by
  refine (writeSupply_owned x (hs.beside .emerg)).close fun c => ?_
  have := hs.1.1 c .emerg trivial
  simpa [Owns, hx] using this

theorem postEmerg_all_owned {s : State} (he : s.supply.emergency = true) (hs : Owned (Beside .emerg) s) :
    Owned anySource (forChannels postEmerg s) := by
  have hsupply (c : Channel) (t : State) : (postEmerg c t).supply = t.supply :=
    postEmerg_frame c t .supply (by simp [resolveParts, abortParts])
  refine (forChannels_close (Q := fun t => t.supply.emergency = true) (fun c t ht hown => ⟨?_, ?_⟩) (fun c t ht => ?_)
    (fun _ d t hd _ ht => ht.other hd (postEmerg_frame d t)) hs he).1
  · exact post_owned hown (shapedEntry_own (by simp) rfl) (fun h => absurd rfl h)
  · rw [hsupply, ht]
  · have hentry : (entryOf (postEmerg c t) c .emerg).isSome = true := by
      unfold postEmerg
      rw [post_entry]
      rfl
    simp [Owns, hentry, hsupply, ht]

theorem withdrawEmerg_all_owned {s : State} (he : s.supply.emergency = false) (hs : Owned (Beside .emerg) s) :
    Owned anySource (forChannels (fun c t => withdraw c .emerg t) s) := by
  have hsupply (c : Channel) (t : State) : (withdraw c .emerg t).supply = t.supply :=
    withdraw_frame c .emerg t .supply (by simp [resolveParts, abortParts])
  refine (forChannels_close (Q := fun t => t.supply.emergency = false) (fun c t ht hown => ⟨?_, ?_⟩) (fun c t ht => ?_)
    (fun _ d t hd _ ht => ht.other hd (withdraw_frame d .emerg t)) hs he).1
  · exact withdraw_owned hown (fun h => absurd rfl h)
  · rw [hsupply, ht]
  · simp [Owns, withdraw_entry, hsupply, ht]

theorem queueEvent_owned {f : Source → Prop} {s : State} (hs : Owned f s) : Owned f (queueEvent s) :=
  hs.same (queueEvent_quiet s).order

theorem setEmergency_owned {s : State} (hs : Owned anySource s) : Owned anySource (setEmergency s) :=
  queueEvent_owned (postEmerg_all_owned rfl (writeSupply_owned _ (hs.beside .emerg)))

theorem clearEmergency_owned {s : State} (hs : Owned anySource s) : Owned anySource (clearEmergency s) :=
  queueEvent_owned (withdrawEmerg_all_owned rfl (writeSupply_owned _ (hs.beside .emerg)))

/-! ## ROLL entries and levels (R113, R122) -/

theorem postRoll_stage (g : Stage) (n : Nat) (c : Channel) (s : State) :
    (postRoll g n c s).roll.stage = { s.roll.stage with level := s.roll.stage.level.set c (some n) } := by
  have h := post_frame c .roll (rollEntry g n) (setStage { s.roll.stage with level := s.roll.stage.level.set c (some n) } s)
    .stage (by simp [resolveParts, abortParts])
  exact h

theorem postRoll_owned {s : State} (g : Stage) (n : Nat) (c : Channel) (hs : Owned (Beside .roll) s) :
    Owned (Beside .roll) (postRoll g n c s) :=
  post_owned (writeStage_owned _ hs) (shapedEntry_own (by simp) rfl) (fun h => absurd rfl h)

/-- A ROLL level posted where the stage holds one is owned. -/
theorem postRoll_owns {g : Stage} {n : Nat} {c : Channel} {s : State} (h : RollStands s.roll.stage c) :
    Owns .roll (postRoll g n c s) c := by
  have hentry : (entryOf (postRoll g n c s) c .roll).isSome = true := by
    unfold postRoll
    rw [post_entry]
    rfl
  have hstands : RollStands (postRoll g n c s).roll.stage c := by
    rw [postRoll_stage]
    exact h
  exact ⟨by simp [hentry, postRoll_stage], iff_of_true (by simp [postRoll_stage]) hstands⟩

theorem postRoll_other {g : Stage} {n : Nat} {c d : Channel} {s : State} (hd : d ≠ c) (hs : Owns .roll s c) :
    Owns .roll (postRoll g n d s) c := by
  have hentry : entryOf (postRoll g n d s) c .roll = entryOf s c .roll :=
    postRoll_frame g n d s (.entry c .roll) (by simp [rollParts, resolveParts, abortParts, Ne.symm hd])
  simp only [Owns, hentry, postRoll_stage, RollStands, PerChannel.get_set, if_neg (Ne.symm hd)] at hs ⊢
  exact hs

/-- Every channel takes a ROLL level where the stage holds one on every channel (R119, R121). -/
theorem postRoll_all_owned {g : Stage} {level : State → Channel → Nat} {s : State} {x : Stage} (hx : s.roll.stage.stage = x)
    (hstands : x = .intervene ∨ x = .recover) (hs : Owned (Beside .roll) s) :
    Owned anySource (forChannels (fun c t => postRoll g (level t c) c t) s) := by
  have hall {t : State} (ht : t.roll.stage.stage = x) (c : Channel) : RollStands t.roll.stage c := by
    subst ht
    exact hstands.elim .inl fun h => .inr (.inl h)
  refine (forChannels_close (Q := fun t => t.roll.stage.stage = x) (fun c t ht hown => ⟨?_, ?_⟩)
    (fun c t ht => postRoll_owns (hall ht c)) (fun _ _ _ hd _ ht => postRoll_other hd ht) hs hx).1
  · exact postRoll_owned _ _ c hown
  · rw [postRoll_stage]
    exact ht

/-- A level posted again in INTERVENE or RECOVER (R120, R121). -/
theorem postAgain_owned {g : Channel → State → State} (hg : ∀ c t, g c t = t ∨ ∃ k n, g c t = postRoll k n c t)
    {x : Stage} (hstands : x = .intervene ∨ x = .recover) {s : State} (hx : s.roll.stage.stage = x)
    (hs : Owned anySource s) : Owned anySource (forChannels g s) ∧ (forChannels g s).roll.stage.stage = x := by
  refine forChannels_keeps (P := fun t => Owned anySource t ∧ t.roll.stage.stage = x) (fun c t ht => ?_) s ⟨hs, hx⟩
  obtain ⟨hown, hstage⟩ := ht
  rcases hg c t with h | ⟨k, n, h⟩ <;> rw [h]
  · exact ⟨hown, hstage⟩
  · refine ⟨(postRoll_owned k n c (hown.beside .roll)).close fun d => ?_, by rw [postRoll_stage]; exact hstage⟩
    by_cases hd : d = c
    · subst hd
      subst hstage
      exact postRoll_owns (hstands.elim .inl fun h => .inr (.inl h))
    · exact postRoll_other (Ne.symm hd) (hown.1.1 d .roll trivial)

theorem not_rollStands_of_idle {r : StageRec} (h : IdleStage r.stage) (c : Channel) : ¬ RollStands r c := by
  rcases h with h | h | h <;> simp [RollStands, h]

/-- With every level absent and every entry withdrawn the stage is one that holds none (R122). -/
theorem withdrawRoll_owned {s : State} (hidle : IdleStage s.roll.stage.stage) (hs : Owned (Beside .roll) s) :
    Owned anySource (withdrawRoll s) := by
  have hstage (c : Channel) (t : State) : (withdraw c .roll t).roll.stage = t.roll.stage :=
    withdraw_frame c .roll t .stage (by simp [resolveParts, abortParts])
  refine (forChannels_close (Q := fun t => IdleStage t.roll.stage.stage ∧ t.roll.stage.level = .const none)
    (fun c t ht hown => ⟨?_, ?_⟩) (fun c t ht => ?_) (fun _ d t hd _ ht => ht.other hd (withdraw_frame d .roll t))
    (writeStage_owned { s.roll.stage with level := .const none } hs) ⟨hidle, rfl⟩).1
  · exact withdraw_owned hown (fun h => absurd rfl h)
  · rw [hstage]
    exact ht
  · have hnot := not_rollStands_of_idle ht.1 c
    simp [Owns, withdraw_entry, hstage, ht.2, hnot]

theorem freeGenerator_owned {f : Source → Prop} {s : State} (hs : Owned f s) : Owned f (freeGenerator s) := by
  have hframe := freeGenerator_frame s
  exact ⟨hs.1.frame hframe rfl, fun d => (hs.2 d).keeps (.of_frame hframe rfl)⟩

theorem freeGenerator_stage (s : State) : (freeGenerator s).roll.stage = s.roll.stage :=
  freeGenerator_frame s .stage (by simp)

theorem leaveStage_owned {r : StageRec} {s : State} (hidle : IdleStage r.stage) (hs : Owned (Beside .roll) s) :
    Owned anySource (queueEvent (withdrawRoll (freeGenerator (setStage r s)))) := by
  refine queueEvent_owned (withdrawRoll_owned ?_ (freeGenerator_owned (writeStage_owned r hs)))
  rw [freeGenerator_stage]
  exact hidle

theorem stageOff_owned {s : State} (hs : Owned (Beside .roll) s) : Owned anySource (stageOff s) :=
  leaveStage_owned (.inl rfl) hs

theorem probeToWatch_owned {s : State} (hs : Owned anySource s) : Owned anySource (probeToWatch s) :=
  leaveStage_owned (.inr (.inr rfl)) (hs.beside .roll)

theorem enterIntervene_owned {s : State} (hs : Owned anySource s) : Owned anySource (enterIntervene s) := by
  refine queueEvent_owned (postRoll_all_owned (level := interveneLevel) (x := .intervene) ?_ (.inl rfl)
    (freeGenerator_owned (writeStage_owned _ (hs.beside .roll))))
  rw [freeGenerator_stage]
  rfl

theorem enterRecover_owned {s : State} (hs : Owned anySource s) : Owned anySource (enterRecover s) :=
  queueEvent_owned (postRoll_all_owned (level := fun t c => (t.roll.stage.level.get c).getD 0) (x := .recover) rfl (.inr rfl)
    (writeStage_owned _ (hs.beside .roll)))

/-- A stage record written with the same stage, the same probed channels and the same levels. -/
theorem setStage_owned {r : StageRec} {s : State} (h1 : r.stage = s.roll.stage.stage) (h2 : r.probed = s.roll.stage.probed)
    (h3 : r.level = s.roll.stage.level) (hs : Owned anySource s) : Owned anySource (setStage r s) := by
  refine (writeStage_owned r (hs.beside .roll)).close fun c => ?_
  have hroll := hs.1.1 c .roll trivial
  have hstage : (setStage r s).roll.stage = r := rfl
  have hentry : entryOf (setStage r s) c .roll = entryOf s c .roll := entryOf_setRoll s _ c .roll
  simp only [Owns, RollStands, hstage, hentry, h1, h2, h3] at hroll ⊢
  exact hroll

theorem plainStage_owned {g : Stage} {s : State} (hfrom : IdleStage s.roll.stage.stage) (hto : IdleStage g)
    (hs : Owned anySource s) : Owned anySource (plainStage g s) := by
  refine queueEvent_owned ((writeStage_owned _ (hs.beside .roll)).close fun c => ?_)
  have hroll := hs.1.1 c .roll trivial
  have hentry (r : StageRec) : entryOf (setStage r s) c .roll = entryOf s c .roll := entryOf_setRoll s _ c .roll
  have hnot := not_rollStands_of_idle hfrom c
  have hnot' : ¬ RollStands { s.roll.stage with stage := g, calm := none } c := not_rollStands_of_idle hto c
  simp only [Owns, hnot, iff_false] at hroll
  refine ⟨?_, ?_⟩
  · rw [hentry]
    exact hroll.1
  · exact iff_of_false hroll.2 hnot'

theorem stepRecover_owned {s : State} (hx : s.roll.stage.stage = .recover) (hs : Owned anySource s) :
    Owned anySource (stepRecover s) := by
  obtain ⟨hlow, -⟩ := postAgain_owned lowerRoll_cases (.inr rfl) (s := setStage { s.roll.stage with ramp := 0 } s) hx
    (setStage_owned rfl rfl rfl hs)
  rcases stepRecover_cases s with h | ⟨g, hg, h⟩ <;> rw [h]
  · exact hlow
  · refine queueEvent_owned (withdrawRoll_owned ?_ (writeStage_owned _ (hlow.beside .roll)))
    exact hg.elim (fun h => .inr (.inr h)) (fun h => .inr (.inl h))

/-! ### The entry into PROBE (R116) -/

/-- The stage is PROBE on a side; the channels off that side hold no ROLL level. -/
def Probing (x : Side) (s : State) : Prop :=
  s.roll.stage.stage = .probe ∧ s.roll.stage.probed = some x ∧ s.roll.inner = x ∧
    ∀ c, channelSide c ≠ x → Owns .roll s c

theorem probeChannel_cases (c : Channel) (s : State) :
    (channelSide c ≠ s.roll.inner ∧ probeChannel c s = s) ∨
    (channelSide c = s.roll.inner ∧ ∃ n, probeChannel c s = postRoll .probe n c (freeSkid c s)) := by
  unfold probeChannel onSide
  split
  · exact .inr ⟨by simpa using ‹(channelSide c == s.roll.inner) = true›, _, rfl⟩
  · exact .inl ⟨by simpa using ‹¬ (channelSide c == s.roll.inner) = true›, rfl⟩

theorem freeSkid_roll {k : Channel} {s : State} {c : Channel} (hs : Owns .roll s c) : Owns .roll (freeSkid k s) c := by
  refine hs.keeps (.of_frame (freeSkid_frame k s) ?_)
  simp [freeParts, resolveParts, abortParts, eventParts, noticeParts, isOwnerOf]

theorem freeSkid_rollUnit (k : Channel) (s : State) :
    (freeSkid k s).roll.stage = s.roll.stage ∧ (freeSkid k s).roll.inner = s.roll.inner := by
  have hframe := freeSkid_frame k s
  exact ⟨hframe .stage (by simp [freeParts, resolveParts, abortParts, eventParts, noticeParts]),
    hframe .inner (by simp [freeParts, resolveParts, abortParts, eventParts, noticeParts])⟩

theorem probeChannel_other {c d : Channel} {s : State} (hd : d ≠ c) (hs : Owns .roll s c) :
    Owns .roll (probeChannel d s) c := by
  rcases probeChannel_cases d s with ⟨-, h⟩ | ⟨-, n, h⟩ <;> rw [h]
  · exact hs
  · exact postRoll_other hd (freeSkid_roll hs)

theorem probeChannel_probing {x : Side} {s : State} (c : Channel) (hs : Probing x s) : Probing x (probeChannel c s) := by
  obtain ⟨hstage, hprobed, hinner, hoff⟩ := hs
  have hkept : (probeChannel c s).roll.stage.stage = .probe ∧ (probeChannel c s).roll.stage.probed = some x ∧
      (probeChannel c s).roll.inner = x := by
    obtain ⟨hs1, hi1⟩ := freeSkid_rollUnit c s
    rcases probeChannel_cases c s with ⟨-, h⟩ | ⟨-, n, h⟩ <;> rw [h]
    · exact ⟨hstage, hprobed, hinner⟩
    · have hin : (postRoll .probe n c (freeSkid c s)).roll.inner = (freeSkid c s).roll.inner :=
        postRoll_frame .probe n c _ .inner (by simp [rollParts, resolveParts, abortParts])
      rw [postRoll_stage, hin, hs1, hi1]
      exact ⟨hstage, hprobed, hinner⟩
  obtain ⟨h1, h2, h3⟩ := hkept
  refine ⟨h1, h2, h3, fun d hd => ?_⟩
  by_cases hdc : c = d
  · subst hdc
    rcases probeChannel_cases c s with ⟨-, h⟩ | ⟨hin, -⟩
    · rw [h]
      exact hoff c hd
    · exact absurd (hin.trans hinner) hd
  · exact probeChannel_other hdc (hoff d hd)

theorem probeChannel_owned {s : State} (c : Channel) (hs : Owned (Beside .roll) s) :
    Owned (Beside .roll) (probeChannel c s) := by
  rcases probeChannel_cases c s with ⟨-, h⟩ | ⟨-, n, h⟩ <;> rw [h]
  · exact hs
  · exact postRoll_owned _ _ c (freeSkid_owned c hs)

theorem probeChannel_owns {x : Side} {s : State} (c : Channel) (hs : Probing x s) : Owns .roll (probeChannel c s) c := by
  obtain ⟨hstage, hprobed, hinner, hoff⟩ := hs
  rcases probeChannel_cases c s with ⟨hne, h⟩ | ⟨hin, n, h⟩ <;> rw [h]
  · exact hoff c (hinner ▸ hne)
  · refine postRoll_owns (.inr (.inr ?_))
    rw [(freeSkid_rollUnit c s).1, hprobed, hin, hinner]
    exact ⟨hstage, rfl⟩

theorem abortRunning_owned {f : Source → Prop} {s : State} (k : TestCause) (hs : Owned f s) :
    Owned f (abortRunning k s) := by
  have hframe := abortRunning_frame k s
  exact ⟨hs.1.frame hframe rfl, fun d => (hs.2 d).keeps (.of_frame hframe rfl)⟩

theorem setHolder_owned {f : Source → Prop} {s : State} (h : Holder) (hs : Owned f s) :
    Owned f (s.setTests { s.tests with holder := h }) := by
  have hframe := setHolder_frame s h
  exact ⟨hs.1.frame hframe rfl, fun d => (hs.2 d).keeps (.of_frame hframe rfl)⟩

theorem enterProbe_owned {s : State} (hidle : IdleStage s.roll.stage.stage) (hs : Owned anySource s) :
    Owned anySource (enterProbe s) := by
  have habort := abortRunning_owned .rollover hs
  have hstage : (abortRunning .rollover s).roll.stage = s.roll.stage :=
    abortRunning_frame .rollover s .stage (by simp [mem_everyChannel, abortParts])
  have hmid : Owned (Beside .roll) (probing s) := writeStage_owned _ (setHolder_owned .probe habort |>.beside .roll)
  have hprobing : Probing (abortRunning .rollover s).roll.inner (probing s) := by
    refine ⟨rfl, rfl, rfl, fun c hc => ?_⟩
    have hroll := habort.1.1 c .roll trivial
    have hnot := not_rollStands_of_idle (r := (abortRunning .rollover s).roll.stage) (by rw [hstage]; exact hidle) c
    have hentry : entryOf (probing s) c .roll = entryOf (abortRunning .rollover s) c .roll := rfl
    have hlevel : (probing s).roll.stage.level = (abortRunning .rollover s).roll.stage.level := rfl
    have hnot' : ¬ RollStands (probing s).roll.stage c := by
      rintro (h | h | ⟨-, h⟩)
      · cases h
      · cases h
      · exact hc (Option.some.inj h).symm
    simp only [Owns, hnot, iff_false] at hroll
    exact ⟨by rw [hentry, hlevel]; exact hroll.1, by rw [hlevel]; exact iff_of_false hroll.2 hnot'⟩
  rw [enterProbe_eq]
  exact queueEvent_owned (forChannels_close (fun c _ hq hown => ⟨probeChannel_owned c hown, probeChannel_probing c hq⟩)
    (fun c _ hq => probeChannel_owns c hq) (fun _ _ _ hd _ ht => probeChannel_other hd ht) hmid hprobing).1

/-! ## Standby, time and resets -/

theorem addCause_backup (k : Cause) (c : Channel) (s : State) : electronic (addCause k c s) c = false := by
  have hhas : (channelOf (addCause k c s) c).causes.has k = true := by simp [addCause_causes]
  rw [electronic, Bool.eq_false_iff]
  intro hempty
  rw [CauseSet.isEmpty_iff] at hempty
  simp [hempty k] at hhas

theorem addCause_causes_other {k : Cause} {c d : Channel} (hd : d ≠ c) (s : State) :
    electronic (addCause k d s) c = electronic s c := by
  have hcauses := addCause_frame k d s (.causes c) (by simp [backupParts, freeParts, resolveParts, abortParts,
    eventParts, noticeParts, Ne.symm hd])
  simp [electronic, hcauses.1]

/-- With a cause added to every channel, every channel is FREE (R2, R48). -/
theorem addCause_all_free (k : Cause) {s : State} (hs : Owned anySource s) (c : Channel) :
    ((forChannels (addCause k) s).skid.get c).state = .free := by
  have hall := forChannels_keeps (P := Owned anySource) (fun d _ ht => addCause_owned k d ht) s hs
  have hbackup : electronic (forChannels (addCause k) s) c = false :=
    forChannels_each (P := fun d t => electronic t d = false) (fun d t => addCause_backup k d t)
      (fun d e t he ht => by rw [addCause_causes_other he, ht]) s c
  by_contra hne
  have helectronic := hall.2 c hne
  simp [hbackup] at helectronic

theorem parkedRecords_free {s : State} (hs : Owned anySource s) (c : Channel) :
    ((parkedRecords s).skid.get c).state = .free :=
  addCause_all_free .parked (hs.same (.of_frame (setStandby_frame s _) rfl)) c

theorem parkedRecords_stage (s : State) : (parkedRecords s).roll.stage = s.roll.stage := by
  have hcauses := forChannels_frame (addCause_frame .parked)
    (s.setStandby { s.standby with opState := .parked, wakeTimer := wakeTimerOf s.cal.active }) .stage
    (by simp [mem_everyChannel, backupParts, freeParts, resolveParts, abortParts, eventParts, noticeParts])
  exact hcauses

theorem emptyTables_entry (c : Channel) (k : Source) (s : State) : entryOf (emptyTables s) c k = none := by
  have hresolve := resolveAll_frame (s.setDemand { s.demand with table := .const Table.empty }) (.entry c k)
    (by simp [mem_everyChannel, resolveParts, abortParts])
  simp only [samePart] at hresolve
  unfold emptyTables
  rw [hresolve]
  simp [entryOf, tableOf]

/-- After the entry into PARKED the Demand Tables are empty, and no source but ROLL has a record that asks for an entry (R176). -/
theorem emptied_owned {s : State} (hs : Owned anySource s) : Owned (Beside .roll) (emptyTables (parkedRecords s)) := by
  have hempty (c : Channel) (k : Source) := emptyTables_entry c k (parkedRecords s)
  have hframe := emptyTables_frame (parkedRecords s)
  have hdriver : (emptyTables (parkedRecords s)).driver = DriverRec.reset :=
    hframe .driver (by simp [mem_everyChannel, resolveParts, abortParts])
  have hsupply : (emptyTables (parkedRecords s)).supply = SupplyRec.reset :=
    hframe .supply (by simp [mem_everyChannel, resolveParts, abortParts])
  have hfree (c : Channel) : ((emptyTables (parkedRecords s)).skid.get c).state = .free := by
    have hskid : (emptyTables (parkedRecords s)).skid.get c = (parkedRecords s).skid.get c :=
      hframe (.skid c) (by simp [mem_everyChannel, resolveParts, abortParts])
    rw [hskid, parkedRecords_free hs]
  refine ⟨⟨fun c k hk => ?_, fun c k => ?_⟩, fun c hne => absurd (hfree c) hne⟩
  · cases k with
    | driver => simp [Owns, hempty, hdriver, DriverRec.reset]
    | emerg => simp [Owns, hempty, hsupply, SupplyRec.reset]
    | roll => exact absurd rfl hk
    | skid => simp [Owns, hempty, hfree]
    | ctrlA => trivial
    | ctrlB => trivial
  · rw [hempty]
    exact shapedEntry_none k

theorem parking_owned {s : State} (hs : Owned anySource s) :
    Owned anySource (offStage (emptyTables (parkedRecords s))) := by
  have hstage : (emptyTables (parkedRecords s)).roll.stage = s.roll.stage := by
    rw [← parkedRecords_stage s]
    exact emptyTables_frame (parkedRecords s) .stage (by simp [mem_everyChannel, resolveParts, abortParts])
  unfold offStage
  split
  · rename_i hoff
    refine (emptied_owned hs).close fun c => ?_
    have hroll := hs.1.1 c .roll trivial
    have hnot : ¬ RollStands s.roll.stage c := not_rollStands_of_idle (.inl (by rw [← hstage, hoff])) c
    simp only [Owns, hnot, iff_false] at hroll
    simp [Owns, emptyTables_entry, hstage, hnot, hroll.2]
  · exact stageOff_owned (emptied_owned hs)

theorem tickEntry_isSome (e : Option Entry) : (tickEntry e).isSome = e.isSome := by cases e <;> rfl

theorem mapNat_isSome (f : Nat → Nat) (o : Option Nat) : (mapNat f o).isSome = o.isSome := by cases o <;> rfl

theorem tick_entry (c : Channel) (k : Source) (s : State) :
    entryOf (tick s) c k = entryOf s c k ∨ entryOf (tick s) c k = tickEntry (entryOf s c k) := by
  have htable : tableOf (tick s) c = tickTable (tableOf s c) := by simp [tableOf, tick]
  unfold entryOf
  rw [htable]
  cases k <;> simp [tickTable, Table.get]

/-- A millisecond takes no entry away and gives none: an expiry is a row of its own (R25). -/
theorem tick_owned {s : State} (hs : Owned anySource s) : Owned anySource (tick s) := by
  have hentry (c : Channel) (k : Source) : (entryOf (tick s) c k).isSome = (entryOf s c k).isSome := by
    rcases tick_entry c k s with h | h <;> rw [h]
    exact tickEntry_isSome _
  have hskid (c : Channel) : ((tick s).skid.get c).state = (s.skid.get c).state := by simp [tick, tickSkid]
  have helectronic (c : Channel) : electronic (tick s) c = electronic s c := by
    simp [electronic, channelOf, tick, tickChannel]
  refine ⟨⟨fun c k _ => ?_, fun c k => ?_⟩, fun c => ?_⟩
  · have howns := hs.1.1 c k trivial
    cases k <;> simp only [Owns, hentry, hskid] at howns ⊢ <;> exact howns
  · have hshape := hs.1.2 c k
    rcases tick_entry c k s with h | h <;> rw [h]
    · exact hshape
    · intro e he
      cases ho : entryOf s c k with
      | none => simp [ho, tickEntry] at he
      | some e0 =>
        rw [ho] at he
        cases he
        simpa [mapNat_isSome] using hshape e0 ho
  · simpa only [SkidActive, hskid, helectronic] using hs.2 c

theorem endOnTime_frame (c : Channel) (s : State) : OnlyChanges [.valves c] s (endOnTime c s) :=
  setChannel_frame (.inr ⟨rfl, rfl⟩) (.inr ⟨rfl, rfl⟩) (.inl (by simp)) (.inr rfl)

theorem markHead_frame (b : Bool) (s : State) :
    OnlyChanges [.testQueue] s (s.setTests { s.tests with headDue := b }) :=
  setQueue_frame s s.tests.queue s.tests.headWait b

/-- Shared operations keep the entries those of their owners. -/
theorem owned_kept : CoreKept (Owned anySource) where
  same h hs := hs.same h
  resolve c _ hs := resolve_owned c hs
  formDemand d _ hs := formDemand_owned d hs
  addCause k c _ hs := addCause_owned k c hs
  startupHeld b c _ hs := startupHeld_owned b c hs
  keepCauses hk hs := keepCauses_owned hk hs
  setSupply hx hs := setSupply_owned hx hs
  setEmergency hs := setEmergency_owned hs
  clearEmergency hs := clearEmergency_owned hs
  postEmerg he hs := postEmerg_all_owned he (hs.beside .emerg)
  postPort p level lifetime c _ hs := postPort_owned p level lifetime c hs
  withdrawPort p c _ hs := withdrawPort_owned p c hs
  setSkid hk hs := setSkid_owned hk hs
  freeSkid c _ hs := freeSkid_owned c hs
  enterSkid n he hk hs := enterSkid_owned n he hk hs
  controlSample tested c _ hs := hs.outside (controlSample_frame tested c _) rfl
  endOnTime c s hs := hs.outside (endOnTime_frame c s) rfl
  sampleTest hs := hs.outside (sampleTest_frame _) rfl
  endPulse _ hs := hs.outside (endPulse_frame _ _) rfl
  endSettle _ hs := hs.outside (endSettle_frame _ _) rfl
  abortTestOf c k _ hs := hs.outside (abortTestOf_frame c k _) rfl
  freeHolder _ hs := setHolder_owned .free hs
  keepRequests keep _ hs := hs.outside (keepRequests_frame keep _) rfl
  dropHead hs := hs.outside (dropHead_frame _) rfl
  markHead b s hs := hs.outside (markHead_frame b s) rfl
  stageOff hs := stageOff_owned (hs.beside .roll)
  probeToWatch hs := probeToWatch_owned hs
  enterIntervene hs := enterIntervene_owned hs
  setStage h1 h2 h3 hs := setStage_owned h1 h2 h3 hs
  plainStage hfrom hto hs := plainStage_owned hfrom hto hs
  enterProbe hidle hs := enterProbe_owned hidle hs
  enterRecover _ hs := enterRecover_owned hs
  stepRecover hx hs := stepRecover_owned hx hs
  followSide hx hs := (postAgain_owned followSide_cases (.inl rfl) hx hs).1
  parking hs := parking_owned hs
  tick hs := tick_owned hs

/-! ## The step -/

theorem reset_owned : Owned anySource State.reset := by
  have hnone (c : Channel) (k : Source) : entryOf State.reset c k = none := by cases c <;> cases k <;> rfl
  have hfree (c : Channel) : (State.reset.skid.get c).state = .free := by cases c <;> rfl
  have hlevel (c : Channel) : State.reset.roll.stage.level.get c = none := by cases c <;> rfl
  have hstage : State.reset.roll.stage.stage = .quiet := by rfl
  refine ⟨⟨fun c k _ => ?_, fun c k => ?_⟩, fun c hne => absurd (hfree c) hne⟩
  · cases k with
    | driver =>
      simp only [Owns, hnone]
      rfl
    | emerg =>
      simp only [Owns, hnone]
      rfl
    | roll => simp [Owns, hnone, hlevel, not_rollStands_of_idle (.inr (.inl hstage)) c]
    | skid => simp [Owns, hnone, hfree]
    | ctrlA => trivial
    | ctrlB => trivial
  · rw [hnone]
    exact shapedEntry_none k

theorem resetState_owned (k : ResetCause) (s : State) : Owned anySource (resetState k s) :=
  reset_owned.outside (resetState_frame k s) rfl

theorem pressureSample_owned (x : SampleSet) {s : State} (hs : Owned anySource s) :
    Owned anySource (pressureSample x s) := by
  have hsteps := owned_kept.sampleSteps ((runningTest s).map RunningTest.channel) x (hs.outside (headAlone_frame s) rfl)
  exact owned_kept.sampleEnd (hsteps.outside (rejoinQueue_frame s.tests.queue.tail _) rfl)

theorem exec_owned (i : Instr) {s : State} (hs : Owned anySource s) : ∃ t, exec i s = .next t ∧ Owned anySource t := by
  by_cases hi : isSpecialRow i = false
  · exact owned_kept.exec hi hs
  cases i with
  | powerOnReset => exact ⟨_, rfl, resetState_owned _ s⟩
  | pinReset => exact ⟨_, rfl, resetState_owned _ s⟩
  | testStart =>
    rcases exec_testStart s with h | ⟨q, -, h⟩ <;> rw [h]
    · exact ⟨_, rfl, hs⟩
    · exact ⟨_, rfl, owned_kept.refresh (hs.outside (startTest_frame q s) rfl)⟩
  | requestTest p n =>
    exact ⟨_, rfl, owned_kept.transfer (withChannel_state hs fun c => unlessState_state hs fun _ => unlessState_state hs
      fun _ => unlessState_state hs fun _ => hs.outside (enqueueTest_frame p c s) rfl)⟩
  | pressureSample x => exact ⟨_, rfl, pressureSample_owned x hs⟩
  | _ => exact absurd rfl hi

/-- Settles O55, by the walk over the rows and, for the rows that write the four tables, one source at a time. -/
theorem stepsKeepEntriesOwned : Obligations.StepsKeepEntriesOwned := by
  intro s t hstep hs
  rw [entriesInv_iff] at hs ⊢
  exact step_keeps (fun h hu => hu.same h.order) exec_owned owned_kept.passMillisecond hstep hs

end Sys2Proof
end

