-- ==== Sys2Proof/Proofs/ValveOrder.lean ====
section
/-! Valves, generator and Test Queue (R2, R116, R125, R126, R129): what the shared operations keep of them. The queue is compared with
a queue that stood before: no shared operation puts a request into it. -/

namespace Sys2Proof

open Sys2Proof.Machine

/-! ## The order kept -/

/-- The valves of a channel are as its mode says (R2). -/
def ValvesRest (s : State) (c : Channel) : Prop :=
  (channelOf s c).backupValve = electronic s c ∧
    (electronic s c = false → (channelOf s c).inlet = .closed ∧ (channelOf s c).exhaust = .closed ∧
      (channelOf s c).controlState = .holding ∧ (channelOf s c).tracking = none)

/-- The probe holds the generator exactly in PROBE, with probed channels named (R116, R129). -/
def StageHolds (s : State) : Prop :=
  (s.tests.holder = .probe ↔ s.roll.stage.stage = .probe) ∧ (s.roll.stage.probed.isSome = true ↔ s.roll.stage.stage = .probe)

/-- A running test is on an ELECTRONIC channel with setpoint 0 (R12) that no request of a list names (R126). -/
def TestFits (A : List TestRequest) (s : State) (q : RunningTest) : Prop :=
  electronic s q.channel = true ∧ (channelOf s q.channel).setpoint = 0 ∧ q.channel ∉ A.map TestRequest.channel

/-- Valves and generator are in order, and the queue is a part of an earlier one; the test of one channel, if it runs, is left open. -/
structure OrderBut (Q A : List TestRequest) (c : Channel) (s : State) : Prop where
  valves : ∀ d, ValvesRest s d
  stage : StageHolds s
  queue : s.tests.queue.Sublist Q
  tests : ∀ q, s.tests.holder = .test q → q.channel ≠ c → TestFits A s q

/-- Valves, generator and running test are in order, and the queue is a part of an earlier one. -/
structure InOrder (Q A : List TestRequest) (s : State) : Prop where
  valves : ∀ d, ValvesRest s d
  stage : StageHolds s
  queue : s.tests.queue.Sublist Q
  tests : ∀ q, s.tests.holder = .test q → TestFits A s q

/-- The parts that the order speaks of. -/
def isTidy : Part → Bool
  | .stage | .testQueue | .holder => true
  | .causes _ | .setpoint _ | .valves _ => true
  | _ => false

theorem isTidy_le (q : Part) (h : isTidy q = true) : isOrder q = true := by
  cases q <;> simp_all [isTidy, isOrder]

section Keeping
variable {Q A : List TestRequest} {s t : State}

theorem InOrder.but (hs : InOrder Q A s) (c : Channel) : OrderBut Q A c s :=
  ⟨hs.valves, hs.stage, hs.queue, fun q hq _ => hs.tests q hq⟩

theorem OrderBut.close {c : Channel} (hs : OrderBut Q A c s)
    (h : ∀ q, s.tests.holder = .test q → q.channel = c → TestFits A s q) : InOrder Q A s := by
  refine ⟨hs.valves, hs.stage, hs.queue, fun q hq => ?_⟩
  by_cases hc : q.channel = c
  · exact h q hq hc
  · exact hs.tests q hq hc

theorem electronic_same {c : Channel} (h : samePart s t (.causes c)) : electronic t c = electronic s c := by
  simp [electronic, h.1]

theorem ValvesRest.keeps {c : Channel} (hs : ValvesRest s c) (hv : samePart s t (.valves c)) (hc : samePart s t (.causes c)) :
    ValvesRest t c := by
  obtain ⟨hstate, htracking, hbackup, hinlet, hexhaust⟩ := hv
  simpa only [ValvesRest, electronic_same hc, hstate, htracking, hbackup, hinlet, hexhaust] using hs

theorem TestFits.keeps {q : RunningTest} (hs : TestFits A s q) (hc : samePart s t (.causes q.channel))
    (hp : samePart s t (.setpoint q.channel)) : TestFits A t q := by
  simpa only [TestFits, electronic_same hc, hp.1] using hs

theorem InOrder.same (hs : InOrder Q A s) (h : SameOn isTidy s t) : InOrder Q A t := by
  have hholder : t.tests.holder = s.tests.holder := h .holder rfl
  have hstage : t.roll.stage = s.roll.stage := h .stage rfl
  have hqueue := (h .testQueue rfl).1
  refine ⟨fun d => (hs.valves d).keeps (h (.valves d) rfl) (h (.causes d) rfl), ?_, ?_, fun q hq => ?_⟩
  · simpa only [StageHolds, hholder, hstage] using hs.stage
  · rw [hqueue]
    exact hs.queue
  · exact (hs.tests q (by rw [← hholder, hq])).keeps (h (.causes q.channel) rfl) (h (.setpoint q.channel) rfl)

theorem InOrder.frame {l : List Part} (hs : InOrder Q A s) (h : OnlyChanges l s t)
    (hl : l.all (fun q => !isTidy q) = true) : InOrder Q A t := hs.same (.of_frame h hl)

theorem queueEvent_inOrder (hs : InOrder Q A s) : InOrder Q A (queueEvent s) := hs.frame (queueEvent_frame s) rfl

theorem storeResult_inOrder (c : Channel) (p : Port) (r : TestResult) (hs : InOrder Q A s) :
    InOrder Q A (storeResult c p r s) := hs.frame (storeResult_frame c p r s) rfl

/-- A shorter queue. -/
theorem InOrder.shorter (hs : InOrder Q A s) (h : OnlyChanges [.testQueue] s t)
    (hsub : t.tests.queue.Sublist s.tests.queue) : InOrder Q A t := by
  have hholder : t.tests.holder = s.tests.holder := h .holder (by simp)
  have hstage : t.roll.stage = s.roll.stage := h .stage (by simp)
  refine ⟨fun d => (hs.valves d).keeps (h (.valves d) (by simp)) (h (.causes d) (by simp)), ?_, hsub.trans hs.queue,
    fun q hq => ?_⟩
  · simpa only [StageHolds, hholder, hstage] using hs.stage
  · exact (hs.tests q (by rw [← hholder, hq])).keeps (h (.causes q.channel) (by simp)) (h (.setpoint q.channel) (by simp))

theorem dropHead_inOrder (hs : InOrder Q A s) : InOrder Q A (dropHead s) :=
  hs.shorter (dropHead_frame s) (List.tail_sublist _)

theorem keepRequests_queue (keep : TestRequest → Bool) (s : State) :
    (keepRequests keep s).tests.queue = s.tests.queue.filter keep := by
  unfold keepRequests
  dsimp only
  split <;> rfl

theorem keepRequests_inOrder (keep : TestRequest → Bool) (hs : InOrder Q A s) : InOrder Q A (keepRequests keep s) := by
  refine hs.shorter (keepRequests_frame keep s) ?_
  rw [keepRequests_queue]
  exact List.filter_sublist

theorem refuseHead_inOrder (k : TestCause) (hs : InOrder Q A s) : InOrder Q A (refuseHead k s) := by
  unfold refuseHead
  split
  · exact hs
  · exact storeResult_inOrder _ _ _ (dropHead_inOrder hs)

end Keeping

/-! ## Aborts and resolutions (R38, R133) -/

theorem holder_of_running {s : State} {q : RunningTest} (h : runningTest s = some q) : s.tests.holder = .test q := by
  unfold runningTest at h
  split at h <;> simp_all

section Tests
variable {Q A : List TestRequest} {s : State}

theorem abortRunning_backupValve (k : TestCause) (s : State) (c : Channel) :
    (channelOf (abortRunning k s) c).backupValve = (channelOf s c).backupValve := by
  unfold abortRunning
  split
  · rfl
  · dsimp only
    have hstore (t : RunningTest) := storeResult_frame t.channel t.port (abortedResult t k)
      (s.setTests { s.tests with holder := .free }) (.valves c) (by simp)
    split
    · exact (hstore _).2.2.1
    · unfold openExhaust
      rw [channelOf_setChannel]
      split
      · subst c
        exact (hstore _).2.2.1
      · exact (hstore _).2.2.1

/-- An abort leaves the valves of an ELECTRONIC channel, or with cause BACKUP all of them, as the modes say (R133). -/
theorem abortRunning_valves {k : TestCause} {q : RunningTest} (hr : runningTest s = some q)
    (hk : k = .backup ∨ electronic s q.channel = true) (hv : ∀ d, ValvesRest s d) (d : Channel) :
    ValvesRest (abortRunning k s) d := by
  have hframe := abortRunning_frame_of k s q hr
  have hcauses := hframe (.causes d) (by simp [abortParts])
  rcases hk with rfl | he
  · exact (hv d).keeps (abortRunning_backup_frame s q hr (.valves d) (by simp)) hcauses
  · by_cases hd : d = q.channel
    · subst hd
      have hsame := electronic_same hcauses
      refine ⟨?_, fun hf => ?_⟩
      · rw [abortRunning_backupValve, hsame]
        exact (hv q.channel).1
      · rw [hsame, he] at hf
        cases hf
    · exact (hv d).keeps (hframe (.valves d) (by simp [abortParts, hd])) hcauses

theorem StageHolds.freed {t : State} (hs : StageHolds s) {q : RunningTest} (hq : s.tests.holder = .test q)
    (hfree : t.tests.holder = .free) (hstage : t.roll.stage = s.roll.stage) : StageHolds t := by
  have hno : s.roll.stage.stage ≠ .probe := fun h => by
    have := hs.1.mpr h
    simp [hq] at this
  simp only [StageHolds, hfree, hstage]
  exact ⟨iff_of_false (by simp) hno, hs.2⟩

/-- The abort of a channel's test closes what was left open of it. -/
theorem abortTestOf_inOrder {c : Channel} {k : TestCause} (hs : OrderBut Q A c s)
    (hk : k = .backup ∨ electronic s c = true) : InOrder Q A (abortTestOf c k s) := by
  unfold abortTestOf
  split
  · rename_i hu
    obtain ⟨q, hr, rfl⟩ := underTest_some hu
    have hframe := abortRunning_frame_of k s q hr
    have hfree := abortRunning_holder k s q hr
    refine ⟨abortRunning_valves hr hk hs.valves, ?_, ?_, fun q' hq' => ?_⟩
    · exact hs.stage.freed (holder_of_running hr) hfree (hframe .stage (by simp [abortParts]))
    · rw [(hframe .testQueue (by simp [abortParts])).1]
      exact hs.queue
    · rw [hfree] at hq'
      cases hq'
  · rename_i hu
    refine hs.close fun q hq hc => ?_
    simp [underTest, runningTest, hq, hc] at hu

theorem abortRunning_inOrder (k : TestCause) (hs : InOrder Q A s) : InOrder Q A (abortRunning k s) := by
  cases hr : runningTest s with
  | none =>
    rw [abortRunning_none k s hr]
    exact hs
  | some q =>
    have hab : abortRunning k s = abortTestOf q.channel k s := by simp [abortTestOf, underTest, hr]
    rw [hab]
    exact abortTestOf_inOrder (hs.but q.channel) (.inr (hs.tests q (holder_of_running hr)).1)

theorem abortTestOf_keeps (c : Channel) (k : TestCause) (hs : InOrder Q A s) : InOrder Q A (abortTestOf c k s) := by
  unfold abortTestOf
  split
  · exact abortRunning_inOrder k hs
  · exact hs

/-- A setpoint written leaves open whether a test of its channel may go on. -/
theorem writeResolution_order (c : Channel) (hs : InOrder Q A s) : OrderBut Q A c (writeResolution c s) := by
  have h := writeResolution_frame c s
  have hholder : (writeResolution c s).tests.holder = s.tests.holder := h .holder (by simp)
  have hstage : (writeResolution c s).roll.stage = s.roll.stage := h .stage (by simp)
  refine ⟨fun d => (hs.valves d).keeps (h (.valves d) (by simp)) (h (.causes d) (by simp)), ?_, ?_, fun q hq hc => ?_⟩
  · simpa only [StageHolds, hholder, hstage] using hs.stage
  · rw [(h .testQueue (by simp)).1]
    exact hs.queue
  · exact (hs.tests q (by rw [← hholder, hq])).keeps (h (.causes q.channel) (by simp))
      (h (.setpoint q.channel) (by simp [hc]))

/-- A rise of the setpoint from 0 aborts a test of the channel, so the setpoint under test stays 0 (R12, R38). -/
theorem resolve_inOrder (c : Channel) (hs : InOrder Q A s) : InOrder Q A (resolve c s) := by
  have hwrite := writeResolution_order c hs
  have hframe := writeResolution_frame c s
  have hfits (q : RunningTest) (hq : (writeResolution c s).tests.holder = .test q) : TestFits A s q :=
    hs.tests q (by rw [← hq]; exact (hframe .holder (by simp)).symm)
  have helectronic := electronic_same (hframe (.causes c) (by simp))
  by_cases hu : underTest (writeResolution c s) c = true
  · obtain ⟨q, hr, rfl⟩ := underTest_some hu
    obtain ⟨he, hzero, havoid⟩ := hfits q (holder_of_running hr)
    unfold resolve
    split
    · exact abortTestOf_inOrder hwrite (.inr (by rw [helectronic, he]))
    · rename_i hrise
      refine hwrite.close fun q' hq' hc => ?_
      have hresolved : resolvedLevel s q.channel = 0 := by simpa [hzero] using hrise
      have hsetpoint := (writeResolution_values q.channel s).1
      refine ⟨by rw [hc, helectronic, he], by rw [hc, hsetpoint, hresolved], by rw [hc]; exact havoid⟩
  · have hquiet : resolve c s = writeResolution c s := by
      unfold resolve
      split
      · simp [abortTestOf, hu]
      · rfl
    rw [hquiet]
    refine hwrite.close fun q hq hc => ?_
    simp [underTest, runningTest, hq, hc] at hu

theorem post_inOrder (c : Channel) (k : Source) (e : Entry) (hs : InOrder Q A s) : InOrder Q A (post c k e s) :=
  resolve_inOrder c (hs.frame (putEntry_frame s c k _) rfl)

theorem withdraw_inOrder (c : Channel) (k : Source) (hs : InOrder Q A s) : InOrder Q A (withdraw c k s) := by
  rcases withdraw_cases c k s with h | h <;> rw [h]
  · exact hs
  · exact resolve_inOrder c (hs.frame (putEntry_frame s c k none) rfl)

/-! ## Modes (R2, R3) -/

theorem freeSkid_inOrder (c : Channel) (hs : InOrder Q A s) : InOrder Q A (freeSkid c s) := by
  rcases freeSkid_cases c s with h | ⟨k, -, h⟩ <;> rw [h]
  · exact hs
  · exact queueEvent_inOrder (withdraw_inOrder c .skid (hs.frame (setSkid_frame s c k) rfl))

theorem testBackupNotice_inOrder (c : Channel) (hs : OrderBut Q A c s) : InOrder Q A (testBackupNotice c s) := by
  have habort := abortTestOf_inOrder hs (.inl rfl)
  unfold testBackupNotice
  dsimp only
  split
  · exact refuseHead_inOrder _ habort
  · exact habort

/-- A channel record written with the setpoint as it was; the test of the channel is left open. -/
theorem setChannel_order {c : Channel} {r : ChannelRec} (hs : InOrder Q A s)
    (hv : ValvesRest (setChannel s c r) c) : OrderBut Q A c (setChannel s c r) := by
  have hother (d : Channel) (hd : d ≠ c) : channelOf (setChannel s c r) d = channelOf s d := by simp [hd]
  refine ⟨fun d => ?_, hs.stage, hs.queue, fun q hq hc => ?_⟩
  · by_cases hd : d = c
    · subst hd
      exact hv
    · have := hs.valves d
      simpa only [ValvesRest, electronic, hother d hd] using this
  · have := hs.tests q hq
    simpa only [TestFits, electronic, hother q.channel hc] using this

/-- A channel record written with a channel under test left ELECTRONIC and at setpoint 0. -/
theorem setChannel_inOrder {c : Channel} {r : ChannelRec} (hs : InOrder Q A s) (hv : ValvesRest (setChannel s c r) c)
    (he : electronic s c = true → r.causes.isEmpty = true) (hp : r.setpoint = (channelOf s c).setpoint) :
    InOrder Q A (setChannel s c r) := by
  refine (setChannel_order hs hv).close fun q hq hc => ?_
  obtain ⟨helectronic, hzero, havoid⟩ := hs.tests q hq
  subst hc
  exact ⟨by simpa [electronic] using he helectronic, by simpa [hp] using hzero, havoid⟩

theorem setChannel_twice (s : State) (c : Channel) (r r' : ChannelRec) :
    setChannel (setChannel s c r) c r' = setChannel s c r' := by cases c <;> rfl

theorem enterBackup_inOrder {c : Channel} (hs : InOrder Q A s) {k : CauseSet} (hk : k.isEmpty = false) :
    InOrder Q A (enterBackup c (setChannel s c { channelOf s c with causes := k })) := by
  have hset : setChannel (setChannel s c { channelOf s c with causes := k }) c
      (deEnergised (channelOf (setChannel s c { channelOf s c with causes := k }) c)) =
      setChannel s c (deEnergised { channelOf s c with causes := k }) := by
    rw [setChannel_twice, channelOf_setChannel, if_pos rfl]
  rw [enterBackup_eq, hset]
  refine queueEvent_inOrder (freeSkid_inOrder c (testBackupNotice_inOrder c (setChannel_order hs ?_)))
  simp [ValvesRest, electronic, deEnergised, hk]

theorem addCause_inOrder (k : Cause) (c : Channel) (hs : InOrder Q A s) : InOrder Q A (addCause k c s) := by
  rcases addCause_cases k c s with ⟨h, -⟩ | ⟨h, -⟩ | ⟨h, he⟩ <;> rw [h]
  · exact hs
  · exact enterBackup_inOrder hs (by simp)
  · have hv := hs.valves c
    refine setChannel_inOrder hs ?_ (by simp [he]) rfl
    simp only [ValvesRest, he, forall_const] at hv
    simp [ValvesRest, electronic, hv]

theorem keepCauses_inOrder {k : CauseSet} {c : Channel}
    (hk : ∀ j, k.has j = true → (channelOf s c).causes.has j = true) (hs : InOrder Q A s) :
    InOrder Q A (keepCauses k c s) := by
  have hv := hs.valves c
  unfold keepCauses
  dsimp only
  split
  · rename_i h
    simp only [Bool.and_eq_true, Bool.not_eq_true'] at h
    have hset : enterElectronic c (setChannel s c { channelOf s c with causes := k }) =
        queueEvent (setChannel s c { channelOf s c with
          causes := k, backupValve := true, inlet := .closed, exhaust := .closed, tracking := none }) := by
      rw [enterElectronic, setChannel_twice, channelOf_setChannel, if_pos rfl]
    rw [hset]
    refine queueEvent_inOrder (setChannel_inOrder hs ?_ (fun _ => h.2) rfl)
    simp [ValvesRest, electronic, h.2]
  · rename_i h
    have hempty : k.isEmpty = (channelOf s c).causes.isEmpty := by
      cases he : (channelOf s c).causes.isEmpty with
      | true => exact isEmpty_of_le hk he
      | false => simpa [he] using h
    refine setChannel_inOrder hs ?_ (fun he => by rw [hempty]; exact he) rfl
    simpa [ValvesRest, electronic, hempty] using hv

end Tests

end Sys2Proof
end

