-- ==== Sys2Proof/Proofs/ValvesKept.lean ====
section
/-! Stages, tests, the sample and the step keep valves, generator and Test Queue in order (O56). -/

namespace Sys2Proof

open Sys2Proof.Machine

section Order
variable {Q A : List TestRequest} {s : State}

/-! ## D, supply and standby -/

theorem forChannels_inOrder {g : Channel → State → State} (h : ∀ c t, InOrder Q A t → InOrder Q A (g c t))
    (hs : InOrder Q A s) : InOrder Q A (forChannels g s) := forChannels_keeps (P := InOrder Q A) h s hs

theorem updateDriver_inOrder (c : Channel) (hs : InOrder Q A s) : InOrder Q A (updateDriver c s) := by
  rcases updateDriver_cases c s with h | ⟨e, h⟩ | h <;> rw [h]
  · exact hs
  · exact post_inOrder c .driver e hs
  · exact withdraw_inOrder c .driver hs

theorem formDemand_inOrder (d : DriverRec) (hs : InOrder Q A s) : InOrder Q A (formDemand (s.setDriver d)) := by
  have hset := hs.frame (setDriver_frame s d) rfl
  have hwrite (x : DriverRec) := hset.frame (setDriver_frame _ x) rfl
  rw [formDemand_eq]
  refine forChannels_inOrder (fun c _ ht => updateDriver_inOrder c ht) ?_
  unfold writeDemand
  dsimp only
  split
  · exact forChannels_inOrder (fun c _ ht => addCause_inOrder .noDemandSource c ht) (hwrite _)
  · exact hwrite _

theorem setSupply_inOrder (x : SupplyRec) (hs : InOrder Q A s) : InOrder Q A (s.setSupply x) :=
  hs.frame (setSupply_frame s x) rfl

theorem postEmerg_inOrder (hs : InOrder Q A s) : InOrder Q A (forChannels postEmerg s) :=
  forChannels_inOrder (fun c _ ht => post_inOrder c .emerg _ ht) hs

theorem setEmergency_inOrder (hs : InOrder Q A s) : InOrder Q A (setEmergency s) :=
  queueEvent_inOrder (postEmerg_inOrder (setSupply_inOrder _ hs))

theorem clearEmergency_inOrder (hs : InOrder Q A s) : InOrder Q A (clearEmergency s) :=
  queueEvent_inOrder (forChannels_inOrder (fun c _ ht => withdraw_inOrder c .emerg ht) (setSupply_inOrder _ hs))

theorem startupHeld_inOrder (b : Bool) (c : Channel) (hs : InOrder Q A s) :
    InOrder Q A (setChannel s c { channelOf s c with startupHeld := b }) := by
  refine setChannel_inOrder hs ?_ id rfl
  simpa [ValvesRest, electronic] using hs.valves c

theorem resolveAll_inOrder (hs : InOrder Q A s) : InOrder Q A (resolveAll s) :=
  forChannels_inOrder (fun c _ ht => resolve_inOrder c ht) hs

/-! ## Stages (R114 to R121) -/

/-- A stage record written outside PROBE, with the probed channels as they were. -/
theorem setStage_inOrder {r : StageRec} (hfrom : s.roll.stage.stage ≠ .probe) (hto : r.stage ≠ .probe)
    (hprobed : r.probed = s.roll.stage.probed) (hs : InOrder Q A s) : InOrder Q A (setStage r s) := by
  obtain ⟨hholder, hnamed⟩ := hs.stage
  refine ⟨hs.valves, ⟨iff_of_false (fun h => hfrom (hholder.mp h)) hto, ?_⟩, hs.queue, hs.tests⟩
  refine iff_of_false (fun h => hfrom (hnamed.mp ?_)) hto
  rwa [← hprobed]

/-- A stage record written with the same stage and the same probed channels. -/
theorem sameStage_inOrder {r : StageRec} (h1 : r.stage = s.roll.stage.stage) (h2 : r.probed = s.roll.stage.probed)
    (hs : InOrder Q A s) : InOrder Q A (setStage r s) := by
  refine ⟨hs.valves, ?_, hs.queue, hs.tests⟩
  have hstage : (setStage r s).roll.stage = r := rfl
  have hholder : (setStage r s).tests.holder = s.tests.holder := rfl
  simpa only [StageHolds, hstage, hholder, h1, h2] using hs.stage

theorem postRoll_inOrder (g : Stage) (n : Nat) (c : Channel) (hs : InOrder Q A s) : InOrder Q A (postRoll g n c s) :=
  post_inOrder c .roll _ (sameStage_inOrder rfl rfl hs)

theorem postRolls_inOrder {g : Channel → State → State} (hg : ∀ c t, g c t = t ∨ ∃ k n, g c t = postRoll k n c t)
    (hs : InOrder Q A s) : InOrder Q A (forChannels g s) := by
  refine forChannels_inOrder (fun c t ht => ?_) hs
  rcases hg c t with h | ⟨k, n, h⟩ <;> rw [h]
  · exact ht
  · exact postRoll_inOrder k n c ht

theorem withdrawRoll_inOrder (hs : InOrder Q A s) : InOrder Q A (withdrawRoll s) :=
  forChannels_inOrder (fun c _ ht => withdraw_inOrder c .roll ht)
    (sameStage_inOrder (r := { s.roll.stage with level := .const none }) rfl rfl hs)

theorem freeGenerator_holder (s : State) : (freeGenerator s).tests.holder = s.tests.holder ∧ s.tests.holder ≠ .probe ∨
    (freeGenerator s).tests.holder = .free := by
  unfold freeGenerator
  split
  · exact .inr rfl
  · exact .inr ‹_›
  · exact .inl ⟨rfl, by simp [*]⟩

/-- A stage that is not PROBE gives the generator back, and names no probed channels (R117, R119, R129). -/
theorem leaveProbe_inOrder {r : StageRec} (hto : r.stage ≠ .probe) (hprobed : r.probed = none) (hs : InOrder Q A s) :
    InOrder Q A (freeGenerator (setStage r s)) := by
  have hframe := freeGenerator_frame (setStage r s)
  have hstage : (freeGenerator (setStage r s)).roll.stage = r := hframe .stage (by simp)
  have hcauses (d : Channel) : samePart s (freeGenerator (setStage r s)) (.causes d) := hframe (.causes d) (by simp)
  have hsetpoint (d : Channel) : samePart s (freeGenerator (setStage r s)) (.setpoint d) := hframe (.setpoint d) (by simp)
  refine ⟨fun d => (hs.valves d).keeps (t := freeGenerator (setStage r s)) (hframe (.valves d) (by simp)) (hcauses d),
    ⟨iff_of_false ?_ (by rw [hstage]; exact hto), by rw [hstage, hprobed]; exact iff_of_false (by simp) hto⟩, ?_,
    fun q hq => ?_⟩
  · rcases freeGenerator_holder (setStage r s) with ⟨h, hne⟩ | h <;> rw [h]
    · exact hne
    · simp
  · rw [(hframe .testQueue (by simp)).1]
    exact hs.queue
  · rcases freeGenerator_holder (setStage r s) with ⟨h, -⟩ | h <;> rw [h] at hq
    · exact (hs.tests q hq).keeps (hcauses _) (hsetpoint _)
    · cases hq

theorem stageOff_inOrder (hs : InOrder Q A s) : InOrder Q A (stageOff s) :=
  queueEvent_inOrder (withdrawRoll_inOrder (leaveProbe_inOrder (by simp) rfl hs))

theorem probeToWatch_inOrder (hs : InOrder Q A s) : InOrder Q A (probeToWatch s) :=
  queueEvent_inOrder (withdrawRoll_inOrder (leaveProbe_inOrder (by simp) rfl hs))

theorem enterIntervene_inOrder (hs : InOrder Q A s) : InOrder Q A (enterIntervene s) :=
  queueEvent_inOrder (postRolls_inOrder (fun _ _ => .inr ⟨_, _, rfl⟩) (leaveProbe_inOrder (by simp) rfl hs))

theorem idle_not_probe {g : Stage} (h : IdleStage g) : g ≠ .probe := by
  rcases h with rfl | rfl | rfl <;> simp

theorem plainStage_inOrder {g : Stage} (hfrom : IdleStage s.roll.stage.stage) (hto : IdleStage g) (hs : InOrder Q A s) :
    InOrder Q A (plainStage g s) :=
  queueEvent_inOrder (setStage_inOrder (idle_not_probe hfrom) (idle_not_probe hto) rfl hs)

theorem enterRecover_inOrder (hfrom : s.roll.stage.stage = .intervene) (hs : InOrder Q A s) :
    InOrder Q A (enterRecover s) :=
  queueEvent_inOrder (postRolls_inOrder (fun _ _ => .inr ⟨_, _, rfl⟩)
    (setStage_inOrder (by simp [hfrom]) (by simp) rfl hs))

theorem stepRecover_inOrder (hfrom : s.roll.stage.stage = .recover) (hs : InOrder Q A s) : InOrder Q A (stepRecover s) := by
  have hlow := forChannels_keeps (P := fun t => InOrder Q A t ∧ t.roll.stage.stage = .recover) (g := lowerRoll)
    (fun c t ht => by
      rcases lowerRoll_cases c t with h | ⟨k, n, h⟩ <;> rw [h]
      · exact ht
      · exact ⟨postRoll_inOrder k n c ht.1, by rw [postRoll_stage]; exact ht.2⟩)
    (setStage { s.roll.stage with ramp := 0 } s) ⟨sameStage_inOrder rfl rfl hs, hfrom⟩
  rcases stepRecover_cases s with h | ⟨g, hg, h⟩ <;> rw [h]
  · exact hlow.1
  · refine queueEvent_inOrder (withdrawRoll_inOrder (setStage_inOrder (by simp [hlow.2]) ?_ rfl hlow.1))
    rcases hg with rfl | rfl <;> simp

theorem probeChannel_inOrder (c : Channel) (hs : InOrder Q A s) : InOrder Q A (probeChannel c s) := by
  rcases probeChannel_cases c s with ⟨-, h⟩ | ⟨-, n, h⟩ <;> rw [h]
  · exact hs
  · exact postRoll_inOrder _ _ c (freeSkid_inOrder c hs)

/-- The probe takes the generator from a test it aborts (R116, R129). -/
theorem enterProbe_inOrder (hs : InOrder Q A s) : InOrder Q A (enterProbe s) := by
  have habort := abortRunning_inOrder .rollover hs
  have hprobing : InOrder Q A (probing s) := by
    refine ⟨habort.valves, ⟨iff_of_true rfl rfl, iff_of_true rfl rfl⟩, habort.queue, fun q hq => ?_⟩
    cases hq
  rw [enterProbe_eq]
  exact queueEvent_inOrder (forChannels_inOrder (fun c _ ht => probeChannel_inOrder c ht) hprobing)

theorem parking_inOrder (hs : InOrder Q A s) : InOrder Q A (offStage (emptyTables (parkedRecords s))) := by
  have hstandby (r : StandbyRec) := hs.frame (setStandby_frame s r) rfl
  have hcauses (r : StandbyRec) := forChannels_inOrder (fun c _ ht => addCause_inOrder .parked c ht) (hstandby r)
  have hrecords : InOrder Q A (parkedRecords s) := setSupply_inOrder _ ((hcauses _).frame (setDriver_frame _ _) rfl)
  have hempty : InOrder Q A (emptyTables (parkedRecords s)) := by
    refine resolveAll_inOrder (hrecords.same fun q hq => ?_)
    cases q <;> simp_all [samePart, isTidy]
  unfold offStage
  split
  · exact hempty
  · exact stageOff_inOrder hempty

/-! ## Control samples and tests (R9, R11, R130) -/

theorem controlRec_kept (d : Nat) (r : ChannelRec) : (controlRec d r).causes = r.causes ∧
    (controlRec d r).backupValve = r.backupValve ∧ (controlRec d r).setpoint = r.setpoint := by
  unfold controlRec
  dsimp only
  split_ifs <;> simp

theorem controlSample_inOrder (tested : Option Channel) (c : Channel) (hs : InOrder Q A s) :
    InOrder Q A (controlSample tested c s) := by
  unfold controlSample
  split
  · rename_i h
    have he : electronic s c = true := (Bool.and_eq_true _ _ ▸ h).1
    split
    · exact hs
    · rename_i d _
      obtain ⟨hcauses, hbackup, hsetpoint⟩ := controlRec_kept d (channelOf s c)
      have hv := (hs.valves c).1
      refine setChannel_inOrder hs ?_ (fun h => by rw [hcauses]; exact h) hsetpoint
      simp only [electronic] at he hv
      simp [ValvesRest, electronic, hcauses, hbackup, he, hv]
  · exact hs

theorem closeEnded_closed : closeEnded .closed = .closed := rfl

theorem endOnTime_inOrder (c : Channel) (hs : InOrder Q A s) : InOrder Q A (endOnTime c s) := by
  obtain ⟨hbackup, hclosed⟩ := hs.valves c
  refine setChannel_inOrder hs ⟨?_, fun he => ?_⟩ id rfl
  · simpa [electronic] using hbackup
  · obtain ⟨hinlet, hexhaust, hstate, htracking⟩ := hclosed (by simpa [electronic] using he)
    simp [hinlet, hexhaust, hstate, htracking, closeEnded_closed]

/-- A running test that stays on its channel. -/
theorem setTest_inOrder {q q' : RunningTest} (hr : runningTest s = some q) (hc : q'.channel = q.channel)
    (hs : InOrder Q A s) : InOrder Q A (setTest q' s) := by
  have hq := holder_of_running hr
  refine ⟨hs.valves, ?_, hs.queue, fun r hr' => ?_⟩
  · have hno : s.roll.stage.stage ≠ .probe := fun h => by
      have := hs.stage.1.mpr h
      simp [hq] at this
    exact ⟨iff_of_false (by simp [setTest]) hno, hs.stage.2⟩
  · obtain rfl : q' = r := by simpa [setTest] using hr'
    show electronic s q'.channel = true ∧ (channelOf s q'.channel).setpoint = 0 ∧ q'.channel ∉ A.map TestRequest.channel
    rw [hc]
    exact hs.tests q hq

theorem sampleTest_inOrder (hs : InOrder Q A s) : InOrder Q A (sampleTest s) := by
  unfold sampleTest
  split
  · exact hs
  · rename_i q hr
    split
    · exact abortRunning_inOrder .motion hs
    · exact setTest_inOrder (q := q) hr rfl hs

/-- The valves of an ELECTRONIC channel but the backup valve may stand as they like (R2). -/
theorem testValves_inOrder {c : Channel} {r : ChannelRec} (he : electronic s c = true)
    (hcauses : r.causes = (channelOf s c).causes) (hbackup : r.backupValve = (channelOf s c).backupValve)
    (hsetpoint : r.setpoint = (channelOf s c).setpoint) (hs : InOrder Q A s) : InOrder Q A (setChannel s c r) := by
  have hv := (hs.valves c).1
  refine setChannel_inOrder hs ?_ (fun h => by rw [hcauses]; exact h) hsetpoint
  simp only [electronic] at he hv
  simp [ValvesRest, electronic, hcauses, hbackup, he, hv]

theorem endPulse_inOrder {q : RunningTest} (hr : runningTest s = some q) (hs : InOrder Q A s) :
    InOrder Q A (endPulse q s) := by
  have he := (hs.tests q (holder_of_running hr)).1
  exact setTest_inOrder (q := q) hr rfl (testValves_inOrder he rfl rfl rfl hs)

theorem endSettle_inOrder {q : RunningTest} (hr : runningTest s = some q) (hs : InOrder Q A s) :
    InOrder Q A (endSettle q s) := by
  have he := (hs.tests q (holder_of_running hr)).1
  exact setTest_inOrder (q := q) hr rfl (testValves_inOrder he rfl rfl rfl hs)

theorem freeHolder_inOrder {q : RunningTest} (hr : runningTest s = some q) (hs : InOrder Q A s) :
    InOrder Q A (s.setTests { s.tests with holder := .free }) := by
  refine ⟨hs.valves, hs.stage.freed (holder_of_running hr) rfl rfl, hs.queue, fun q' hq' => ?_⟩
  cases hq'

/-! ## Time -/

theorem tick_inOrder (hs : InOrder Q A s) : InOrder Q A (tick s) := by
  have hchannel (c : Channel) : channelOf (tick s) c = tickChannel (channelOf s c) := by simp [channelOf, tick]
  have helectronic (c : Channel) : electronic (tick s) c = electronic s c := by simp [electronic, hchannel, tickChannel]
  refine ⟨fun c => ⟨?_, fun he => ?_⟩, hs.stage, hs.queue, fun q hq => ?_⟩
  · rw [hchannel, helectronic]
    exact (hs.valves c).1
  · rw [helectronic] at he
    obtain ⟨hinlet, hexhaust, hstate, htracking⟩ := (hs.valves c).2 he
    simp [hchannel, tickChannel, hinlet, hexhaust, hstate, htracking, tickValve]
  · obtain ⟨he, hzero, havoid⟩ := hs.tests q hq
    exact ⟨by rw [helectronic, he], by rw [hchannel]; exact hzero, havoid⟩

end Order

/-- Shared operations keep valves and generator in order, and put no request into the queue. -/
theorem inOrder_kept (Q A : List TestRequest) : CoreKept (InOrder Q A) where
  same h hs := hs.same (h.mono isTidy_le)
  resolve c _ hs := resolve_inOrder c hs
  formDemand d _ hs := formDemand_inOrder d hs
  addCause k c _ hs := addCause_inOrder k c hs
  startupHeld b c _ hs := startupHeld_inOrder b c hs
  keepCauses hk hs := keepCauses_inOrder hk hs
  setSupply _ hs := setSupply_inOrder _ hs
  setEmergency hs := setEmergency_inOrder hs
  clearEmergency hs := clearEmergency_inOrder hs
  postEmerg _ hs := postEmerg_inOrder hs
  postPort _ _ _ c _ hs := post_inOrder c _ _ hs
  withdrawPort _ c _ hs := withdraw_inOrder c _ hs
  setSkid _ hs := hs.frame (setSkid_frame _ _ _) rfl
  freeSkid c _ hs := freeSkid_inOrder c hs
  enterSkid _ _ _ hs := post_inOrder _ .skid _ (hs.frame (setSkid_frame _ _ _) rfl)
  controlSample tested c _ hs := controlSample_inOrder tested c hs
  endOnTime c _ hs := endOnTime_inOrder c hs
  sampleTest hs := sampleTest_inOrder hs
  endPulse hr hs := endPulse_inOrder hr hs
  endSettle hr hs := endSettle_inOrder hr hs
  abortTestOf c k _ hs := abortTestOf_keeps c k hs
  freeHolder hr hs := freeHolder_inOrder hr hs
  keepRequests keep _ hs := keepRequests_inOrder keep hs
  dropHead hs := dropHead_inOrder hs
  markHead b s hs := hs.shorter (markHead_frame b s) (List.Sublist.refl _)
  stageOff hs := stageOff_inOrder hs
  probeToWatch hs := probeToWatch_inOrder hs
  enterIntervene hs := enterIntervene_inOrder hs
  setStage h1 h2 _ hs := sameStage_inOrder h1 h2 hs
  plainStage hfrom hto hs := plainStage_inOrder hfrom hto hs
  enterProbe _ hs := enterProbe_inOrder hs
  enterRecover hfrom hs := enterRecover_inOrder hfrom hs
  stepRecover hfrom hs := stepRecover_inOrder hfrom hs
  followSide _ hs := postRolls_inOrder followSide_cases hs
  parking hs := parking_inOrder hs
  tick hs := tick_inOrder hs

/-! ## The queue as a whole (R125, R126) -/

/-- The two invariants that O56 speaks of. -/
def ValveOrder (s : State) : Prop := ValveInv s ∧ QueueInv s

/-- A queue of at most four requests, no channel twice. -/
def QueueFits (Q : List TestRequest) : Prop := Q.length ≤ 4 ∧ (Q.map TestRequest.channel).Nodup

theorem ValveOrder.inOrder {s : State} (hs : ValveOrder s) :
    InOrder s.tests.queue s.tests.queue s ∧ QueueFits s.tests.queue := by
  obtain ⟨⟨hvalves, htests, hholder, hprobed⟩, hlength, hnodup, havoid⟩ := hs
  exact ⟨⟨hvalves, ⟨hholder, hprobed⟩, List.Sublist.refl _, fun q hq => ⟨(htests q hq).1, (htests q hq).2, havoid q hq⟩⟩,
    hlength, hnodup⟩

theorem InOrder.valveOrder {Q : List TestRequest} {s : State} (hs : InOrder Q Q s) (hQ : QueueFits Q) : ValveOrder s := by
  have hmap := hs.queue.map TestRequest.channel
  refine ⟨⟨hs.valves, fun q hq => ⟨(hs.tests q hq).1, (hs.tests q hq).2.1⟩, hs.stage.1, hs.stage.2⟩,
    hs.queue.length_le.trans hQ.1, hQ.2.sublist hmap, fun q hq hmem => ?_⟩
  exact (hs.tests q hq).2.2 (hmap.subset hmem)

theorem rejoinQueue_inOrder {Q A : List TestRequest} (behind : List TestRequest) {s : State} (hs : InOrder Q A s) :
    InOrder (Q ++ behind) A (rejoinQueue behind s) :=
  ⟨hs.valves, hs.stage, hs.queue.append_right behind, hs.tests⟩

/-- The entries behind the head stand back during a sample and rejoin what is left of it (R125, R128). -/
theorem pressureSample_inOrder (x : SampleSet) {A : List TestRequest} {s : State}
    (hs : InOrder s.tests.queue A s) : InOrder s.tests.queue A (pressureSample x s) := by
  have hhead : InOrder (s.tests.queue.take 1) A (headAlone s) := by
    have hshort := hs.shorter (headAlone_frame s) (List.take_sublist 1 _)
    exact ⟨hshort.valves, hshort.stage, List.Sublist.refl _, hshort.tests⟩
  have hsteps := (inOrder_kept _ A).sampleSteps ((runningTest s).map RunningTest.channel) x hhead
  have hjoin : s.tests.queue.take 1 ++ s.tests.queue.tail = s.tests.queue := by cases s.tests.queue <;> rfl
  have hrejoined := rejoinQueue_inOrder s.tests.queue.tail hsteps
  rw [hjoin] at hrejoined
  exact (inOrder_kept _ A).sampleEnd hrejoined

/-- A test starts on an ELECTRONIC channel with setpoint 0, and its request leaves the queue (R128). -/
theorem startTest_order {q : TestRequest} {s : State} (hq : startableHead s = some q) (hs : ValveOrder s) :
    ValveOrder (startTest q s) := by
  obtain ⟨horder, hlength, hnodup⟩ := hs.inOrder
  cases hqueue : s.tests.queue with
  | nil => simp [startableHead, hqueue] at hq
  | cons head rest =>
    simp only [startableHead, hqueue, Option.ite_none_right_eq_some, Option.some.injEq, Bool.and_eq_true] at hq
    obtain ⟨⟨-, hstart⟩, rfl⟩ := hq
    simp only [canStart, Bool.and_eq_true, decide_eq_true_eq] at hstart
    obtain ⟨⟨⟨⟨⟨hfree, he⟩, hzero⟩, -⟩, -⟩, -⟩ := hstart
    have hno : s.roll.stage.stage ≠ .probe := fun h => by
      have := horder.stage.1.mpr h
      simp [generatorFree, this] at hfree
    rw [hqueue] at hlength hnodup
    have hset : InOrder rest rest (setTest (firstPhase head) (dropHead s)) := by
      refine ⟨horder.valves, ⟨iff_of_false (by simp [setTest]) hno, horder.stage.2⟩, ?_, fun r hr => ?_⟩
      · simp [setTest, dropHead, hqueue]
      · obtain rfl : firstPhase head = r := by simpa [setTest] using hr
        exact ⟨he, hzero, (List.nodup_cons.mp hnodup).1⟩
    have hstarted : InOrder rest rest (startTest head s) := by
      unfold startTest
      exact testValves_inOrder he rfl rfl rfl hset
    refine hstarted.valveOrder ⟨?_, (List.nodup_cons.mp hnodup).2⟩
    simp only [List.length_cons] at hlength
    omega

/-- A request joins a queue of fewer than four that does not name its channel, nor does the running test (R126). -/
theorem enqueueTest_order {p : Port} {c : Channel} {s : State} (hqueued : (isQueued s c || underTest s c) = false)
    (hroom : decide (4 ≤ s.tests.queue.length) = false) (hs : ValveOrder s) : ValveOrder (enqueueTest p c s) := by
  obtain ⟨⟨hvalves, htests, hholder, hprobed⟩, -, hnodup, havoid⟩ := hs
  simp only [Bool.or_eq_false_iff, isQueued, List.any_eq_false, beq_iff_eq] at hqueued
  obtain ⟨hnot, hunder⟩ := hqueued
  have hmem : c ∉ s.tests.queue.map TestRequest.channel := by simpa using hnot
  have hroom' : s.tests.queue.length < 4 := by simpa using hroom
  refine ⟨⟨hvalves, htests, hholder, hprobed⟩, ?_, ?_, fun q hq => ?_⟩
  · simp only [enqueueTest, State.setTests_tests, List.length_append, List.length_singleton]
    omega
  · simp only [enqueueTest, State.setTests_tests, List.map_append, List.map_singleton]
    exact List.nodup_append.mpr ⟨hnodup, by simp, by simpa using hnot⟩
  · have hc : q.channel ≠ c := by
      rintro rfl
      have hq' : s.tests.holder = .test q := hq
      simp [underTest, runningTest, hq'] at hunder
    simp only [enqueueTest, State.setTests_tests, List.map_append, List.map_singleton, List.mem_append, List.mem_singleton]
    rintro (h | h)
    · exact havoid q hq h
    · exact hc h

theorem ValveOrder.quiet {s t : State} (h : Quiet s t) (hs : ValveOrder s) : ValveOrder t := by
  obtain ⟨horder, hQ⟩ := hs.inOrder
  exact ((inOrder_kept _ _).quiet h horder).valveOrder hQ

theorem ValveOrder.transfer {p : Port} {n : Nat} {act : Action} {s : State} (hs : ValveOrder (act s).2) :
    ValveOrder (transfer p n act s) := by
  obtain ⟨horder, hQ⟩ := hs.inOrder
  exact ((inOrder_kept _ _).transfer horder).valveOrder hQ

theorem resetState_order (k : ResetCause) (s : State) : ValveOrder (resetState k s) := by
  have hreset : ValveOrder State.reset := by
    refine ⟨⟨fun c => ?_, fun q hq => ?_, ?_, ?_⟩, ?_, ?_, fun q hq => ?_⟩
    · cases c <;> decide
    · cases hq
    · decide
    · decide
    · decide
    · decide
    · cases hq
  obtain ⟨horder, hQ⟩ := hreset.inOrder
  exact (horder.frame (resetState_frame k s) rfl).valveOrder hQ

theorem exec_order (i : Instr) {s : State} (hs : ValveOrder s) : ∃ t, exec i s = .next t ∧ ValveOrder t := by
  obtain ⟨horder, hQ⟩ := hs.inOrder
  by_cases hi : isSpecialRow i = false
  · obtain ⟨t, ht, horder'⟩ := (inOrder_kept _ _).exec hi horder
    exact ⟨t, ht, horder'.valveOrder hQ⟩
  cases i with
  | powerOnReset => exact ⟨_, rfl, resetState_order _ s⟩
  | pinReset => exact ⟨_, rfl, resetState_order _ s⟩
  | testStart =>
    rcases exec_testStart s with h | ⟨q, hq, h⟩ <;> rw [h]
    · exact ⟨_, rfl, hs⟩
    · exact ⟨_, rfl, (startTest_order hq hs).quiet (refreshFaults_quiet _)⟩
  | requestTest p n =>
    exact ⟨_, rfl, ValveOrder.transfer (withChannel_state hs fun c => unlessState_state hs fun _ => unlessState_state hs
      fun hqueued => unlessState_state hs fun hroom => enqueueTest_order hqueued hroom hs)⟩
  | pressureSample x => exact ⟨_, rfl, (pressureSample_inOrder x horder).valveOrder hQ⟩
  | _ => exact absurd rfl hi

theorem passMillisecond_order {s : State} (hs : ValveOrder s) : ValveOrder (passMillisecond s) := by
  obtain ⟨horder, hQ⟩ := hs.inOrder
  exact ((inOrder_kept _ _).passMillisecond horder).valveOrder hQ

/-- Settles O56, by the walk over the rows with the queue compared with the one before the step. -/
theorem stepsKeepValvesAndTests : Obligations.StepsKeepValvesAndTests := by
  intro s t hstep hs
  exact step_keeps (P := ValveOrder) (fun h hu => hu.quiet h) exec_order passMillisecond_order hstep hs

end Sys2Proof
end

