-- ==== Sys2Proof/Proofs/PressureTimers.lean ====
section
/-! Own events and their faults (R147, R148, R169), and the rows of the pressure channels that end a timer (O4, O5, O6). -/

namespace Sys2Proof

open Sys2Proof.Machine

/-! ## An event once its row is over (R148) -/

theorem latchRec_twice (b : Bool) (r : FaultRec) : latchRec b (latchRec b r) = latchRec b r := by
  unfold latchRec
  split <;> simp_all

theorem zipWith_latch_twice (bs : List Bool) (rs : List FaultRec) :
    List.zipWith latchRec bs (List.zipWith latchRec bs rs) = List.zipWith latchRec bs rs := by
  induction bs generalizing rs with
  | nil => rfl
  | cons b bs ih => cases rs <;> simp [latchRec_twice, ih]

/-- Beside the queue an event brings the faults up to date. -/
theorem queueEvent_queue_frame (s : State) : OnlyChanges [.statusQueue] (refreshFaults s) (queueEvent s) := by
  unfold queueEvent
  refine OnlyChanges.ite (fun _ => ?_) (fun _ => .refl _ _)
  exact setStatusQueue_frame (refreshFaults s) _

theorem queueEvent_liveList (s : State) : liveList (queueEvent s) = liveList s := by
  rw [← refreshFaults_liveList s]
  unfold queueEvent
  dsimp only
  split <;> rfl

theorem queueEvent_faults (s : State) : (queueEvent s).faults = (refreshFaults s).faults :=
  queueEvent_queue_frame s .faults (by simp)

theorem queueEvent_faults_length (s : State) (h : s.faults.length = 47) : (queueEvent s).faults.length = 47 := by
  simp [queueEvent_faults, h]

/-- A row that ends in an event brings the faults up to date once more, and finds them so. -/
theorem refresh_event_faults (s : State) : (refreshFaults (queueEvent s)).faults = (refreshFaults s).faults := by
  rw [refreshFaults_faults, queueEvent_liveList, queueEvent_faults, refreshFaults_faults, zipWith_latch_twice]

theorem refresh_event_frame (s : State) :
    OnlyChanges [.statusQueue, .attention .a, .attention .b] (refreshFaults s) (refreshFaults (queueEvent s)) := by
  intro q hq
  by_cases hf : q = .faults
  · subst hf
    exact refresh_event_faults s
  · have hevent := queueEvent_queue_frame s q (by simp_all)
    have hrefresh := refreshFaults_frame (queueEvent s) q (by simp_all [noticeParts])
    exact hevent.trans hrefresh

/-- The payload of an own status frame depends on no queue and no attention flag (R147). -/
theorem statusPayload_frame {s t : State} (h : OnlyChanges [.statusQueue, .attention .a, .attention .b] s t)
    (report count : Nat) : statusPayload t report count = statusPayload s report count := by
  have hown : t.link.ownPosition = s.link.ownPosition := h .ownPosition (by simp)
  have hskid (c : Channel) : t.skid.get c = s.skid.get c := h (.skid c) (by simp)
  have hcauses (c : Channel) : electronic t c = electronic s c := electronic_same (h (.causes c) (by simp))
  have hstage : t.roll.stage = s.roll.stage := h .stage (by simp)
  have hgroup : t.load.group = s.load.group := (h .group (by simp)).1
  have hworst : t.tyre.worst = s.tyre.worst := h .worst (by simp)
  have hsupply : t.supply = s.supply := h .supply (by simp)
  have hcal : t.cal.generation = s.cal.generation := (h .calActive (by simp)).2.1
  have hfaults : t.faults = s.faults := h .faults (by simp)
  have hbackup : backupMask t = backupMask s := by simp only [backupMask, hcauses]
  have hactive : skidActiveMask t = skidActiveMask s := by simp only [skidActiveMask, hskid]
  have hcond : worstConditionByte t = worstConditionByte s := by simp only [worstConditionByte, hworst]
  have hpos : worstPositionByte t = worstPositionByte s := by simp only [worstPositionByte, hworst]
  simp only [statusPayload, latchedCount, latchedLive, hown, hbackup, hactive, hstage, hgroup, hcond, hpos, hsupply, hcal,
    hfaults]

theorem upState_refresh (s : State) : (refreshFaults s).link.up.state = s.link.up.state := by
  have h : linkPort (refreshFaults s) .up = linkPort s .up := refreshFaults_frame s (.linkPort .up) (by simp [noticeParts])
  exact congrArg PortRec.state h

theorem statusQueue_refresh (s : State) : (refreshFaults s).link.statusQueue = s.link.statusQueue :=
  refreshFaults_frame s .statusQueue (by simp [noticeParts])

theorem queueEvent_statusQueue (s : State) : (queueEvent s).link.statusQueue =
    if s.link.up.state = .active then
      (if s.link.statusQueue.any isEvent then s.link.statusQueue.map (rebuildEvent (refreshFaults s))
       else s.link.statusQueue ++ [.event 1 (eventFrame (refreshFaults s) 1)])
    else s.link.statusQueue := by
  unfold queueEvent
  simp only [beq_iff_eq, upState_refresh, statusQueue_refresh]
  by_cases h : s.link.up.state = .active
  · simp only [if_pos h, State.setLink_link]
  · simp only [if_neg h, statusQueue_refresh]

/-- The frame that an event queues is that of the state in which its row ends (R148). -/
theorem eventFrame_refresh (s : State) (n : Nat) : eventFrame (refreshFaults s) n =
    ⟨2, 15, (refreshFaults (queueEvent s)).link.ownPosition.getD 0, 0, Credits.zero,
      statusPayload (refreshFaults (queueEvent s)) 1 n⟩ := by
  have hframe := refresh_event_frame s
  have hown : (refreshFaults (queueEvent s)).link.ownPosition = (refreshFaults s).link.ownPosition :=
    hframe .ownPosition (by simp)
  rw [statusPayload_frame hframe, hown]
  rfl

/-- A row that ends in one event has counted it, where it left the link alone before (R148). -/
theorem eventCounted_of {s u : State} (hport : u.link.up.state = s.link.up.state)
    (hqueue : u.link.statusQueue = s.link.statusQueue) : EventCounted s (refreshFaults (queueEvent u)) := by
  have hstatus := queueEvent_statusQueue u
  rw [hport, hqueue] at hstatus
  refine ⟨fun hactive hnone => ?_, fun hactive hany => ?_, fun hne => ?_⟩
  · rw [statusQueue_refresh, hstatus, if_pos hactive, hnone, eventFrame_refresh u]
    rfl
  · rw [statusQueue_refresh, hstatus, if_pos hactive, if_pos hany]
    refine List.map_congr_left fun x _ => ?_
    cases x with
    | event n f =>
      simp only [rebuildEvent, satAdd, eventFrame_refresh u]
    | forwarded f => rfl
    | periodic f => rfl
  · rw [statusQueue_refresh, hstatus, if_neg hne]

theorem rebuildEvent_isEvent (s : State) (x : StatusItem) : isEvent (rebuildEvent s x) = isEvent x := by cases x <;> rfl

/-- After an event an event frame waits, where the upstream port is ACTIVE (R148). -/
theorem queueEvent_queued {u : State} (hactive : u.link.up.state = .active) :
    (queueEvent u).link.statusQueue.any isEvent = true := by
  rw [queueEvent_statusQueue, if_pos hactive]
  split
  · rename_i h
    simpa [List.any_map, Function.comp_def, rebuildEvent_isEvent] using h
  · simp [isEvent]

theorem eventQueued_refresh {s u : State} (hport : u.link.up.state = s.link.up.state) :
    EventQueued s (refreshFaults (queueEvent u)) := by
  intro hactive
  rw [statusQueue_refresh]
  exact queueEvent_queued (by rw [hport, hactive])

/-! ## Live faults at the end of a row (R169) -/

theorem liveList_tracking (s : State) (c : Channel) :
    (liveList s).getD (6 * channelNumber c) false = (channelOf s c).causes.tracking := by cases c <;> rfl

theorem liveList_emergency (s : State) : (liveList s).getD 28 false = s.supply.emergency := rfl

theorem fault_live {s : State} {i : Nat} {b : Bool} (h : s.faults.length = 47) (hi : i < 47)
    (hlive : (liveList s).getD i false = b) : (faultOf (refreshFaults s) i).live = b := by
  rw [refreshFaults_faultOf s h i hi, hlive]

/-! ## TRACKING_TIMEOUT (R13) -/

/-- The state in which a channel that takes its first cause has left its test and its SKID entry, the event still to come (R2). -/
def backedOff (k : Cause) (c : Channel) (s : State) : State :=
  let s1 := setChannel s c { channelOf s c with causes := (channelOf s c).causes.put k true }
  freeSkid c (testBackupNotice c (setChannel s1 c (deEnergised (channelOf s1 c))))

theorem addCause_electronic {k : Cause} {c : Channel} {s : State} (he : electronic s c = true) :
    addCause k c s = queueEvent (backedOff k c s) := by
  have hk : (channelOf s c).causes.has k = false := ((CauseSet.isEmpty_iff _).mp he) k
  have he' : (channelOf s c).causes.isEmpty = true := he
  rcases addCause_cases k c s with ⟨-, h⟩ | ⟨h, -⟩ | ⟨-, h⟩
  · simp [hk] at h
  · rw [h, enterBackup_eq]
    rfl
  · simp [he] at h

/-- Before the return to FREE the entry into BACKUP touches neither the link nor the faults. -/
theorem noticed_frame (k : Cause) (c : Channel) (s : State) :
    let s1 := setChannel s c { channelOf s c with causes := (channelOf s c).causes.put k true }
    OnlyChanges [.causes c, .valves c, .testQueue, .holder, .result c, .attention .a, .attention .b] s
      (testBackupNotice c (setChannel s1 c (deEnergised (channelOf s1 c)))) := by
  have hcauses := setCauses_frame (s := s) c ((channelOf s c).causes.put k true) (channelOf s c).startupHeld
  have hvalves := (deEnergise_frame c _).step hcauses (l := [.causes c, .valves c, .testQueue, .holder, .result c,
    .attention .a, .attention .b]) (by simp) (by simp)
  exact (testBackupNotice_quiet c _).step hvalves (fun _ h => h) (by simp)

theorem freeSkid_faults_length {c : Channel} {s : State} (h : s.faults.length = 47) :
    (freeSkid c s).faults.length = 47 := by
  rcases freeSkid_cases c s with e | ⟨k, -, e⟩ <;> rw [e]
  · exact h
  · refine queueEvent_faults_length _ ?_
    have hfaults := (withdraw_frame c .skid _).step (setSkid_frame s c k) (l := .skid c :: .entry c .skid :: resolveParts c)
      (by simp) (by simp) .faults (by simp [resolveParts, abortParts])
    simp only [samePart] at hfaults
    rw [hfaults, h]

theorem freeSkid_upState (c : Channel) (s : State) : (freeSkid c s).link.up.state = s.link.up.state := by
  have h : linkPort (freeSkid c s) .up = linkPort s .up :=
    freeSkid_frame c s (.linkPort .up) (by simp [freeParts, resolveParts, abortParts, eventParts, noticeParts])
  exact congrArg PortRec.state h

theorem backedOff_upState (k : Cause) (c : Channel) (s : State) :
    (backedOff k c s).link.up.state = s.link.up.state := by
  unfold backedOff
  dsimp only
  rw [freeSkid_upState]
  exact congrArg PortRec.state (noticed_frame k c s (.linkPort .up) (by simp))

theorem backedOff_faults_length {k : Cause} {c : Channel} {s : State} (h : s.faults.length = 47) :
    (backedOff k c s).faults.length = 47 := by
  refine freeSkid_faults_length ?_
  have hfaults := noticed_frame k c s .faults (by simp)
  simp only [samePart] at hfaults
  rw [hfaults, h]

/-- A channel that was FREE brings no event of its own before that of the entry into BACKUP. -/
theorem backedOff_statusQueue {k : Cause} {c : Channel} {s : State} (h : (s.skid.get c).state = .free) :
    (backedOff k c s).link.statusQueue = s.link.statusQueue := by
  have hframe := noticed_frame k c s
  unfold backedOff
  dsimp only at hframe ⊢
  have hskid := hframe (.skid c) (by simp)
  simp only [samePart] at hskid
  rw [freeSkid, hskid, if_pos h]
  exact hframe .statusQueue (by simp)

theorem backedOff_entry {k : Cause} {c : Channel} {s : State} (h : (s.skid.get c).state ≠ .free) :
    entryOf (backedOff k c s) c .skid = none := by
  refine freeSkid_entry c _ ?_
  have hskid := noticed_frame k c s (.skid c) (by simp)
  simp only [samePart] at hskid
  rwa [hskid]

theorem BackedUp.refresh {s : State} {c : Channel} (h : BackedUp s c) : BackedUp (refreshFaults s) c :=
  h.keeps (refreshFaults_frame s) (.of_frame (refreshFaults_frame s) (by simp [noticeParts])) (by simp [noticeParts])
    (by simp [noticeParts]) (by simp [noticeParts])

theorem causes_refresh (s : State) (c : Channel) : (channelOf (refreshFaults s) c).causes = (channelOf s c).causes :=
  (refreshFaults_frame s (.causes c) (by simp [noticeParts])).1

theorem addCause_adds (k : Cause) (c : Channel) (s : State) :
    AddsCauses s (refreshFaults (addCause k c s)) c (fun j => j == k) := by
  intro j
  rw [causes_refresh, addCause_causes]

/-- Settles O4: the row adds TRACKING to an ELECTRONIC channel, so the entry into BACKUP says all it does. -/
theorem trackingTimeoutBacksUp : Obligations.TrackingTimeoutBacksUp := by
  intro s c he hms
  have hdue : trackingOver s c = true := by simp [trackingOver, he, hms]
  have hadd := addCause_electronic (k := .tracking) he
  have hframe := (refreshFaults_frame _).step (addCause_frame .tracking c s) (l := backupParts c ++ noticeParts)
    (by simp) (by simp)
  refine ⟨refreshFaults (addCause .tracking c s), by simp [exec, execTrackingTimeout, whenDue, hdue], addCause_adds _ c s,
    (addCause_backedUp .tracking c s he).refresh, fun hskid => ?_, ?_, fun hskid => ?_, fun hlen => ?_, hframe⟩
  · have hentry := (refreshFaults_frame _).step (queueEvent_frame (backedOff .tracking c s)) (l := eventParts)
      (fun _ h => h) (by simp [eventParts]) (.entry c .skid) (by simp [eventParts, noticeParts])
    simp only [samePart] at hentry
    rw [hadd, hentry, backedOff_entry hskid]
  · rw [hadd]
    exact eventQueued_refresh (backedOff_upState _ c s)
  · rw [hadd]
    exact eventCounted_of (backedOff_upState _ c s) (backedOff_statusQueue hskid)
  · refine fault_live ?_ (by cases c <;> decide) ?_
    · rw [hadd]
      exact queueEvent_faults_length _ (backedOff_faults_length hlen)
    · rw [liveList_tracking]
      have hhas := addCause_causes .tracking .tracking c s
      simpa [CauseSet.has] using hhas

/-! ## Supply and reservoir (R15, R16, R19) -/

/-- A channel is left resolved by its own turn, and the turns of the others leave it alone (R38). -/
theorem each_resolved {k : Source} {g : Channel → State → State} {C : State → Prop} (c : Channel)
    (hframe : ∀ d t, OnlyChanges (.entry d k :: resolveParts d) t (g d t))
    (hC : ∀ t u, SameOn (isResolutionOf c) t u → C t → C u) (hself : ∀ t, C t → ChannelResolved (g c t) c) {s : State}
    (hs : C s) : ChannelResolved (forChannels g s) c :=
  forChannels_turn (R := fun t u => C t → ChannelResolved u c) (S := SameOn (isResolutionOf c)) c
    (fun t u _ h hR ht => hR (hC t u h ht)) (fun _ _ _ hR h ht => (hR ht).keeps h) hself
    (fun d t hd => .of_frame (hframe d t) (resolveParts_other_input hd k)) s hs

/-- What an entry of every channel, its resolution and an event may change. -/
theorem entriesEvent_frame {k : Source} {g : Channel → State → State} {x : SupplyRec} {s : State}
    (hframe : ∀ d t, OnlyChanges (.entry d k :: resolveParts d) t (g d t)) :
    OnlyChanges (.supply :: everyChannel (fun c => .entry c k :: resolveParts c)) s (forChannels g (s.setSupply x)) :=
  (forChannels_frame hframe _).step (setSupply_frame s x) (by simp) (by simp)

theorem refreshEvent_frame {l : List Part} {s u : State} (h : OnlyChanges l s u) :
    OnlyChanges (l ++ eventParts) s (refreshFaults (queueEvent u)) :=
  (refreshFaults_frame _).step ((queueEvent_frame u).step h (l := l ++ eventParts) (by simp) (by simp)) (fun _ h => h)
    (by intro q hq; simp [eventParts, hq])

/-- What a change of the supply record and of one source's entries keeps for its event: the link, and the number of faults. -/
theorem entriesEvent_link {l : List Part} {s u : State} (h : OnlyChanges l s u) (hport : .linkPort .up ∉ l)
    (hqueue : .statusQueue ∉ l) : EventCounted s (refreshFaults (queueEvent u)) := by
  have hup : linkPort u .up = linkPort s .up := h (.linkPort .up) hport
  exact eventCounted_of (congrArg PortRec.state hup) (h .statusQueue hqueue)

theorem event_fault {l : List Part} {s u : State} {i : Nat} {b : Bool} (h : OnlyChanges l s u) (hfaults : .faults ∉ l)
    (hlen : s.faults.length = faultCount) (hi : i < 47) (hlive : (liveList u).getD i false = b) :
    (faultOf (refreshFaults (queueEvent u)) i).live = b := by
  have hsame : u.faults = s.faults := h .faults hfaults
  refine fault_live (queueEvent_faults_length u (by rw [hsame, hlen]; rfl)) hi ?_
  rw [queueEvent_liveList]
  exact hlive

theorem entry_event (c : Channel) (k : Source) (u : State) :
    entryOf (refreshFaults (queueEvent u)) c k = entryOf u c k :=
  (refreshFaults_frame _).step (queueEvent_frame u) (l := eventParts) (fun _ h => h) (by simp [eventParts]) (.entry c k)
    (by simp [eventParts, noticeParts])

theorem supply_event (u : State) : (refreshFaults (queueEvent u)).supply = u.supply :=
  (refreshFaults_frame _).step (queueEvent_frame u) (l := eventParts) (fun _ h => h) (by simp [eventParts]) .supply
    (by simp [eventParts, noticeParts])

theorem ChannelResolved.event {u : State} {c : Channel} (h : ChannelResolved u c) :
    Resolved (refreshFaults (queueEvent u)) c :=
  (h.keeps (((queueEvent_quiet u).trans (refreshFaults_quiet _)).resolution.mono (isResolutionOf_le c))).1

/-- The EMERG entries after a posting to every channel (R16). -/
theorem postEmerg_entries (s : State) (c : Channel) : entryOf (forChannels postEmerg s) c .emerg =
    some ⟨min 1000 (curveOf (calKnee s.cal.active) s.load.gain 800), none, none⟩ := by
  have hlevel (d : Channel) (t : State) : emergLevel (postEmerg d t) = emergLevel t := by
    have hcal := (postEmerg_frame d t .calActive (by simp [resolveParts, abortParts])).1
    have hgain := (postEmerg_frame d t .group (by simp [resolveParts, abortParts])).2.2
    simp only [emergLevel, curve, hcal, hgain]
  refine forChannels_each_of (g := postEmerg) (Q := fun t => emergLevel t = emergLevel s)
    (P := fun d t => entryOf t d .emerg = some ⟨min 1000 (emergLevel s), none, none⟩)
    (fun d t ht => by rw [hlevel, ht]) (fun d t ht => ?_) (fun d e t hd _ ht => ?_) s rfl c
  · unfold postEmerg
    rw [post_entry, ht]
  · have hentry : entryOf (postEmerg e t) d .emerg = entryOf t d .emerg :=
      postEmerg_frame e t (.entry d .emerg) (by simp [resolveParts, abortParts, Ne.symm hd])
    rw [hentry, ht]

theorem withdraw_entries (k : Source) (s : State) (c : Channel) :
    entryOf (forChannels (fun d t => withdraw d k t) s) c k = none := by
  refine forChannels_each (g := fun d t => withdraw d k t) (P := fun d t => entryOf t d k = none)
    (fun d t => withdraw_entry d k t) (fun d e t hd ht => ?_) s c
  have hentry : entryOf (withdraw e k t) d k = entryOf t d k :=
    withdraw_frame e k t (.entry d k) (by simp [resolveParts, abortParts, Ne.symm hd])
  rw [hentry, ht]

theorem withdraw_resolved_of_entry {c : Channel} {k : Source} {s : State} (h : entryOf s c k ≠ none) :
    ChannelResolved (withdraw c k s) c := by
  obtain ⟨e, he⟩ := Option.ne_none_iff_exists'.mp h
  rw [withdraw_some c k s e he]
  exact resolve_resolved c _

theorem withdraw_all_resolved {c : Channel} {k : Source} {s : State} (h : entryOf s c k ≠ none) :
    ChannelResolved (forChannels (fun d t => withdraw d k t) s) c := by
  refine each_resolved (g := fun d t => withdraw d k t) (C := fun t => entryOf t c k ≠ none) c
    (fun d t => withdraw_frame d k t) (fun t u hsame ht => ?_) (fun t ht => withdraw_resolved_of_entry ht) h
  have hentry : entryOf u c k = entryOf t c k := hsame (.entry c k) (by simp [isResolutionOf])
  rwa [hentry]

theorem emergencyOnset_acts {s : State} (hrun : isRunning s = true) (hlen : s.faults.length = faultCount)
    (hno : s.supply.emergency = false) (hms : 200 ≤ runMs s.supply.onset) : ∃ t, exec .emergencyOnset s = .next t ∧
      t.supply = { s.supply with emergency := true, onset := none, recovery := none } ∧
      (∀ c, entryOf t c .emerg = some ⟨min 1000 (curveOf (calKnee s.cal.active) s.load.gain 800), none, none⟩ ∧
        Resolved t c) ∧
      EventCounted s t ∧ (faultOf t 28).live = true ∧
      OnlyChanges (.supply :: everyChannel (fun c => .entry c .emerg :: resolveParts c) ++ eventParts) s t := by
  have hdue : emergencyDue s = true := by simp [emergencyDue, hrun, hno, hms]
  have hframe := entriesEvent_frame (s := s) (x := { s.supply with emergency := true, onset := none, recovery := none })
    postEmerg_frame
  have hsupply : (forChannels postEmerg (s.setSupply { s.supply with
      emergency := true, onset := none, recovery := none })).supply =
      { s.supply with emergency := true, onset := none, recovery := none } :=
    forChannels_frame postEmerg_frame _ .supply (by simp [mem_everyChannel, resolveParts, abortParts])
  refine ⟨refreshFaults (setEmergency s), by simp [exec, execEmergencyOnset, whenDue, hdue], ?_, fun c => ⟨?_, ?_⟩, ?_, ?_,
    refreshEvent_frame hframe⟩
  · exact (supply_event _).trans hsupply
  · exact (entry_event c .emerg _).trans (postEmerg_entries _ c)
  · exact (each_resolved (C := fun _ => True) c postEmerg_frame (fun _ _ _ h => h)
      (fun _ _ => resolve_resolved c _) trivial).event
  · exact entriesEvent_link hframe (by simp [mem_everyChannel, resolveParts, abortParts])
      (by simp [mem_everyChannel, resolveParts, abortParts])
  · refine event_fault hframe (by simp [mem_everyChannel, resolveParts, abortParts]) hlen (by decide) ?_
    rw [liveList_emergency, hsupply]

theorem emergencyRecovery_acts {s : State} (hrun : isRunning s = true) (hlen : s.faults.length = faultCount)
    (hem : s.supply.emergency = true) (hms : 1000 ≤ runMs s.supply.recovery) :
    ∃ t, exec .emergencyRecovery s = .next t ∧
      t.supply = { s.supply with emergency := false, onset := none, recovery := none } ∧
      (∀ c, entryOf t c .emerg = none ∧ (entryOf s c .emerg ≠ none → Resolved t c)) ∧
      EventCounted s t ∧ (faultOf t 28).live = false ∧
      OnlyChanges (.supply :: everyChannel (fun c => .entry c .emerg :: resolveParts c) ++ eventParts) s t := by
  have hdue : recoveryDue s = true := by simp [recoveryDue, hrun, hem, hms]
  have hframe := entriesEvent_frame (s := s) (x := { s.supply with emergency := false, onset := none, recovery := none })
    (fun d t => withdraw_frame d .emerg t)
  have hsupply : (forChannels (fun d t => withdraw d .emerg t) (s.setSupply { s.supply with
      emergency := false, onset := none, recovery := none })).supply =
      { s.supply with emergency := false, onset := none, recovery := none } :=
    forChannels_frame (fun d t => withdraw_frame d .emerg t) _ .supply (by simp [mem_everyChannel, resolveParts, abortParts])
  refine ⟨refreshFaults (clearEmergency s), by simp [exec, execEmergencyRecovery, whenDue, hdue], ?_, fun c => ⟨?_, ?_⟩,
    ?_, ?_, refreshEvent_frame hframe⟩
  · exact (supply_event _).trans hsupply
  · exact (entry_event c .emerg _).trans (withdraw_entries .emerg _ c)
  · exact fun hentry => (withdraw_all_resolved (s := s.setSupply { s.supply with
      emergency := false, onset := none, recovery := none }) hentry).event
  · exact entriesEvent_link hframe (by simp [mem_everyChannel, resolveParts, abortParts])
      (by simp [mem_everyChannel, resolveParts, abortParts])
  · refine event_fault hframe (by simp [mem_everyChannel, resolveParts, abortParts]) hlen (by decide) ?_
    rw [liveList_emergency, hsupply]

theorem lowReservoirOnset_acts {s : State} (hrun : isRunning s = true) (hlen : s.faults.length = faultCount)
    (hno : s.supply.lowReservoir = false) (hms : 1000 ≤ runMs s.supply.lowMeasure) :
    ∃ t, exec .lowReservoirOnset s = .next t ∧
      t.supply = { s.supply with lowReservoir := true, lowMeasure := none } ∧ (faultOf t 27).live = true ∧
      EventCounted s t ∧ OnlyChanges (.supply :: eventParts) s t := by
  have hdue : lowReservoirDue s = true := by simp [lowReservoirDue, hrun, hno, hms]
  have hframe := setSupply_frame s { s.supply with lowReservoir := true, lowMeasure := none }
  exact ⟨refreshFaults (setLowReservoir s), by simp [exec, execLowReservoirOnset, whenDue, hdue], supply_event _,
    event_fault hframe (by simp) hlen (by decide) rfl, entriesEvent_link hframe (by simp) (by simp),
    refreshEvent_frame hframe⟩

/-- Settles O5, one row at a time. -/
theorem supplySupervisionActs : Obligations.SupplySupervisionActs := fun _ hrun hlen =>
  ⟨emergencyOnset_acts hrun hlen, emergencyRecovery_acts hrun hlen, lowReservoirOnset_acts hrun hlen⟩

/-! ## On-times and lifetimes (R11, R25) -/

theorem pulseOver_iff (v : ValveDrive) : pulseOver v = true ↔ v = .pulsed 0 := by cases v <;> simp [pulseOver]

theorem closeEnded_eq (v : ValveDrive) : closeEnded v = if v = .pulsed 0 then .closed else v := by
  unfold closeEnded
  simp only [pulseOver_iff]

theorem endOnTime_channel (c : Channel) (s : State) : channelOf (endOnTime c s) c =
    { channelOf s c with
      inlet := closeEnded (channelOf s c).inlet, exhaust := closeEnded (channelOf s c).exhaust } := by
  simp [endOnTime]

/-- Settles O6: the one row closes the valves whose pulse is over, the other withdraws the entry. -/
theorem onTimesAndLifetimesEnd : Obligations.OnTimesAndLifetimesEnd := by
  refine ⟨fun s c hpulse => ?_, fun s p c e hentry hlife => ?_⟩
  · have hdue : onTimeOver s c = true := by
      simpa only [onTimeOver, Bool.or_eq_true, pulseOver_iff] using hpulse
    obtain ⟨hstate, htracking, hbackup, hinlet, hexhaust⟩ := refreshFaults_frame (endOnTime c s) (.valves c)
      (by simp [noticeParts])
    have hchannel := endOnTime_channel c s
    refine ⟨refreshFaults (endOnTime c s), by simp [exec, execOnTimeEnd, whenDue, hdue], ?_, ?_, ?_, ?_, ?_, ?_⟩
    · rw [hinlet, hchannel, ← closeEnded_eq]
    · rw [hexhaust, hchannel, ← closeEnded_eq]
    · rw [hstate, hchannel]
    · rw [htracking, hchannel]
    · rw [hbackup, hchannel]
    · exact (refreshFaults_frame _).step (endOnTime_frame c s) (by simp) (by simp)
  · have hdue : entryExpired s p c = true := by simp [entryExpired, hentry, hlife]
    have hresolved : ChannelResolved (withdraw c (portSource p) s) c :=
      withdraw_resolved_of_entry (by simp [hentry])
    have hquiet := refreshFaults_quiet (withdraw c (portSource p) s)
    refine ⟨refreshFaults (withdraw c (portSource p) s), by simp [exec, execCtrlEntryExpiry, whenDue, hdue], ?_,
      (hresolved.keeps (hquiet.resolution.mono (isResolutionOf_le c))).1, ?_⟩
    · have hsame := hquiet (.entry c (portSource p)) rfl
      simp only [samePart] at hsame
      rw [hsame, withdraw_entry]
    · exact (refreshFaults_frame _).step (withdraw_frame c (portSource p) s) (by simp) (by simp)

end Sys2Proof
end

