-- ==== Sys2Proof/Proofs/RecordFields.lean ====
section
/-! The records of the READ tables, field by field (R180; O27). -/

namespace Sys2Proof

open Sys2Proof.Machine

/-! ## The fields of a record (R180) -/

theorem optField8_getD (x : Option Nat) : (x.map (fun n => [BitVec.ofNat 8 n])).getD [255#8] = optField8 x := by
  cases x <;> rfl

theorem optField16_getD (x : Option Nat) :
    (x.map (fun n => [BitVec.ofNat 8 (n / 256), BitVec.ofNat 8 n])).getD [255#8, 255#8] = optField16 x := by
  cases x <;> rfl

theorem optField24_getD (x : Option Nat) : (x.map bytes24).getD [255#8, 255#8, 255#8] = optField24 x := by
  cases x <;> rfl

theorem preField16_getD (x : Option Nat) : (x.map (fun n => 1#8 :: bytes16 n)).getD [0#8, 0#8, 0#8] = preField16 x := by
  cases x <;> rfl

theorem preField32_getD (x : Option Nat) :
    (x.map (fun n => 1#8 :: bytes32 n)).getD [0#8, 0#8, 0#8, 0#8, 0#8] = preField32 x := by
  cases x <;> rfl

theorem preFieldS8_getD (x : Option Int) : (x.map (fun a => [1#8, BitVec.ofInt 8 a])).getD [0#8, 0#8] = preFieldS8 x := by
  cases x <;> rfl

theorem preFieldS16_getD (x : Option Int) :
    (x.map (fun a => 1#8 :: bytes16 (BitVec.ofInt 16 a).toNat)).getD [0#8, 0#8, 0#8] = preFieldS16 x := by
  cases x <;> rfl

theorem setField_ite (b : Bool) : (if b then [0#8] else [1#8]) = setField b := by
  cases b <;> rfl

theorem yesField_ite (b : Bool) : (if b then [1#8] else [0#8]) = yesField b := by
  cases b <;> rfl

/-- A choice of two values numbered from 0 reads as a set-or-clear field. -/
theorem field8_ite (b : Bool) : field8 (if b then 0 else 1) = setField b := by
  cases b <;> rfl

/-- A byte of seven flags weighs each by its bit. -/
theorem maskOf_seven (a b c d e f g : Bool) :
    maskOf [a, b, c, d, e, f, g] =
      (if a then 1 else 0) + (if b then 2 else 0) + (if c then 4 else 0) + (if d then 8 else 0) + (if e then 16 else 0) +
        (if f then 32 else 0) + (if g then 64 else 0) := by
  simp only [maskOf, mul_add, mul_ite, mul_one, mul_zero, ← add_assoc, add_zero, Nat.reduceMul]

theorem maskOf_four (a b c d : Bool) :
    maskOf [a, b, c, d] = (if a then 1 else 0) + (if b then 2 else 0) + (if c then 4 else 0) + (if d then 8 else 0) := by
  simp only [maskOf, mul_add, mul_ite, mul_one, mul_zero, ← add_assoc, add_zero, Nat.reduceMul]

theorem maskOf_two (a b : Bool) : maskOf [a, b] = (if a then 1 else 0) + (if b then 2 else 0) := by
  simp only [maskOf, mul_ite, mul_one, mul_zero, add_zero]

theorem creditsRecord_fields (k : Option Credits) :
    creditsRecord k =
      optField8 (k.map Credits.demand) ++ optField8 (k.map Credits.status) ++ optField8 (k.map Credits.service) := by
  cases k <;> rfl

/-! ## The record an index selects (R167) -/

theorem channelAt_channelNumber (c : Channel) : channelAt (channelNumber c) = c := by
  cases c <;> rfl

theorem channelNumber_lt (c : Channel) : channelNumber c < 4 := by
  cases c <;> decide

theorem tableRecord_channel (v : View) (s : State) (c : Channel) :
    tableRecord v s 0 (channelNumber c) = some (channelRecord s c) := by
  simp [tableRecord, channelNumber_lt, channelAt_channelNumber]

theorem sourceAt_getD {j : Nat} (hj : j < 6) :
    sourceAt j = [Source.driver, .ctrlA, .ctrlB, .emerg, .roll, .skid].getD j .skid := by
  interval_cases j <;> rfl

/-- The six entries of a channel stand together in the DEMAND table (R27). -/
theorem tableRecord_entry (v : View) (s : State) (c : Channel) {j : Nat} (hj : j < 6) :
    tableRecord v s 1 (6 * channelNumber c + j) = some (entryRecord (sourceAt j) (entryOf s c (sourceAt j))) := by
  have hc := channelNumber_lt c
  have hmod : (6 * channelNumber c + j) % 6 = j := by omega
  have hdiv : (6 * channelNumber c + j) / 6 = channelNumber c := by omega
  have hlt : 6 * channelNumber c + j < 24 := by omega
  simp [tableRecord, demandRecord, hmod, hdiv, hlt, channelAt_channelNumber]

theorem tableRecord_summary (v : View) (s : State) (c : Channel) :
    tableRecord v s 1 (25 + channelNumber c) = some (summaryRecord (s.demand.summary.get c)) := by
  cases c <;> rfl

theorem tableRecord_derate (v : View) (s : State) (c : Channel) :
    tableRecord v s 2 (4 + channelNumber c) = some (bytes16 (s.load.derate.get c) ++ optField8 (firstSevere s c)) := by
  cases c <;> rfl

theorem tableRecord_position (v : View) (s : State) {n : Nat} (hn : n < 12) :
    tableRecord v s 3 n = some (positionRecord s (n + 1)) := by
  simp [tableRecord, tyreRecord, hn]

theorem tableRecord_stranger (v : View) (s : State) {n : Nat} (hn : n < 8) :
    tableRecord v s 4 n = some (strangerRecord s.tyre.strangers[n]?) := by
  simp [tableRecord, strangersRecord, hn]

theorem tableRecord_result (v : View) (s : State) (c : Channel) :
    tableRecord v s 7 (channelNumber c) = some (resultRecord s c) := by
  simp [tableRecord, testRecord, channelNumber_lt, channelAt_channelNumber]

theorem tableRecord_word (v : View) (s : State) {n : Nat} (hn : n < 69) :
    tableRecord v s 8 n = some (bytes16 (s.cal.active.getD n 0)) := by
  simp [tableRecord, calRecord, calWord, Nat.le_of_lt_succ hn]

theorem tableRecord_fault (v : View) (s : State) {n : Nat} (hn : n < 47) :
    tableRecord v s 9 n = some (setField (faultOf s n).live ++ setField (viewLatch v (faultOf s n))) := by
  simp [tableRecord, faultRecord, faultCount, hn]

/-! ## The fields in each record -/

/-- The mode of an entry is its source's: LIMIT for CTRL_B and SKID (R22, R46). -/
theorem entryRecord_fields (k : Source) (x : Option Entry) :
    entryRecord k x = match x with
      | none => [0#8]
      | some e => 1#8 :: (field8 (if k = .ctrlB ∨ k = .skid then 1 else 0) ++ bytes16 e.level ++ optField16 e.lifetime ++
          optField8 (e.detail.map detailCode)) := by
  cases x with
  | none => rfl
  | some e => cases k <;> rfl

theorem portRecord_fields (r : PortRec) :
    portRecord r = field8 (linkStateCode r.state) ++ bytes16 r.holdOff ++ setField r.errorHoldOff ++ field8 r.settleTimer ++
      optField8 (r.attempt.map Attempt.number) ++ optField16 (r.attempt.map Attempt.timer) ++ setField r.heard ++
      optField8 (r.partner.map Credits.demand) ++ optField8 (r.partner.map Credits.status) ++
      optField8 (r.partner.map Credits.service) ++
      field8 r.credits.demand ++ field8 r.credits.status ++ field8 r.credits.service ++ field8 r.occupied.demand ++
      field8 r.occupied.status ++ field8 r.occupied.service ++ field8 r.owed.demand ++ field8 r.owed.status ++
      field8 r.owed.service ++ field8 r.errorCount ++ optField8 (r.lastDrop.map dropCauseCode) := by
  simp only [portRecord, creditsRecord_fields, Option.map_some, List.append_assoc]
  rfl

theorem learnRecord_present (s : State) :
    field8 (if s.tyre.learn.isSome then 1 else 0) = field8 (if s.tyre.learn = none then 0 else 1) := by
  cases s.tyre.learn <;> rfl

/-- The payload of an own status frame names the worst position by two bytes, 0 without one (R181). -/
theorem worst_bytes (s : State) :
    worstConditionByte s = (s.tyre.worst.map (fun x => conditionCode x.1 + 1)).getD 0 ∧
      worstPositionByte s = (s.tyre.worst.map Prod.snd).getD 0 := by
  unfold worstConditionByte worstPositionByte
  cases s.tyre.worst <;> exact ⟨rfl, rfl⟩

theorem learning_position (s : State) (n : Nat) :
    (s.tyre.learn.map LearnRun.position == some n) = decide (s.tyre.learn.map LearnRun.position = some n) := by
  rw [Bool.eq_iff_iff]
  simp

/-- Settles O27: the statement's field forms are those of R180, and each record of the model lists its fields in order. -/
theorem recordsHoldTheirFields : Obligations.RecordsHoldTheirFields := by
  unfold Obligations.RecordsHoldTheirFields
  intro v s c b1 b2 b3 b4 o1 o2 o3 p2 p4 i1 i2 flag yes bit fill num ch w k d t g i
  have hb1 : b1 = field8 := rfl
  have hb2 : b2 = bytes16 := rfl
  have hb3 : b3 = bytes24 := rfl
  have hb4 : b4 = bytes32 := rfl
  have ho1 : o1 = optField8 := funext optField8_getD
  have ho2 : o2 = optField16 := funext optField16_getD
  have ho3 : o3 = optField24 := funext optField24_getD
  have hp2 : p2 = preField16 := funext preField16_getD
  have hp4 : p4 = preField32 := funext preField32_getD
  have hi1 : i1 = preFieldS8 := funext preFieldS8_getD
  have hi2 : i2 = preFieldS16 := funext preFieldS16_getD
  have hflag : flag = setField := funext setField_ite
  have hyes : yes = yesField := funext yesField_ite
  clear_value o1 o2 o3 p2 p4 i1 i2 flag yes b4 b3 b2 b1
  subst hb1 hb2 hb3 hb4 ho1 ho2 ho3 hp2 hp4 hi1 hi2 hflag hyes
  intro port
  have hport : port = portRecord := funext fun r => (portRecord_fields r).symm
  clear_value port
  subst hport
  refine ⟨?channel, ?entries, ?driver, ?summary, ?axles, ?group, ?derate, ?positions, ?learn, ?worst, ?strangers, ?strangerCount,
    ?stage, ?indicators, ?inertial, ?up, ?down, ?queues, ?result, ?testQueue, ?holder, ?words, ?checks, ?staging, ?faults,
    ?reset, ?attention, ?status, by decide⟩
  case channel =>
    have hbits : bit ch.causes.startup 1 + bit ch.causes.noDemandSource 2 + bit ch.causes.parked 4 + bit ch.causes.forced 8 +
        bit ch.causes.tracking 16 + bit ch.causes.deliverySensor 32 + bit ch.causes.testFault 64 = causeBits ch.causes :=
      (maskOf_seven _ _ _ _ _ _ _).symm
    rw [tableRecord_channel, ← field8_ite w.valid, hbits]
    rfl
  case entries =>
    intro j hj source
    refine (tableRecord_entry v s c hj).trans ?_
    rw [sourceAt_getD hj]
    exact congrArg some (entryRecord_fields source (entryOf s c source))
  case driver => rfl
  case summary => exact tableRecord_summary v s c
  case axles => simp only [tableRecord, loadRecord, axleRecord, field8_ite, and_self]
  case group => rfl
  case derate => exact tableRecord_derate v s c
  case positions =>
    intro n hn r has
    rw [tableRecord_position v s hn, positionRecord, learning_position]
    rfl
  case learn =>
    change some (learnRecord s) = _
    rw [learnRecord, learnRecord_present]
    rfl
  case worst => rfl
  case strangers =>
    intro n hn
    rw [tableRecord_stranger v s hn]
    cases s.tyre.strangers[n]? <;> rfl
  case strangerCount => rfl
  case stage => rfl
  case indicators => rfl
  case inertial =>
    change some (_ ++ yesField (accelAvailable _)) = _
    unfold accelAvailable
    cases s.roll.inertial.age <;> rfl
  case up => rfl
  case down => rfl
  case queues => rfl
  case result => exact tableRecord_result v s c
  case testQueue => rfl
  case holder =>
    change some (holderRecord s.tests.holder) = _
    cases s.tests.holder <;> rfl
  case words => exact fun n hn => tableRecord_word v s hn
  case checks => rfl
  case staging => rfl
  case faults =>
    intro latch
    have hlatch : latch = viewLatch v := by cases v <;> rfl
    clear_value latch
    subst hlatch
    refine ⟨fun n hn => tableRecord_fault v s hn, rfl, ?_⟩
    cases v <;> rfl
  case reset => rfl
  case attention => exact ⟨rfl, rfl⟩
  case status =>
    intro report count
    rw [statusPayload, backupMask, skidActiveMask, allChannels, (worst_bytes s).1, (worst_bytes s).2, maskOf_two]
    simp only [List.map_cons, List.map_nil, maskOf_four]
    rfl

end Sys2Proof
end

