-- ==== Sys2Proof/Proofs/BackupCommands.lean ====
section
/-! FORCE_BACKUP and RESTORE (R6, R7; O29): what a transfer adds to its command, and what each command does to one channel. -/

namespace Sys2Proof

open Sys2Proof.Machine

/-! ## Causes added one after the other (R2, R4) -/

theorem AddsCauses.trans {s t u : State} {c : Channel} {p q : Cause → Bool} (h : AddsCauses s t c p) (k : AddsCauses t u c q) :
    AddsCauses s u c (fun j => p j || q j) := by
  intro j
  rw [k j, h j, Bool.or_assoc]

theorem AddsCauses.before {s t u : State} {c : Channel} {p : Cause → Bool} (h : samePart s t (.causes c))
    (k : AddsCauses t u c p) : AddsCauses s u c p := by
  intro j
  rw [k j, h.1]

theorem AddsCauses.after {s t u : State} {c : Channel} {p : Cause → Bool} (h : AddsCauses s t c p)
    (k : samePart t u (.causes c)) : AddsCauses s u c p := by
  intro j
  rw [k.1, h j]

theorem AddsCauses.congr {s t : State} {c : Channel} {p q : Cause → Bool} (h : AddsCauses s t c p) (hpq : ∀ j, p j = q j) :
    AddsCauses s t c q := fun j => by rw [h j, hpq j]

theorem addCause_addsCauses (k : Cause) (c : Channel) (s : State) : AddsCauses s (addCause k c s) c (fun j => j == k) :=
  fun j => addCause_causes k j c s

/-- What the entry of a channel into BACKUP changes is not another channel's. -/
theorem backupParts_other {c d : Channel} (hd : d ≠ c) :
    .causes c ∉ backupParts d ∧ .valves c ∉ backupParts d ∧ .skid c ∉ backupParts d := by
  simp [backupParts, freeParts, resolveParts, abortParts, eventParts, noticeParts, Ne.symm hd]

theorem maskTurn_frame {f : Channel → List Part} {g : Channel → State → State} {mask : Nat} {d : Channel} {t : State}
    (h : OnlyChanges (f d) t (g d t)) : OnlyChanges (f d) t (maskTurn mask g d t) :=
  maskTurn_rel (R := OnlyChanges (f d)) (.refl _ t) h

/-- What an operation adds to a channel in its own turn stands once every channel had its turn. -/
theorem forChannels_addsCauses {g : Channel → State → State} {p : Cause → Bool} (c : Channel)
    (hframe : ∀ d t, OnlyChanges (backupParts d) t (g d t)) (hself : ∀ t, AddsCauses t (g c t) c p) (s : State) :
    AddsCauses s (forChannels g s) c p :=
  forChannels_turn (R := fun t u => AddsCauses t u c p) (S := fun t u => samePart t u (.causes c)) c
    (fun _ _ _ h k => k.before h) (fun _ _ _ h k => h.after k) hself
    (fun d t hd => hframe d t _ (backupParts_other hd).1) s

theorem startupHeld_frame (c : Channel) (s : State) :
    OnlyChanges [.causes c] s (setChannel s c { channelOf s c with startupHeld := true }) :=
  setCauses_frame c (channelOf s c).causes true

theorem addStartup_addsCauses (c : Channel) (s : State) : AddsCauses s (addStartup c s) c (fun j => j == .startup) := by
  intro j
  unfold addStartup
  rw [addCause_causes]
  simp

/-- A wake adds STARTUP to every channel (R178, R4). -/
theorem wake_addsCauses {s : State} (hp : isParked s = true) (r : WakeReason) (c : Channel) :
    AddsCauses s (wake r s) c (fun j => j == .startup) := by
  unfold wake
  rw [if_pos hp]
  refine AddsCauses.before ?_ (forChannels_addsCauses c addStartup_frame (addStartup_addsCauses c) _)
  exact (raiseWakeReason_frame _).step (setStandby_frame s _) (l := [.standby, .attention .a]) (by simp) (by simp)
    (.causes c) (by simp)

/-! ## A channel in BACKUP takes another cause -/

/-- What a channel in BACKUP is left with by the turns of others. -/
structure StaysBackedUp (c : Channel) (s t : State) : Prop where
  causes : samePart s t (.causes c)
  valves : samePart s t (.valves c)
  skid : samePart s t (.skid c)
  holder : HolderLe s t

theorem StaysBackedUp.of_frame {l : List Part} {c : Channel} {s t : State} (h : OnlyChanges l s t) (hh : HolderLe s t)
    (hl : .causes c ∉ l ∧ .valves c ∉ l ∧ .skid c ∉ l) : StaysBackedUp c s t :=
  ⟨h _ hl.1, h _ hl.2.1, h _ hl.2.2, hh⟩

theorem BackedUp.stays {c : Channel} {s t : State} (hs : BackedUp s c) (h : StaysBackedUp c s t) : BackedUp t c := by
  obtain ⟨he, hbackup, hinlet, hexhaust, hcontrol, htracking, hskid, htest⟩ := hs
  obtain ⟨hstate, htime, hvalve, hin, hex⟩ := h.valves
  have hrec : t.skid.get c = s.skid.get c := h.skid
  exact ⟨(electronic_same h.causes).trans he, hvalve.trans hbackup, hin.trans hinlet, hex.trans hexhaust,
    hstate.trans hcontrol, htime.trans htracking, hrec ▸ hskid, h.holder.underTest htest⟩

theorem addCause_stays {k : Cause} {c d : Channel} (hd : d ≠ c) (s : State) : StaysBackedUp c s (addCause k d s) :=
  .of_frame (addCause_frame k d s) (addCause_holder k d s) (backupParts_other hd)

/-- A cause added to a channel in BACKUP is all that changes (R2). -/
theorem BackedUp.addCause {c : Channel} {s : State} (hs : BackedUp s c) (k : Cause) : BackedUp (Machine.addCause k c s) c := by
  have he : electronic s c = false := hs.1
  obtain ⟨-, hrest⟩ := hs
  refine ⟨addCause_backup k c s, ?_⟩
  rcases addCause_cases k c s with ⟨h, -⟩ | ⟨-, h⟩ | ⟨h, -⟩
  · rwa [h]
  · simp [he] at h
  · rw [h]
    simpa [underTest, runningTest] using hrest

theorem BackedUp.addStartup {c : Channel} {s : State} (hs : BackedUp s c) : BackedUp (Machine.addStartup c s) c := by
  refine BackedUp.addCause ?_ .startup
  simpa [BackedUp, electronic, underTest, runningTest] using hs

theorem addStartup_stays {c d : Channel} (hd : d ≠ c) (s : State) : StaysBackedUp c s (addStartup d s) :=
  .of_frame (addStartup_frame d s) ((HolderLe.of_frame (startupHeld_frame d s) (by simp)).trans (addCause_holder _ d _))
    (backupParts_other hd)

theorem forChannels_backedUp {g : Channel → State → State} (c : Channel) (hself : ∀ t, BackedUp t c → BackedUp (g c t) c)
    (hother : ∀ d t, d ≠ c → StaysBackedUp c t (g d t)) {s : State} (hs : BackedUp s c) : BackedUp (forChannels g s) c := by
  refine forChannels_keeps (P := fun t => BackedUp t c) (fun d t ht => ?_) s hs
  by_cases hd : d = c
  · subst hd
    exact hself t ht
  · exact ht.stays (hother d t hd)

theorem BackedUp.wake {c : Channel} {s : State} (hs : BackedUp s c) (r : WakeReason) : BackedUp (Machine.wake r s) c := by
  unfold Machine.wake
  split
  · refine forChannels_backedUp c (fun _ => .addStartup) (fun d t hd => addStartup_stays hd t) (hs.stays ?_)
    exact .of_frame ((raiseWakeReason_frame _).step (setStandby_frame s _) (l := [.standby, .attention .a]) (by simp) (by simp))
      (.of_frame ((raiseWakeReason_frame _).step (setStandby_frame s _) (l := [.standby, .attention .a]) (by simp) (by simp))
        (by simp)) (by simp)
  · exact hs

/-! ## What a transfer adds to its command (R165, R178) -/

section Transfer

variable {p : Port} {n : Nat} {act : Action} {s : State} {l : List Part}

/-- What a transfer does after its command: the answer, the wake in PARKED, the faults. -/
theorem transfer_eq (p : Port) (n : Nat) (act : Action) (s : State) :
    let u := answer (act s).2 p ⟨n, (act s).1.code, (act s).1.record⟩
    transfer p n act s = refreshFaults (if isParked s then wake .port u else u) := rfl

theorem answer_parked (r : Response) (h : OnlyChanges l s (act s).2) (hstandby : .standby ∉ l) :
    isParked (answer (act s).2 p r) = isParked s :=
  (answer_frame (act s).2 p r).parked (by simp) |>.trans (h.parked hstandby)

theorem answer_answers (r : Response) (s : State) :
    (portOf (answer s p r) p).shiftedOut = some (portOf s p).pending ∧ (portOf (answer s p r) p).pending = r := by
  cases p <;> exact ⟨rfl, rfl⟩

/-- The port has shifted out what was pending and holds the command's answer. -/
theorem transfer_answered {reply : Reply} {t : State} (hact : act s = (reply, t)) (h : OnlyChanges l s t)
    (hl : .response p ∉ l) : Answered s (transfer p n act s) p n reply.code reply.record := by
  have hbefore : samePart s t (.response p) := h _ hl
  obtain ⟨hshift, hpending⟩ := answer_answers (p := p) ⟨n, reply.code, reply.record⟩ t
  have hafter : samePart (answer t p ⟨n, reply.code, reply.record⟩) (transfer p n act s) (.response p) := by
    rw [transfer_eq, hact]
    refine (refreshFaults_frame _).step (a := wakeParts (answer t p ⟨n, reply.code, reply.record⟩))
      (l := wakeParts (answer t p ⟨n, reply.code, reply.record⟩) ++ noticeParts) ?_ (by simp) (by simp) (.response p) ?_
    · dsimp only
      split
      · exact wake_frame_parked .port _
      · exact .refl _ _
    · have hwake : Part.response p ∉ wakeParts (answer t p ⟨n, reply.code, reply.record⟩) :=
        not_mem_wakeParts (by simp) (fun c => by
          simp [backupParts, freeParts, resolveParts, abortParts, eventParts, noticeParts])
      simpa [noticeParts] using hwake
  obtain ⟨hpend, hshifted⟩ := hafter
  exact ⟨by rw [hshifted, hshift, hbefore.1], by rw [hpend, hpending]⟩

/-- A transfer adds STARTUP to the causes its command leaves, in PARKED. -/
theorem transfer_addsCauses (h : OnlyChanges l s (act s).2) (hstandby : .standby ∉ l) (c : Channel) :
    AddsCauses (act s).2 (transfer p n act s) c (fun j => j == .startup && isParked s) := by
  rw [transfer_eq]
  refine AddsCauses.after ?_ (refreshFaults_frame _ (.causes c) (by simp [noticeParts]))
  have hanswer : samePart (act s).2 (answer (act s).2 p ⟨n, (act s).1.code, (act s).1.record⟩) (.causes c) :=
    answer_frame _ p _ _ (by simp)
  split
  · next hp =>
    have hwake := wake_addsCauses ((answer_parked (p := p) ⟨n, (act s).1.code, (act s).1.record⟩ h hstandby).trans hp) .port c
    exact (hwake.before hanswer).congr (by simp [hp])
  · next hp =>
    intro j
    rw [hanswer.1]
    simp [hp]

theorem transfer_backedUp {c : Channel} (h : BackedUp (act s).2 c) : BackedUp (transfer p n act s) c := by
  have hanswer := answer_frame (act s).2 p ⟨n, (act s).1.code, (act s).1.record⟩
  have hu : BackedUp _ c := h.stays (.of_frame hanswer (.of_frame hanswer (by simp)) (by simp))
  rw [transfer_eq]
  refine BackedUp.refresh ?_
  split
  · exact hu.wake .port
  · exact hu

end Transfer

/-! ## FORCE_BACKUP (R6) -/

theorem maskOk_of {mask : Nat} (h0 : 0 < mask) (h : mask < 16) : maskOk mask = true := by simp [maskOk, h0, h]

theorem forMask_forced_causes (mask : Nat) (c : Channel) (s : State) : AddsCauses s (forMask mask (addCause .forced) s) c
    (fun j => j == .forced && mask.testBit (channelNumber c)) := by
  rw [forMask_eq]
  refine forChannels_addsCauses c (fun d t => maskTurn_frame (addCause_frame .forced d t)) (fun t => ?_) s
  unfold maskTurn inMask
  split
  · next hbit => exact (addCause_addsCauses .forced c t).congr (by simp [hbit])
  · next hbit => exact fun j => by simp [hbit]

/-- An ELECTRONIC channel that the mask names is backed up by its turn, and stays so (R2, R6). -/
theorem forMask_forced_backedUp {mask : Nat} {c : Channel} (hbit : mask.testBit (channelNumber c) = true) (s : State)
    (he : electronic s c = true) : BackedUp (forMask mask (addCause .forced) s) c := by
  rw [forMask_eq]
  refine forChannels_turn (R := fun t u => electronic t c = true → BackedUp u c) (S := StaysBackedUp c) c
    (fun _ _ _ h hR ht => hR ((electronic_same h.causes).trans ht)) (fun _ _ _ hR h ht => (hR ht).stays h)
    (fun t ht => ?_) (fun d t hd => ?_) s he
  · have hturn : maskTurn mask (addCause .forced) c t = addCause .forced c t := by simp [maskTurn, inMask, hbit]
    rw [hturn]
    exact addCause_backedUp .forced c t ht
  · exact maskTurn_rel (R := StaysBackedUp c) (.of_frame (.refl [] t) (.refl t) (by simp)) (addCause_stays hd t)

theorem forceBackup_acts {s : State} {mask : Nat} (h0 : 0 < mask) (h16 : mask < 16) (p : Port) :
    ∃ t, exec (.forceBackup p mask) s = .next t ∧ Answered s t p 5 .ok [] ∧
      (∀ c, AddsCauses s t c (fun k =>
          (k == .forced && mask.testBit (channelNumber c)) || (k == .startup && isParked s)) ∧
        (mask.testBit (channelNumber c) = true → electronic s c = true → BackedUp t c)) ∧
      OnlyChanges (everyChannel (fun c => if mask.testBit (channelNumber c) then backupParts c else []) ++
        transferParts s p) s t := by
  have hact : withArgument (maskOk mask) (accept (forMask mask (addCause .forced))) s =
      (plainReply .ok, forMask mask (addCause .forced) s) := by simp [withArgument, maskOk_of h0 h16, accept]
  have hframe : OnlyChanges (everyChannel (fun c => if mask.testBit (channelNumber c) then backupParts c else [])) s
      (withArgument (maskOk mask) (accept (forMask mask (addCause .forced))) s).2 := by
    rw [hact]
    exact forMask_frame mask (addCause_frame .forced) s
  have hall := forMask_frame_all mask (addCause_frame .forced) s
  refine ⟨_, rfl, transfer_answered hact hall ?_, fun c => ⟨?_, fun hbit he => transfer_backedUp ?_⟩, transfer_frame hframe⟩
  · simp [mem_everyChannel, backupParts, freeParts, resolveParts, abortParts, eventParts, noticeParts]
  · refine AddsCauses.trans (t := forMask mask (addCause .forced) s) (forMask_forced_causes mask c s) ?_
    have hadds := transfer_addsCauses (p := p) (n := 5) (act := withArgument (maskOk mask) (accept (forMask mask (addCause .forced))))
      (s := s) (by rw [hact]; exact hall)
      (by simp [mem_everyChannel, backupParts, freeParts, resolveParts, abortParts, eventParts, noticeParts]) c
    rwa [hact] at hadds
  · rw [hact]
    exact forMask_forced_backedUp hbit s he

/-! ## Anti-lock re-enabled (R55) -/

/-- Anti-lock acts on the channel again, with no forced hold counted (R55). -/
def Reenabled (s : State) (c : Channel) : Prop := (s.skid.get c).disabled = false ∧ (s.skid.get c).forcedCount = 0

theorem Reenabled.same {c : Channel} {s t : State} (hs : Reenabled s c) (h : samePart s t (.skid c)) : Reenabled t c := by
  have hrec : t.skid.get c = s.skid.get c := h
  exact ⟨hrec ▸ hs.1, hrec ▸ hs.2⟩

theorem Reenabled.frame {l : List Part} {c : Channel} {s t : State} (hs : Reenabled s c) (h : OnlyChanges l s t)
    (hl : .skid c ∉ l) : Reenabled t c := hs.same (h _ hl)

theorem reenableAntiLock_reenabled (c : Channel) (s : State) : Reenabled (reenableAntiLock c s) c := by
  simp [Reenabled, reenableAntiLock]

/-- The return to FREE keeps the flag and the count (R48). -/
theorem Reenabled.freeSkid {c : Channel} {s : State} (hs : Reenabled s c) : Reenabled (Machine.freeSkid c s) c := by
  unfold Machine.freeSkid
  dsimp only
  split
  · exact hs
  · refine Reenabled.frame (Reenabled.frame (c := c) ?_ (withdraw_frame c .skid _) (by simp [resolveParts, abortParts]))
      (queueEvent_frame _) (by simp [eventParts, noticeParts])
    simpa [Reenabled] using hs

theorem Reenabled.enterBackup {c : Channel} {s : State} (hs : Reenabled s c) : Reenabled (Machine.enterBackup c s) c := by
  rw [enterBackup_eq]
  refine Reenabled.frame (Reenabled.freeSkid ?_) (queueEvent_frame _) (by simp [eventParts, noticeParts])
  exact (hs.frame (deEnergise_frame c s) (by simp)).frame (testBackupNotice_quiet c _) (by simp)

theorem Reenabled.addCause {c : Channel} {s : State} (hs : Reenabled s c) (k : Cause) :
    Reenabled (Machine.addCause k c s) c := by
  have hput : Reenabled (setChannel s c { channelOf s c with causes := (channelOf s c).causes.put k true }) c :=
    hs.frame (setCauses_frame (s := s) c _ (channelOf s c).startupHeld) (by simp)
  rcases addCause_cases k c s with ⟨h, -⟩ | ⟨h, -⟩ | ⟨h, -⟩ <;> rw [h]
  · exact hs
  · exact hput.enterBackup
  · exact hput

theorem Reenabled.wake {c : Channel} {s : State} (hs : Reenabled s c) (r : WakeReason) : Reenabled (Machine.wake r s) c := by
  unfold Machine.wake
  split
  · refine forChannels_keeps (P := fun t => Reenabled t c) (fun d t ht => ?_) _ ?_
    · by_cases hd : d = c
      · subst hd
        exact (ht.frame (startupHeld_frame d t) (by simp)).addCause .startup
      · exact ht.frame (addStartup_frame d t) (backupParts_other hd).2.2
    · exact (hs.frame (setStandby_frame s _) (by simp)).frame (raiseWakeReason_frame _) (by simp)
  · exact hs

/-! ## One channel restored (R7, R3, R55) -/

/-- The causes of a channel replaced by what remains: the last one gone energises the channel (R3). -/
theorem keepCauses_cases (k : CauseSet) (c : Channel) (s : State) :
    let s1 := setChannel s c { channelOf s c with causes := k }
    (keepCauses k c s = enterElectronic c s1 ∧ electronic s c = false ∧ k.isEmpty = true) ∨
    (keepCauses k c s = s1 ∧ (electronic s c = true ∨ k.isEmpty = false)) := by
  unfold keepCauses electronic
  cases he : (channelOf s c).causes.isEmpty with
  | true => simp [he]
  | false => cases hk : k.isEmpty <;> simp [he]

/-- What a RESTORE may change of a channel. -/
def restoreParts (c : Channel) : List Part := .causes c :: .valves c :: .skid c :: eventParts

theorem restoreChannel_frame (c : Channel) (s : State) : OnlyChanges (restoreParts c) s (restoreChannel c s) :=
  (reenableAntiLock_frame c _).step (keepCauses_frame _ c s)
    (by intro q hq; simp only [restoreParts, List.mem_cons] at hq ⊢; tauto) (by simp [restoreParts])

/-- An event frame that waits goes on waiting. -/
def EventsWait (s t : State) : Prop := s.link.statusQueue.any isEvent = true → t.link.statusQueue.any isEvent = true

theorem EventsWait.of_frame {l : List Part} {s t : State} (h : OnlyChanges l s t) (hl : .statusQueue ∉ l) : EventsWait s t := by
  have hqueue : t.link.statusQueue = s.link.statusQueue := h .statusQueue hl
  exact fun hs => hqueue ▸ hs

theorem queueEvent_wait (s : State) : EventsWait s (queueEvent s) := by
  intro hs
  rw [queueEvent_statusQueue, if_pos hs]
  split
  · simpa [List.any_map, Function.comp_def, rebuildEvent_isEvent] using hs
  · exact hs

theorem restoreChannel_wait (c : Channel) (s : State) : EventsWait s (restoreChannel c s) := by
  intro hs
  refine EventsWait.of_frame (reenableAntiLock_frame c _) (by simp) ?_
  have hput := EventsWait.of_frame (setCauses_frame (s := s) c (restoredCauses s c) (channelOf s c).startupHeld) (by simp) hs
  rcases keepCauses_cases (restoredCauses s c) c s with ⟨h, -⟩ | ⟨h, -⟩ <;> rw [h]
  · refine queueEvent_wait _ (EventsWait.of_frame (l := [.valves c]) ?_ (by simp) hput)
    exact setChannel_frame (.inr ⟨rfl, rfl⟩) (.inr ⟨rfl, rfl⟩) (.inl (by simp)) (.inr rfl)
  · exact hput

/-- What the restoring of other channels leaves of a channel and of what its own restoring looks at. -/
structure Apart (c : Channel) (s t : State) : Prop where
  front : samePart s t .front
  causes : samePart s t (.causes c)
  valves : samePart s t (.valves c)
  skid : samePart s t (.skid c)
  port : samePart s t (.linkPort .up)
  events : EventsWait s t

theorem Apart.refl (c : Channel) (s : State) : Apart c s s :=
  ⟨.refl s _, .refl s _, .refl s _, .refl s _, .refl s _, id⟩

theorem restoreChannel_apart {c d : Channel} (hd : d ≠ c) (s : State) : Apart c s (restoreChannel d s) := by
  have h := restoreChannel_frame d s
  refine ⟨h _ ?_, h _ ?_, h _ ?_, h _ ?_, h _ ?_, restoreChannel_wait d s⟩ <;>
    simp [restoreParts, eventParts, noticeParts, Ne.symm hd]

/-- A channel restored: its causes, its anti-lock, and its valves as its mode goes (R7, R55, R3). -/
structure Restored (c : Channel) (s t : State) : Prop where
  causes : (channelOf t c).causes = restoredCauses s c
  antiLock : Reenabled t c
  energised : electronic s c = false → electronic t c = true →
    (channelOf t c).backupValve = true ∧ (channelOf t c).inlet = .closed ∧ (channelOf t c).exhaust = .closed ∧
      (channelOf t c).tracking = none ∧ EventQueued s t
  valves : electronic s c = true ∨ electronic t c = false → samePart s t (.valves c)

section Restored

variable {c : Channel} {s t u : State}

theorem Restored.before (h : Apart c s t) (k : Restored c t u) : Restored c s u := by
  have hfront : t.front = s.front := h.front
  have he : electronic t c = electronic s c := electronic_same h.causes
  have hup : linkPort t .up = linkPort s .up := h.port
  refine ⟨?_, k.antiLock, fun hs hu => ?_, fun hor => ?_⟩
  · rw [k.causes]
    simp only [restoredCauses, h.causes.1, hfront]
  · obtain ⟨hvalve, hin, hex, htime, hevent⟩ := k.energised (he.trans hs) hu
    exact ⟨hvalve, hin, hex, htime, fun hactive => hevent ((congrArg PortRec.state hup).trans hactive)⟩
  · exact h.valves.trans (k.valves (hor.imp_left he.trans))

theorem Restored.after (h : Restored c s t) (hcauses : samePart t u (.causes c)) (hvalves : samePart t u (.valves c))
    (hskid : samePart t u (.skid c)) (hevents : EventsWait t u) : Restored c s u := by
  have he : electronic u c = electronic t c := electronic_same hcauses
  refine ⟨hcauses.1.trans h.causes, h.antiLock.same hskid, fun hs hu => ?_, fun hor => ?_⟩
  · obtain ⟨hvalve, hin, hex, htime, hevent⟩ := h.energised hs (he ▸ hu)
    obtain ⟨-, htime', hvalve', hin', hex'⟩ := hvalves
    exact ⟨hvalve'.trans hvalve, hin'.trans hin, hex'.trans hex, htime'.trans htime, fun hactive => hevents (hevent hactive)⟩
  · exact (h.valves (hor.imp_right (he ▸ ·))).trans hvalves

theorem enterElectronic_valves (c : Channel) (s : State) :
    (channelOf (enterElectronic c s) c).backupValve = true ∧ (channelOf (enterElectronic c s) c).inlet = .closed ∧
      (channelOf (enterElectronic c s) c).exhaust = .closed ∧ (channelOf (enterElectronic c s) c).tracking = none := by
  obtain ⟨-, htime, hvalve, hin, hex⟩ := queueEvent_frame (setChannel s c { channelOf s c with
    backupValve := true, inlet := .closed, exhaust := .closed, tracking := none }) (.valves c) (by simp [eventParts, noticeParts])
  exact ⟨hvalve.trans (by simp), hin.trans (by simp), hex.trans (by simp), htime.trans (by simp)⟩

theorem keepCauses_restored (c : Channel) (s : State) :
    (electronic s c = false → electronic (keepCauses (restoredCauses s c) c s) c = true →
      (channelOf (keepCauses (restoredCauses s c) c s) c).backupValve = true ∧
      (channelOf (keepCauses (restoredCauses s c) c s) c).inlet = .closed ∧
      (channelOf (keepCauses (restoredCauses s c) c s) c).exhaust = .closed ∧
      (channelOf (keepCauses (restoredCauses s c) c s) c).tracking = none ∧
      EventQueued s (keepCauses (restoredCauses s c) c s)) ∧
    (electronic s c = true ∨ electronic (keepCauses (restoredCauses s c) c s) c = false →
      samePart s (keepCauses (restoredCauses s c) c s) (.valves c)) := by
  have helec : electronic (keepCauses (restoredCauses s c) c s) c = (restoredCauses s c).isEmpty := by
    rw [electronic, keepCauses_causes, if_pos rfl]
  have hput := setCauses_frame (s := s) c (restoredCauses s c) (channelOf s c).startupHeld
  rw [helec]
  rcases keepCauses_cases (restoredCauses s c) c s with ⟨h, he, hempty⟩ | ⟨h, hor⟩ <;> rw [h]
  · refine ⟨fun _ _ => ?_, fun hor => by simp [he, hempty] at hor⟩
    obtain ⟨hvalve, hin, hex, htime⟩ := enterElectronic_valves c (setChannel s c { channelOf s c with causes := restoredCauses s c })
    refine ⟨hvalve, hin, hex, htime, fun hactive => queueEvent_queued ?_⟩
    simpa using hactive
  · exact ⟨fun he hempty => by simp [he, hempty] at hor, fun _ => hput (.valves c) (by simp)⟩

theorem restoreChannel_restored (c : Channel) (s : State) : Restored c s (restoreChannel c s) := by
  have hframe := reenableAntiLock_frame c (keepCauses (restoredCauses s c) c s)
  have hcauses : samePart (keepCauses (restoredCauses s c) c s) (restoreChannel c s) (.causes c) := hframe _ (by simp)
  have hvalves : samePart (keepCauses (restoredCauses s c) c s) (restoreChannel c s) (.valves c) := hframe _ (by simp)
  obtain ⟨hon, hoff⟩ := keepCauses_restored c s
  have he := electronic_same hcauses
  refine ⟨?_, reenableAntiLock_reenabled c _, fun hs ht => ?_, fun hor => (hoff (hor.imp_right (he ▸ ·))).trans hvalves⟩
  · rw [hcauses.1, keepCauses_causes, if_pos rfl]
  · obtain ⟨hvalve, hin, hex, htime, hevent⟩ := hon hs (he ▸ ht)
    obtain ⟨-, htime', hvalve', hin', hex'⟩ := hvalves
    exact ⟨hvalve'.trans hvalve, hin'.trans hin, hex'.trans hex, htime'.trans htime,
      fun hactive => EventsWait.of_frame hframe (by simp) (hevent hactive)⟩

end Restored

/-- Each channel that the mask names is restored. -/
theorem forMask_restored {mask : Nat} {c : Channel} (hbit : mask.testBit (channelNumber c) = true) (s : State) :
    Restored c s (forMask mask restoreChannel s) := by
  rw [forMask_eq]
  refine forChannels_turn (R := Restored c) (S := Apart c) c (fun _ _ _ => .before)
    (fun _ _ _ h k => h.after k.causes k.valves k.skid k.events) (fun t => ?_)
    (fun d t hd => maskTurn_rel (R := Apart c) (.refl c t) (restoreChannel_apart hd t)) s
  have hturn : maskTurn mask restoreChannel c t = restoreChannel c t := by simp [maskTurn, inMask, hbit]
  rw [hturn]
  exact restoreChannel_restored c t

/-! ## RESTORE (R7) -/

theorem transfer_reenabled {p : Port} {n : Nat} {act : Action} {s : State} {c : Channel} (h : Reenabled (act s).2 c) :
    Reenabled (transfer p n act s) c := by
  rw [transfer_eq]
  refine Reenabled.frame ?_ (refreshFaults_frame _) (by simp [noticeParts])
  have hanswer := h.frame (answer_frame (act s).2 p ⟨n, (act s).1.code, (act s).1.record⟩) (by simp)
  split
  · exact hanswer.wake .port
  · exact hanswer

/-- Outside PARKED a transfer adds the answer and the faults to its command. -/
theorem transfer_awake {p : Port} {n : Nat} {act : Action} {s : State} (h : isParked s = false) :
    OnlyChanges (.response p :: noticeParts) (act s).2 (transfer p n act s) := by
  rw [transfer_eq]
  simp only [h, Bool.false_eq_true, if_false]
  exact (refreshFaults_frame _).step (answer_frame (act s).2 p _) (by simp) (by simp)

theorem restored_has (s : State) (c : Channel) (k : Cause) : (restoredCauses s c).has k = match k with
    | .forced => false
    | .tracking => false
    | .testFault => false
    | .deliverySensor => (channelOf s c).causes.deliverySensor && (s.front.delivery.get c).isNone
    | .startup => (channelOf s c).causes.startup
    | .noDemandSource => (channelOf s c).causes.noDemandSource
    | .parked => (channelOf s c).causes.parked := by
  cases k <;> rfl

theorem restore_acts {s : State} {mask : Nat} (h0 : 0 < mask) (h16 : mask < 16) (hdemand : s.driver.demand < 15) :
    ∃ t, exec (.restore .b mask) s = .next t ∧ Answered s t .b 4 .ok [] ∧
      (∀ c, mask.testBit (channelNumber c) = true →
        (∀ k, (channelOf t c).causes.has k = match k with
          | .forced => false
          | .tracking => false
          | .testFault => false
          | .deliverySensor => (channelOf s c).causes.deliverySensor && (s.front.delivery.get c).isNone
          | .startup => (channelOf s c).causes.startup || isParked s
          | .noDemandSource => (channelOf s c).causes.noDemandSource
          | .parked => (channelOf s c).causes.parked) ∧
        (t.skid.get c).disabled = false ∧ (t.skid.get c).forcedCount = 0 ∧
        (isParked s = false → electronic s c = false → electronic t c = true →
          (channelOf t c).backupValve = true ∧ (channelOf t c).inlet = .closed ∧ (channelOf t c).exhaust = .closed ∧
          (channelOf t c).tracking = none ∧ EventQueued s t) ∧
        (isParked s = false → (electronic s c = true ∨ electronic t c = false) → samePart s t (.valves c))) ∧
      OnlyChanges (everyChannel (fun c =>
        if mask.testBit (channelNumber c) then [.causes c, .valves c, .skid c, .statusQueue] else []) ++
        transferParts s .b) s t := by
  let act : Action := takenFrom .b .b (withArgument (maskOk mask) (unlessState driverBraking .notNow
    (accept (forMask mask restoreChannel))))
  have hact : act s = (plainReply .ok, forMask mask restoreChannel s) := by
    simp [act, takenFrom, withArgument, maskOk_of h0 h16, unlessState, driverBraking, accept, Nat.not_le.mpr hdemand]
  have hframe := forMask_frame mask restoreChannel_frame s
  have hall := forMask_frame_all mask restoreChannel_frame s
  have hadds (c : Channel) := transfer_addsCauses (p := .b) (n := 4) (act := act) (s := s) (by rw [hact]; exact hall)
    (by simp [mem_everyChannel, restoreParts, eventParts, noticeParts]) c
  refine ⟨transfer .b 4 act s, rfl, transfer_answered hact hall ?_, fun c hbit => ?_, ?_⟩
  · simp [mem_everyChannel, restoreParts, eventParts, noticeParts]
  · have hres := forMask_restored hbit s
    have hawake (hp : isParked s = false) : Restored c s (transfer .b 4 act s) := by
      have hrest := transfer_awake (p := .b) (n := 4) (act := act) hp
      rw [hact] at hrest
      exact hres.after (hrest _ (by simp [noticeParts])) (hrest _ (by simp [noticeParts])) (hrest _ (by simp [noticeParts]))
        (.of_frame hrest (by simp [noticeParts]))
    obtain ⟨hdisabled, hcount⟩ := transfer_reenabled (p := .b) (n := 4) (act := act) (s := s) (c := c)
      (by rw [hact]; exact hres.antiLock)
    refine ⟨fun k => ?_, hdisabled, hcount, fun hp => (hawake hp).energised, fun hp => (hawake hp).valves⟩
    rw [hadds c k, hact, hres.causes, restored_has]
    cases k <;> simp
  · refine (transfer_frame (p := .b) (n := 4) (act := act) (s := s) (by rw [hact]; exact hframe)).mono ?_
    intro q hq
    simp only [List.mem_append, mem_everyChannel] at hq ⊢
    rcases hq with ⟨c, hc⟩ | hq
    · split at hc
      · next hbit =>
        have hparts : q ∈ [.causes c, .valves c, .skid c, .statusQueue] ++ noticeParts := hc
        rcases List.mem_append.mp hparts with hown | hnotice
        · exact .inl ⟨c, by rwa [if_pos (show mask.testBit (channelNumber c) = true from hbit)]⟩
        · exact .inr (by simp [transferParts, hnotice])
      · simp at hc
    · exact .inr hq

/-- Settles O29: each command acts on one channel after another, and the transfer adds no more than its answer and a wake. -/
theorem backupIsForcedAndRestored : Obligations.BackupIsForcedAndRestored := fun _ _ h0 h16 =>
  ⟨forceBackup_acts h0 h16, restore_acts h0 h16⟩

end Sys2Proof
end

