-- ==== Sys2Proof/Proofs/SampleWalk.lean ====
section
/-! The end of a pressure sample: what the monitors and the safe-point test after the control samples keep of a channel. -/

namespace Sys2Proof

open Sys2Proof.Machine

/-! ## What the walk through the end of a sample asks of a predicate -/

/-- The parts that the predicates of the walk speak of. -/
def isTail : Part → Bool
  | .standby | .stage | .holder => true
  | .causes _ | .valves _ | .skid _ => true
  | _ => false

theorem isTail_le_core (q : Part) (h : isTail q = true) : isCore q = true := by
  cases q <;> simp_all [isTail, isCore]

/-- The shared operations of the Rollover Monitor and of an apply keep a predicate. -/
structure TailKept (P : State → Prop) : Prop where
  same {s t : State} : SameOn isTail s t → P s → P t
  resolve (c : Channel) {s : State} : P s → P (resolve c s)
  setStage {r : StageRec} {s : State} : r.probed = s.roll.stage.probed ∨ r.probed = none → P s → P (setStage r s)
  freeGenerator {s : State} : P s → P (freeGenerator s)
  enterProbe {s : State} : P s → P (enterProbe s)
  wake (r : WakeReason) {s : State} : P s → P (wake r s)
  restartWakeTimer {s : State} : P s → P (restartWakeTimer s)

section Tail
variable {P : State → Prop} (hP : TailKept P)
include hP

theorem TailKept.frame {l : List Part} {s t : State} (h : OnlyChanges l s t) (hl : l.all (fun q => !isTail q) = true)
    (hs : P s) : P t := hP.same (.of_frame h hl) hs

theorem TailKept.quiet {s t : State} (h : Quiet s t) (hs : P s) : P t := hP.same (h.mono isTail_le_core) hs

theorem TailKept.event {s : State} (hs : P s) : P (queueEvent s) := hP.quiet (queueEvent_quiet s) hs

theorem TailKept.post (c : Channel) (k : Source) (e : Entry) {s : State} (hs : P s) : P (post c k e s) :=
  hP.resolve c (hP.frame (putEntry_frame s c k _) rfl hs)

theorem TailKept.withdraw (c : Channel) (k : Source) {s : State} (hs : P s) : P (withdraw c k s) := by
  rcases withdraw_cases c k s with h | h <;> rw [h]
  · exact hs
  · exact hP.resolve c (hP.frame (putEntry_frame s c k _) rfl hs)

theorem TailKept.postRoll (g : Stage) (n : Nat) (c : Channel) {s : State} (hs : P s) : P (postRoll g n c s) :=
  hP.post c .roll _ (hP.setStage (.inl rfl) hs)

theorem TailKept.withdrawRoll {s : State} (hs : P s) : P (withdrawRoll s) :=
  forChannels_keeps (P := P) (fun c _ ht => hP.withdraw c .roll ht) _ (hP.setStage (.inl rfl) hs)

theorem TailKept.plainStage (g : Stage) {s : State} (hs : P s) : P (plainStage g s) := hP.event (hP.setStage (.inl rfl) hs)

theorem TailKept.stageOff {s : State} (hs : P s) : P (stageOff s) :=
  hP.event (hP.withdrawRoll (hP.freeGenerator (hP.setStage (.inr rfl) hs)))

theorem TailKept.probeToWatch {s : State} (hs : P s) : P (probeToWatch s) :=
  hP.event (hP.withdrawRoll (hP.freeGenerator (hP.setStage (.inr rfl) hs)))

theorem TailKept.enterIntervene {s : State} (hs : P s) : P (enterIntervene s) :=
  hP.event (forChannels_keeps (P := P) (fun c _ ht => hP.postRoll .intervene _ c ht) _
    (hP.freeGenerator (hP.setStage (.inr rfl) hs)))

theorem TailKept.followSide (c : Channel) {s : State} (hs : P s) : P (followSide c s) := by
  rcases followSide_cases c s with h | ⟨k, n, h⟩ <;> rw [h]
  · exact hs
  · exact hP.postRoll k n c hs

theorem TailKept.stageTests {s : State} (hs : P s) : P (stageTests s) := by
  have hset (r : StageRec) (h : r.probed = s.roll.stage.probed) : P (Machine.setStage r s) := hP.setStage (.inl h) hs
  cases hstage : s.roll.stage.stage <;> simp only [Machine.stageTests, hstage]
  case off => exact hP.plainStage _ hs
  case quiet =>
    split_ifs
    · exact hP.plainStage _ hs
    · exact hs
  case watch =>
    split_ifs
    · exact hP.enterIntervene (hset _ rfl)
    · exact hP.enterIntervene (hset _ rfl)
    · exact hP.enterProbe (hset _ rfl)
    · exact hset _ rfl
  case probe =>
    split_ifs
    · exact hP.enterIntervene (hset _ rfl)
    · exact hP.enterIntervene (hset _ rfl)
    · exact hP.probeToWatch (hset _ rfl)
    · exact hset _ rfl
  case intervene => exact forChannels_keeps (P := P) (fun c _ ht => hP.followSide c ht) _ (hset _ rfl)
  case recover =>
    split_ifs
    · exact hP.enterIntervene hs
    · exact hset _ rfl

theorem TailKept.sampleRollover {s : State} (hs : P s) : P (sampleRollover s) := by
  have hfall : P (fallHoldOff s) := hP.setStage (.inl rfl) hs
  have hind := hP.quiet (formIndicators_quiet _) hfall
  rcases sampleRollover_cases s with h | h | h <;> rw [h]
  · exact hfall
  · exact hind
  · rcases stageSample_cases (formIndicators (fallHoldOff s)) with h | h | h <;> rw [h]
    · exact hind
    · exact hP.stageOff hind
    · exact hP.stageTests hind

/-- The head of the Test Queue is examined and the entries behind it move up, whatever came before (R128). -/
theorem TailKept.monitorsEnd {s : State}
    (hs : P (Machine.sampleRollover (forChannels skidSample (sampleSupply (sampleTest s))))) (behind : List TestRequest) :
    P (rejoinQueue behind (sampleMonitors s)) := by
  refine hP.frame (rejoinQueue_frame _ _) rfl ?_
  rcases sampleMonitors_cases s with h | h <;> rw [h]
  · exact hs
  · exact hP.frame (sampleHead_frame _) rfl hs

theorem TailKept.tyreRun {s t : State} (h : TyreRun s t) (hs : P s) : P t := by
  induction h with
  | refl => exact hs
  | tail _ hmove ih =>
    cases hmove with
    | quiet hq => exact hP.quiet hq ih
    | derate c => exact hP.frame (formDerate_frame c _) rfl ih
    | wake r => exact hP.wake r ih

theorem TailKept.tryApply {s : State} (hs : P s) : P (tryApply s) := by
  have hset (x : LoadTable) {u : State} (hu : P u) : P (u.setLoad x) := by
    refine hP.same (fun q hq => ?_) hu
    cases q <;> simp_all [samePart, isTail]
  have hhand : P (handOnLoads (measuredLoads (takenSet s))) :=
    hP.tyreRun (handOnLoads_run _) (hset _ (hP.quiet (takenSet_quiet s) hs))
  have hreload : P (reloadLoads (takenSet s)) := by
    rcases reloadLoads_cases (takenSet s) with ⟨-, h⟩ | h <;> rw [h]
    · exact hhand
    · exact hP.quiet (formRollFlag_quiet _) (forChannels_keeps (P := P) (fun c _ ht => hP.resolve c ht) _ hhand)
  rcases tryApply_cases s with h | ⟨-, -, h⟩ <;> rw [h]
  · exact hs
  · rw [applyCal_eq]
    exact hP.restartWakeTimer (hP.quiet (testReady_quiet _) hreload)

theorem TailKept.sampleEnd {s : State} (hs : P s) :
    P (refreshFaults (sampleLoadClock (Machine.tryApply s))) :=
  hP.quiet (refreshFaults_quiet _) (hP.quiet (sampleLoadClock_quiet _) (hP.tryApply hs))

end Tail

/-! ## The walk with the running test and the skid cycle in it -/

/-- The operations of the Response Test Unit and of the Anti-Lock Monitor at a sample keep a predicate too. -/
structure MonitorKept (P : State → Prop) : Prop where
  same {s t : State} : SameOn isTail s t → P s → P t
  resolve (c : Channel) {s : State} : P s → P (resolve c s)
  setSkid {k : SkidRec} {c : Channel} {s : State} : k.slip = (s.skid.get c).slip → k.disabled = (s.skid.get c).disabled →
    P s → P (s.setSkid (s.skid.set c k))
  setStage (r : StageRec) {s : State} : P s → P (setStage r s)
  abortRunning (k : TestCause) {s : State} : P s → P (abortRunning k s)
  setTest {q q' : RunningTest} {s : State} : runningTest s = some q → q'.channel = q.channel → P s → P (setTest q' s)
  setHolder {h : Holder} {s : State} : (∀ q, h ≠ .test q) → P s → P (s.setTests { s.tests with holder := h })
  wake (r : WakeReason) {s : State} : P s → P (wake r s)
  restartWakeTimer {s : State} : P s → P (restartWakeTimer s)

section Monitor
variable {P : State → Prop} (hP : MonitorKept P)
include hP

theorem MonitorKept.event {s : State} (hs : P s) : P (queueEvent s) := hP.same ((queueEvent_quiet s).mono isTail_le_core) hs

theorem MonitorKept.post (c : Channel) (k : Source) (e : Entry) {s : State} (hs : P s) : P (post c k e s) :=
  hP.resolve c (hP.same (.of_frame (putEntry_frame s c k _) rfl) hs)

theorem MonitorKept.withdraw (c : Channel) (k : Source) {s : State} (hs : P s) : P (withdraw c k s) := by
  rcases withdraw_cases c k s with h | h <;> rw [h]
  · exact hs
  · exact hP.resolve c (hP.same (.of_frame (putEntry_frame s c k _) rfl) hs)

theorem MonitorKept.freeSkid (c : Channel) {s : State} (hs : P s) : P (freeSkid c s) := by
  unfold Machine.freeSkid
  dsimp only
  split
  · exact hs
  · exact hP.event (hP.withdraw c .skid (hP.setSkid rfl rfl hs))

theorem MonitorKept.skidTick (c : Channel) {s : State} (hs : P s) : P (skidTick c s) := hP.setSkid rfl rfl hs

theorem MonitorKept.markStep (c : Channel) {s : State} (hs : P s) : P (markStep c s) := hP.setSkid rfl rfl hs

theorem MonitorKept.enterRelease (c : Channel) {s : State} (hs : P s) : P (enterRelease c s) :=
  hP.post c .skid _ (hP.setSkid rfl rfl hs)

theorem MonitorKept.enterHold (n : Nat) (c : Channel) {s : State} (hs : P s) : P (enterHold n c s) :=
  hP.post c .skid _ (hP.setSkid rfl rfl hs)

theorem MonitorKept.enterReapply (n : Nat) (c : Channel) {s : State} (hs : P s) : P (enterReapply n c s) :=
  hP.post c .skid _ (hP.setSkid rfl rfl hs)

theorem MonitorKept.stepWatched (c : Channel) {s : State} (hs : P s) : P (stepWatched c s) := by
  have hfree := hP.freeSkid c hs
  have hmark := hP.markStep c (hP.skidTick c hs)
  cases hstate : (s.skid.get c).state <;> simp only [Machine.stepWatched, hstate]
  case free =>
    split_ifs
    · exact hP.event (hP.enterRelease c hs)
    · exact hs
  case release =>
    split_ifs
    · exact hfree
    · exact hP.enterHold 0 c (hP.skidTick c hs)
    · exact hmark
  case hold =>
    split_ifs
    · exact hfree
    · exact hP.enterReapply _ c (hP.skidTick c hs)
    · exact hmark
  case reapply =>
    split_ifs
    · exact hfree
    · exact hP.enterRelease c (hP.skidTick c hs)
    · exact hmark

theorem MonitorKept.skidSample (c : Channel) {s : State} (hs : P s) : P (skidSample c s) := by
  unfold Machine.skidSample
  split
  · exact hP.stepWatched c hs
  · exact hP.freeSkid c hs

theorem MonitorKept.sampleTest {s : State} (hs : P s) : P (sampleTest s) := by
  unfold Machine.sampleTest
  split
  · exact hs
  · next q hq =>
    split
    · exact hP.abortRunning .motion hs
    · exact hP.setTest hq rfl hs

theorem MonitorKept.probeChannel (c : Channel) {s : State} (hs : P s) : P (probeChannel c s) := by
  unfold Machine.probeChannel
  split
  · exact hP.post c .roll _ (hP.setStage _ (hP.freeSkid c hs))
  · exact hs

theorem MonitorKept.enterProbe {s : State} (hs : P s) : P (enterProbe s) :=
  hP.event (forChannels_keeps (P := P) (fun c _ ht => hP.probeChannel c ht) _
    (hP.setStage _ (hP.setHolder (by simp) (hP.abortRunning .rollover hs))))

theorem MonitorKept.freeGenerator {s : State} (hs : P s) : P (freeGenerator s) := by
  unfold Machine.freeGenerator
  split
  · exact hP.setHolder (by simp) hs
  · exact hs
  · exact hs

theorem MonitorKept.tail : TailKept P where
  same := hP.same
  resolve := hP.resolve
  setStage _ := hP.setStage _
  freeGenerator := hP.freeGenerator
  enterProbe := hP.enterProbe
  wake := hP.wake
  restartWakeTimer := hP.restartWakeTimer

/-- What the control samples leave, the rest of the sample keeps. -/
theorem MonitorKept.afterControl {s : State} (hs : P s)
    (behind : List TestRequest) :
    P (refreshFaults (sampleLoadClock (tryApply (rejoinQueue behind (sampleMonitors s))))) := by
  have hsupply : P (sampleSupply (Machine.sampleTest s)) := hP.same (.of_frame (sampleSupply_frame _) rfl) (hP.sampleTest hs)
  have hskid := forChannels_keeps (P := P) (fun c _ ht => hP.skidSample c ht) _ hsupply
  exact hP.tail.sampleEnd (hP.tail.monitorsEnd (hP.tail.sampleRollover hskid) behind)

end Monitor

end Sys2Proof
end

