-- ==== Sys2Proof/Proofs/SampleSteps.lean ====
section
/-! The parts of a pressure sample: what each of its steps may change, and what it leaves of the generator's holder. -/

namespace Sys2Proof

open Sys2Proof.Machine

/-! ## Up to the control samples -/

/-- What the raised state and the loads may change outside PARKED (R67 to R70). -/
def raisedAwake : List Part :=
  .axles :: .raised :: ((.group :: .targets :: ([.positions, .rollFlag, .worst] ++
    everyChannel (fun c => [.derate c, .resolution c]) ++ eventParts)) ++ everyChannel resolveParts)

theorem raisedParts_awake {s : State} (h : isParked s = false) : raisedParts s = raisedAwake := by
  simp [raisedParts, loadParts, positionParts, raisedAwake, wakeParts, h]

/-- What the readings, speeds and slips of a sample change. -/
def readingParts : List Part := .front :: (wheelParts ++ everyChannel (fun c => [.skid c]))

/-- The readings, wheel speeds and slips of a sample are formed. -/
def sampleReadings (x : SampleSet) (s : State) : State :=
  forChannels formSlip (sampleWheels x.wheelClosed (s.setFront (frontOf x)))

theorem setFront_frame (x : FrontEnd) (s : State) : OnlyChanges [.front] s (s.setFront x) := by
  intro q hq
  cases q <;> simp_all [samePart]

theorem sampleReadings_frame (x : SampleSet) (s : State) : OnlyChanges readingParts s (sampleReadings x s) := by
  have hwheels := (sampleWheels_frame x.wheelClosed _).step (setFront_frame (frontOf x) s) (l := readingParts)
    (by simp [readingParts]) (by intro q hq; simp [readingParts, hq])
  exact (forChannels_frame formSlip_frame _).step hwheels (fun _ h => h) (by intro q hq; simp [readingParts, hq])

/-- The raised state of a sample (R67): not formed in PARKED. -/
def sampleRaised (s : State) : State := if isParked s then s else formRaised s

theorem sampleRaised_frame (s : State) : OnlyChanges raisedAwake s (sampleRaised s) := by
  unfold sampleRaised
  refine OnlyChanges.ite (fun _ => .refl _ s) (fun hp => ?_)
  rw [← raisedParts_awake (by simpa using hp)]
  exact formRaised_frame s

theorem sampleSensors_eq (x : SampleSet) (s : State) : sampleSensors x s =
    forChannels (checkDelivery s.front.delivery) (sampleRaised (sampleReadings x s)) := rfl

theorem checkDelivery_frame (before : PerChannel Reading) (c : Channel) (s : State) :
    OnlyChanges (backupParts c) s (checkDelivery before c s) := by
  have hheld := (setCauses_frame (s := s) c (channelOf s c).causes false).mono (l := backupParts c)
    (by simpa using causes_mem_backup c)
  unfold checkDelivery
  exact OnlyChanges.ite (fun _ => .refl _ s) (fun _ => OnlyChanges.ite (fun _ => hheld)
    (fun _ => OnlyChanges.ite (fun _ => addCause_frame _ c s) (fun _ => .refl _ s)))

/-- What the sensors of a sample may change. -/
def sensorParts : List Part := readingParts ++ raisedAwake ++ everyChannel backupParts

theorem sampleSensors_frame (x : SampleSet) (s : State) : OnlyChanges sensorParts s (sampleSensors x s) := by
  rw [sampleSensors_eq]
  have hraised := (sampleRaised_frame _).step (sampleReadings_frame x s) (l := sensorParts)
    (by intro q hq; simp [sensorParts, hq]) (by intro q hq; simp [sensorParts, hq])
  exact (forChannels_frame (checkDelivery_frame s.front.delivery) _).step hraised (fun _ h => h)
    (by intro q hq; simp [sensorParts, hq])

theorem sampleDriver_frame (s : State) : OnlyChanges driverParts s (sampleDriver s) :=
  OnlyChanges.ite (fun _ => .refl _ s) (fun _ => (formDemand_frame _).step (setDriver_frame s _) (by simp [driverParts])
    (fun _ h => h))

/-- What driver demand, resolution and the end of automatic causes may change at a sample. -/
def demandParts : List Part := driverParts ++ everyChannel resolveParts ++ everyChannel (fun c => .causes c :: .valves c :: eventParts)

theorem sampleDemand_frame (s : State) : OnlyChanges demandParts s (sampleDemand s) := by
  have hresolved := (resolveAll_frame _).step (sampleDriver_frame s) (l := demandParts)
    (by intro q hq; simp [demandParts, hq]) (by intro q hq; simp [demandParts, hq])
  exact (forChannels_frame removeAutomatic_frame _).step hresolved (fun _ h => h) (by intro q hq; simp [demandParts, hq])

theorem sampleResolved_frame (x : SampleSet) (s : State) :
    OnlyChanges (.testQueue :: (sensorParts ++ demandParts)) s (sampleResolved x s) := by
  have hsensors := (sampleSensors_frame x _).step (headAlone_frame s) (l := .testQueue :: (sensorParts ++ demandParts))
    (by simp) (by intro q hq; simp [hq])
  exact (sampleDemand_frame _).step hsensors (fun _ h => h) (by intro q hq; simp [hq])

/-! ## After the control samples -/

/-- What the running test and the supply supervision of a sample may change. -/
def measureParts : List Part := .holder :: .supply :: (everyChannel abortParts ++ eventParts)

theorem sampleMeasures_frame (s : State) : OnlyChanges measureParts s (sampleSupply (sampleTest s)) := by
  have htest := (sampleTest_frame s).mono (l := measureParts)
    (by intro q hq; simp only [measureParts, List.mem_cons, List.mem_append] at hq ⊢; tauto)
  exact (sampleSupply_frame _).step htest (fun _ h => h)
    (by intro q hq; simp only [measureParts, List.mem_cons, List.mem_append] at hq ⊢; tauto)

/-- What the monitors after them may change. -/
def watchParts : List Part := everyChannel freeParts ++ (.indicator :: .inner :: probeParts) ++ headParts

theorem sampleWatch_frame (s : State) : OnlyChanges watchParts (sampleSupply (sampleTest s)) (sampleMonitors s) := by
  have hskid := (forChannels_frame skidSample_frame (sampleSupply (sampleTest s))).mono (l := watchParts)
    (by intro q hq; simp [watchParts, hq])
  have hroll := (sampleRollover_frame _).step hskid (fun _ h => h)
    (by intro q hq; simp only [watchParts, List.mem_append]; tauto)
  rcases sampleMonitors_cases s with h | h <;> rw [h]
  · exact hroll
  · exact (sampleHead_frame _).step hroll (fun _ h => h) (by intro q hq; simp [watchParts, hq])

/-- What the monitors of a sample may change. -/
def monitorParts : List Part := measureParts ++ watchParts

theorem sampleMonitors_frame (s : State) : OnlyChanges monitorParts s (sampleMonitors s) :=
  (sampleWatch_frame s).step (sampleMeasures_frame s) (by simp [monitorParts]) (by simp [monitorParts])

/-- What the apply of an armed set may change outside PARKED (R163). -/
def applyAwake : List Part := .calActive :: (stagingParts ++ raisedAwake ++ activeParts .up)

theorem applyPieces_awake {s : State} (h : isParked s = false) : applyPieces s ⊆ applyAwake := by
  intro q hq
  simp only [applyPieces, raisedParts_awake h, h, Bool.false_eq_true, if_false, List.append_nil] at hq
  simp only [applyAwake, List.mem_cons, List.mem_append] at hq ⊢
  tauto

/-- What it may change in any state: in PARKED a wake too (R178). -/
def applyAny : List Part := applyAwake ++ .standby :: everyChannel backupParts

theorem applyPieces_any (s : State) : applyPieces s ⊆ applyAny := by
  cases h : isParked s with
  | false => exact List.Subset.trans (applyPieces_awake h) (by simp [applyAny])
  | true =>
    intro q hq
    simp only [applyPieces, raisedParts, loadParts, positionParts, wakeParts, h, if_true, List.mem_cons, List.mem_append] at hq
    simp only [applyAny, applyAwake, raisedAwake, List.mem_cons, List.mem_append]
    tauto

theorem sampleLoadClock_frame (s : State) : OnlyChanges [.axles] s (sampleLoadClock s) :=
  OnlyChanges.ite (fun _ => setLoad_frame (.inl (by simp)) (.inr rfl) (.inr ⟨rfl, rfl, rfl⟩) rfl) (fun _ => .refl _ s)

/-- The sample from its safe-point test on. -/
def sampleFinish (s : State) : State := refreshFaults (sampleLoadClock (tryApply s))

theorem sampleFinish_frame {l : List Part} {s : State} (h : applyPieces s ⊆ l) :
    OnlyChanges (l ++ .axles :: noticeParts) s (sampleFinish s) := by
  have happly := (tryApply_frame s).mono h
  have hclock := (sampleLoadClock_frame _).step happly (l := l ++ .axles :: noticeParts) (by simp) (by simp)
  exact (refreshFaults_frame _).step hclock (fun _ h => h) (by intro q hq; simp [hq])

/-- The control samples and the monitors of a sample (R9, R48, R113, R128). -/
def sampleControlled (tested : Option Channel) (behind : List TestRequest) (s : State) : State :=
  rejoinQueue behind (sampleMonitors (forChannels (controlSample tested) s))

/-- What they may change. -/
def controlledParts : List Part := .testQueue :: (everyChannel (fun c => [.valves c]) ++ monitorParts)

theorem sampleControlled_frame (tested : Option Channel) (behind : List TestRequest) (s : State) :
    OnlyChanges controlledParts s (sampleControlled tested behind s) := by
  have hcontrol := (forChannels_frame (controlSample_frame tested) s).mono (l := controlledParts)
    (by intro q hq; simp [controlledParts, hq])
  have hmonitors := (sampleMonitors_frame _).step hcontrol (fun _ h => h) (by intro q hq; simp [controlledParts, hq])
  exact (rejoinQueue_frame behind _).step hmonitors (fun _ h => h) (by simp [controlledParts])

theorem pressureSample_eq (x : SampleSet) (s : State) : pressureSample x s =
    sampleFinish (sampleControlled ((runningTest s).map RunningTest.channel) s.tests.queue.tail (sampleResolved x s)) := rfl

/-- From the resolution of the sample to its end, outside PARKED. -/
def tailParts : List Part := controlledParts ++ (applyAwake ++ .axles :: noticeParts)

theorem sampleResolved_parked (x : SampleSet) (s : State) : isParked (sampleResolved x s) = isParked s :=
  (sampleResolved_frame x s).parked (by decide +kernel)

theorem sampleControlled_parked (tested : Option Channel) (behind : List TestRequest) (s : State) :
    isParked (sampleControlled tested behind s) = isParked s :=
  (sampleControlled_frame tested behind s).parked (by decide +kernel)

theorem pressureSample_tail {x : SampleSet} {s : State} (hp : isParked s = false) :
    OnlyChanges tailParts (sampleResolved x s) (pressureSample x s) := by
  rw [pressureSample_eq]
  refine (sampleFinish_frame (applyPieces_awake ?_)).step (sampleControlled_frame _ _ _) (by simp [tailParts])
    (by simp [tailParts])
  rw [sampleControlled_parked, sampleResolved_parked, hp]

/-! ## The holder of the generator (R129) -/

theorem wake_holder (r : WakeReason) (s : State) : HolderLe s (wake r s) := by
  unfold wake
  split
  · refine HolderLe.trans (HolderLe.of_frame ((raiseWakeReason_frame _).step (setStandby_frame s _)
      (l := [.standby, .attention .a]) (by simp) (by simp)) (by simp)) (forChannels_holder (fun d t => ?_) _)
    exact (HolderLe.of_frame (startupHeld_frame d t) (by simp)).trans (addCause_holder _ d _)
  · exact .refl s

theorem Quiet.holder {s t : State} (h : Quiet s t) : HolderLe s t := .inl (h .holder rfl)

theorem TyreRun.holder {s t : State} (h : TyreRun s t) : HolderLe s t := by
  induction h with
  | refl => exact .refl s
  | tail _ hmove ih =>
    refine ih.trans ?_
    cases hmove with
    | quiet hq => exact hq.holder
    | derate c => exact .of_frame (formDerate_frame c _) (by simp)
    | wake r => exact wake_holder r _

theorem resolveAll_holder (s : State) : HolderLe s (resolveAll s) := forChannels_holder (fun c t => resolve_holder c t) s

theorem formRaised_holder (s : State) : HolderLe s (formRaised s) := by
  have hmove (x : LoadTable) : HolderLe s (handOnRaised (handOnLoads (s.setLoad x))) :=
    ((HolderLe.trans (t := s.setLoad x) (.inl rfl) (handOnLoads_run _).holder).trans (resolveAll_holder _)).trans
      (formRollFlag_quiet _).holder
  unfold formRaised
  split
  · exact .refl s
  · split
    · exact hmove _
    · exact hmove _

theorem sampleSensors_holder (x : SampleSet) (s : State) : HolderLe s (sampleSensors x s) := by
  rw [sampleSensors_eq]
  have hread := HolderLe.of_frame (sampleReadings_frame x s) (by simp [readingParts, wheelParts, mem_everyChannel])
  have hraised : HolderLe (sampleReadings x s) (sampleRaised (sampleReadings x s)) := by
    unfold sampleRaised
    split
    · exact .refl _
    · exact formRaised_holder _
  refine (hread.trans hraised).trans (forChannels_holder (fun c t => ?_) _)
  unfold checkDelivery
  split_ifs
  · exact .refl t
  · exact .of_frame (setCauses_frame (s := t) c (channelOf t c).causes false) (by simp)
  · exact addCause_holder _ c t
  · exact .refl t

theorem formDemand_holder (s : State) : HolderLe s (formDemand s) := by
  rw [formDemand_eq]
  refine HolderLe.trans ?_ (forChannels_holder updateDriver_holder _)
  unfold writeDemand
  dsimp only
  split
  · exact HolderLe.trans (.of_frame (setDriver_frame s _) (by simp)) (forChannels_holder (addCause_holder _) _)
  · exact .of_frame (setDriver_frame s _) (by simp)

theorem sampleDemand_holder (s : State) : HolderLe s (sampleDemand s) := by
  have hdriver : HolderLe s (sampleDriver s) := by
    unfold sampleDriver
    split
    · exact .refl s
    · exact HolderLe.trans (.of_frame (setDriver_frame s _) (by simp)) (formDemand_holder _)
  refine (hdriver.trans (resolveAll_holder _)).trans (forChannels_holder (fun c t => ?_) _)
  exact .of_frame (removeAutomatic_frame c t) (by simp [eventParts, noticeParts])

/-- A channel that is not under test when the sample begins is not when the control samples begin. -/
theorem sampleResolved_holder (x : SampleSet) (s : State) : HolderLe s (sampleResolved x s) :=
  ((HolderLe.of_frame (headAlone_frame s) (by simp)).trans (sampleSensors_holder x _)).trans (sampleDemand_holder _)

end Sys2Proof
end

