-- ==== Sys2Proof/Proofs/ControlSamples.lean ====
section
/-! A control sample and what the rest of its sample leaves of the valves it drives (R9, R10, R13; O9). -/

namespace Sys2Proof

open Sys2Proof.Machine

/-! ## The valves of a channel that is not under test -/

/-- Outside PARKED and not under test, a channel has the valves of an earlier state. -/
structure DrivenAs (r : State) (c : Channel) (s : State) : Prop where
  awake : isParked s = false
  idle : underTest s c = false
  valves : samePart r s (.valves c)

section DrivenAs
variable {r s t : State} {c : Channel}

theorem DrivenAs.frame {l : List Part} (hs : DrivenAs r c s) (h : OnlyChanges l s t) (hh : HolderLe s t)
    (hl : .standby ∉ l ∧ .valves c ∉ l) : DrivenAs r c t :=
  ⟨(h.parked hl.1).trans hs.awake, hh.underTest hs.idle, hs.valves.trans (h _ hl.2)⟩

theorem DrivenAs.same (hs : DrivenAs r c s) (h : SameOn isTail s t) : DrivenAs r c t :=
  ⟨(isParked_of_standby (h .standby rfl)).trans hs.awake, (underTest_of_holder (h .holder rfl) c).trans hs.idle,
    hs.valves.trans (h (.valves c) rfl)⟩

/-- A rise of the setpoint opens an exhaust only where the channel is under test (R133). -/
theorem DrivenAs.resolve (hs : DrivenAs r c s) (d : Channel) : DrivenAs r c (Machine.resolve d s) := by
  by_cases hd : d = c
  · subst hd
    exact hs.frame (resolve_quiet hs.idle) (resolve_holder d s) (by simp)
  · exact hs.frame (resolve_frame d s) (resolve_holder d s) (by simp [resolveParts, abortParts, Ne.symm hd])

/-- The abort of a running test opens the exhaust of its own channel alone (R133). -/
theorem DrivenAs.abortRunning (hs : DrivenAs r c s) (k : TestCause) : DrivenAs r c (Machine.abortRunning k s) := by
  cases hq : runningTest s with
  | none =>
    rw [abortRunning_none k s hq]
    exact hs
  | some q =>
    have hidle := hs.idle
    simp only [underTest, hq, beq_eq_false_iff_ne, ne_eq] at hidle
    exact hs.frame (abortRunning_frame_of k s q hq) (.inr (abortRunning_holder k s q hq))
      (by simp [abortParts, Ne.symm hidle])

theorem DrivenAs.setTest {q q' : RunningTest} (hs : DrivenAs r c s) (hq : runningTest s = some q)
    (hc : q'.channel = q.channel) : DrivenAs r c (Machine.setTest q' s) := by
  have hframe := setTest_frame q' s
  refine ⟨(hframe.parked (by simp)).trans hs.awake, ?_, hs.valves.trans (hframe _ (by simp))⟩
  have hidle := hs.idle
  simp only [underTest, hq] at hidle
  simpa [underTest, runningTest, Machine.setTest, hc] using hidle

theorem DrivenAs.setHolder {h : Holder} (hs : DrivenAs r c s) (hh : ∀ q, h ≠ .test q) :
    DrivenAs r c (s.setTests { s.tests with holder := h }) := by
  have hframe := setHolder_frame s h
  refine ⟨(hframe.parked (by simp)).trans hs.awake, ?_, hs.valves.trans (hframe _ (by simp))⟩
  cases h with
  | free => rfl
  | probe => rfl
  | test q => exact absurd rfl (hh q)

theorem drivenAs_kept (r : State) (c : Channel) : MonitorKept (DrivenAs r c) where
  same h hs := hs.same h
  resolve d _ hs := hs.resolve d
  setSkid _ _ hs := hs.frame (setSkid_frame _ _ _) (.of_frame (setSkid_frame _ _ _) (by simp)) (by simp)
  setStage x _ hs := hs.frame (setStage_frame x _) (.of_frame (setStage_frame x _) (by simp)) (by simp)
  abortRunning k _ hs := hs.abortRunning k
  setTest hq hc hs := hs.setTest hq hc
  setHolder hh hs := hs.setHolder hh
  wake x s hs := by rwa [wake_awake x s hs.awake]
  restartWakeTimer hs := by
    unfold Machine.restartWakeTimer
    rwa [if_neg (by simp [hs.awake])]

end DrivenAs

/-! ## The control sample (R9) -/

theorem controlSample_driven {tested : Option Channel} {c : Channel} {s : State} {d : Nat} (he : electronic s c = true)
    (ht : tested ≠ some c) (hd : s.front.delivery.get c = some d) :
    channelOf (controlSample tested c s) c = controlRec d (channelOf s c) := by
  simp [controlSample, he, ht, hd]

/-- What a control sample of another channel leaves of a channel, and of what its own looks at. -/
def isControlOf (c : Channel) : Part → Bool
  | .front => true
  | .causes d | .setpoint d | .valves d | .volume d => d == c
  | _ => false

theorem channelOf_same {c : Channel} {s t : State} (h : SameOn (isControlOf c) s t) : channelOf t c = channelOf s c := by
  obtain ⟨hcauses, hheld⟩ := h (.causes c) (by simp [isControlOf])
  obtain ⟨hsetpoint, hlimited⟩ := h (.setpoint c) (by simp [isControlOf])
  obtain ⟨hstate, htime, hvalve, hin, hex⟩ := h (.valves c) (by simp [isControlOf])
  have hvolume : (channelOf t c).volumeClass = (channelOf s c).volumeClass := h (.volume c) (by simp [isControlOf])
  cases hs : channelOf s c
  cases ht : channelOf t c
  simp_all

/-- The control samples of all four channels drive each by its own record (R9). -/
theorem controlSamples_driven {tested : Option Channel} {c : Channel} {s : State} {d : Nat} (he : electronic s c = true)
    (ht : tested ≠ some c) (hd : s.front.delivery.get c = some d) :
    channelOf (forChannels (controlSample tested) s) c = controlRec d (channelOf s c) := by
  refine forChannels_turn (S := SameOn (isControlOf c)) c
    (R := fun t u => electronic t c = true → t.front.delivery.get c = some d → channelOf u c = controlRec d (channelOf t c))
    (fun t u v h hR ht hd => ?_) (fun t u v hR h ht hd => (channelOf_same h).trans (hR ht hd))
    (fun t ht' hd' => controlSample_driven ht' ht hd')
    (fun e t hne => .of_frame (controlSample_frame tested e t) (by simp [isControlOf, hne])) s he hd
  have hrec := channelOf_same h
  have hfront : u.front = t.front := h .front rfl
  rw [hR (by rwa [electronic, hrec]) (by rwa [hfront]), hrec]

/-- The valves and the tracking timer of a control sample, by the control error (R9, R10, R13). -/
theorem controlRec_values (d : Nat) (r : ChannelRec) :
    let e : Int := (r.setpoint : Int) - (d : Int)
    let drive : ValveDrive := pulseOf (volumeFactor r.volumeClass) e.natAbs
    let t := controlRec d r
    (r.setpoint = 0 → t.controlState = .vent ∧ t.inlet = .closed ∧ t.exhaust = .held) ∧
    (r.setpoint ≠ 0 → 10 < e → t.controlState = .applying ∧ t.inlet = drive ∧ t.exhaust = .closed) ∧
    (r.setpoint ≠ 0 → e < -10 → t.controlState = .venting ∧ t.inlet = .closed ∧ t.exhaust = drive) ∧
    (r.setpoint ≠ 0 → -10 ≤ e → e ≤ 10 → t.controlState = .holding ∧ t.inlet = .closed ∧ t.exhaust = .closed) ∧
    t.tracking = runSample 400 (trackingError r e) r.tracking := by
  dsimp only
  refine ⟨fun h0 => ?_, fun h0 hup => ?_, fun h0 hdown => ?_, fun h0 hlow hhigh => ?_, ?_⟩
  · simp [controlRec, h0]
  · simp [controlRec, h0, hup]
  · have hno : ¬ (10 : Int) < (r.setpoint : Int) - (d : Int) := by omega
    simp [controlRec, h0, hno, hdown]
  · have hup : ¬ (10 : Int) < (r.setpoint : Int) - (d : Int) := by omega
    have hdown : ¬ (r.setpoint : Int) - (d : Int) < -10 := by omega
    simp [controlRec, h0, hup, hdown]
  · unfold controlRec
    dsimp only
    split_ifs <;> rfl

/-- Class 3 and a class outside the table take the factor of an absent class (R10). -/
theorem volumeFactor_eq (v : Option Nat) : volumeFactor v = match v with
    | some 1 => 4
    | some 2 => 6
    | some 4 => 10
    | some 5 => 12
    | some 6 => 14
    | _ => 8 :=
  match v with
  | none => rfl
  | some 0 => rfl
  | some 1 => rfl
  | some 2 => rfl
  | some 3 => rfl
  | some 4 => rfl
  | some 5 => rfl
  | some 6 => rfl
  | some (_ + 7) => rfl

theorem trackingError_iff (r : ChannelRec) (e : Int) :
    trackingError r e = true ↔ 60 < e.natAbs ∧ 0 < r.setpoint ∧ r.supplyLimited = false := by
  simp [trackingError, and_assoc]

theorem runStep_eq (bound : Nat) (r : Run) : runStep bound r = some (match r with
    | none => 0
    | some n => min bound (n + 10)) := by
  cases r <;> rfl

/-- What the sample leaves of the parts that a control sample reads in the state it begins in. -/
theorem sampleResolved_volume (x : SampleSet) (s : State) (c : Channel) :
    (channelOf (sampleResolved x s) c).volumeClass = (channelOf s c).volumeClass := by
  have h := sampleResolved_frame x s (.volume c) (by cases c <;> decide +kernel)
  exact h

/-- At the end of the sample the channel is driven as its control sample has left it. -/
theorem pressureSample_driven {x : SampleSet} {s m : State} {c : Channel} {d : Nat} (hm : m = sampleResolved x s)
    (hp : isParked s = false) (ht : underTest s c = false) (he : electronic m c = true)
    (hd : m.front.delivery.get c = some d) :
    (channelOf (pressureSample x s) c).controlState = (controlRec d (channelOf m c)).controlState ∧
    (channelOf (pressureSample x s) c).inlet = (controlRec d (channelOf m c)).inlet ∧
    (channelOf (pressureSample x s) c).exhaust = (controlRec d (channelOf m c)).exhaust ∧
    (channelOf (pressureSample x s) c).tracking = (controlRec d (channelOf m c)).tracking := by
  let tested := (runningTest s).map RunningTest.channel
  have htested : tested ≠ some c := by
    simp only [underTest] at ht
    cases hr : runningTest s <;> simp_all [tested]
  have hrec : channelOf (forChannels (controlSample tested) m) c = controlRec d (channelOf m c) :=
    controlSamples_driven he htested hd
  have hcontrol := forChannels_frame (controlSample_frame tested) m
  have hawake : isParked m = false := by rw [hm, sampleResolved_parked, hp]
  have hidle : underTest m c = false := by
    rw [hm]
    exact (sampleResolved_holder x s).underTest ht
  have hstart : DrivenAs (forChannels (controlSample tested) m) c (forChannels (controlSample tested) m) :=
    ⟨(hcontrol.parked (by simp [mem_everyChannel])).trans hawake,
      (HolderLe.of_frame hcontrol (by simp [mem_everyChannel])).underTest hidle, samePart.refl _ _⟩
  have hend := (drivenAs_kept _ c).afterControl hstart s.tests.queue.tail
  obtain ⟨hstate, htime, -, hin, hex⟩ := hend.valves
  rw [pressureSample_eq, ← hm, ← hrec]
  exact ⟨hstate, hin, hex, htime⟩

/-- Settles O9: the channel's own control sample drives it by the table, and no later step of the sample touches its valves. -/
theorem sampleDrivesTheValves : Obligations.SampleDrivesTheValves := by
  intro s x c d hp ht m he hd sp e k on drive
  obtain ⟨hvent, happly, hrelease, hhold, htracking⟩ := controlRec_values d (channelOf m c)
  obtain ⟨hstate, hin, hex, htime⟩ := pressureSample_driven (m := m) rfl hp ht he hd
  have hdrive : drive = pulseOf (volumeFactor (channelOf m c).volumeClass) e.natAbs := by
    have hk : k = volumeFactor (channelOf m c).volumeClass := by
      rw [sampleResolved_volume]
      exact (volumeFactor_eq (channelOf s c).volumeClass).symm
    rw [← hk]
    rfl
  have herror := trackingError_iff (channelOf m c) e
  refine ⟨pressureSample x s, rfl, (sampleResolved_resolved x s c).1, ?_⟩
  dsimp only
  rw [hstate, hin, hex, htime, htracking, hdrive]
  refine ⟨hvent, happly, hrelease, hhold, fun hno => ?_, fun h60 hpos hlim => ?_⟩
  · rw [runSample, if_neg]
    exact fun h => hno (herror.mp h)
  · have hrun : runSample 400 (trackingError (channelOf m c) e) (channelOf m c).tracking =
        runStep 400 (channelOf m c).tracking := if_pos (herror.mpr ⟨h60, hpos, hlim⟩)
    exact hrun.trans (runStep_eq 400 (channelOf m c).tracking)

end Sys2Proof
end

