-- ==== Sys2Proof/Proofs/SampleCauses.lean ====
section
/-! Causes, watching and the supply at a pressure sample (R4, R5, R14, R48, R15 to R19; O10). -/

namespace Sys2Proof

open Sys2Proof.Machine

/-! ## The condition of STARTUP (R4) -/

/-- The addition of a cause leaves the condition of STARTUP of every channel. -/
theorem addCause_held (k : Cause) (c d : Channel) (s : State) :
    (channelOf (addCause k c s) d).startupHeld = (channelOf s d).startupHeld := by
  by_cases hd : c = d
  · subst hd
    have hput : (channelOf (setChannel s c { channelOf s c with causes := (channelOf s c).causes.put k true }) c).startupHeld =
        (channelOf s c).startupHeld := by simp
    rcases addCause_cases k c s with ⟨h, -⟩ | ⟨h, -⟩ | ⟨h, -⟩ <;> rw [h]
    · have hquiet := enterBackup_quiet c (setChannel s c { channelOf s c with causes := (channelOf s c).causes.put k true })
        (.causes c) (by simp [eventParts, noticeParts])
      exact hquiet.2.trans hput
    · exact hput
  · exact (addCause_frame k c s (.causes d) (backupParts_other hd).1).2

theorem keepCauses_held (k : CauseSet) (c d : Channel) (s : State) :
    (channelOf (keepCauses k c s) d).startupHeld = (channelOf s d).startupHeld := by
  have hput : (channelOf (setChannel s c { channelOf s c with causes := k }) d).startupHeld = (channelOf s d).startupHeld := by
    rw [channelOf_setChannel]
    split
    · next h => rw [h]
    · rfl
  rcases keepCauses_cases k c s with ⟨h, -⟩ | ⟨h, -⟩ <;> rw [h]
  · exact ((enterElectronic_frame c _ (.causes d) (by simp [eventParts, noticeParts])).2).trans hput
  · exact hput

/-! ## The delivery sensors at a sample (R4, R14) -/

/-- What a sample's look at its delivery reading makes of the causes of a channel and of the condition of STARTUP. -/
structure DeliveryChecked (before : PerChannel Reading) (c : Channel) (s t : State) : Prop where
  held : (channelOf t c).startupHeld = ((channelOf s c).startupHeld &&
    (decide (s.standby.opState = .starting) || (s.front.delivery.get c).isNone))
  causes : AddsCauses s t c (fun k => k == .deliverySensor && (!decide (s.standby.opState = .starting) &&
    (before.get c).isSome && (s.front.delivery.get c).isNone))

theorem checkDelivery_checked (before : PerChannel Reading) (c : Channel) (s : State) :
    DeliveryChecked before c s (checkDelivery before c s) := by
  unfold checkDelivery
  split_ifs with hstart hsome hbefore
  · exact ⟨by simp [hstart], fun k => by simp [hstart]⟩
  · obtain ⟨p, hp⟩ := Option.isSome_iff_exists.mp hsome
    exact ⟨by simp [hstart, hp], fun k => by simp [hp]⟩
  · have hnone : s.front.delivery.get c = none := by simpa using hsome
    refine ⟨?_, fun k => ?_⟩
    · rw [addCause_held]
      simp [hnone]
    · rw [addCause_causes]
      simp [hstart, hnone, hbefore]
  · have hnone : s.front.delivery.get c = none := by simpa using hsome
    exact ⟨by simp [hnone], fun k => by simp [hbefore]⟩

/-- What the check of a channel looks at. -/
def isCheckOf (c : Channel) : Part → Bool
  | .standby | .front => true
  | .causes d => d == c
  | _ => false

theorem DeliveryChecked.before {b : PerChannel Reading} {c : Channel} {s t u : State} (h : SameOn (isCheckOf c) s t)
    (k : DeliveryChecked b c t u) : DeliveryChecked b c s u := by
  have hstandby : t.standby = s.standby := h .standby rfl
  have hfront : t.front = s.front := h .front rfl
  have hcauses := h (.causes c) (by simp [isCheckOf])
  refine ⟨?_, ?_⟩
  · rw [k.held, hstandby, hfront, hcauses.2]
  · have hadds := k.causes
    rw [hstandby, hfront] at hadds
    exact hadds.before hcauses

theorem DeliveryChecked.after {b : PerChannel Reading} {c : Channel} {s t u : State} (h : DeliveryChecked b c s t)
    (k : samePart t u (.causes c)) : DeliveryChecked b c s u := ⟨k.2.trans h.held, h.causes.after k⟩

theorem forChannels_checked (before : PerChannel Reading) (c : Channel) (s : State) :
    DeliveryChecked before c s (forChannels (checkDelivery before) s) := by
  refine forChannels_turn (R := DeliveryChecked before c) (S := SameOn (isCheckOf c)) c (fun _ _ _ => .before)
    (fun _ _ _ h k => h.after (k (.causes c) (by simp [isCheckOf]))) (checkDelivery_checked before c) (fun d t hd => ?_) s
  refine .of_frame (checkDelivery_frame before d t) ?_
  simp [backupParts, freeParts, resolveParts, abortParts, eventParts, noticeParts, isCheckOf, hd]

/-- The sensors of a sample take the readings and check each channel's own. -/
theorem sampleSensors_checked (x : SampleSet) (s : State) (c : Channel) :
    (sampleSensors x s).front = frontOf x ∧
    (channelOf (sampleSensors x s) c).startupHeld = ((channelOf s c).startupHeld &&
      (decide (s.standby.opState = .starting) || ((frontOf x).delivery.get c).isNone)) ∧
    AddsCauses s (sampleSensors x s) c (fun k => k == .deliverySensor && (!decide (s.standby.opState = .starting) &&
      (s.front.delivery.get c).isSome && ((frontOf x).delivery.get c).isNone)) := by
  have hread := sampleReadings_frame x s
  have hraised := sampleRaised_frame (sampleReadings x s)
  have hstandby : (sampleRaised (sampleReadings x s)).standby = s.standby :=
    (hread .standby (by decide +kernel)).trans (hraised .standby (by decide +kernel))
  have hfront : (sampleRaised (sampleReadings x s)).front = frontOf x := by
    have hforms := forChannels_frame formSlip_frame (sampleWheels x.wheelClosed (s.setFront (frontOf x))) .front (by decide)
    have htaken : (sampleRaised (sampleReadings x s)).front =
        (sampleWheels x.wheelClosed (s.setFront (frontOf x))).front := hforms.trans (hraised .front (by decide +kernel))
    rw [htaken]
    rfl
  have hcauses : samePart s (sampleRaised (sampleReadings x s)) (.causes c) :=
    (hread _ (by cases c <;> decide +kernel)).trans (hraised _ (by cases c <;> decide +kernel))
  have hchecked := forChannels_checked s.front.delivery c (sampleRaised (sampleReadings x s))
  have hkept := forChannels_frame (checkDelivery_frame s.front.delivery) (sampleRaised (sampleReadings x s)) .front
    (by decide +kernel)
  have hheld := hchecked.held
  have hadds := hchecked.causes
  rw [hstandby, hfront] at hheld hadds
  rw [sampleSensors_eq]
  exact ⟨Eq.trans hkept hfront, by rw [hheld, hcauses.2], hadds.before hcauses⟩

/-! ## Driver demand and the automatic causes at a sample (R5, R31, R32) -/

/-- D formed: NO_DEMAND_SOURCE stands wherever no source is left, and no other cause or condition moves (R32). -/
theorem formDemand_causes (c : Channel) (s : State) :
    AddsCauses s (formDemand s) c (fun k => k == .noDemandSource && noSource (formDemand s)) ∧
    (channelOf (formDemand s) c).startupHeld = (channelOf s c).startupHeld := by
  have hupdate := forChannels_frame updateDriver_frame (writeDemand s)
  have hcauses : samePart (writeDemand s) (formDemand s) (.causes c) := hupdate _ (by cases c <;> decide +kernel)
  have hdriver : (formDemand s).driver = (writeDemand s).driver := hupdate .driver (by decide +kernel)
  let d : DriverRec := { settleMismatch s.driver with demand := demandOf (settleMismatch s.driver) }
  have hset := setDriver_frame s d
  have hsame : samePart s (s.setDriver d) (.causes c) := hset _ (by simp)
  have hwrite : writeDemand s = if noSource (s.setDriver d) then forChannels (addCause .noDemandSource) (s.setDriver d)
      else s.setDriver d := rfl
  have hno : noSource (formDemand s) = noSource (s.setDriver d) := by
    have hkept : (writeDemand s).driver = (s.setDriver d).driver := by
      rw [hwrite]
      split
      · exact forChannels_frame (addCause_frame .noDemandSource) _ .driver (by decide +kernel)
      · rfl
    simp only [noSource, hdriver, hkept]
  rw [hno]
  refine ⟨AddsCauses.after ?_ hcauses, hcauses.2.trans ?_⟩
  · rw [hwrite]
    split
    · next hnone =>
      exact ((forChannels_addsCauses c (addCause_frame .noDemandSource) (addCause_addsCauses _ c) _).before hsame).congr
        (by simp [hnone])
    · next hsome => exact fun k => by rw [hsame.1]; simp [hsome]
  · rw [hwrite]
    split
    · have heach := forChannels_rel (R := fun t u => (channelOf u c).startupHeld = (channelOf t c).startupHeld)
        (fun _ _ _ h k => k.trans h) (fun e t => addCause_held .noDemandSource e c t) (s.setDriver d)
      exact heach.trans hsame.2
    · exact hsame.2

theorem sampleDriver_causes {s : State} (hp : isParked s = false) (c : Channel) :
    AddsCauses s (sampleDriver s) c (fun k => k == .noDemandSource && noSource (sampleDriver s)) ∧
    (channelOf (sampleDriver s) c).startupHeld = (channelOf s c).startupHeld := by
  have hdriver : sampleDriver s =
      formDemand (s.setDriver (mismatchRuns { s.driver with lineLevel := lineOf s.front.control })) := by
    simp [sampleDriver, hp]
  rw [hdriver]
  obtain ⟨hadds, hheld⟩ := formDemand_causes c
    (s.setDriver (mismatchRuns { s.driver with lineLevel := lineOf s.front.control }))
  have hset := setDriver_frame s (mismatchRuns { s.driver with lineLevel := lineOf s.front.control }) (.causes c) (by simp)
  exact ⟨hadds.before hset, hheld.trans hset.2⟩

/-- What the end of automatic causes looks at for a channel. -/
def isEndOf (c : Channel) : Part → Bool
  | .standby | .driver => true
  | .causes d => d == c
  | _ => false

/-- What is left of the causes of a channel at the end of automatic causes (R5). -/
def CausesEnded (c : Channel) (s t : State) : Prop :=
  (channelOf t c).causes = (if s.driver.demand < 15 then remainingCauses s c else (channelOf s c).causes) ∧
    (channelOf t c).startupHeld = (channelOf s c).startupHeld

theorem removeAutomatic_ended (c : Channel) (s : State) : CausesEnded c s (removeAutomatic c s) := by
  unfold removeAutomatic CausesEnded
  split
  · exact ⟨by rw [keepCauses_causes, if_pos rfl], keepCauses_held _ c c s⟩
  · exact ⟨rfl, rfl⟩

theorem removeAll_ended (c : Channel) (s : State) : CausesEnded c s (forChannels removeAutomatic s) := by
  refine forChannels_turn (R := CausesEnded c) (S := SameOn (isEndOf c)) c (fun t u v h hR => ?_)
    (fun t u v hR h => ?_) (removeAutomatic_ended c) (fun d t hd => ?_) s
  · have hdriver : u.driver = t.driver := h .driver rfl
    have hparked : isParked u = isParked t := isParked_of_standby (h .standby rfl)
    obtain ⟨hcauses, hheld⟩ := h (.causes c) (by simp [isEndOf])
    obtain ⟨hended, hkept⟩ := hR
    refine ⟨?_, hkept.trans hheld⟩
    rw [hended]
    simp only [remainingCauses, noSource, hdriver, hcauses, hheld, hparked]
  · obtain ⟨hcauses, hheld⟩ := h (.causes c) (by simp [isEndOf])
    exact ⟨hcauses.trans hR.1, hheld.trans hR.2⟩
  · exact .of_frame (removeAutomatic_frame d t) (by simp [eventParts, noticeParts, isEndOf, hd])

/-- The causes with which a channel comes to its control sample, outside PARKED: those of the sensors, NO_DEMAND_SOURCE where no source
is left, and with D below 15 kPa no automatic cause whose condition has ended (R4, R5, R32). -/
structure CausesAtSample (c : Channel) (s t : State) : Prop where
  held : (channelOf t c).startupHeld = (channelOf s c).startupHeld
  low : t.driver.demand < 15 → ∀ k, (channelOf t c).causes.has k = match k with
    | .startup => (channelOf s c).causes.startup && (channelOf t c).startupHeld
    | .noDemandSource => noSource t
    | .parked => false
    | k => (channelOf s c).causes.has k
  high : 15 ≤ t.driver.demand → AddsCauses s t c (fun k => k == .noDemandSource && noSource t)

theorem sampleDemand_causes {s : State} (hp : isParked s = false) (c : Channel) : CausesAtSample c s (sampleDemand s) := by
  obtain ⟨hadds, hheld⟩ := sampleDriver_causes hp c
  have hresolve := resolveAll_frame (sampleDriver s)
  have hremove := forChannels_frame removeAutomatic_frame (resolveAll (sampleDriver s))
  have hcauses := hresolve (.causes c) (by cases c <;> decide +kernel)
  have hdriver1 : (resolveAll (sampleDriver s)).driver = (sampleDriver s).driver := hresolve .driver (by decide +kernel)
  have hdriver2 : (sampleDemand s).driver = (resolveAll (sampleDriver s)).driver := hremove .driver (by decide +kernel)
  have hno1 : noSource (resolveAll (sampleDriver s)) = noSource (sampleDriver s) := by simp only [noSource, hdriver1]
  have hno2 : noSource (sampleDemand s) = noSource (sampleDriver s) := by simp only [noSource, hdriver2, hdriver1]
  have hparked : isParked (resolveAll (sampleDriver s)) = false := by
    rw [hresolve.parked (by decide +kernel), (sampleDriver_frame s).parked (by decide +kernel), hp]
  obtain ⟨hended, hkept⟩ := removeAll_ended c (resolveAll (sampleDriver s))
  have hmid := hadds.after hcauses
  refine ⟨hkept.trans (hcauses.2.trans hheld), fun hlow k => ?_, fun hhigh k => ?_⟩
  · have hheld' : (channelOf (sampleDemand s) c).startupHeld = (channelOf (resolveAll (sampleDriver s)) c).startupHeld := hkept
    rw [hdriver2] at hlow
    have hnow : (channelOf (sampleDemand s) c).causes = remainingCauses (resolveAll (sampleDriver s)) c :=
      hended.trans (if_pos hlow)
    rw [hheld', hnow, hno2]
    have hother (j : Cause) (hj : j ≠ .noDemandSource) :
        (channelOf (resolveAll (sampleDriver s)) c).causes.has j = (channelOf s c).causes.has j := by simp [hmid j, hj]
    have hnds : (channelOf (resolveAll (sampleDriver s)) c).causes.noDemandSource =
        ((channelOf s c).causes.noDemandSource || noSource (sampleDriver s)) := by simpa [CauseSet.has] using hmid .noDemandSource
    cases k with
    | startup => exact congrArg (· && _) (hother .startup (by decide))
    | noDemandSource =>
      change (_ && noSource (resolveAll (sampleDriver s))) = _
      rw [hnds, hno1]
      cases noSource (sampleDriver s) <;> simp
    | parked =>
      change (_ && isParked (resolveAll (sampleDriver s))) = _
      rw [hparked, Bool.and_false]
    | forced => exact hother .forced (by decide)
    | tracking => exact hother .tracking (by decide)
    | deliverySensor => exact hother .deliverySensor (by decide)
    | testFault => exact hother .testFault (by decide)
  · rw [hdriver2] at hhigh
    have hnow : (channelOf (sampleDemand s) c).causes = (channelOf (resolveAll (sampleDriver s)) c).causes :=
      hended.trans (if_neg (by omega))
    rw [hnow, hno2]
    exact hmid k

end Sys2Proof
end

