-- ==== Sys2Proof/Proofs/SampleMonitors.lean ====
section
/-! The monitors of a sample: the slip and the flag they keep, the channels they leave FREE (R48), the supply (R15 to R19; O10). -/

namespace Sys2Proof

open Sys2Proof.Machine

/-! ## Anti-lock disabled (R54) -/

/-- The slip and the disabled flag of a channel are those of an earlier state. -/
def SlipAs (r : State) (c : Channel) (s : State) : Prop :=
  (s.skid.get c).slip = (r.skid.get c).slip ∧ (s.skid.get c).disabled = (r.skid.get c).disabled

theorem SlipAs.same {r s t : State} {c : Channel} (hs : SlipAs r c s) (h : samePart s t (.skid c)) : SlipAs r c t := by
  have hrec : t.skid.get c = s.skid.get c := h
  unfold SlipAs
  rwa [hrec]

theorem SlipAs.frame {l : List Part} {r s t : State} {c : Channel} (hs : SlipAs r c s) (h : OnlyChanges l s t)
    (hl : .skid c ∉ l) : SlipAs r c t := hs.same (h _ hl)

theorem SlipAs.setSkid {r s : State} {c d : Channel} {k : SkidRec} (h1 : k.slip = (s.skid.get d).slip)
    (h2 : k.disabled = (s.skid.get d).disabled) (hs : SlipAs r c s) : SlipAs r c (s.setSkid (s.skid.set d k)) := by
  by_cases hd : c = d
  · subst hd
    simpa [SlipAs, h1, h2] using hs
  · exact hs.frame (setSkid_frame s d k) (by simp [hd])

theorem SlipAs.freeSkid {r s : State} {c : Channel} (hs : SlipAs r c s) (d : Channel) : SlipAs r c (Machine.freeSkid d s) := by
  unfold Machine.freeSkid
  dsimp only
  split
  · exact hs
  · refine SlipAs.frame (SlipAs.frame ?_ (withdraw_frame d .skid _) (by simp [resolveParts, abortParts]))
      (queueEvent_frame _) (by simp [eventParts, noticeParts])
    exact SlipAs.setSkid rfl rfl hs

theorem SlipAs.addCause {r s : State} {c : Channel} (hs : SlipAs r c s) (k : Cause) (d : Channel) :
    SlipAs r c (Machine.addCause k d s) := by
  have hput : SlipAs r c (setChannel s d { channelOf s d with causes := (channelOf s d).causes.put k true }) :=
    hs.frame (setCauses_frame (s := s) d _ (channelOf s d).startupHeld) (by simp)
  rcases addCause_cases k d s with ⟨h, -⟩ | ⟨h, -⟩ | ⟨h, -⟩ <;> rw [h]
  · exact hs
  · rw [enterBackup_eq]
    refine SlipAs.frame (SlipAs.freeSkid ?_ d) (queueEvent_frame _) (by simp [eventParts, noticeParts])
    exact (hput.frame (deEnergise_frame d _) (by simp)).frame (testBackupNotice_quiet d _) (by simp)
  · exact hput

theorem SlipAs.wake {r s : State} {c : Channel} (hs : SlipAs r c s) (w : WakeReason) : SlipAs r c (Machine.wake w s) := by
  unfold Machine.wake
  split
  · have hwoken := (raiseWakeReason_frame _).step (setStandby_frame s { s.standby with
      opState := .starting, startingTimer := 0, wakeReason := some w, wakeTimer := none }) (l := [.standby, .attention .a])
      (by simp) (by simp)
    refine forChannels_keeps (P := SlipAs r c) (fun d t ht => ?_) _ (hs.frame hwoken (by simp))
    exact (ht.frame (startupHeld_frame d t) (by simp)).addCause .startup d
  · exact hs

theorem slipAs_kept (r : State) (c : Channel) : MonitorKept (SlipAs r c) where
  same h hs := hs.same (h _ rfl)
  resolve d _ hs := hs.frame (resolve_frame d _) (by simp [resolveParts, abortParts])
  setSkid h1 h2 hs := .setSkid h1 h2 hs
  setStage x _ hs := hs.frame (setStage_frame x _) (by simp)
  abortRunning k _ hs := hs.frame (abortRunning_frame k _) (by simp [mem_everyChannel, abortParts])
  setTest _ _ hs := hs.frame (setTest_frame _ _) (by simp)
  setHolder _ hs := hs.frame (setHolder_frame _ _) (by simp)
  wake w _ hs := hs.wake w
  restartWakeTimer hs := by
    refine hs.frame (restartWakeTimer_frame _) ?_
    split <;> simp

/-! ## Channels that are not watched (R48) -/

/-- Outside PARKED a channel that is not watched is FREE, where `b` says whether its wheel and its delivery reading are valid. -/
structure FreeUnless (b : Bool) (c : Channel) (s : State) : Prop where
  awake : isParked s = false
  free : (electronic s c && b && !(s.skid.get c).disabled && !heldByProbe s c) = false → (s.skid.get c).state = .free

section Free
variable {b : Bool} {c : Channel} {s t : State}

theorem FreeUnless.same (hs : FreeUnless b c s) (h : SameOn isTail s t) : FreeUnless b c t := by
  have hskid : t.skid.get c = s.skid.get c := h (.skid c) rfl
  have hstage : t.roll.stage = s.roll.stage := h .stage rfl
  have he := electronic_same (h (.causes c) rfl)
  refine ⟨(isParked_of_standby (h .standby rfl)).trans hs.awake, fun hno => ?_⟩
  rw [hskid]
  refine hs.free ?_
  rw [← hno, he, hskid]
  simp only [heldByProbe, hstage]

theorem FreeUnless.frame {l : List Part} (hs : FreeUnless b c s) (h : OnlyChanges l s t)
    (hl : .standby ∉ l ∧ .stage ∉ l ∧ .causes c ∉ l ∧ .skid c ∉ l) : FreeUnless b c t := by
  have hskid : t.skid.get c = s.skid.get c := h _ hl.2.2.2
  have hstage : t.roll.stage = s.roll.stage := h _ hl.2.1
  have he := electronic_same (h _ hl.2.2.1)
  refine ⟨(h.parked hl.1).trans hs.awake, fun hno => ?_⟩
  rw [hskid]
  refine hs.free ?_
  rw [← hno, he, hskid]
  simp only [heldByProbe, hstage]

/-- A stage that probes no more channels than before leaves the others as they were. -/
theorem FreeUnless.setStage {r : StageRec} (hs : FreeUnless b c s) (hr : r.probed = s.roll.stage.probed ∨ r.probed = none) :
    FreeUnless b c (Machine.setStage r s) := by
  refine ⟨hs.awake, fun hno => hs.free ?_⟩
  have hcond : (electronic s c && b && !(s.skid.get c).disabled && !(r.probed == some (channelSide c))) = false := hno
  rcases hr with h | h
  · rw [h] at hcond
    exact hcond
  · rw [h] at hcond
    cases hrest : electronic s c && b && !(s.skid.get c).disabled with
    | true => simp [hrest] at hcond
    | false => rfl

theorem probeChannel_side (c : Channel) (s : State) :
    (probeChannel c s).roll.stage.probed = s.roll.stage.probed ∧ (probeChannel c s).roll.inner = s.roll.inner := by
  rcases probeChannel_cases c s with ⟨-, h⟩ | ⟨-, n, h⟩ <;> rw [h]
  · exact ⟨rfl, rfl⟩
  · obtain ⟨hstage, hinner⟩ := freeSkid_rollUnit c s
    have hroll : (postRoll .probe n c (freeSkid c s)).roll.inner = (freeSkid c s).roll.inner :=
      postRoll_frame .probe n c _ .inner (by simp [rollParts, resolveParts, abortParts])
    exact ⟨by rw [postRoll_stage, hstage], hroll.trans hinner⟩

theorem probeChannel_skid (c d : Channel) (s : State) :
    (probeChannel d s).skid.get c = s.skid.get c ∨ ((probeChannel d s).skid.get c).state = .free := by
  by_cases hd : c = d
  · subst hd
    rcases probeChannel_cases c s with ⟨-, h⟩ | ⟨-, n, h⟩ <;> rw [h]
    · exact .inl rfl
    · have hkept : (postRoll .probe n c (freeSkid c s)).skid.get c = (freeSkid c s).skid.get c :=
        postRoll_frame .probe n c _ (.skid c) (by simp [rollParts, resolveParts, abortParts])
      exact .inr (by rw [hkept, freeSkid_free])
  · exact .inl (probeChannel_frame d s (.skid c)
      (by simp [rollParts, freeParts, resolveParts, abortParts, eventParts, noticeParts, hd]))

/-- The turn of a channel in the entry into PROBE frees it where it is probed (R56, R116). -/
theorem probeChannel_freed {c : Channel} {s : State} (hside : s.roll.stage.probed = some s.roll.inner)
    (hheld : heldByProbe (probeChannel c s) c = true) : ((probeChannel c s).skid.get c).state = .free := by
  rcases probeChannel_cases c s with ⟨hne, h⟩ | ⟨-, n, h⟩ <;> rw [h] at hheld ⊢
  · simp only [heldByProbe, hside, beq_iff_eq, Option.some.injEq] at hheld
    exact absurd hheld.symm hne
  · have hkept : (postRoll .probe n c (freeSkid c s)).skid.get c = (freeSkid c s).skid.get c :=
      postRoll_frame .probe n c _ (.skid c) (by simp [rollParts, resolveParts, abortParts])
    rw [hkept, freeSkid_free]

/-- Once every channel had its turn, the probed ones are FREE. -/
theorem probeChannels_freed {s : State} (hside : s.roll.stage.probed = some s.roll.inner) (c : Channel)
    (hheld : heldByProbe (forChannels probeChannel s) c = true) :
    ((forChannels probeChannel s).skid.get c).state = .free := by
  refine forChannels_each_of (g := probeChannel) (Q := fun t => t.roll.stage.probed = some t.roll.inner)
    (P := fun d t => heldByProbe t d = true → (t.skid.get d).state = .free) (fun d t ht => ?_)
    (fun d t ht => probeChannel_freed ht) (fun d e t hd ht hP hheld => ?_) s hside c hheld
  · obtain ⟨hprobed, hinner⟩ := probeChannel_side d t
    rw [hprobed, hinner, ht]
  · rcases probeChannel_skid d e t with h | h
    · rw [h]
      refine hP ?_
      rwa [heldByProbe, (probeChannel_side e t).1] at hheld
    · exact h

/-- What a probe takes hold of keeps the causes and the skid records, and stands outside PARKED where it did. -/
theorem probing_frame (s : State) :
    OnlyChanges (.holder :: .stage :: everyChannel abortParts) s (probing s) := by
  have habort := (abortRunning_frame .rollover s).mono (l := .holder :: .stage :: everyChannel abortParts)
    (by intro q hq; simp [hq])
  have hholder := (setHolder_frame (abortRunning .rollover s) .probe).step habort (fun _ h => h) (by simp)
  exact (setStage_frame _ _).step hholder (fun _ h => h) (by simp)

/-- A channel that nothing but a probe keeps from being watched may be in its cycle; the others are FREE. -/
structure FreeAside (b : Bool) (c : Channel) (s : State) : Prop where
  awake : isParked s = false
  free : (electronic s c && b && !(s.skid.get c).disabled) = false → (s.skid.get c).state = .free

theorem FreeAside.step {l : List Part} (hs : FreeAside b c s) (h : OnlyChanges l s t) (hl : .standby ∉ l ∧ .causes c ∉ l)
    (hskid : t.skid.get c = s.skid.get c ∨ (t.skid.get c).state = .free) : FreeAside b c t := by
  have he := electronic_same (h _ hl.2)
  refine ⟨(h.parked hl.1).trans hs.awake, fun hno => ?_⟩
  rcases hskid with hk | hk
  · rw [he, hk] at hno
    rw [hk]
    exact hs.free hno
  · exact hk

theorem FreeUnless.aside (hs : FreeUnless b c s) : FreeAside b c s :=
  ⟨hs.awake, fun hno => hs.free (by rw [hno, Bool.false_and])⟩

theorem FreeUnless.enterProbe (hs : FreeUnless b c s) : FreeUnless b c (Machine.enterProbe s) := by
  have hprobing : FreeAside b c (probing s) :=
    hs.aside.step (probing_frame s) (by simp [mem_everyChannel, abortParts])
      (.inl (probing_frame s (.skid c) (by simp [mem_everyChannel, abortParts])))
  have hturns : FreeAside b c (forChannels probeChannel (probing s)) :=
    forChannels_keeps (P := FreeAside b c) (fun d t ht => ht.step (probeChannel_frame d t)
      (by simp [rollParts, freeParts, resolveParts, abortParts, eventParts, noticeParts]) (probeChannel_skid c d t)) _ hprobing
  rw [enterProbe_eq]
  refine FreeUnless.frame (s := forChannels probeChannel (probing s)) ⟨hturns.awake, fun hno => ?_⟩ (queueEvent_frame _)
    (by simp [eventParts, noticeParts])
  cases hheld : heldByProbe (forChannels probeChannel (probing s)) c with
  | true => exact probeChannels_freed rfl c hheld
  | false =>
    rw [hheld] at hno
    exact hturns.free (by simpa using hno)

end Free

theorem freeUnless_kept (b : Bool) (c : Channel) : TailKept (FreeUnless b c) where
  same h hs := hs.same h
  resolve d _ hs := hs.frame (resolve_frame d _) (by simp [resolveParts, abortParts])
  setStage hr hs := hs.setStage hr
  freeGenerator hs := hs.frame (freeGenerator_frame _) (by simp)
  enterProbe hs := hs.enterProbe
  wake x s hs := by rwa [wake_awake x s hs.awake]
  restartWakeTimer hs := by
    unfold Machine.restartWakeTimer
    rwa [if_neg (by simp [hs.awake])]

/-! ## The skid cycle of a sample (R48) -/

/-- What a step of the skid cycle of a channel looks at to tell whether it is watched. -/
def isWatchOf (c : Channel) : Part → Bool
  | .standby | .front | .stage => true
  | .causes d | .wheel d | .skid d => d == c
  | _ => false

theorem watched_eq (s : State) (c : Channel) : watched s c =
    (electronic s c && ((s.wheels.wheel.get c).valid && (s.front.delivery.get c).isSome) && !(s.skid.get c).disabled &&
      !heldByProbe s c) := by
  simp only [watched, Bool.and_assoc]

/-- A watched channel goes on being watched through its own step. -/
theorem stepWatched_watched (c : Channel) (s : State) : watched (stepWatched c s) c = watched s c := by
  have hframe := stepWatched_frame c s
  have hfree (q : Part) (hq : q ∉ freeParts c) : samePart s (stepWatched c s) q := hframe q hq
  have he := electronic_same (hfree (.causes c) (by cases c <;> decide))
  have hwheel : (stepWatched c s).wheels.wheel.get c = s.wheels.wheel.get c := hfree (.wheel c) (by cases c <;> decide)
  have hfront : (stepWatched c s).front = s.front := hfree .front (by cases c <;> decide)
  have hstage : (stepWatched c s).roll.stage = s.roll.stage := hfree .stage (by cases c <;> decide)
  have hslip : SlipAs s c (stepWatched c s) := (slipAs_kept s c).stepWatched c ⟨rfl, rfl⟩
  simp only [watched, he, hwheel, hfront, heldByProbe, hstage, hslip.2]

theorem skidSample_free (c : Channel) (s : State) (h : watched (skidSample c s) c = false) :
    ((skidSample c s).skid.get c).state = .free := by
  unfold skidSample at h ⊢
  split at h
  · next hw => simp [stepWatched_watched, hw] at h
  · next hw =>
    rw [if_neg hw]
    exact freeSkid_free c s

/-- After the step of every channel, the ones that are not watched are FREE. -/
theorem skidSamples_free (c : Channel) (s : State) (h : watched (forChannels skidSample s) c = false) :
    ((forChannels skidSample s).skid.get c).state = .free := by
  refine forChannels_each (g := skidSample) (P := fun d t => watched t d = false → (t.skid.get d).state = .free)
    skidSample_free (fun d e t hd hP h => ?_) s c h
  have hframe := skidSample_frame e t
  have hother (q : Part) (hq : isWatchOf d q = true) : samePart t (skidSample e t) q := by
    refine (SameOn.of_frame (f := isWatchOf d) hframe ?_) q hq
    simp [freeParts, resolveParts, abortParts, eventParts, noticeParts, isWatchOf, hd]
  have he := electronic_same (hother (.causes d) (by simp [isWatchOf]))
  have hwheel : (skidSample e t).wheels.wheel.get d = t.wheels.wheel.get d := hother (.wheel d) (by simp [isWatchOf])
  have hskid : (skidSample e t).skid.get d = t.skid.get d := hother (.skid d) (by simp [isWatchOf])
  have hfront : (skidSample e t).front = t.front := hother .front rfl
  have hstage : (skidSample e t).roll.stage = t.roll.stage := hother .stage rfl
  rw [hskid]
  refine hP ?_
  rw [← h]
  simp only [watched, he, hwheel, hfront, heldByProbe, hstage, hskid]

/-- What a sample may change after the steps of the skid cycle, outside PARKED. -/
def stageEndParts : List Part :=
  (.indicator :: .inner :: probeParts) ++ headParts ++ (.testQueue :: (applyAwake ++ .axles :: noticeParts))

theorem stageEnd_frame {s : State} (hp : isParked (forChannels skidSample (sampleSupply (sampleTest s))) = false)
    (behind : List TestRequest) : OnlyChanges stageEndParts (forChannels skidSample (sampleSupply (sampleTest s)))
      (sampleFinish (rejoinQueue behind (sampleMonitors s))) := by
  have hroll := (sampleRollover_frame (forChannels skidSample (sampleSupply (sampleTest s)))).mono
    (l := (.indicator :: .inner :: probeParts) ++ headParts) (by intro q hq; exact List.mem_append_left _ hq)
  have hhead : OnlyChanges ((.indicator :: .inner :: probeParts) ++ headParts)
      (forChannels skidSample (sampleSupply (sampleTest s))) (sampleMonitors s) := by
    rcases sampleMonitors_cases s with h | h <;> rw [h]
    · exact hroll
    · exact (sampleHead_frame _).step hroll (fun _ h => h) (List.subset_append_right _ _)
  have hjoined := (rejoinQueue_frame behind _).step hhead (l := (.indicator :: .inner :: probeParts) ++ headParts ++ [.testQueue])
    (List.subset_append_left _ _) (List.subset_append_right _ _)
  have hparked : isParked (rejoinQueue behind (sampleMonitors s)) = false := (hjoined.parked (by decide +kernel)).trans hp
  refine (sampleFinish_frame (applyPieces_awake hparked)).step hjoined (fun q hq => ?_) (fun q hq => ?_)
  · simp only [stageEndParts, List.mem_append, List.mem_cons, List.not_mem_nil] at hq ⊢
    tauto
  · simp only [stageEndParts, List.mem_append, List.mem_cons] at hq ⊢
    tauto

/-- A channel that is not watched when the sample ends has been left FREE (R48). -/
theorem sampleMonitors_free {s : State} (hp : isParked s = false) (behind : List TestRequest) (c : Channel)
    (h : watched (sampleFinish (rejoinQueue behind (sampleMonitors s))) c = false) :
    ((sampleFinish (rejoinQueue behind (sampleMonitors s))).skid.get c).state = .free := by
  let u := forChannels skidSample (sampleSupply (sampleTest s))
  let t := sampleFinish (rejoinQueue behind (sampleMonitors s))
  let b := (u.wheels.wheel.get c).valid && (u.front.delivery.get c).isSome
  have hu : isParked u = false := by
    have hskid := (forChannels_frame skidSample_frame (sampleSupply (sampleTest s))).parked (by decide +kernel)
    have hmeasure := (sampleMeasures_frame s).parked (by decide +kernel)
    rw [hskid, hmeasure, hp]
  have hstart : FreeUnless b c u := ⟨hu, fun hno => skidSamples_free c _ (by rw [watched_eq]; exact hno)⟩
  have hP := freeUnless_kept b c
  have hend : FreeUnless b c t := hP.sampleEnd (hP.monitorsEnd (hP.sampleRollover hstart) behind)
  have hafter := stageEnd_frame hu behind
  have hwheel : t.wheels.wheel.get c = u.wheels.wheel.get c := hafter (.wheel c) (by cases c <;> decide +kernel)
  have hfront : t.front = u.front := hafter .front (by decide +kernel)
  refine hend.free ?_
  rw [← h, watched_eq]
  simp only [b, ← hwheel, ← hfront]
  rfl

/-! ## Supply and reservoir (R15 to R19) -/

/-- The supply record of a sample in RUNNING from its readings. -/
def supplyAfter (supply reservoir : Reading) (e : SupplyRec) : SupplyRec :=
  let r := reservoirRun reservoir (supplyRuns supply e)
  if reservoirBack reservoir r then { r with lowReservoir := false, lowMeasure := none } else r

theorem sampleSupply_supply {s : State} (hrun : isRunning s = true) :
    (sampleSupply s).supply = supplyAfter s.front.supply s.front.reservoir s.supply := by
  unfold sampleSupply supplyAfter
  simp only [hrun, Bool.not_true, Bool.false_eq_true, if_false]
  split
  · exact queueEvent_frame _ .supply (by simp [eventParts, noticeParts])
  · rfl

/-- A run whose condition holds at a sample is continued. -/
theorem runSample_of {p : Prop} [Decidable p] (h : p) (bound : Nat) (r : Run) : runSample bound (decide p) r =
    some (match r with
      | none => 0
      | some n => min bound (n + 10)) := by
  rw [decide_eq_true h]
  exact runStep_eq bound r

theorem runSample_not {p : Prop} [Decidable p] (h : ¬ p) (bound : Nat) (r : Run) : runSample bound (decide p) r = none := by
  rw [decide_eq_false h]
  rfl

/-- The measurements of the supply at a sample (R15, R17). -/
theorem supplyRuns_cases (v : Reading) (e : SupplyRec) :
    (v = none → (supplyRuns v e).onset = none ∧ (supplyRuns v e).recovery = none) ∧
    (∀ p, v = some p → e.emergency = false → (supplyRuns v e).onset = runSample 200 (decide (p < 250)) e.onset) ∧
    (∀ p, v = some p → e.emergency = true → (supplyRuns v e).recovery = runSample 1000 (decide (400 ≤ p)) e.recovery) ∧
    (supplyRuns v e).emergency = e.emergency ∧ (supplyRuns v e).lowReservoir = e.lowReservoir ∧
    (supplyRuns v e).lowMeasure = e.lowMeasure := by
  cases v with
  | none => simp [supplyRuns]
  | some p => cases he : e.emergency <;> simp [supplyRuns, he]

/-- The reservoir at a sample (R19): its part of the record alone moves. -/
theorem reservoir_cases (v : Reading) (e : SupplyRec) :
    let r := reservoirRun v e
    let t := if reservoirBack v r then { r with lowReservoir := false, lowMeasure := none } else r
    (t.onset = e.onset ∧ t.recovery = e.recovery ∧ t.emergency = e.emergency) ∧
    (∀ p, v = some p → e.lowReservoir = true → t.lowReservoir = decide (p < 500) ∧ t.lowMeasure = none) ∧
    (∀ p, v = some p → e.lowReservoir = false →
      t.lowReservoir = false ∧ t.lowMeasure = runSample 1000 (decide (p < 450)) e.lowMeasure) ∧
    (v = none → t.lowReservoir = e.lowReservoir ∧ t.lowMeasure = none) := by
  cases v with
  | none => simp [reservoirRun, reservoirBack]
  | some p =>
    cases he : e.lowReservoir with
    | false => simp [reservoirRun, reservoirBack, he]
    | true =>
      by_cases hp : 500 ≤ p
      · simp [reservoirRun, reservoirBack, he, hp]
      · simp [reservoirRun, reservoirBack, he, hp, runSample, Nat.lt_of_not_le hp]

end Sys2Proof
end

