-- ==== Sys2Proof/Proofs/SampleOutcome.lean ====
section
/-! A pressure sample outside PARKED: the causes it ends, the channels it leaves FREE, the supply it measures (O10). -/

namespace Sys2Proof

open Sys2Proof.Machine

section Awake
variable {x : SampleSet} {s : State}

/-- The causes of a channel at the end of a sample are those it had when the control samples began. -/
theorem sample_causes (hp : isParked s = false) (c : Channel) :
    samePart (sampleResolved x s) (pressureSample x s) (.causes c) :=
  pressureSample_tail hp _ (by cases c <;> decide +kernel)

theorem sample_driver (hp : isParked s = false) : (pressureSample x s).driver = (sampleResolved x s).driver :=
  pressureSample_tail (x := x) hp .driver (by decide +kernel)

theorem sampleResolved_front (x : SampleSet) (s : State) : (sampleResolved x s).front = frontOf x := by
  have hdemand : (sampleResolved x s).front = (sampleSensors x (headAlone s)).front :=
    sampleDemand_frame _ .front (by decide +kernel)
  exact hdemand.trans (sampleSensors_checked x (headAlone s) .ch0).1

theorem sample_front (hp : isParked s = false) : (pressureSample x s).front = frontOf x := by
  have htail : (pressureSample x s).front = (sampleResolved x s).front :=
    pressureSample_tail (x := x) hp .front (by decide +kernel)
  exact htail.trans (sampleResolved_front x s)

theorem sampleSensors_parked (x : SampleSet) (s : State) : isParked (sampleSensors x (headAlone s)) = isParked s :=
  ((sampleSensors_frame x _).parked (by decide +kernel)).trans ((headAlone_frame s).parked (by simp))

theorem noSource_sample (hp : isParked s = false) : noSource (pressureSample x s) = noSource (sampleResolved x s) := by
  simp only [noSource, sample_driver hp]

theorem sampleResolved_causes (hp : isParked s = false) (c : Channel) :
    CausesAtSample c (sampleSensors x (headAlone s)) (sampleResolved x s) :=
  sampleDemand_causes ((sampleSensors_parked x s).trans hp) c

/-- The condition of STARTUP lasts in STARTING, and after it until a valid delivery reading (R4). -/
theorem sample_held (hp : isParked s = false) (c : Channel) : (channelOf (pressureSample x s) c).startupHeld =
    ((channelOf s c).startupHeld &&
      (decide (s.standby.opState = .starting) || ((pressureSample x s).front.delivery.get c).isNone)) := by
  obtain ⟨-, hheld, -⟩ := sampleSensors_checked x (headAlone s) c
  have hdemand := (sampleResolved_causes (x := x) hp c).held
  rw [(sample_causes hp c).2, sample_front hp]
  exact hdemand.trans hheld

/-- The sensors of a sample add DELIVERY_SENSOR alone to the causes. -/
theorem sampleSensors_other (x : SampleSet) (s : State) (c : Channel) {k : Cause} (hk : k ≠ .deliverySensor) :
    (channelOf (sampleSensors x (headAlone s)) c).causes.has k = (channelOf s c).causes.has k := by
  obtain ⟨-, -, hadds⟩ := sampleSensors_checked x (headAlone s) c
  have hno : (k == Cause.deliverySensor) = false := by simpa using hk
  refine (hadds k).trans ?_
  dsimp only
  rw [hno, Bool.false_and, Bool.or_false]
  rfl

/-- With D below 15 kPa a channel keeps an automatic cause exactly where its condition lasts (R5). -/
theorem sample_low (hp : isParked s = false) (hlow : (pressureSample x s).driver.demand < 15) (c : Channel) :
    ((channelOf (pressureSample x s) c).causes.startup = true ↔
      (channelOf s c).causes.startup = true ∧ (channelOf (pressureSample x s) c).startupHeld = true) ∧
    ((channelOf (pressureSample x s) c).causes.noDemandSource = true ↔ noSource (pressureSample x s) = true) ∧
    (channelOf (pressureSample x s) c).causes.parked = false := by
  rw [sample_driver hp] at hlow
  obtain ⟨hcauses, hheld⟩ := sample_causes (x := x) hp c
  have hends := (sampleResolved_causes (x := x) hp c).low hlow
  have hstartup : (channelOf (sampleSensors x (headAlone s)) c).causes.startup = (channelOf s c).causes.startup :=
    sampleSensors_other x s c (k := .startup) (by decide)
  have hnow := hends .startup
  have hnone := hends .noDemandSource
  have hparked := hends .parked
  simp only [CauseSet.has] at hnow hnone hparked
  rw [hcauses, hheld, noSource_sample hp]
  refine ⟨?_, ?_, hparked⟩
  · rw [← hstartup, ← Bool.and_eq_true]
    exact Bool.eq_iff_iff.mp hnow
  · exact Bool.eq_iff_iff.mp hnone

/-- From 15 kPa on no automatic cause is removed (R5). -/
theorem sample_high (hp : isParked s = false) (hhigh : 15 ≤ (pressureSample x s).driver.demand) (c : Channel) :
    (channelOf (pressureSample x s) c).causes.startup = (channelOf s c).causes.startup ∧
    ((channelOf s c).causes.noDemandSource = true → (channelOf (pressureSample x s) c).causes.noDemandSource = true) ∧
    (channelOf (pressureSample x s) c).causes.parked = (channelOf s c).causes.parked := by
  rw [sample_driver hp] at hhigh
  have hadds := (sampleResolved_causes (x := x) hp c).high hhigh
  have hkept (k : Cause) (hk : k ≠ .deliverySensor) : (channelOf (pressureSample x s) c).causes.has k =
      ((channelOf s c).causes.has k || (k == .noDemandSource && noSource (sampleResolved x s))) := by
    rw [(sample_causes hp c).1, ← sampleSensors_other x s c hk]
    exact hadds k
  have hstartup := hkept .startup (by decide)
  have hnone := hkept .noDemandSource (by decide)
  have hparked := hkept .parked (by decide)
  refine ⟨hstartup.trans (Bool.or_false _), fun h => ?_, hparked.trans (Bool.or_false _)⟩
  have hhas : (channelOf s c).causes.has .noDemandSource = true := h
  rw [hhas, Bool.true_or] at hnone
  exact hnone

theorem sampleControl_parked (tested : Option Channel) (x : SampleSet) (s : State) :
    isParked (forChannels (controlSample tested) (sampleResolved x s)) = isParked s :=
  ((forChannels_frame (controlSample_frame tested) _).parked (by decide)).trans (sampleResolved_parked x s)

/-- A channel that is not watched at the end of a sample is FREE (R48). -/
theorem sample_free (hp : isParked s = false) (c : Channel) (h : watched (pressureSample x s) c = false) :
    ((pressureSample x s).skid.get c).state = .free := by
  rw [pressureSample_eq] at h ⊢
  exact sampleMonitors_free ((sampleControl_parked _ x s).trans hp) _ c h

/-- The supply record of a sample in RUNNING comes from its own readings (R15, R17, R19). -/
theorem sample_supply (hrun : isRunning s = true) : (pressureSample x s).supply =
    supplyAfter (pressureSample x s).front.supply (pressureSample x s).front.reservoir s.supply := by
  have hp := not_parked_of_running hrun
  let tested := (runningTest s).map RunningTest.channel
  let u := forChannels (controlSample tested) (sampleResolved x s)
  have hcontrol := forChannels_frame (controlSample_frame tested) (sampleResolved x s)
  have hresolved := sampleResolved_frame x s
  have htest := sampleTest_frame u
  have hfront : (sampleTest u).front = frontOf x := by
    have h1 : (sampleTest u).front = u.front := htest .front (by decide +kernel)
    have h2 : u.front = (sampleResolved x s).front := hcontrol .front (by decide)
    rw [h1, h2, sampleResolved_front]
  have hsupply : (sampleTest u).supply = s.supply := by
    have h1 : (sampleTest u).supply = u.supply := htest .supply (by decide +kernel)
    have h2 : u.supply = (sampleResolved x s).supply := hcontrol .supply (by decide)
    have h3 : (sampleResolved x s).supply = s.supply := hresolved .supply (by decide +kernel)
    rw [h1, h2, h3]
  have hrunning : isRunning (sampleTest u) = true := by
    rw [htest.running (by decide +kernel), hcontrol.running (by decide), hresolved.running (by decide +kernel), hrun]
  have hwatch : (sampleMonitors u).supply = (sampleSupply (sampleTest u)).supply := sampleWatch_frame u .supply (by decide +kernel)
  have hparked : isParked (rejoinQueue s.tests.queue.tail (sampleMonitors u)) = false :=
    (sampleControlled_parked tested s.tests.queue.tail (sampleResolved x s)).trans ((sampleResolved_parked x s).trans hp)
  have hjoin := rejoinQueue_frame s.tests.queue.tail (sampleMonitors u) .supply (by simp)
  have hfinish := sampleFinish_frame (applyPieces_awake hparked) .supply (by decide +kernel)
  have hend : samePart (sampleMonitors u) (pressureSample x s) .supply := by
    rw [pressureSample_eq]
    exact hjoin.trans hfinish
  have hsupplied : (pressureSample x s).supply = (sampleMonitors u).supply := hend
  rw [hsupplied, hwatch, sampleSupply_supply hrunning, hfront, hsupply, sample_front hp]

end Awake

/-- Settles O10: the causes come from the sensors and the end of automatic causes, FREE from the skid cycle, the supply record from its
own step, and nothing after them in the sample moves them. -/
theorem sampleEndsCausesAndMeasures : Obligations.SampleEndsCausesAndMeasures := by
  intro s x hp
  refine ⟨pressureSample x s, rfl, fun c => ?_, fun hlow => sample_low hp hlow, fun hhigh => sample_high hp hhigh,
    sample_free hp, fun hrun => ?_⟩
  · rw [sample_held hp c]
    simp
  · rw [sample_supply hrun]
    generalize (pressureSample x s).front.supply = v
    generalize (pressureSample x s).front.reservoir = w
    obtain ⟨hnone, honset, hrecovery, hemergency, hlow, hmeasure⟩ := supplyRuns_cases v s.supply
    obtain ⟨⟨hon, hrec, hem⟩, hback, hfall, habsent⟩ := reservoir_cases w (supplyRuns v s.supply)
    rw [hlow] at hback hfall habsent
    rw [hmeasure] at hfall
    refine ⟨fun hv => ⟨hon.trans (hnone hv).1, hrec.trans (hnone hv).2⟩, fun p hv he => ?_, fun p hv he => ?_, hback,
      fun p hw hl => ⟨(hfall p hw hl).1, ?_⟩, habsent, hem.trans hemergency⟩
    · refine hon.trans ((honset p hv he).trans ?_)
      by_cases hlt : p < 250
      · rw [if_neg (Nat.not_le.mpr hlt)]
        exact runSample_of hlt 200 s.supply.onset
      · rw [if_pos (Nat.not_lt.mp hlt)]
        exact runSample_not hlt 200 s.supply.onset
    · refine hrec.trans ((hrecovery p hv he).trans ?_)
      by_cases hle : 400 ≤ p
      · rw [if_neg (Nat.not_lt.mpr hle)]
        exact runSample_of hle 1000 s.supply.recovery
      · rw [if_pos (Nat.not_le.mp hle)]
        exact runSample_not hle 1000 s.supply.recovery
    · refine (hfall p hw hl).2.trans ?_
      by_cases hlt : p < 450
      · rw [if_neg (Nat.not_le.mpr hlt)]
        exact runSample_of hlt 1000 s.supply.lowMeasure
      · rw [if_pos (Nat.not_lt.mp hlt)]
        exact runSample_not hlt 1000 s.supply.lowMeasure

end Sys2Proof
end

