-- ==== Sys2Proof/Proofs/SampleReadings.lean ====
section
/-! The readings, wheel speeds and slips of a sample, and the parts that no sample writes (R14, R41 to R44, R47; O8). -/

namespace Sys2Proof

open Sys2Proof.Machine

/-! ## What a sample may change in any state -/

/-- From the resolution of the sample to its end. -/
def tailAny : List Part := controlledParts ++ (applyAny ++ .axles :: noticeParts)

theorem pressureSample_tail_any (x : SampleSet) (s : State) :
    OnlyChanges tailAny (sampleResolved x s) (pressureSample x s) := by
  rw [pressureSample_eq]
  exact (sampleFinish_frame (applyPieces_any _)).step (sampleControlled_frame _ _ _) (List.subset_append_left _ _)
    (List.subset_append_right _ _)

/-- What a pressure sample may change. -/
def sampleParts : List Part := (.testQueue :: (sensorParts ++ demandParts)) ++ tailAny

theorem pressureSample_frame (x : SampleSet) (s : State) : OnlyChanges sampleParts s (pressureSample x s) :=
  (pressureSample_tail_any x s).step (sampleResolved_frame x s) (List.subset_append_left _ _) (List.subset_append_right _ _)

theorem pressureSample_front (x : SampleSet) (s : State) : (pressureSample x s).front = frontOf x := by
  have htail : (pressureSample x s).front = (sampleResolved x s).front :=
    pressureSample_tail_any x s .front (by decide +kernel)
  exact htail.trans (sampleResolved_front x s)

theorem readings_get (v : PerChannel Int) (c : Channel) : (v.map readingOf).get c = readingOf (v.get c) := by
  cases c <;> rfl

theorem bagReadings_get (v : PerAxle Int) (a : Axle) : (v.map readingOf).get a = readingOf (v.get a) := by
  cases a <;> rfl

/-! ## Wheel speeds, v_ref and the gating speed (R41 to R44) -/

/-- From the readings to the end of the sample. -/
def afterReadings : List Part := raisedAwake ++ everyChannel backupParts ++ demandParts ++ tailAny

theorem afterReadings_frame (x : SampleSet) (s : State) :
    OnlyChanges afterReadings (sampleReadings x (headAlone s)) (pressureSample x s) := by
  have hraised := (sampleRaised_frame (sampleReadings x (headAlone s))).mono (l := afterReadings)
    (by intro q hq; simp [afterReadings, hq])
  have hsensors := (forChannels_frame (checkDelivery_frame (headAlone s).front.delivery) _).step hraised (fun _ h => h)
    (by intro q hq; simp [afterReadings, hq])
  have hdemand := (sampleDemand_frame _).step hsensors (fun _ h => h) (by intro q hq; simp [afterReadings, hq])
  exact (pressureSample_tail_any x s).step hdemand (fun _ h => h) (by intro q hq; simp [afterReadings, hq])

/-- The wheel records, v_ref and the gating speed of a sample are those its readings form. -/
theorem pressureSample_wheels (x : SampleSet) (s : State) :
    (∀ c, (pressureSample x s).wheels.wheel.get c = (sampledWheels s x.wheelClosed).get c) ∧
    (pressureSample x s).wheels.vref = vrefOf (sampledWheels s x.wheelClosed) s.wheels.vref ∧
    (pressureSample x s).wheels.gating =
      gatingOf (sampledWheels s x.wheelClosed) (vrefOf (sampledWheels s x.wheelClosed) s.wheels.vref) s.driver := by
  have hafter := afterReadings_frame x s
  have hslips := forChannels_frame formSlip_frame (sampleWheels x.wheelClosed ((headAlone s).setFront (frontOf x)))
  have hspeeds := (hslips .speeds (by decide)).trans (hafter .speeds (by decide +kernel))
  refine ⟨fun c => ?_, hspeeds.1, hspeeds.2⟩
  exact (hslips (.wheel c) (by cases c <;> decide)).trans (hafter (.wheel c) (by cases c <;> decide +kernel))

theorem sampledWheels_get (s : State) (closed : PerChannel Bool) (c : Channel) :
    (sampledWheels s closed).get c = sampleWheel s.cal.active (closed.get c) (s.wheels.wheel.get c) := by
  cases c <;> rfl

/-- A wheel record at a sample: cleared where its circuit is open or has just closed, else with its speed (R41, R42). -/
theorem sampleWheel_eq (ws : List Nat) (closed : Bool) (w : WheelRec) : sampleWheel ws closed w =
    if closed = false then ⟨none, 200000, 0, false, 0⟩
    else if w.valid = false then ⟨none, 200000, 0, true, 0⟩
    else { w with speed := match w.period with
                  | none => 0
                  | some p => if 200000 ≤ w.age then 0
                    else min 2000 (calCircumference ws * 36000 / (calTeeth ws * max p w.age)) } := by
  cases closed with
  | false => rfl
  | true =>
    obtain ⟨period, age, speed, valid, offset⟩ := w
    cases valid with
    | false => rfl
    | true => cases period <;> rfl

theorem anyValid_iff (w : PerChannel WheelRec) :
    (w.ch0.valid || w.ch1.valid || w.ch2.valid || w.ch3.valid) = true ↔ ∃ c, (w.get c).valid = true := by
  constructor
  · intro h
    simp only [Bool.or_eq_true] at h
    rcases h with ((h | h) | h) | h
    · exact ⟨.ch0, h⟩
    · exact ⟨.ch1, h⟩
    · exact ⟨.ch2, h⟩
    · exact ⟨.ch3, h⟩
  · rintro ⟨c, h⟩
    cases c <;> simp_all [PerChannel.get]

/-- With a valid sensor v_ref is the largest speed, or falls by 0.4 km/h, and gates; without one it is 0, and the towing vehicle's
speed gates while it is young (R43, R44). -/
theorem vref_cases (w : PerChannel WheelRec) (previous : Nat) (d : DriverRec) :
    ((∃ c, (w.get c).valid = true) → vrefOf w previous = max (max (max (countedSpeed w.ch0) (countedSpeed w.ch1))
        (max (countedSpeed w.ch2) (countedSpeed w.ch3))) (previous - 4) ∧
      gatingOf w (vrefOf w previous) d = vrefOf w previous) ∧
    (¬ (∃ c, (w.get c).valid = true) → vrefOf w previous = 0 ∧
      gatingOf w (vrefOf w previous) d = match d.tractorSpeed, d.tractorAge with
        | some n, some a => if a < 100 then n else 0
        | _, _ => 0) := by
  rw [← anyValid_iff]
  refine ⟨fun h => ?_, fun h => ?_⟩
  · simp only [vrefOf, gatingOf, h, if_true, and_self]
  · unfold vrefOf gatingOf
    rw [if_neg h, if_neg h]
    cases d.tractorSpeed <;> cases d.tractorAge <;> exact ⟨rfl, rfl⟩

/-! ## Slips (R47) -/

theorem SlipAs.forChannels {r : State} {c : Channel} {g : Channel → State → State}
    (h : ∀ d t, SlipAs r c t → SlipAs r c (g d t)) {s : State} (hs : SlipAs r c s) : SlipAs r c (Machine.forChannels g s) :=
  forChannels_keeps (P := SlipAs r c) h s hs

theorem SlipAs.formDemand {r s : State} {c : Channel} (hs : SlipAs r c s) : SlipAs r c (Machine.formDemand s) := by
  have hset (d : DriverRec) : SlipAs r c (s.setDriver d) := hs.frame (setDriver_frame s d) (by simp)
  have hwrite : SlipAs r c (writeDemand s) := by
    unfold writeDemand
    dsimp only
    split
    · exact SlipAs.forChannels (fun d t ht => ht.addCause _ d) (hset _)
    · exact hset _
  rw [formDemand_eq]
  exact hwrite.frame (forChannels_frame updateDriver_frame _) (by cases c <;> decide +kernel)

/-- The slip formed with the readings stands at the end of the sample. -/
theorem afterReadings_slip (x : SampleSet) (s : State) (c : Channel) :
    SlipAs (sampleReadings x (headAlone s)) c (pressureSample x s) := by
  let r := sampleReadings x (headAlone s)
  have hraised : SlipAs r c (sampleRaised r) :=
    SlipAs.frame (s := r) ⟨rfl, rfl⟩ (sampleRaised_frame r) (by cases c <;> decide +kernel)
  have hsensors : SlipAs r c (sampleSensors x (headAlone s)) := by
    rw [sampleSensors_eq]
    refine SlipAs.forChannels (fun d t ht => ?_) hraised
    unfold checkDelivery
    split_ifs
    · exact ht
    · exact ht.frame (setCauses_frame (s := t) d (channelOf t d).causes false) (by simp)
    · exact ht.addCause _ d
    · exact ht
  have hdriver : SlipAs r c (sampleDriver (sampleSensors x (headAlone s))) := by
    unfold sampleDriver
    split
    · exact hsensors
    · exact SlipAs.formDemand (hsensors.frame (setDriver_frame _ _) (by simp))
  have hresolved : SlipAs r c (sampleResolved x s) :=
    (hdriver.frame (resolveAll_frame _) (by cases c <;> decide +kernel)).frame (forChannels_frame removeAutomatic_frame _)
      (by cases c <;> decide +kernel)
  rw [pressureSample_eq]
  exact (slipAs_kept r c).afterControl
    (hresolved.frame (forChannels_frame (controlSample_frame _) _) (by cases c <;> decide)) _

theorem formSlips_slip (c : Channel) (s : State) :
    ((forChannels formSlip s).skid.get c).slip = slipOf s.wheels.vref (s.wheels.wheel.get c) := by
  cases c <;> simp [forChannels, formSlip]

/-- The slip of a channel is formed from the wheel records and v_ref of its sample (R47). -/
theorem pressureSample_slip (x : SampleSet) (s : State) (c : Channel) : ((pressureSample x s).skid.get c).slip =
    slipOf (pressureSample x s).wheels.vref ((pressureSample x s).wheels.wheel.get c) := by
  obtain ⟨hwheel, hvref, -⟩ := pressureSample_wheels x s
  have hslip := (afterReadings_slip x s c).1
  rw [hwheel c, hvref]
  exact hslip.trans (formSlips_slip c (sampleWheels x.wheelClosed ((headAlone s).setFront (frontOf x))))

end Sys2Proof
end

