-- ==== Sys2Proof/Proofs/SampleStates.lean ====
section
/-! A pressure sample in any operating state: DELIVERY_SENSOR, and what stays outside RUNNING and in PARKED (O8). -/

namespace Sys2Proof

open Sys2Proof.Machine

/-! ## DELIVERY_SENSOR (R14) -/

/-- DELIVERY_SENSOR stands on a channel as in an earlier state. -/
def SensorAs (r : State) (c : Channel) (s : State) : Prop :=
  (channelOf s c).causes.deliverySensor = (channelOf r c).causes.deliverySensor

section SensorAs
variable {r s t : State} {c : Channel}

theorem SensorAs.same (hs : SensorAs r c s) (h : samePart s t (.causes c)) : SensorAs r c t := by
  unfold SensorAs
  rw [h.1]
  exact hs

theorem SensorAs.frame {l : List Part} (hs : SensorAs r c s) (h : OnlyChanges l s t) (hl : .causes c ∉ l) : SensorAs r c t :=
  hs.same (h _ hl)

theorem SensorAs.adds {p : Cause → Bool} (hs : SensorAs r c s) (h : AddsCauses s t c p) (hp : p .deliverySensor = false) :
    SensorAs r c t := by
  have hnow := h .deliverySensor
  rw [hp, Bool.or_false] at hnow
  exact Eq.trans hnow hs

theorem SensorAs.wake (hs : SensorAs r c s) (w : WakeReason) : SensorAs r c (Machine.wake w s) := by
  cases hp : isParked s with
  | true => exact hs.adds (wake_addsCauses hp w c) rfl
  | false => rwa [wake_awake w s hp]

theorem sensorAs_kept (r : State) (c : Channel) : MonitorKept (SensorAs r c) where
  same h hs := hs.same (h _ rfl)
  resolve d _ hs := hs.frame (resolve_frame d _) (by simp [resolveParts, abortParts])
  setSkid _ _ hs := hs.frame (setSkid_frame _ _ _) (by simp)
  setStage x _ hs := hs.frame (setStage_frame x _) (by simp)
  abortRunning k _ hs := hs.frame (abortRunning_frame k _) (by simp [mem_everyChannel, abortParts])
  setTest _ _ hs := hs.frame (setTest_frame _ _) (by simp)
  setHolder _ hs := hs.frame (setHolder_frame _ _) (by simp)
  wake w _ hs := hs.wake w
  restartWakeTimer hs := by
    refine hs.frame (restartWakeTimer_frame _) ?_
    split <;> simp

end SensorAs

/-- After the sensors of a sample nothing in it moves DELIVERY_SENSOR. -/
theorem afterSensors_sensor (x : SampleSet) (s : State) (c : Channel) :
    SensorAs (sampleSensors x (headAlone s)) c (pressureSample x s) := by
  let a := sampleSensors x (headAlone s)
  have hdriver : SensorAs a c (sampleDriver a) := by
    unfold sampleDriver
    split
    · exact rfl
    · refine SensorAs.adds ?_ (formDemand_causes c _).1 rfl
      exact SensorAs.frame (s := a) rfl (setDriver_frame a _) (by simp)
  have hmid : SensorAs a c (resolveAll (sampleDriver a)) :=
    hdriver.frame (resolveAll_frame _) (by cases c <;> decide +kernel)
  have hresolved : SensorAs a c (sampleResolved x s) := by
    have hended := (removeAll_ended c (resolveAll (sampleDriver a))).1
    have hkept : (channelOf (sampleResolved x s) c).causes.deliverySensor =
        (channelOf (resolveAll (sampleDriver a)) c).causes.deliverySensor := by
      refine (congrArg CauseSet.deliverySensor hended).trans ?_
      split <;> rfl
    exact hkept.trans hmid
  rw [pressureSample_eq]
  exact (sensorAs_kept a c).afterControl
    (hresolved.frame (forChannels_frame (controlSample_frame _) _) (by cases c <;> decide)) _

/-- DELIVERY_SENSOR is added where a reading becomes invalid outside STARTING (R14). -/
theorem pressureSample_sensor (x : SampleSet) (s : State) (c : Channel) :
    (channelOf (pressureSample x s) c).causes.deliverySensor = true ↔ (channelOf s c).causes.deliverySensor = true ∨
      (s.standby.opState ≠ .starting ∧ (s.front.delivery.get c).isSome = true ∧
        (pressureSample x s).front.delivery.get c = none) := by
  have hafter := afterSensors_sensor x s c
  obtain ⟨-, -, hadds⟩ := sampleSensors_checked x (headAlone s) c
  have hadd := hadds .deliverySensor
  unfold SensorAs at hafter
  rw [hafter, pressureSample_front]
  have hnow : (channelOf (sampleSensors x (headAlone s)) c).causes.deliverySensor =
      ((channelOf s c).causes.deliverySensor || (!decide (s.standby.opState = .starting) &&
        (s.front.delivery.get c).isSome && ((frontOf x).delivery.get c).isNone)) := hadd
  rw [hnow]
  simp [and_assoc]

/-! ## Outside RUNNING (R118, R123) -/

/-- What a sample may change up to the steps of the skid cycle. -/
def cycleParts : List Part :=
  (.testQueue :: (sensorParts ++ demandParts)) ++ everyChannel (fun c => [.valves c]) ++ measureParts ++ everyChannel freeParts

theorem sampleCycle_frame (tested : Option Channel) (x : SampleSet) (s : State) : OnlyChanges cycleParts s
    (forChannels skidSample (sampleSupply (sampleTest (forChannels (controlSample tested) (sampleResolved x s))))) := by
  have hresolved := (sampleResolved_frame x s).mono (l := cycleParts) (by intro q hq; simp only [cycleParts, List.mem_append]; tauto)
  have hcontrol := (forChannels_frame (controlSample_frame tested) _).step hresolved (fun _ h => h)
    (by intro q hq; simp only [cycleParts, List.mem_append]; tauto)
  have hmeasures := (sampleMeasures_frame _).step hcontrol (fun _ h => h)
    (by intro q hq; simp only [cycleParts, List.mem_append]; tauto)
  exact (forChannels_frame skidSample_frame _).step hmeasures (fun _ h => h)
    (by intro q hq; simp only [cycleParts, List.mem_append]; tauto)

/-- What a sample may change after the rollover stage. -/
def finishParts : List Part := headParts ++ (.testQueue :: (applyAny ++ .axles :: noticeParts))

theorem sampleEnd_frame (behind : List TestRequest) (s : State) : OnlyChanges finishParts
    (sampleRollover (forChannels skidSample (sampleSupply (sampleTest s))))
    (sampleFinish (rejoinQueue behind (sampleMonitors s))) := by
  have hhead : OnlyChanges finishParts (sampleRollover (forChannels skidSample (sampleSupply (sampleTest s))))
      (sampleMonitors s) := by
    rcases sampleMonitors_cases s with h | h <;> rw [h]
    · exact .refl _ _
    · exact (sampleHead_frame _).mono (List.subset_append_left _ _)
  have hjoined := (rejoinQueue_frame behind _).step hhead (fun _ h => h) (by simp [finishParts])
  exact (sampleFinish_frame (applyPieces_any _)).step hjoined (fun _ h => h)
    (by intro q hq; exact List.mem_append_right _ (List.mem_cons_of_mem _ hq))

/-- Outside RUNNING the rollover stage record stays at a sample but for its hold-off (R118, R123). -/
theorem sampleRollover_resting {s : State} (hrun : isRunning s = false) :
    (sampleRollover s).roll.stage = { s.roll.stage with holdOff := s.roll.stage.holdOff - 10 } := by
  have hstate : (fallHoldOff s).standby.opState = s.standby.opState := rfl
  unfold sampleRollover
  dsimp only
  rw [hstate]
  cases hop : s.standby.opState with
  | starting => rfl
  | running => simp [isRunning, hop] at hrun
  | parked => rfl

/-- Outside RUNNING a sample leaves the supply record, and the stage record but for the hold-off (R118, R123). -/
theorem pressureSample_resting {s : State} (x : SampleSet) (hrun : isRunning s = false) :
    samePart s (pressureSample x s) .supply ∧
      (pressureSample x s).roll.stage = { s.roll.stage with holdOff := s.roll.stage.holdOff - 10 } := by
  let tested := (runningTest s).map RunningTest.channel
  let u := forChannels (controlSample tested) (sampleResolved x s)
  have hcycle := sampleCycle_frame tested x s
  have hend := sampleEnd_frame s.tests.queue.tail u
  have hcontrol := (forChannels_frame (controlSample_frame tested) _).step (sampleResolved_frame x s)
    (l := (.testQueue :: (sensorParts ++ demandParts)) ++ everyChannel (fun c => [.valves c]))
    (List.subset_append_left _ _) (List.subset_append_right _ _)
  have htest := (sampleTest_frame u).step hcontrol (List.subset_append_left _ _) (List.subset_append_right _ _)
  have hresting : sampleSupply (sampleTest u) = sampleTest u := by
    have hno : isRunning (sampleTest u) = false := (htest.running (by decide +kernel)).trans hrun
    simp [sampleSupply, hno]
  refine ⟨?_, ?_⟩
  · have hsupply : samePart (sampleTest u) (pressureSample x s) .supply := by
      have hwatch := sampleWatch_frame u .supply (by decide +kernel)
      rw [hresting] at hwatch
      have hjoin := rejoinQueue_frame s.tests.queue.tail (sampleMonitors u) .supply (by simp)
      have hfinish := sampleFinish_frame (applyPieces_any (rejoinQueue s.tests.queue.tail (sampleMonitors u))) .supply
        (by decide +kernel)
      rw [pressureSample_eq]
      exact (hwatch.trans hjoin).trans hfinish
    exact (htest .supply (by decide +kernel)).trans hsupply
  · have hrolled : samePart (sampleRollover (forChannels skidSample (sampleSupply (sampleTest u)))) (pressureSample x s)
        .stage := by
      rw [pressureSample_eq]
      exact hend .stage (by decide +kernel)
    have hstage : (pressureSample x s).roll.stage =
        (sampleRollover (forChannels skidSample (sampleSupply (sampleTest u)))).roll.stage := hrolled
    have hcycled : samePart s (forChannels skidSample (sampleSupply (sampleTest u))) .stage :=
      hcycle .stage (by decide +kernel)
    have hbefore : (forChannels skidSample (sampleSupply (sampleTest u))).roll.stage = s.roll.stage := hcycled
    have hno : isRunning (forChannels skidSample (sampleSupply (sampleTest u))) = false :=
      (hcycle.running (by decide +kernel)).trans hrun
    rw [hstage, sampleRollover_resting hno, hbefore]

end Sys2Proof
end

