-- ==== Sys2Proof/Proofs/SampleParked.lean ====
section
/-! A pressure sample in PARKED, and the parts of a sample put together (R14, R41 to R44, R47, R67, R80, R111, R176; O8). -/

namespace Sys2Proof

open Sys2Proof.Machine

/-! ## In PARKED with no set armed (R67, R80, R111, R176) -/

/-- What a sample may change in PARKED with no set armed. -/
def parkedParts : List Part :=
  readingParts ++ everyChannel backupParts ++ everyChannel resolveParts ++ everyChannel (fun c => .causes c :: .valves c :: eventParts) ++
    everyChannel (fun c => [.valves c]) ++ (.holder :: everyChannel abortParts) ++ everyChannel freeParts ++ headParts ++ [.stage] ++
    noticeParts

section Parked
variable {s t : State}

/-- The steps of a sample in PARKED, each a change of those parts from a state that is still PARKED. -/
def ParkedRun (s t : State) : Prop := isParked s = true ∧ OnlyChanges parkedParts s t

theorem ParkedRun.parked (h : ParkedRun s t) : isParked t = true := (h.2.parked (by decide +kernel)).trans h.1

theorem ParkedRun.running (h : ParkedRun s t) : isRunning t = false := not_running_of_parked h.parked

theorem ParkedRun.step {l : List Part} {u : State} (h : ParkedRun s t) (k : OnlyChanges l t u) (hl : l ⊆ parkedParts) :
    ParkedRun s u := ⟨h.1, k.step h.2 (fun _ hq => hq) hl⟩

theorem ParkedRun.sampleSensors (h : ParkedRun s t) (x : SampleSet) : ParkedRun s (Machine.sampleSensors x t) := by
  have hread := h.step (sampleReadings_frame x t) (by intro q hq; simp only [parkedParts, List.mem_append]; tauto)
  have hraised : sampleRaised (sampleReadings x t) = sampleReadings x t := by simp [sampleRaised, hread.parked]
  rw [sampleSensors_eq, hraised]
  exact hread.step (forChannels_frame (checkDelivery_frame _) _) (by intro q hq; simp only [parkedParts, List.mem_append]; tauto)

theorem ParkedRun.sampleDemand (h : ParkedRun s t) : ParkedRun s (Machine.sampleDemand t) := by
  have hdriver : sampleDriver t = t := by simp [sampleDriver, h.parked]
  have hresolved := h.step (resolveAll_frame t) (by intro q hq; simp only [parkedParts, List.mem_append]; tauto)
  have hended := hresolved.step (forChannels_frame removeAutomatic_frame (resolveAll t))
    (by intro q hq; simp only [parkedParts, List.mem_append]; tauto)
  rw [Machine.sampleDemand, hdriver]
  exact hended

theorem ParkedRun.sampleResolved (hp : isParked s = true) (x : SampleSet) : ParkedRun s (Machine.sampleResolved x s) :=
  have hhead : ParkedRun s (headAlone s) := ⟨hp, (headAlone_frame s).mono (by simp [parkedParts, headParts])⟩
  (hhead.sampleSensors x).sampleDemand

theorem sampleRollover_parked (h : isParked s = true) : sampleRollover s = fallHoldOff s := by
  have hparked : s.standby.opState = .parked := by simpa [isParked] using h
  have hstate : (fallHoldOff s).standby.opState = .parked := hparked
  unfold sampleRollover
  dsimp only
  rw [hstate]

theorem ParkedRun.sampleMonitors (h : ParkedRun s t) : ParkedRun s (Machine.sampleMonitors t) := by
  have htest := h.step (sampleTest_frame t) (by intro q hq; simp only [parkedParts, List.mem_append]; tauto)
  have hsupply : sampleSupply (sampleTest t) = sampleTest t := by simp [sampleSupply, htest.running]
  have hskid : ParkedRun s (forChannels skidSample (sampleSupply (sampleTest t))) := by
    rw [hsupply]
    exact htest.step (forChannels_frame skidSample_frame _) (by intro q hq; simp only [parkedParts, List.mem_append]; tauto)
  have hroll : ParkedRun s (sampleRollover (forChannels skidSample (sampleSupply (sampleTest t)))) := by
    rw [sampleRollover_parked hskid.parked]
    exact hskid.step (setStage_frame _ _) (by intro q hq; simp only [parkedParts, List.mem_append]; tauto)
  rcases sampleMonitors_cases t with h | h <;> rw [h]
  · exact hroll
  · exact hroll.step (sampleHead_frame _) (by intro q hq; simp only [parkedParts, List.mem_append]; tauto)

theorem ParkedRun.sampleFinish (h : ParkedRun s t) (harmed : s.cal.staging.state ≠ .armed) :
    ParkedRun s (Sys2Proof.sampleFinish t) := by
  have hstaging : t.cal.staging = s.cal.staging := h.2 .staging (by decide +kernel)
  have happly : tryApply t = t := by simp [tryApply, hstaging, harmed]
  have hclock : sampleLoadClock t = t := by simp [sampleLoadClock, h.running]
  unfold Sys2Proof.sampleFinish
  rw [happly, hclock]
  exact h.step (refreshFaults_frame t) (List.subset_append_right _ _)

end Parked

theorem pressureSample_parked {s : State} (hp : isParked s = true) (harmed : s.cal.staging.state ≠ .armed) (x : SampleSet) :
    OnlyChanges parkedParts s (pressureSample x s) := by
  rw [pressureSample_eq]
  have hcontrol := (ParkedRun.sampleResolved hp x).step
    (forChannels_frame (controlSample_frame ((runningTest s).map RunningTest.channel)) _)
    (by intro q hq; simp only [parkedParts, List.mem_append]; tauto)
  have hjoined := hcontrol.sampleMonitors.step (rejoinQueue_frame s.tests.queue.tail _) (by simp [parkedParts, headParts])
  exact (ParkedRun.sampleFinish hjoined harmed).2

/-! ## The whole sample -/

theorem slipOf_eq (vref : Nat) (w : WheelRec) : slipOf vref w =
    if w.valid = false then none else if vref < 50 then some 0 else some ((vref - w.speed) * 1024 / vref) := by
  simp only [slipOf, Bool.not_eq_true']

/-- Settles O8: the readings, speeds and slips are formed first, and the frames of the steps after them leave them alone. -/
theorem sampleFormsReadingsAndSpeeds : Obligations.SampleFormsReadingsAndSpeeds := by
  unfold Obligations.SampleFormsReadingsAndSpeeds
  intro s x
  have hfront := pressureSample_front x s
  obtain ⟨hwheel, hvref, hgating⟩ := pressureSample_wheels x s
  have hkept : ∀ q, q ∈ [Part.pending, .strangers, .learn, .inertial, .linkPort .down, .linkSetting, .ownPosition, .upService,
      .downService, .demandSlot, .heldReqs, .heldResps, .response .a, .response .b] ++
      everyChannel (fun c => [.volume c, .leakMark c, .entry c .ctrlA, .entry c .ctrlB]) → q ∉ sampleParts := by decide +kernel
  have hparked : ∀ q, q ∈ [Part.standby, .driver, .axles, .raised, .group, .positions, .targets, .rollFlag, .worst, .indicator,
      .inner, .calActive, .staging, .linkPort .up] ++
      everyChannel (fun c => [.derate c, .entry c .driver, .entry c .ctrlA, .entry c .ctrlB, .entry c .emerg, .entry c .roll]) →
      q ∉ parkedParts := by decide +kernel
  refine ⟨pressureSample x s, rfl, ?readings, ?lift, pressureSample_sensor x s, fun c => ?wheels, ?speeds, fun c => ?slips,
    fun q hq => pressureSample_frame x s q (hkept q hq), fun hrun => pressureSample_resting x hrun,
    fun hp harmed q hq => pressureSample_parked hp harmed x q (hparked q hq)⟩
  case readings =>
    rw [hfront]
    exact ⟨readings_get x.delivery, rfl, rfl, rfl, fun a => ⟨bagReadings_get x.bagLeft a, bagReadings_get x.bagRight a⟩⟩
  case lift => rw [hfront]; rfl
  case wheels =>
    rw [hwheel c, sampledWheels_get]
    exact sampleWheel_eq s.cal.active (x.wheelClosed.get c) (s.wheels.wheel.get c)
  case speeds =>
    have hrecords : ∀ c, (pressureSample x s).wheels.wheel.get c = (sampledWheels s x.wheelClosed).get c := hwheel
    obtain ⟨hvalid, hnone⟩ := vref_cases (sampledWheels s x.wheelClosed) s.wheels.vref s.driver
    intro v any
    have hany : any ↔ ∃ c, ((sampledWheels s x.wheelClosed).get c).valid = true := by
      simp only [any, hrecords]
    have hspeed (c : Channel) : v c = countedSpeed ((sampledWheels s x.wheelClosed).get c) := by
      simp only [v, hrecords, countedSpeed]
    rw [hany, hspeed, hspeed, hspeed, hspeed, hvref, hgating]
    exact ⟨hvalid, hnone⟩
  case slips => exact (pressureSample_slip x s c).trans (slipOf_eq _ _)

end Sys2Proof
end

