-- ==== Sys2Proof/Proofs/PostCommands.lean ====
section
/-! Posts and withdrawals of the controller ports (R23, R24, R26; O28): what stands in the tables once a command has passed over the
channels of its mask, and that a wake, which removes SKID entries alone, leaves a channel resolved. -/

namespace Sys2Proof

open Sys2Proof.Machine

/-! ## What an entry into BACKUP keeps of a channel's resolution (R2, R48) -/

/-- A predicate on the resolution of a channel that the withdrawal of a SKID entry keeps. A backup cause, and with it a wake, does no
more to a resolution than that. -/
structure SkidKept (P : State → Prop) : Prop where
  same {s t : State} : SameOn isResolution s t → P s → P t
  withdraw (c : Channel) {s : State} : P s → P (withdraw c .skid s)

section SkidKept
variable {P : State → Prop} (hP : SkidKept P)
include hP

theorem SkidKept.frame {l : List Part} {s t : State} (h : OnlyChanges l s t)
    (hl : l.all (fun q => !isResolution q) = true) (hs : P s) : P t := hP.same (.of_frame h hl) hs

theorem SkidKept.freeSkid (c : Channel) {s : State} (hs : P s) : P (freeSkid c s) := by
  rcases freeSkid_cases c s with h | ⟨k, -, h⟩ <;> rw [h]
  · exact hs
  · exact hP.frame (queueEvent_frame _) rfl (hP.withdraw c (hP.frame (setSkid_frame s c k) rfl hs))

theorem SkidKept.enterBackup (c : Channel) {s : State} (hs : P s) : P (enterBackup c s) := by
  rw [enterBackup_eq]
  have hnoticed := hP.frame (testBackupNotice_quiet c _) rfl (hP.frame (deEnergise_frame c s) rfl hs)
  exact hP.frame (queueEvent_frame _) rfl (hP.freeSkid c hnoticed)

theorem SkidKept.addCause (k : Cause) (c : Channel) {s : State} (hs : P s) : P (addCause k c s) := by
  have hput := hP.frame (setCauses_frame (s := s) c ((channelOf s c).causes.put k true) (channelOf s c).startupHeld) rfl hs
  rcases addCause_cases k c s with ⟨h, -⟩ | ⟨h, -⟩ | ⟨h, -⟩ <;> rw [h]
  · exact hs
  · exact hP.enterBackup c hput
  · exact hput

theorem SkidKept.wake (r : WakeReason) {s : State} (hs : P s) : P (wake r s) := by
  unfold Machine.wake
  split
  · refine forChannels_keeps (P := P) (fun c t ht => ?_) _
      (hP.frame (raiseWakeReason_frame _) rfl (hP.frame (setStandby_frame s _) rfl hs))
    exact hP.addCause .startup c (hP.frame (startupHeld_frame c t) rfl ht)
  · exact hs

end SkidKept

theorem channelResolved_kept (c : Channel) : SkidKept (fun s => ChannelResolved s c) where
  same h hs := hs.keeps (h.mono (isResolutionOf_le c))
  withdraw d s hs := by
    rcases withdraw_cases_at c d .skid s with h | ⟨rfl, h⟩
    · exact hs.keeps h
    · rw [h]
      exact resolve_resolved d _

theorem ChannelResolved.transfer {p : Port} {n : Nat} {act : Action} {s : State} {c : Channel}
    (h : ChannelResolved (act s).2 c) : Resolved (transfer p n act s) c := by
  have hP := channelResolved_kept c
  have hanswer := hP.frame (answer_frame (act s).2 p ⟨n, (act s).1.code, (act s).1.record⟩) rfl h
  rw [transfer_eq]
  refine (hP.frame (refreshFaults_frame _) rfl ?_).1
  split
  · exact hP.wake .port hanswer
  · exact hanswer

/-- No transfer touches an entry of a port but by its command. -/
theorem transfer_entry {p q : Port} {n : Nat} {act : Action} (s : State) (c : Channel) :
    entryOf (transfer p n act s) c (portSource q) = entryOf (act s).2 c (portSource q) := by
  have hwake (u : State) : samePart u (wake .port u) (.entry c (portSource q)) :=
    wake_frame .port u _ (by cases c <;> cases q <;> decide +kernel)
  have hanswer : samePart (act s).2 (answer (act s).2 p ⟨n, (act s).1.code, (act s).1.record⟩) (.entry c (portSource q)) :=
    answer_frame _ p _ _ (by simp)
  rw [transfer_eq]
  refine Eq.trans (refreshFaults_frame _ (.entry c (portSource q)) (by simp [noticeParts])) ?_
  split
  · exact hanswer.trans (hwake _)
  · exact hanswer

/-! ## The channels of a mask -/

section Mask
variable {mask : Nat} {c : Channel}

/-- The turn of a channel that the mask names. -/
theorem maskTurn_named (hbit : mask.testBit (channelNumber c) = true) (g : Channel → State → State) (t : State) :
    maskTurn mask g c t = g c t := by simp [maskTurn, inMask, hbit]

/-- What the turn of a named channel brings about in its own table stands once every channel had its turn. -/
theorem forMask_entry {k : Source} {g : Channel → State → State} {o : Option Entry}
    (hbit : mask.testBit (channelNumber c) = true) (hframe : ∀ d t, OnlyChanges (.entry d k :: resolveParts d) t (g d t))
    (hself : ∀ t, entryOf (g c t) c k = o) (s : State) : entryOf (forMask mask g s) c k = o := by
  rw [forMask_eq]
  refine forChannels_turn (R := fun _ u => entryOf u c k = o) (S := fun t u => entryOf u c k = entryOf t c k) c
    (fun _ _ _ _ h => h) (fun _ _ _ h hS => hS.trans h) (fun t => ?_) (fun d t hd => ?_) s
  · rw [maskTurn_named hbit]
    exact hself t
  · exact maskTurn_frame (f := fun d => .entry d k :: resolveParts d) (hframe d t) (.entry c k)
      (by simp [resolveParts, abortParts, Ne.symm hd])

/-- The same for its resolution, which may depend on what stood in its table before (R38). -/
theorem forMask_resolved {k : Source} {g : Channel → State → State} {C : State → Prop}
    (hbit : mask.testBit (channelNumber c) = true) (hframe : ∀ d t, OnlyChanges (.entry d k :: resolveParts d) t (g d t))
    (hC : ∀ t u, SameOn (isResolutionOf c) t u → C t → C u) (hself : ∀ t, C t → ChannelResolved (g c t) c) {s : State}
    (hs : C s) : ChannelResolved (forMask mask g s) c := by
  rw [forMask_eq]
  refine each_resolved (k := k) c (fun d t => maskTurn_frame (f := fun d => .entry d k :: resolveParts d) (hframe d t)) hC
    (fun t ht => ?_) hs
  rw [maskTurn_named hbit]
  exact hself t ht

end Mask

/-! ## A command that acts on the tables of its mask (R165, R166) -/

/-- What a transfer owes that has passed over the channels of its mask with a change of one port's entries: its answer, and nothing
changed but those entries, their resolutions and what a transfer changes. -/
theorem entryCommand_acts {p q : Port} {n mask : Nat} {act : Action} {g : Channel → State → State} {s : State}
    (hact : act s = (plainReply .ok, forMask mask g s))
    (hframe : ∀ d t, OnlyChanges (.entry d (portSource q) :: resolveParts d) t (g d t)) :
    Answered s (transfer p n act s) p n .ok [] ∧
    OnlyChanges (everyChannel (fun c => if mask.testBit (channelNumber c) then .entry c (portSource q) :: resolveParts c else []) ++
      transferParts s p) s (transfer p n act s) := by
  refine ⟨transfer_answered hact (forMask_frame_all mask hframe s) ?_, transfer_frame ?_⟩
  · simp [mem_everyChannel, resolveParts, abortParts]
  · rw [hact]
    exact forMask_frame mask hframe s

/-- A post puts its entry into every table of its mask (R23, R24). -/
theorem postCommand_acts {p : Port} {n mask : Nat} {act : Action} {e : Entry} {s : State}
    (hact : act s = (plainReply .ok, forMask mask (fun c => post c (portSource p) e) s)) :
    Answered s (transfer p n act s) p n .ok [] ∧
    (∀ c, mask.testBit (channelNumber c) = true →
      entryOf (transfer p n act s) c (portSource p) = some { e with level := min 1000 e.level } ∧
      Resolved (transfer p n act s) c) ∧
    OnlyChanges (everyChannel (fun c => if mask.testBit (channelNumber c) then .entry c (portSource p) :: resolveParts c else []) ++
      transferParts s p) s (transfer p n act s) := by
  have hframe (d : Channel) (t : State) := post_frame d (portSource p) e t
  obtain ⟨hanswer, hchanges⟩ := entryCommand_acts (p := p) (n := n) hact hframe
  refine ⟨hanswer, fun c hbit => ⟨?_, ChannelResolved.transfer ?_⟩, hchanges⟩
  · rw [transfer_entry, hact]
    exact forMask_entry hbit hframe (post_entry c _ e) s
  · rw [hact]
    exact forMask_resolved (C := fun _ => True) hbit hframe (fun _ _ _ h => h) (fun _ _ => resolve_resolved c _) trivial

/-- A WITHDRAW takes the sending port's own entries out of the tables of its mask (R26). -/
theorem withdrawCommand_acts {p : Port} {n mask : Nat} {act : Action} {s : State}
    (hact : act s = (plainReply .ok, forMask mask (fun c => withdraw c (portSource p)) s)) :
    Answered s (transfer p n act s) p n .ok [] ∧
    (∀ c, mask.testBit (channelNumber c) = true → entryOf (transfer p n act s) c (portSource p) = none ∧
      (entryOf s c (portSource p) ≠ none → Resolved (transfer p n act s) c)) ∧
    OnlyChanges (everyChannel (fun c => if mask.testBit (channelNumber c) then .entry c (portSource p) :: resolveParts c else []) ++
      transferParts s p) s (transfer p n act s) := by
  have hframe (d : Channel) (t : State) := withdraw_frame d (portSource p) t
  obtain ⟨hanswer, hchanges⟩ := entryCommand_acts (p := p) (n := n) hact hframe
  refine ⟨hanswer, fun c hbit => ⟨?_, fun hentry => ChannelResolved.transfer ?_⟩, hchanges⟩
  · rw [transfer_entry, hact]
    exact forMask_entry hbit hframe (withdraw_entry c _) s
  · rw [hact]
    refine forMask_resolved (C := fun t => entryOf t c (portSource p) ≠ none) hbit hframe (fun t u hsame ht => ?_)
      (fun t ht => withdraw_resolved_of_entry ht) hentry
    have hkept : entryOf u c (portSource p) = entryOf t c (portSource p) :=
      hsame (.entry c (portSource p)) (by simp [isResolutionOf])
    rwa [hkept]

/-- The level of a port's entry is clamped before it is posted (R24). -/
theorem portEntry_clamped (level lifetime : Nat) :
    ({ portEntry level lifetime with level := min 1000 (portEntry level lifetime).level } : Entry) =
      ⟨min level 1000, some (max 20 (min lifetime 1000)), none⟩ := by
  simp [portEntry, levelArg, lifetimeArg, clamp]

/-- Settles O28: each command passes its checks and acts on one table after another; the transfer adds its answer, and in PARKED a
wake that takes no entry of a port. -/
theorem postsEnterAndLeaveTheTables : Obligations.PostsEnterAndLeaveTheTables := by
  intro s mask h0 h16
  have hmask := maskOk_of h0 h16
  refine ⟨fun level lifetime hp => ⟨⟨_, rfl, ?_⟩, ⟨_, rfl, ?_⟩⟩, fun p => ⟨_, rfl, ?_⟩⟩
  · have h := postCommand_acts (p := .a) (n := 1) (mask := mask) (e := portEntry level lifetime) (s := s)
      (act := takenFrom .a .a (withArgument (maskOk mask) (unlessState isParked .notNow
        (accept (forMask mask (fun c => post c .ctrlA (portEntry level lifetime)))))))
      (by simp [takenFrom, withArgument, unlessState, accept, hmask, hp, portSource])
    rwa [portEntry_clamped] at h
  · have h := postCommand_acts (p := .b) (n := 2) (mask := mask) (e := portEntry level lifetime) (s := s)
      (act := takenFrom .b .b (withArgument (maskOk mask) (unlessState isParked .notNow
        (accept (forMask mask (fun c => post c .ctrlB (portEntry level lifetime)))))))
      (by simp [takenFrom, withArgument, unlessState, accept, hmask, hp, portSource])
    rwa [portEntry_clamped] at h
  · exact withdrawCommand_acts (by simp [withArgument, accept, hmask])

end Sys2Proof
end

