-- ==== Sys2Proof/Proofs/DemandSources.lean ====
section
/-! D formed anew (R29, R31 to R35; O7): the Driver Demand record it leaves, the DRIVER entries, and the causes of the channels with
and without a source. -/

namespace Sys2Proof

open Sys2Proof.Machine

/-! ## The record (R31, R34) -/

/-- The Driver Demand record once D is formed from it: a mismatch ends where a source is absent, and D follows. -/
def formedDriver (d : DriverRec) : DriverRec := { settleMismatch d with demand := demandOf (settleMismatch d) }

theorem settleMismatch_both {d : DriverRec} (hlink : d.linkPresent = true) {y : Nat} (hline : d.lineLevel = some y) :
    settleMismatch d = d := by simp [settleMismatch, hlink, hline]

theorem settleMismatch_single {d : DriverRec} (h : d.linkPresent = false ∨ d.lineLevel = none) :
    settleMismatch d = endMismatch d := by rcases h with h | h <;> simp [settleMismatch, h]

/-- With both sources D is the LINK level, or the larger of the two where select-high holds (R31). -/
theorem formedDriver_both {d : DriverRec} (hlink : d.linkPresent = true) {y : Nat} (hline : d.lineLevel = some y) :
    formedDriver d =
      { d with demand := if selectHigh d then max (d.linkLevel.getD 0) y else d.linkLevel.getD 0 } := by
  simp [formedDriver, settleMismatch_both hlink hline, demandOf, hlink, hline]

/-- With one source or none a mismatch and its runs end, and D is the level that is left (R31, R32, R34). -/
theorem formedDriver_single {d : DriverRec} (h : d.linkPresent = false ∨ d.lineLevel = none) :
    formedDriver d = { d with
      mismatch := false, onset := none, recovery := none,
      demand := if d.linkPresent then d.linkLevel.getD 0 else d.lineLevel.getD 0 } := by
  rw [formedDriver, settleMismatch_single h]
  cases hlink : d.linkPresent with
  | false => cases hline : d.lineLevel <;> simp [endMismatch, demandOf, hlink, hline]
  | true =>
    have hline : d.lineLevel = none := by simpa [hlink] using h
    simp [endMismatch, demandOf, hlink, hline]

/-- The end of a mismatch takes no source away. -/
theorem noSource_settle (s : State) (n : Nat) :
    noSource (s.setDriver { settleMismatch s.driver with demand := n }) = noSource s := by
  unfold settleMismatch
  split <;> rfl

theorem writeDemand_sourced {s : State} (h : noSource s = false) : writeDemand s = s.setDriver (formedDriver s.driver) := by
  simp [writeDemand, noSource_settle, h, formedDriver]

theorem writeDemand_unsourced {s : State} (h : noSource s = true) :
    writeDemand s = forChannels (addCause .noDemandSource) (s.setDriver (formedDriver s.driver)) := by
  simp [writeDemand, noSource_settle, h, formedDriver]

theorem writeDemand_driver (s : State) : (writeDemand s).driver = formedDriver s.driver := by
  cases h : noSource s with
  | false => rw [writeDemand_sourced h]; rfl
  | true =>
    rw [writeDemand_unsourced h]
    exact forChannels_frame (addCause_frame .noDemandSource) _ .driver (by decide +kernel)

theorem formDemand_driver (s : State) : (formDemand s).driver = formedDriver s.driver := by
  have hupdate : (formDemand s).driver = (writeDemand s).driver :=
    forChannels_frame updateDriver_frame (writeDemand s) .driver (by decide +kernel)
  rw [hupdate, writeDemand_driver]

theorem noSource_formDemand (s : State) : noSource (formDemand s) = noSource s := by
  have hdriver := formDemand_driver s
  simp only [noSource, hdriver]
  exact noSource_settle s _

/-! ## Entries and causes (R32, R35) -/

/-- A DRIVER entry stands exactly while D is 15 kPa or above (R35). -/
theorem formDemand_owns (s : State) (c : Channel) : Owns .driver (formDemand s) c := by
  rw [formDemand_eq]
  exact forChannels_each (P := fun c t => Owns .driver t c) updateDriver_owns
    (fun _ d t hd ht => ht.other hd (updateDriver_frame d t)) _ c

/-- With a source at hand D moves no cause. -/
theorem formDemand_causes_kept {s : State} (h : noSource s = false) (c : Channel) :
    samePart s (formDemand s) (.causes c) := by
  rw [formDemand_eq, writeDemand_sourced h]
  have hset := setDriver_frame s (formedDriver s.driver) (.causes c) (by simp)
  exact hset.trans (forChannels_frame updateDriver_frame _ _ (by cases c <;> decide +kernel))

/-- A channel in BACKUP is not under test, so a new DRIVER level moves none of its valves. -/
theorem updateDriver_backedUp {c : Channel} {s : State} (hs : BackedUp s c) : BackedUp (updateDriver c s) c := by
  obtain ⟨-, -, -, -, -, -, -, hidle⟩ := id hs
  have hframe : OnlyChanges [.entry c .driver, .setpoint c, .resolution c] s (updateDriver c s) := by
    rcases updateDriver_cases c s with h | ⟨e, h⟩ | h <;> rw [h]
    · exact .refl _ s
    · exact post_quiet hidle
    · exact withdraw_quiet hidle
  exact hs.stays (.of_frame hframe (updateDriver_holder c s) (by simp))

theorem updateDriver_stays {c d : Channel} (hd : d ≠ c) (s : State) : StaysBackedUp c s (updateDriver d s) :=
  .of_frame (updateDriver_frame d s) (updateDriver_holder d s) (by simp [resolveParts, abortParts, Ne.symm hd])

/-- Without a source every ELECTRONIC channel is backed up (R2, R32). -/
theorem formDemand_backedUp {s : State} (h : noSource s = true) {c : Channel} (he : electronic s c = true) :
    BackedUp (formDemand s) c := by
  rw [formDemand_eq, writeDemand_unsourced h]
  refine forChannels_backedUp c (fun _ => updateDriver_backedUp) (fun d t hd => updateDriver_stays hd t) ?_
  exact forChannels_turn (R := fun t u => electronic t c = true → BackedUp u c) (S := StaysBackedUp c) c
    (fun _ _ _ h hR ht => hR ((electronic_same h.causes).trans ht)) (fun _ _ _ hR h ht => (hR ht).stays h)
    (addCause_backedUp .noDemandSource c) (fun d t hd => addCause_stays hd t) (s.setDriver (formedDriver s.driver)) he

/-! ## The rows (R29, R33, R34) -/

/-- What a row that forms D from a record it has written leaves of the record and of the DRIVER entries. -/
theorem formedRow_values (s : State) (d : DriverRec) :
    let t := refreshFaults (formDemand (s.setDriver d))
    t.driver = formedDriver d ∧ (∀ c, (entryOf t c .driver).isSome = decide (15 ≤ t.driver.demand)) ∧
      OnlyChanges (driverParts ++ noticeParts) s t := by
  have hrefresh := refreshFaults_frame (formDemand (s.setDriver d))
  have hdriver : (refreshFaults (formDemand (s.setDriver d))).driver = (formDemand (s.setDriver d)).driver :=
    hrefresh .driver (by simp [noticeParts])
  refine ⟨hdriver.trans (formDemand_driver _), fun c => ?_, ?_⟩
  · have hentry : entryOf (refreshFaults (formDemand (s.setDriver d))) c .driver = entryOf (formDemand (s.setDriver d)) c .driver :=
      hrefresh (.entry c .driver) (by simp [noticeParts])
    rw [hentry, hdriver]
    exact formDemand_owns _ c
  · have hform := (formDemand_frame _).step (setDriver_frame s d) (l := driverParts) (by simp [driverParts]) (fun _ h => h)
    exact hrefresh.step hform (by simp) (by simp)

theorem formedRow_causes {s : State} {d : DriverRec} (h : noSource (s.setDriver d) = false) (c : Channel) :
    (channelOf (refreshFaults (formDemand (s.setDriver d))) c).causes = (channelOf s c).causes := by
  rw [causes_refresh, (formDemand_causes_kept h c).1]
  rfl

theorem mismatchOnset_acts {s : State} (hlink : s.driver.linkPresent = true) {y : Nat} (hline : s.driver.lineLevel = some y)
    (hno : s.driver.mismatch = false) (hms : 500 ≤ runMs s.driver.onset) : ∃ t, exec .mismatchOnset s = .next t ∧
      t.driver = { s.driver with mismatch := true, recovery := none, demand := max (s.driver.linkLevel.getD 0) y } ∧
      (∀ c, (entryOf t c .driver).isSome = decide (15 ≤ t.driver.demand)) ∧ OnlyChanges (driverParts ++ noticeParts) s t ∧
      ∀ c, (channelOf t c).causes = (channelOf s c).causes := by
  have hdue : mismatchDue s = true := by simp [mismatchDue, bothSources, hlink, hline, hno, hms]
  let d : DriverRec := { s.driver with mismatch := true, recovery := none }
  obtain ⟨hdriver, hentry, hframe⟩ := formedRow_values s d
  refine ⟨_, by simp only [exec, execMismatchOnset, hdue, whenDue_true]; rfl, ?_, hentry, hframe,
    formedRow_causes (d := d) (by simp [noSource, d, hlink])⟩
  rw [hdriver, formedDriver_both (d := d) hlink hline]
  simp [d, selectHigh, runMs]

theorem mismatchRecovery_acts {s : State} (hlink : s.driver.linkPresent = true) {y : Nat}
    (hline : s.driver.lineLevel = some y) (hmis : s.driver.mismatch = true) (hms : 2000 ≤ runMs s.driver.recovery) :
    ∃ t, exec .mismatchRecovery s = .next t ∧
      t.driver = { s.driver with mismatch := false, onset := none, recovery := none,
                                 demand := s.driver.linkLevel.getD 0 } ∧
      (∀ c, (entryOf t c .driver).isSome = decide (15 ≤ t.driver.demand)) ∧ OnlyChanges (driverParts ++ noticeParts) s t ∧
      ∀ c, (channelOf t c).causes = (channelOf s c).causes := by
  have hdue : agreementDue s = true := by simp [agreementDue, bothSources, hlink, hline, hmis, hms]
  obtain ⟨hdriver, hentry, hframe⟩ := formedRow_values s (endMismatch s.driver)
  refine ⟨_, by simp only [exec, execMismatchRecovery, hdue, whenDue_true]; rfl, ?_, hentry, hframe,
    formedRow_causes (d := endMismatch s.driver) (by simp [noSource, endMismatch, hlink])⟩
  rw [hdriver, formedDriver_both (d := endMismatch s.driver) hlink hline]
  simp [endMismatch, selectHigh]

theorem linkAgeExpiry_acts {s : State} (hlink : s.driver.linkPresent = true) {a : Nat} (hage : s.driver.linkAge = some a)
    (hms : 100 ≤ a) : ∃ t, exec .linkAgeExpiry s = .next t ∧
      t.driver = { s.driver with linkPresent := false, mismatch := false, onset := none, recovery := none,
                                 demand := s.driver.lineLevel.getD 0 } ∧
      (∀ c, AddsCauses s t c (fun k => k == .noDemandSource && s.driver.lineLevel.isNone) ∧
        (s.driver.lineLevel = none → electronic s c = true → BackedUp t c)) ∧
      (∀ c, (entryOf t c .driver).isSome = decide (15 ≤ t.driver.demand)) ∧
      OnlyChanges (driverParts ++ noticeParts) s t := by
  have hdue : linkAged s = true := by simp [linkAged, hlink, hage, hms]
  let d : DriverRec := { s.driver with linkPresent := false }
  have hlose : loseLink s = formDemand (s.setDriver d) := by simp [loseLink, hlink, d]
  have hno : noSource (s.setDriver d) = s.driver.lineLevel.isNone := by simp [noSource, d]
  obtain ⟨hdriver, hentry, hframe⟩ := formedRow_values s d
  refine ⟨_, by simp only [exec, execLinkAgeExpiry, hdue, whenDue_true, hlose], ?_, fun c => ⟨?_, fun hline he => ?_⟩,
    hentry, hframe⟩
  · exact hdriver.trans (formedDriver_single (.inl rfl))
  · have hadds := (formDemand_causes c (s.setDriver d)).1
    rw [noSource_formDemand, hno] at hadds
    intro k
    rw [causes_refresh, hadds k]
    rfl
  · exact (formDemand_backedUp (hno.trans (by simp [hline])) he).refresh

/-- Settles O7: each row writes the record and forms D from it, and the record says which source is left. -/
theorem demandSourcesComeAndGo : Obligations.DemandSourcesComeAndGo := fun _ hlink =>
  ⟨fun _ hline hno hms => mismatchOnset_acts hlink hline hno hms,
    fun _ hline hmis hms => mismatchRecovery_acts hlink hline hmis hms,
    fun _ hage hms => linkAgeExpiry_acts hlink hage hms⟩

end Sys2Proof
end

