-- ==== Sys2Proof/Proofs/SampleDemand.lean ====
section
/-! The Driver Demand record, NO_DEMAND_SOURCE and the DRIVER entries of a pressure sample outside PARKED (R28, R30 to R35; O11). -/

namespace Sys2Proof

open Sys2Proof.Machine

/-! ## The record (R28, R30 to R34) -/

/-- LINE as a raw control reading gives it (R14, R30). -/
theorem lineOf_readingOf (v : Int) : lineOf (readingOf v) =
    if 0 ≤ v ∧ v ≤ 1100 then some (if v < 15 then 0 else min 1000 v.toNat) else none := by
  unfold readingOf
  split
  · next h =>
    have hlow : v.toNat < 15 ↔ v < 15 := by omega
    simp only [lineOf, hlow]
  · rfl

/-- The record that a sample with this LINE reading leaves. -/
def sampledDriver (d : DriverRec) (line : Option Nat) : DriverRec :=
  formedDriver (mismatchRuns { d with lineLevel := line })

theorem mismatchRuns_single {d : DriverRec} (h : d.linkPresent = false ∨ d.lineLevel = none) :
    mismatchRuns d = { d with onset := none } := by
  unfold mismatchRuns
  rcases h with h | h <;> cases hlink : d.linkPresent <;> cases hline : d.lineLevel <;> simp_all

section Sampled
variable {d : DriverRec} {y : Nat}

/-- Without a mismatch the onset run follows the gap, and D is the LINK level (R31, R33). -/
theorem sampledDriver_agreed (hlink : d.linkPresent = true) (hmis : d.mismatch = false) :
    sampledDriver d (some y) = { d with
      lineLevel := some y, onset := runSample 500 (decide (100 < levelGap y (d.linkLevel.getD 0))) d.onset,
      demand := d.linkLevel.getD 0 } := by
  have hruns : mismatchRuns { d with lineLevel := some y } = { d with
      lineLevel := some y, onset := runSample 500 (decide (100 < levelGap y (d.linkLevel.getD 0))) d.onset } := by
    simp [mismatchRuns, hlink, hmis]
  rw [sampledDriver, hruns, formedDriver_both (by exact hlink) rfl]
  simp [selectHigh, hmis]

/-- In a mismatch the recovery run follows the gap, and D is the larger level until it has reached 2000 ms (R31, R34). -/
theorem sampledDriver_mismatched (hlink : d.linkPresent = true) (hmis : d.mismatch = true) :
    sampledDriver d (some y) =
      (let r := runSample 2000 (decide (levelGap y (d.linkLevel.getD 0) ≤ 30)) d.recovery
       { d with
          lineLevel := some y, recovery := r,
          demand := if runMs r < 2000 then max (d.linkLevel.getD 0) y else d.linkLevel.getD 0 }) := by
  have hruns : mismatchRuns { d with lineLevel := some y } = { d with
      lineLevel := some y, recovery := runSample 2000 (decide (levelGap y (d.linkLevel.getD 0) ≤ 30)) d.recovery } := by
    simp [mismatchRuns, hlink, hmis]
  rw [sampledDriver, hruns, formedDriver_both (by exact hlink) rfl]
  simp [selectHigh, hmis]

/-- With one source or none the mismatch and its runs end (R31, R32, R34). -/
theorem sampledDriver_single {line : Option Nat} (h : d.linkPresent = false ∨ line = none) :
    sampledDriver d line = { d with
      lineLevel := line, mismatch := false, onset := none, recovery := none,
      demand := if d.linkPresent then d.linkLevel.getD 0 else line.getD 0 } := by
  rw [sampledDriver, mismatchRuns_single h, formedDriver_single (by exact h)]

end Sampled

/-- A sample takes LINE from its reading and leaves LINK where it is (R30). -/
theorem sampledDriver_sources (d : DriverRec) (line : Option Nat) :
    (sampledDriver d line).linkPresent = d.linkPresent ∧ (sampledDriver d line).lineLevel = line := by
  by_cases h : d.linkPresent = false ∨ line = none
  · rw [sampledDriver_single h]
    exact ⟨rfl, rfl⟩
  · push Not at h
    obtain ⟨hlink, hline⟩ := h
    obtain ⟨y, rfl⟩ := Option.ne_none_iff_exists'.mp hline
    rw [ne_eq, Bool.not_eq_false] at hlink
    cases hmis : d.mismatch with
    | false =>
      rw [sampledDriver_agreed hlink hmis]
      exact ⟨rfl, rfl⟩
    | true =>
      rw [sampledDriver_mismatched hlink hmis]
      exact ⟨rfl, rfl⟩

theorem sampleDriver_awake {s : State} (hp : isParked s = false) : sampleDriver s =
    formDemand (s.setDriver (mismatchRuns { s.driver with lineLevel := lineOf s.front.control })) := by
  simp [sampleDriver, hp]

section Awake
variable {x : SampleSet} {s : State}

theorem sampleSensors_driver (x : SampleSet) (s : State) : (sampleSensors x (headAlone s)).driver = s.driver :=
  sampleSensors_frame x (headAlone s) .driver (by decide +kernel)

/-- D and its record are formed from the readings, and no later step of the sample writes them. -/
theorem sample_record (hp : isParked s = false) :
    (pressureSample x s).driver = sampledDriver s.driver (lineOf (readingOf x.control)) := by
  let u := sampleSensors x (headAlone s)
  have hdemand : (sampleResolved x s).driver = (sampleDriver u).driver := by
    have hresolve : (resolveAll (sampleDriver u)).driver = (sampleDriver u).driver :=
      resolveAll_frame (sampleDriver u) .driver (by decide +kernel)
    have hremove : (sampleResolved x s).driver = (resolveAll (sampleDriver u)).driver :=
      forChannels_frame removeAutomatic_frame (resolveAll (sampleDriver u)) .driver (by decide +kernel)
    rw [hremove, hresolve]
  have hfront : u.front = frontOf x := (sampleSensors_checked x (headAlone s) .ch0).1
  rw [sample_driver hp, hdemand, sampleDriver_awake ((sampleSensors_parked x s).trans hp), formDemand_driver, hfront,
    sampleSensors_driver]
  rfl

/-! ## NO_DEMAND_SOURCE (R5, R32) -/

/-- NO_DEMAND_SOURCE stands where no source is at hand, and lasts while D is 15 kPa or above. -/
theorem sample_noDemandSource (hp : isParked s = false) (c : Channel) :
    (channelOf (pressureSample x s) c).causes.noDemandSource = true ↔ noSource (pressureSample x s) = true ∨
      ((channelOf s c).causes.noDemandSource = true ∧ 15 ≤ (pressureSample x s).driver.demand) := by
  by_cases hlow : (pressureSample x s).driver.demand < 15
  · obtain ⟨-, hnone, -⟩ := sample_low hp hlow c
    rw [hnone]
    exact ⟨.inl, fun h => h.resolve_right fun hboth => absurd hboth.2 (Nat.not_le.mpr hlow)⟩
  · rw [Nat.not_lt] at hlow
    have hadds := (sampleResolved_causes (x := x) hp c).high (by rwa [← sample_driver hp]) .noDemandSource
    have hbefore := sampleSensors_other x s c (k := .noDemandSource) (by decide)
    rw [hbefore, ← noSource_sample hp, ← (sample_causes hp c).1] at hadds
    have hhas : (channelOf (pressureSample x s) c).causes.noDemandSource =
        ((channelOf s c).causes.noDemandSource || noSource (pressureSample x s)) := by simpa [CauseSet.has] using hadds
    rw [hhas, Bool.or_eq_true, or_comm]
    simp only [hlow, and_true]

theorem noSource_sampled (hp : isParked s = false) : noSource (pressureSample x s) = true ↔
    s.driver.linkPresent = false ∧ lineOf (readingOf x.control) = none := by
  obtain ⟨hlink, hline⟩ := sampledDriver_sources s.driver (lineOf (readingOf x.control))
  simp [noSource, sample_record hp, hlink, hline]

/-! ## DRIVER entries (R35) -/

/-- What the level of a channel's DRIVER entry follows from, and the entry itself. -/
def isLevelOf (c : Channel) : Part → Bool
  | .calActive | .group | .driver => true
  | .resolution d => d == c
  | .entry d k => d == c && k == .driver
  | _ => false

theorem driverLevel_same {s t : State} {c : Channel} (h : SameOn (isLevelOf c) s t) : driverLevel t c = driverLevel s c := by
  have hcal : t.cal.active = s.cal.active := (h .calActive rfl).1
  have hgain : t.load.gain = s.load.gain := (h .group rfl).2.2
  have hdriver : t.driver = s.driver := h .driver rfl
  have happlied : t.demand.applied.get c = s.demand.applied.get c := (h (.resolution c) (by simp [isLevelOf])).1
  simp only [driverLevel, curve, hcal, hgain, hdriver, happlied]

/-- What D has the DRIVER entry of a channel hold: a level that is not above 1000 kPa is posted as it is (R23, R35). -/
def HoldsLevel (c : Channel) (s t : State) : Prop :=
  15 ≤ s.driver.demand → driverLevel s c ≤ 1000 → (entryOf t c .driver).map Entry.level = some (driverLevel s c)

theorem updateDriver_level (c : Channel) (s : State) : HoldsLevel c s (updateDriver c s) := by
  intro hhigh hle
  unfold updateDriver
  rw [if_pos hhigh]
  split
  · assumption
  · rw [post_entry]
    simp [hle]

theorem updateDrivers_level (c : Channel) (s : State) : HoldsLevel c s (forChannels updateDriver s) := by
  refine forChannels_turn (R := HoldsLevel c) (S := SameOn (isLevelOf c)) c (fun t u v h hR => ?_) (fun t u v hR h => ?_)
    (updateDriver_level c) (fun d t hd => .of_frame (updateDriver_frame d t) ?_) s
  · have hdriver : u.driver = t.driver := h .driver rfl
    have hlevel := driverLevel_same h
    unfold HoldsLevel at hR ⊢
    rwa [hdriver, hlevel] at hR
  · have hentry : entryOf v c .driver = entryOf u c .driver := h (.entry c .driver) (by simp [isLevelOf])
    unfold HoldsLevel at hR ⊢
    rwa [hentry]
  · simp [resolveParts, abortParts, isLevelOf, hd]

/-- No step of a sample after the forming of D writes a DRIVER entry. -/
theorem sample_driverEntry (hp : isParked s = false) (c : Channel) : entryOf (pressureSample x s) c .driver =
    entryOf (sampleDriver (sampleSensors x (headAlone s))) c .driver := by
  let u := sampleDriver (sampleSensors x (headAlone s))
  have hresolve : samePart u (resolveAll u) (.entry c .driver) := resolveAll_frame u _ (by cases c <;> decide +kernel)
  have hremove : samePart (resolveAll u) (sampleResolved x s) (.entry c .driver) :=
    forChannels_frame removeAutomatic_frame (resolveAll u) _ (by cases c <;> decide +kernel)
  have htail : samePart (sampleResolved x s) (pressureSample x s) (.entry c .driver) :=
    pressureSample_tail hp _ (by cases c <;> decide +kernel)
  exact (hresolve.trans hremove).trans htail

theorem sampleDriver_demand (hp : isParked s = false) :
    (sampleDriver (sampleSensors x (headAlone s))).driver.demand = (pressureSample x s).driver.demand := by
  rw [sample_record hp, sampleDriver_awake ((sampleSensors_parked x s).trans hp), formDemand_driver,
    (sampleSensors_checked x (headAlone s) .ch0).1, sampleSensors_driver]
  rfl

/-- Below 15 kPa no DRIVER entry stands (R35). -/
theorem sample_noEntry (hp : isParked s = false) (hlow : (pressureSample x s).driver.demand < 15) (c : Channel) :
    entryOf (pressureSample x s) c .driver = none := by
  have howns : Owns .driver (sampleDriver (sampleSensors x (headAlone s))) c := by
    rw [sampleDriver_awake ((sampleSensors_parked x s).trans hp)]
    exact formDemand_owns _ c
  rw [Owns, sampleDriver_demand hp, decide_eq_false (Nat.not_le.mpr hlow)] at howns
  rw [sample_driverEntry hp]
  simpa using howns

/-- With D at 15 kPa or above a source is at hand. -/
theorem formedDriver_sourced {s : State} (h : 15 ≤ (formedDriver s.driver).demand) : noSource s = false := by
  cases hno : noSource s with
  | false => rfl
  | true =>
    obtain ⟨hlink, hline⟩ : s.driver.linkPresent = false ∧ s.driver.lineLevel = none := by simpa [noSource] using hno
    rw [formedDriver_single (.inl hlink)] at h
    simp [hlink, hline] at h

/-- A D of 15 kPa or above is posted on every channel, at the load curve times the applied derate (R35, R36). -/
theorem formDemand_level {s : State} {d : DriverRec} (hhigh : 15 ≤ (formedDriver d).demand) (c : Channel) :
    let level := curveOf (calKnee s.cal.active) s.load.gain (formedDriver d).demand * s.demand.applied.get c / 1024
    level ≤ 1000 → (entryOf (formDemand (s.setDriver d)) c .driver).map Entry.level = some level := by
  intro level hle
  have hwrite := writeDemand_sourced (formedDriver_sourced (s := s.setDriver d) hhigh)
  rw [formDemand_eq, hwrite]
  exact updateDrivers_level c _ hhigh hle

/-- From 15 kPa on the entry holds the load curve of D times the applied derate, as the sensors have left them (R35, R36). -/
theorem sample_level (hp : isParked s = false) (hhigh : 15 ≤ (pressureSample x s).driver.demand) (c : Channel) :
    let m := sampleSensors x (headAlone s)
    let level := curveOf (calKnee s.cal.active) m.load.gain (pressureSample x s).driver.demand * m.demand.applied.get c / 1024
    level ≤ 1000 → (entryOf (pressureSample x s) c .driver).map Entry.level = some level := by
  have hcal : (sampleSensors x (headAlone s)).cal.active = s.cal.active :=
    (sampleSensors_frame x (headAlone s) .calActive (by decide +kernel)).1
  have hform := sampleDriver_awake ((sampleSensors_parked x s).trans hp)
  have hdemand := sampleDriver_demand (x := x) hp
  rw [hform, formDemand_driver, State.setDriver_driver] at hdemand
  rw [← hdemand] at hhigh ⊢
  rw [sample_driverEntry hp, ← hcal, hform]
  exact formDemand_level hhigh c

end Awake

end Sys2Proof
end

