-- ==== Sys2Proof/Proofs/SampleBraked.lean ====
section
/-! The applied derate of a channel that stays braked through a pressure sample (R36; O11). Up to the control samples nothing but the
DRIVER entry and the resolutions of the sample can take a setpoint to 0, and what they take there stays at 0; after them a channel is
resolved at most once by the skid cycle, once by the stage and, at a safe point alone, by an apply. -/

namespace Sys2Proof

open Sys2Proof.Machine

/-! ## Braked up to the new D -/

/-- A channel is braked at an applied derate, and its table and the reservoir cap keep it so. -/
structure Braked (n : Nat) (c : Channel) (s : State) : Prop where
  applied : appliedOf s c = n
  setpoint : 0 < setpointOf s c
  level : 0 < resolvedLevel s c

section Braked
variable {n : Nat} {c : Channel} {s t : State}

theorem resolvedLevel_pos : 0 < resolvedLevel s c ↔
    0 < applyLevel s c ∧ 0 < smallestLimit (reservoirCap s) (tableOf s c) := by
  unfold resolvedLevel
  omega

theorem SameOn.resolvedLevel (h : SameOn (isResolutionOf c) s t) : Machine.resolvedLevel t c = Machine.resolvedLevel s c := by
  simp only [Machine.resolvedLevel, h.table, h.cap, h.applyLevel]

theorem Braked.keeps (hs : Braked n c s) (h : SameOn (isResolutionOf c) s t) : Braked n c t := by
  obtain ⟨hsetpoint, happlied, -⟩ := (h.mono (isResultOf_le c)).results
  exact ⟨happlied.trans hs.applied, hsetpoint ▸ hs.setpoint, h.resolvedLevel ▸ hs.level⟩

theorem Braked.frame {l : List Part} (hs : Braked n c s) (h : OnlyChanges l s t)
    (hl : l.all (fun q => !isResolution q) = true) : Braked n c t :=
  hs.keeps ((SameOn.of_frame h hl).mono (isResolutionOf_le c))

/-- A resolution of a channel whose table holds a level above 0 keeps the applied derate (R36). -/
theorem resolve_braked (happlied : appliedOf s c = n) (hlevel : 0 < Machine.resolvedLevel s c) : Braked n c (resolve c s) := by
  obtain ⟨hsp, -, happ, -⟩ := resolve_values c s
  obtain ⟨-, -, -, hres⟩ := (resolve_frame c s).resolved c (by simp [resolveParts, abortParts])
    (by simp [resolveParts, abortParts]) (by simp [resolveParts, abortParts])
  have hkept : appliedAfter s c (Machine.resolvedLevel s c) = appliedOf s c := if_neg (Nat.ne_of_gt hlevel)
  exact ⟨happ.trans (hkept.trans happlied), lt_of_lt_of_eq hlevel hsp.symm, hres ▸ hlevel⟩

theorem Braked.resolve (hs : Braked n c s) (d : Channel) : Braked n c (Machine.resolve d s) := by
  by_cases hd : c = d
  · subst hd
    exact resolve_braked hs.applied hs.level
  · exact hs.keeps (resolve_frame_other hd s)

/-- A LIMIT that leaves the table does not lower the level it resolves to (R37). -/
theorem Braked.withdrawLimit {k : Source} (hk : k.isApply = false) (hs : Braked n c s) (d : Channel) :
    Braked n c (withdraw d k s) := by
  rcases withdraw_cases_at c d k s with h | ⟨rfl, h⟩
  · exact hs.keeps h
  · rw [h]
    refine resolve_braked hs.applied (resolvedLevel_pos.mpr ?_)
    obtain ⟨happly, hlimit⟩ := resolvedLevel_pos.mp hs.level
    have hle := smallestLimit_le_put_none (reservoirCap s) (tableOf s d) k
    have hkept : applyLevel (putEntry s d k none) d = applyLevel s d := by
      rw [applyLevel_putEntry, largestApply_put_limit hk]
      rfl
    have hcap : reservoirCap (putEntry s d k none) = reservoirCap s := rfl
    rw [hkept, hcap, tableOf_putEntry, if_pos rfl]
    exact ⟨happly, by omega⟩

theorem braked_kept (n : Nat) (c : Channel) : SkidKept (Braked n c) where
  same h hs := hs.keeps (h.mono (isResolutionOf_le c))
  withdraw d _ hs := hs.withdrawLimit rfl d

/-- A derate formed anew waits for a setpoint of 0 (R36, R77). -/
theorem Braked.formDerate (hs : Braked n c s) (d : Channel) : Braked n c (Machine.formDerate d s) := by
  obtain ⟨hsetpoint, -, happlied⟩ := formDerate_values d c s
  obtain ⟨-, -, -, hlevel⟩ := (formDerate_frame d s).resolved c (by simp) (by simp) (by simp)
  have hpos := hs.setpoint
  refine ⟨?_, hsetpoint ▸ hpos, hlevel ▸ hs.level⟩
  rw [happlied, if_neg, hs.applied]
  rintro ⟨rfl, h0⟩
  omega

theorem Braked.tyreRun (hs : Braked n c s) (h : TyreRun s t) : Braked n c t := by
  induction h with
  | refl => exact hs
  | tail _ hmove ih =>
    cases hmove with
    | quiet hq => exact ih.keeps (hq.resolution.mono (isResolutionOf_le c))
    | derate d => exact ih.formDerate d
    | wake r => exact (braked_kept n c).wake r ih

theorem Braked.handOnRaised (hs : Braked n c s) : Braked n c (Machine.handOnRaised s) :=
  (forChannels_keeps (P := Braked n c) (fun d _ ht => ht.resolve d) _ hs).frame (formRollFlag_frame _) rfl

end Braked

/-! ### The raised state of a sample (R67) -/

/-- A change of the raised state writes the Load Table once and hands it on. -/
theorem formRaised_cases (s : State) : formRaised s = s ∨
    ∃ l : LoadTable, formRaised s = handOnRaised (handOnLoads (s.setLoad l)) := by
  unfold formRaised
  split
  · exact .inl rfl
  · split
    · exact .inr ⟨_, rfl⟩
    · exact .inr ⟨_, rfl⟩

theorem handedOn_raised {s : State} (hp : isParked s = false) :
    (handOnRaised (handOnLoads s)).load.raised = s.load.raised := by
  have hloads : (handOnLoads s).load.raised = s.load.raised := by
    refine handOnLoads_frame s .raised ?_
    rw [loadParts, positionParts, wakeParts_awake hp]
    decide +kernel
  exact Eq.trans (handOnRaised_frame (handOnLoads s) .raised (by decide +kernel)) hloads

section Sensors
variable {n : Nat} {c : Channel} {s : State}

theorem apply_not_raised (h : 0 < applyLevel s c) : raisedChannel s c = false := by
  unfold applyLevel at h
  split at h
  · omega
  · simp_all

/-- A change of the raised state that leaves the axle of a channel lowered leaves its APPLY levels. -/
theorem Braked.setLoad (hs : Braked n c s) {l : LoadTable} (hraised : raisedChannel (s.setLoad l) c = false) :
    Braked n c (s.setLoad l) := by
  obtain ⟨happly, hlimit⟩ := resolvedLevel_pos.mp hs.level
  have hkept : applyLevel (s.setLoad l) c = applyLevel s c := by
    simp [applyLevel, hraised, apply_not_raised happly]
  exact ⟨hs.applied, hs.setpoint, resolvedLevel_pos.mpr ⟨hkept ▸ happly, hlimit⟩⟩

theorem Braked.sampleRaised (hs : Braked n c s) (hraised : raisedChannel (Sys2Proof.sampleRaised s) c = false) :
    Braked n c (Sys2Proof.sampleRaised s) := by
  unfold Sys2Proof.sampleRaised at hraised ⊢
  split
  · exact hs
  · next hp =>
    rw [if_neg hp] at hraised
    rcases formRaised_cases s with h | ⟨l, h⟩ <;> rw [h] at hraised ⊢
    · exact hs
    · have hawake : isParked (s.setLoad l) = false := by rwa [Bool.not_eq_true] at hp
      have hset : raisedChannel (s.setLoad l) c = false := by rwa [raisedChannel, handedOn_raised hawake] at hraised
      exact ((hs.setLoad hset).tyreRun (handOnLoads_run _)).handOnRaised

theorem smallestLimit_pos_of {m k : Nat} {t : Table} (h : 0 < smallestLimit m t) (hk : 0 < k) : 0 < smallestLimit k t := by
  unfold smallestLimit at h ⊢
  cases hb : t.ctrlB <;> cases hskid : t.skid <;> simp only [hb, hskid, limitOr] at h ⊢ <;> omega

/-- A new reservoir reading leaves a braked channel braked unless it shows an empty reservoir (R18). -/
theorem readings_braked {x : SampleSet} (hs : ChannelResolved s c) (hpos : 0 < setpointOf s c)
    (hcap : 0 < reservoirCap (sampleReadings x s)) : Braked (appliedOf s c) c (sampleReadings x s) := by
  have hframe := sampleReadings_frame x s
  have htable : tableOf (sampleReadings x s) c = tableOf s c :=
    tableOf_congr fun k => hframe (.entry c k) (by simp [readingParts, wheelParts, mem_everyChannel])
  have hraised : (sampleReadings x s).load.raised = s.load.raised := hframe .raised (by decide +kernel)
  have hsetpoint := (hframe (.setpoint c) (by cases c <;> decide +kernel)).1
  have happlied := (hframe (.resolution c) (by cases c <;> decide +kernel)).1
  obtain ⟨hlevel, -⟩ := hs
  obtain ⟨happly, hlimit⟩ := resolvedLevel_pos.mp (hlevel ▸ hpos)
  refine ⟨happlied, lt_of_lt_of_eq hpos hsetpoint.symm, resolvedLevel_pos.mpr ⟨?_, ?_⟩⟩
  · rwa [applyLevel_congr htable hraised]
  · rw [htable]
    exact smallestLimit_pos_of hlimit hcap

theorem SkidKept.checkDelivery {P : State → Prop} (hP : SkidKept P) (before : PerChannel Reading) (d : Channel) (hs : P s) :
    P (checkDelivery before d s) := by
  unfold Machine.checkDelivery
  split_ifs
  · exact hs
  · exact hP.frame (setCauses_frame (s := s) d (channelOf s d).causes false) rfl hs
  · exact hP.addCause .deliverySensor d hs
  · exact hs

theorem SkidKept.writeDemand {P : State → Prop} (hP : SkidKept P) (hs : P s) : P (writeDemand s) := by
  have hset := hP.frame (setDriver_frame s (formedDriver s.driver)) rfl hs
  cases hno : noSource s with
  | false => rwa [writeDemand_sourced hno]
  | true =>
    rw [writeDemand_unsourced hno]
    exact forChannels_keeps (P := P) (fun d _ ht => hP.addCause .noDemandSource d ht) _ hset

/-- A channel braked before the sample and at its control samples is braked throughout the work of the sensors. -/
theorem sampleSensors_braked {x : SampleSet} (hs : ResolutionInv s) (hpos : 0 < setpointOf s c)
    (hend : 0 < setpointOf (sampleResolved x s) c) : Braked (appliedOf s c) c (sampleSensors x (headAlone s)) := by
  let w := sampleReadings x (headAlone s)
  have hcheck := forChannels_frame (checkDelivery_frame (headAlone s).front.delivery) (Sys2Proof.sampleRaised w)
  have hafter : OnlyChanges (everyChannel backupParts ++ demandParts) (Sys2Proof.sampleRaised w) (sampleResolved x s) :=
    (sampleDemand_frame _).step hcheck (List.subset_append_left _ _) (List.subset_append_right _ _)
  obtain ⟨hlevel, -⟩ := sampleResolved_resolved x s c
  obtain ⟨happly, hlimit⟩ := resolvedLevel_pos.mp (lt_of_lt_of_eq hend hlevel)
  have hraised : raisedChannel (Sys2Proof.sampleRaised w) c = false := by
    have hsame : (sampleResolved x s).load.raised = (Sys2Proof.sampleRaised w).load.raised := hafter .raised (by decide +kernel)
    rw [raisedChannel, ← hsame]
    exact apply_not_raised happly
  have hcap : 0 < reservoirCap w := by
    have hfront : (sampleResolved x s).front = w.front :=
      (sampleRaised_frame w .front (by decide +kernel)).trans (hafter .front (by decide +kernel))
    have hle : smallestLimit (reservoirCap (sampleResolved x s)) (tableOf (sampleResolved x s) c) ≤
        reservoirCap (sampleResolved x s) := Nat.min_le_left _ _
    have hsame : reservoirCap (sampleResolved x s) = reservoirCap w := by simp only [reservoirCap, hfront]
    omega
  have hhead : SameOn (isResolutionOf c) s (headAlone s) := .of_frame (headAlone_frame s) rfl
  have hread : Braked (appliedOf s c) c w := readings_braked (ChannelResolved.keeps (hs c) hhead) hpos hcap
  rw [sampleSensors_eq]
  exact forChannels_keeps (P := Braked (appliedOf s c) c) (fun d _ ht => (braked_kept _ c).checkDelivery _ d ht) _
    (hread.sampleRaised hraised)

end Sensors

/-! ### The new D and the resolution of the sample (R31, R38) -/

/-- What at most one resolution of a channel does: a setpoint above 0 keeps its applied derate, and the channel is as it was or stands
resolved. -/
structure ResolvedOnce (c : Channel) (s t : State) : Prop where
  holds : HoldsDerate c s t
  ends : SameOn (isResultOf c) s t ∨ ChannelResolved t c

section Demand
variable {c : Channel} {s t : State}

theorem updateDriver_once (c : Channel) (s : State) : ResolvedOnce c s (updateDriver c s) := by
  refine ⟨updateDriver_holds c s, ?_⟩
  rcases updateDriver_cases c s with h | ⟨e, h⟩ | h <;> rw [h]
  · exact .inl (.refl _ s)
  · exact .inr (resolve_resolved c _)
  · rcases withdraw_cases c .driver s with h | h <;> rw [h]
    · exact .inl (.refl _ s)
    · exact .inr (resolve_resolved c _)

theorem updateDrivers_once (c : Channel) (s : State) : ResolvedOnce c s (forChannels updateDriver s) := by
  refine forChannels_turn (R := ResolvedOnce c) (S := SameOn (isResolutionOf c)) c (fun t u v h hR => ?_)
    (fun t u v hR h => ?_) (updateDriver_once c)
    (fun d t hd => .of_frame (updateDriver_frame d t) (resolveParts_other_input hd .driver)) s
  · have hresult := h.mono (isResultOf_le c)
    exact ⟨.before hresult hR.holds, hR.ends.imp_left hresult.trans⟩
  · have hresult := h.mono (isResultOf_le c)
    exact ⟨hR.holds.after hresult, hR.ends.imp (·.trans hresult) (·.keeps h)⟩

theorem resolveAll_holds (c : Channel) (s : State) : HoldsDerate c s (resolveAll s) :=
  forChannels_holds c resolve_frame (fun d hd => by simp [resolveParts, abortParts, isResultOf, hd])
    (fun t hpos => by rw [resolve_applied, if_neg (Nat.ne_of_gt hpos)]) s

/-- A second resolution from the same table finds the setpoint of the first. -/
theorem ResolvedOnce.resolveAll (h : ResolvedOnce c s t) : HoldsDerate c s (Machine.resolveAll t) := by
  intro hpos
  rw [resolveAll_holds c t hpos]
  rcases h.ends with hsame | hres
  · exact hsame.results.2.1
  · refine h.holds ?_
    obtain ⟨-, -, -, hlevel⟩ := (resolveAll_frame t).resolved c (fun k => by
      simp [mem_everyChannel, resolveParts, abortParts]) (by decide +kernel) (by decide +kernel)
    have hfirst : setpointOf t c = resolvedLevel t c := hres.1
    have hsecond : setpointOf (Machine.resolveAll t) c = resolvedLevel (Machine.resolveAll t) c := (resolveAll_resolved t c).1
    omega

/-- Between the sample's new D and its control samples a setpoint that ends above 0 keeps its applied derate. -/
theorem sampleDemand_holds (hp : isParked s = false) (c : Channel) : ∃ d, HoldsDerate c (writeDemand (s.setDriver d)) (sampleDemand s) := by
  refine ⟨mismatchRuns { s.driver with lineLevel := lineOf s.front.control }, ?_⟩
  have hremove := forChannels_frame removeAutomatic_frame (resolveAll (sampleDriver s))
  refine HoldsDerate.after (t := resolveAll (sampleDriver s)) ?_ (.of_frame hremove (by cases c <;> decide +kernel))
  rw [sampleDriver_awake hp, formDemand_eq]
  exact (updateDrivers_once c _).resolveAll

/-- Up to the control samples a channel that is braked before and after keeps its applied derate (R36). -/
theorem sampleResolved_keeps {x : SampleSet} (hp : isParked s = false) (hs : ResolutionInv s) (hpos : 0 < setpointOf s c)
    (hend : 0 < setpointOf (sampleResolved x s) c) : appliedOf (sampleResolved x s) c = appliedOf s c := by
  have hsensors := sampleSensors_braked hs hpos hend
  unfold sampleResolved at hend ⊢
  obtain ⟨d, hholds⟩ := sampleDemand_holds ((sampleSensors_parked x s).trans hp) c
  have hwrite := (braked_kept (appliedOf s c) c).writeDemand (hsensors.frame (setDriver_frame _ d) rfl)
  exact (hholds hend).trans hwrite.applied

end Demand

end Sys2Proof
end

