-- ==== Sys2Proof/Proofs/SampleDerates.lean ====
section
/-! The applied derate of a channel from its control sample to the end of the sample (R36). -/

namespace Sys2Proof

open Sys2Proof.Machine

/-! ## Steps that resolve a channel at most once, by entries of one mode -/

/-- What a table holds in the other mode: the smallest LIMIT beside APPLY entries, the largest APPLY level beside LIMIT entries. -/
def otherLevel (apply : Bool) (s : State) (c : Channel) : Nat :=
  if apply then smallestLimit (reservoirCap s) (tableOf s c) else applyLevel s c

/-- What entries of one mode do to a channel that is resolved with them at most once: a setpoint that ends above 0 has kept its applied
derate, and the levels of the other mode stay. -/
structure ActsBy (apply : Bool) (c : Channel) (s t : State) : Prop where
  holds : HoldsDerate c s t
  other : otherLevel apply t c = otherLevel apply s c

section ActsBy
variable {b : Bool} {c : Channel} {s t u : State}

theorem ActsBy.applyLevel (h : ActsBy false c s t) : Machine.applyLevel t c = Machine.applyLevel s c := by
  simpa only [otherLevel, Bool.false_eq_true, if_false] using h.other

theorem ActsBy.limit (h : ActsBy true c s t) :
    smallestLimit (reservoirCap t) (tableOf t c) = smallestLimit (reservoirCap s) (tableOf s c) := by
  simpa only [otherLevel, if_true] using h.other

theorem ActsBy.of_same (h : SameOn (isResolutionOf c) s t) : ActsBy b c s t :=
  ⟨.of_same (h.mono (isResultOf_le c)), by simp only [otherLevel, h.table, h.cap, h.applyLevel]⟩

theorem ActsBy.before (h : SameOn (isResolutionOf c) s t) (k : ActsBy b c t u) : ActsBy b c s u :=
  ⟨.before (h.mono (isResultOf_le c)) k.holds, k.other.trans (ActsBy.of_same h).other⟩

theorem ActsBy.after (h : ActsBy b c s t) (k : SameOn (isResolutionOf c) t u) : ActsBy b c s u :=
  ⟨h.holds.after (k.mono (isResultOf_le c)), (ActsBy.of_same k).other.trans h.other⟩

theorem sameOn_frame {l : List Part} (h : OnlyChanges l s t) (hl : l.all (fun q => !isResolution q) = true) :
    SameOn (isResolutionOf c) s t := (SameOn.of_frame h hl).mono (isResolutionOf_le c)

theorem ActsBy.event (h : ActsBy b c s t) : ActsBy b c s (queueEvent t) := h.after (sameOn_frame (queueEvent_frame t) rfl)

theorem replace_acts (d : Channel) (k : Source) (e : Option Entry) : ActsBy k.isApply c s (resolve d (putEntry s d k e)) := by
  by_cases hd : c = d
  · subst hd
    refine ⟨replace_holds c k e, ?_⟩
    cases hk : k.isApply with
    | false =>
      change applyLevel _ c = applyLevel s c
      rw [resolve_applyLevel, applyLevel_putEntry, largestApply_put_limit hk]
      rfl
    | true =>
      obtain ⟨htable, hcap, -, -⟩ := (resolve_frame c (putEntry s c k e)).resolved c (by simp [resolveParts, abortParts])
        (by simp [resolveParts, abortParts]) (by simp [resolveParts, abortParts])
      change smallestLimit _ _ = smallestLimit (reservoirCap s) (tableOf s c)
      rw [htable, hcap, tableOf_putEntry, if_pos rfl, smallestLimit_put_apply hk]
      rfl
  · exact .of_same ((putEntry_frame_other hd k e s).trans (resolve_frame_other hd _))

theorem post_acts (d : Channel) (k : Source) (e : Entry) : ActsBy k.isApply c s (post d k e s) := replace_acts d k _

theorem withdraw_acts (d : Channel) (k : Source) : ActsBy k.isApply c s (withdraw d k s) := by
  rcases withdraw_cases d k s with h | h <;> rw [h]
  · exact .of_same (.refl _ s)
  · exact replace_acts d k none

theorem forChannels_acts {f : Channel → List Part} {g : Channel → State → State} (hf : ∀ d t, OnlyChanges (f d) t (g d t))
    (hother : ∀ d, d ≠ c → (f d).all (fun q => !isResolutionOf c q) = true) (hself : ∀ t, ActsBy b c t (g c t)) (s : State) :
    ActsBy b c s (forChannels g s) :=
  forChannels_turn (S := SameOn (isResolutionOf c)) c (fun _ _ _ => .before) (fun _ _ _ => .after) hself
    (fun d t hd => .of_frame (hf d t) (hother d hd)) s

end ActsBy

/-! ## The skid cycle (R48 to R53): LIMIT entries -/

section Skid
variable {c : Channel} {s t : State}

/-- A SKID entry posted with its record. -/
theorem postSkid_acts (k : SkidRec) (e : Entry) : ActsBy false c s (post c .skid e (s.setSkid (s.skid.set c k))) :=
  .before (sameOn_frame (setSkid_frame s c k) rfl) (post_acts c .skid e)

theorem freeSkid_acts (c : Channel) (s : State) : ActsBy false c s (freeSkid c s) := by
  rcases freeSkid_cases c s with h | ⟨k, -, h⟩ <;> rw [h]
  · exact .of_same (.refl _ s)
  · exact ActsBy.event (.before (sameOn_frame (setSkid_frame s c k) rfl) (withdraw_acts c .skid))

theorem stepWatched_acts (c : Channel) (s : State) : ActsBy false c s (stepWatched c s) := by
  have hfree := freeSkid_acts c s
  have htick : SameOn (isResolutionOf c) s (skidTick c s) := sameOn_frame (setSkid_frame s c _) rfl
  have hmark : ActsBy false c s (markStep c (skidTick c s)) :=
    .of_same (htick.trans (sameOn_frame (setSkid_frame _ c _) rfl))
  cases hstate : (s.skid.get c).state <;> simp only [stepWatched, hstate]
  case free =>
    split_ifs
    · exact (postSkid_acts _ _).event
    · exact .of_same (.refl _ s)
  case release =>
    split_ifs
    · exact hfree
    · exact .before htick (postSkid_acts _ _)
    · exact hmark
  case hold =>
    split_ifs
    · exact hfree
    · exact .before htick (postSkid_acts _ _)
    · exact hmark
  case reapply =>
    split_ifs
    · exact hfree
    · exact .before htick (postSkid_acts _ _)
    · exact hmark

theorem skidSample_acts (c : Channel) (s : State) : ActsBy false c s (skidSample c s) := by
  unfold skidSample
  split
  · exact stepWatched_acts c s
  · exact freeSkid_acts c s

theorem skidSamples_acts (c : Channel) (s : State) : ActsBy false c s (forChannels skidSample s) :=
  forChannels_acts skidSample_frame
    (fun d hd => by simp [freeParts, resolveParts, abortParts, eventParts, noticeParts, isResolutionOf, hd])
    (skidSample_acts c) s

end Skid

/-! ## The rollover stage (R113 to R121): APPLY entries, but for the entry into PROBE -/

section Stage
variable {c : Channel} {s t : State}

theorem setStage_same (r : StageRec) (s : State) : SameOn (isResolutionOf c) s (setStage r s) :=
  sameOn_frame (setStage_frame r s) rfl

theorem postRolls_acts {g : Channel → State → State} (hg : ∀ d t, g d t = t ∨ ∃ k n, g d t = postRoll k n d t) (s : State) :
    ActsBy true c s (forChannels g s) := by
  refine forChannels_acts (f := rollParts) (fun d t => ?_)
    (fun d hd => by simp [rollParts, resolveParts, abortParts, isResolutionOf, hd]) (fun t => ?_) s
  · rcases hg d t with h | ⟨k, n, h⟩ <;> rw [h]
    · exact .refl _ t
    · exact postRoll_frame k n d t
  · rcases hg c t with h | ⟨k, n, h⟩ <;> rw [h]
    · exact .of_same (.refl _ t)
    · exact .before (setStage_same _ t) (post_acts c .roll _)

theorem withdrawRoll_acts (s : State) : ActsBy true c s (withdrawRoll s) :=
  .before (setStage_same _ s) (forChannels_acts (fun d t => withdraw_frame d .roll t)
    (fun _ hd => resolveParts_other_input hd .roll) (fun _ => withdraw_acts c .roll) _)

/-- A stage left with its levels withdrawn: to OFF, or from PROBE to WATCH (R114, R117, R122). -/
theorem leaveStage_acts (r : StageRec) (s : State) :
    ActsBy true c s (queueEvent (withdrawRoll (freeGenerator (setStage r s)))) :=
  (ActsBy.before ((setStage_same r s).trans (sameOn_frame (freeGenerator_frame _) rfl)) (withdrawRoll_acts _)).event

theorem enterIntervene_acts (s : State) : ActsBy true c s (enterIntervene s) :=
  (ActsBy.before ((setStage_same _ s).trans (sameOn_frame (freeGenerator_frame _) rfl))
    (postRolls_acts (fun _ _ => .inr ⟨_, _, rfl⟩) _)).event

theorem plainStage_acts (g : Stage) (s : State) : ActsBy true c s (plainStage g s) :=
  (ActsBy.of_same (setStage_same _ s)).event

theorem enterProbe_stage (s : State) : (enterProbe s).roll.stage.stage = .probe := by
  have hevent : (enterProbe s).roll.stage = (forChannels probeChannel (probing s)).roll.stage :=
    queueEvent_frame _ .stage (by simp [eventParts, noticeParts])
  rw [hevent]
  refine forChannels_keeps (P := fun t => t.roll.stage.stage = .probe) (fun d t ht => ?_) (probing s) rfl
  rcases probeChannel_cases d t with ⟨-, h⟩ | ⟨-, n, h⟩ <;> rw [h]
  · exact ht
  · rw [postRoll_stage, (freeSkid_rollUnit d t).1]
    exact ht

theorem stageTests_acts (hprobe : (stageTests s).roll.stage.stage = .probe → s.roll.stage.stage = .probe) :
    ActsBy true c s (stageTests s) := by
  have hset (r : StageRec) : ActsBy true c s (setStage r s) := .of_same (setStage_same r s)
  have hintervene (r : StageRec) : ActsBy true c s (enterIntervene (setStage r s)) :=
    .before (setStage_same r s) (enterIntervene_acts _)
  cases hstage : s.roll.stage.stage <;> simp only [stageTests, hstage] at hprobe ⊢
  case off => exact plainStage_acts _ s
  case quiet =>
    split_ifs
    · exact plainStage_acts _ s
    · exact .of_same (.refl _ s)
  case watch =>
    split_ifs at hprobe ⊢
    · exact hintervene _
    · exact hintervene _
    · exact absurd (hprobe (enterProbe_stage _)) (by simp)
    · exact hset _
  case probe =>
    split_ifs
    · exact hintervene _
    · exact hintervene _
    · exact .before (setStage_same _ s) (leaveStage_acts _ _)
    · exact hset _
  case intervene => exact .before (setStage_same _ s) (postRolls_acts followSide_cases _)
  case recover =>
    split_ifs
    · exact enterIntervene_acts s
    · exact hset _

theorem sampleRollover_acts (hprobe : (sampleRollover s).roll.stage.stage = .probe → s.roll.stage.stage = .probe) :
    ActsBy true c s (sampleRollover s) := by
  have hind : SameOn (isResolutionOf c) s (formIndicators (fallHoldOff s)) :=
    (setStage_same _ s).trans (sameOn_frame (formIndicators_frame _) rfl)
  rcases sampleRollover_cases s with h | h | h <;> rw [h] at hprobe ⊢
  · exact .of_same (setStage_same _ s)
  · exact .of_same hind
  · rcases stageSample_cases (formIndicators (fallHoldOff s)) with h | h | h <;> rw [h] at hprobe ⊢
    · exact .of_same hind
    · exact .before hind (leaveStage_acts _ _)
    · exact .before hind (stageTests_acts hprobe)

end Stage

/-! ## The end of the sample (R163): an apply only where no channel is braked -/

section Finish
variable {c : Channel} {s : State}

/-- Table and cap bound the setpoint, whatever the raised state. -/
theorem setpoint_zero_of {t : State} (hs : ChannelResolved s c) (hraised : raisedChannel s c = false)
    (htable : tableOf t c = tableOf s c) (hcap : reservoirCap t = reservoirCap s) (ht : ChannelResolved t c)
    (h0 : setpointOf s c = 0) : setpointOf t c = 0 := by
  have hsp : setpointOf s c = min (applyLevel s c) (smallestLimit (reservoirCap s) (tableOf s c)) := hs.1
  have htp : setpointOf t c = min (applyLevel t c) (smallestLimit (reservoirCap t) (tableOf t c)) := ht.1
  have hle : applyLevel t c ≤ applyLevel s c := by
    simp only [applyLevel, hraised, htable]
    split <;> simp
  rw [htable, hcap] at htp
  omega

theorem sampleFinish_holds (hp : isParked s = false) (hs : ResolutionInv s) (hraised : raisedChannel s c = false) :
    0 < setpointOf (sampleFinish s) c → 0 < setpointOf s c ∧ appliedOf (sampleFinish s) c = appliedOf s c := by
  intro hpos
  have hend : SameOn (isResolutionOf c) (tryApply s) (sampleFinish s) :=
    (((sampleLoadClock_quiet _).trans (refreshFaults_quiet _)).resolution).mono (isResolutionOf_le c)
  obtain ⟨hsetpoint, happlied, -⟩ := (hend.mono (isResultOf_le c)).results
  rw [happlied]
  rw [hsetpoint] at hpos
  rcases tryApply_cases s with h | ⟨-, hsafe, h⟩
  · rw [h] at hpos ⊢
    exact ⟨hpos, rfl⟩
  · have hframe := (tryApply_frame s).mono (applyPieces_awake hp)
    obtain ⟨htable, hcap⟩ : tableOf (tryApply s) c = tableOf s c ∧ reservoirCap (tryApply s) = reservoirCap s := by
      have hfront : (tryApply s).front = s.front := hframe .front (by decide +kernel)
      exact ⟨tableOf_congr fun k => hframe (.entry c k) (by cases c <;> cases k <;> decide +kernel),
        by simp only [reservoirCap, hfront]⟩
    have hzero := setpoint_zero_of (hs c) hraised htable hcap (tryApply_resolved hs c) (safePoint_zero hsafe c)
    omega

end Finish

/-! ## From the control samples on (R36) -/

section Tail
variable {c : Channel} {r : State}

theorem skidSamples_resolved (hr : ResolutionInv r) : ResolutionInv (forChannels skidSample (sampleSupply (sampleTest r))) := by
  have hmeasures := hr.keeps (.of_frame (sampleMeasures_frame r) rfl)
  exact forChannels_keeps (P := ResolutionInv) (fun d t ht => ((skidSample_latching d t).1 ht).1) _ hmeasures

/-- The state after the steps of the skid cycle. -/
def skidsSampled (tested : Option Channel) (s : State) : State :=
  forChannels skidSample (sampleSupply (sampleTest (forChannels (controlSample tested) s)))

theorem skidsSampled_acts (tested : Option Channel) : ActsBy false c r (skidsSampled tested r) := by
  have hmeasures := (sampleMeasures_frame _).step (forChannels_frame (controlSample_frame tested) r)
    (l := everyChannel (fun c => [.valves c]) ++ measureParts) (List.subset_append_left _ _) (List.subset_append_right _ _)
  exact .before (.of_frame hmeasures (by cases c <;> decide +kernel)) (skidSamples_acts c _)

theorem skidsSampled_stage (tested : Option Channel) (r : State) : (skidsSampled tested r).roll.stage = r.roll.stage := by
  have hmeasures := (sampleMeasures_frame _).step (forChannels_frame (controlSample_frame tested) r)
    (l := everyChannel (fun c => [.valves c]) ++ measureParts) (List.subset_append_left _ _) (List.subset_append_right _ _)
  have hskids := (forChannels_frame skidSample_frame _).step hmeasures
    (l := everyChannel (fun c => [.valves c]) ++ measureParts ++ everyChannel freeParts)
    (List.subset_append_left _ _) (List.subset_append_right _ _)
  have hpart : samePart r (skidsSampled tested r) .stage := hskids .stage (by decide +kernel)
  exact hpart

/-- From the rollover stage on the channels' results stay up to the apply. -/
theorem stageSampled_same (tested : Option Channel) (behind : List TestRequest) (r : State) :
    SameOn (isResolutionOf c) (sampleRollover (skidsSampled tested r)) (sampleControlled tested behind r) := by
  refine SameOn.trans ?_ (sameOn_frame (rejoinQueue_frame behind _) rfl)
  rcases sampleMonitors_cases (forChannels (controlSample tested) r) with h | h <;> rw [h]
  · exact .refl _ _
  · exact sameOn_frame (sampleHead_frame _) rfl

theorem stageSampled_stage (tested : Option Channel) (behind : List TestRequest) (r : State) :
    (sampleFinish (sampleControlled tested behind r)).roll.stage = (sampleRollover (skidsSampled tested r)).roll.stage := by
  have hpart : samePart (sampleRollover (skidsSampled tested r)) (sampleFinish (sampleControlled tested behind r)) .stage :=
    sampleEnd_frame behind _ .stage (by decide +kernel)
  exact hpart

theorem sampleControlled_acts {tested : Option Channel} {behind : List TestRequest}
    (hprobe : (sampleFinish (sampleControlled tested behind r)).roll.stage.stage = .probe → r.roll.stage.stage = .probe) :
    ActsBy true c (skidsSampled tested r) (sampleControlled tested behind r) := by
  rw [stageSampled_stage, ← skidsSampled_stage tested r] at hprobe
  exact (sampleRollover_acts hprobe).after (stageSampled_same tested behind r)

theorem sampleControlled_resolved (tested : Option Channel) (behind : List TestRequest) (hr : ResolutionInv r) :
    ResolutionInv (sampleControlled tested behind r) := by
  have hcontrol : ResolutionInv (forChannels (controlSample tested) r) :=
    hr.keeps (.of_frame (forChannels_frame (controlSample_frame tested) r) rfl)
  exact (sampleMonitors_resolved hcontrol).keeps (.of_frame (rejoinQueue_frame behind _) rfl)

/-- A channel braked when the control samples begin and when the sample ends is braked after each step between, and keeps its applied
derate: a LIMIT of 0 would outlast the stage, and without an APPLY level nothing after the stage brakes. -/
theorem sampleControlled_keeps {tested : Option Channel} {behind : List TestRequest} (hp : isParked r = false)
    (hr : ResolutionInv r)
    (hprobe : (sampleFinish (sampleControlled tested behind r)).roll.stage.stage = .probe → r.roll.stage.stage = .probe)
    (hpos : 0 < setpointOf r c) (hend : 0 < setpointOf (sampleFinish (sampleControlled tested behind r)) c) :
    appliedOf (sampleFinish (sampleControlled tested behind r)) c = appliedOf r c := by
  have hm := sampleControlled_resolved tested behind hr
  obtain ⟨happly, -⟩ := resolvedLevel_pos.mp (hpos.trans_eq (hr c).1)
  have hraised : raisedChannel (sampleControlled tested behind r) c = false := by
    have hsame : samePart r (sampleControlled tested behind r) .raised :=
      sampleControlled_frame tested behind r .raised (by decide +kernel)
    rw [raisedChannel, hsame]
    exact apply_not_raised happly
  obtain ⟨hmpos, happlied⟩ := sampleFinish_holds ((sampleControlled_parked tested behind r).trans hp) hm hraised hend
  have hskid : ActsBy false c r (skidsSampled tested r) := skidsSampled_acts tested
  have hstage : ActsBy true c (skidsSampled tested r) (sampleControlled tested behind r) := sampleControlled_acts hprobe
  have hbraked : 0 < setpointOf (skidsSampled tested r) c := by
    have hcontrol : ResolutionInv (forChannels (controlSample tested) r) :=
      hr.keeps (.of_frame (forChannels_frame (controlSample_frame tested) r) rfl)
    obtain ⟨-, hlimit⟩ := resolvedLevel_pos.mp (hmpos.trans_eq (hm c).1)
    refine (resolvedLevel_pos.mpr ⟨?_, ?_⟩).trans_eq (skidSamples_resolved hcontrol c).1.symm
    · exact happly.trans_eq hskid.applyLevel.symm
    · exact hlimit.trans_eq hstage.limit
  rw [happlied, hstage.holds hmpos, hskid.holds hbraked]

end Tail

end Sys2Proof
end

