-- ==== Sys2Proof/Proofs/SampleFormed.lean ====
section
/-! The demand of a pressure sample put together (O11): its record clause by clause, and the derate it keeps (R28, R30 to R36). -/

namespace Sys2Proof

open Sys2Proof.Machine

section Record
variable {d : DriverRec} {y : Nat}

/-- A mismatch whose gap is above 30 kPa keeps the larger level and starts its recovery run anew (R31, R34). -/
theorem sampledDriver_apart (hlink : d.linkPresent = true) (hmis : d.mismatch = true) (hgap : ¬ levelGap y (d.linkLevel.getD 0) ≤ 30) :
    sampledDriver d (some y) = { d with
      lineLevel := some y, recovery := none, demand := max (d.linkLevel.getD 0) y } := by
  rw [sampledDriver_mismatched hlink hmis, runSample_not hgap]
  simp [runMs]

/-- A mismatch whose gap is at most 30 kPa runs on to its recovery (R31, R34). -/
theorem sampledDriver_close (hlink : d.linkPresent = true) (hmis : d.mismatch = true) (hgap : levelGap y (d.linkLevel.getD 0) ≤ 30) :
    sampledDriver d (some y) =
      (let n := match d.recovery with
        | none => 0
        | some n => min 2000 (n + 10)
       { d with
          lineLevel := some y, recovery := some n,
          demand := if n < 2000 then max (d.linkLevel.getD 0) y else d.linkLevel.getD 0 }) := by
  rw [sampledDriver_mismatched hlink hmis, runSample_of hgap]
  rfl

/-- Without a mismatch a gap above 100 kPa drives the onset run, and any other ends it (R31, R33). -/
theorem sampledDriver_onset (hlink : d.linkPresent = true) (hmis : d.mismatch = false) :
    sampledDriver d (some y) = { d with
      lineLevel := some y,
      onset := if 100 < levelGap y (d.linkLevel.getD 0) then
          some (match d.onset with
            | none => 0
            | some n => min 500 (n + 10))
        else none,
      demand := d.linkLevel.getD 0 } := by
  rw [sampledDriver_agreed hlink hmis]
  split
  · next h =>
    congr 1
    exact runSample_of h 500 d.onset
  · next h => rw [runSample_not h]

end Record

/-- A channel that is braked before the sample, once its demand is formed, and when it ends keeps its applied derate, but where the
sample enters PROBE (R36). -/
theorem sample_keepsDerate {x : SampleSet} {s : State} {c : Channel} (hp : isParked s = false) (hs : ResolutionInv s)
    (hprobe : (pressureSample x s).roll.stage.stage = .probe → s.roll.stage.stage = .probe) (hpos : 0 < setpointOf s c)
    (hmid : 0 < setpointOf (sampleResolved x s) c) (hend : 0 < setpointOf (pressureSample x s) c) :
    appliedOf (pressureSample x s) c = appliedOf s c := by
  have hstage : samePart s (sampleResolved x s) .stage := sampleResolved_frame x s .stage (by decide +kernel)
  have hrolled : (sampleResolved x s).roll.stage = s.roll.stage := hstage
  rw [pressureSample_eq] at hprobe hend ⊢
  rw [← hrolled] at hprobe
  rw [sampleControlled_keeps ((sampleResolved_parked x s).trans hp) (sampleResolved_resolved x s) hprobe hmid hend]
  exact sampleResolved_keeps hp hs hpos hmid

/-- Settles O11: the record follows from LINE as the sample reads it, the causes and the DRIVER entries from the record, and the
applied derate is followed over the demand and then over the steps behind it. -/
theorem sampleFormsTheDemand : Obligations.SampleFormsTheDemand := by
  unfold Obligations.SampleFormsTheDemand
  intro s x hp
  have hdriver := sample_record (x := x) hp
  refine ⟨pressureSample x s, rfl, fun y hline hlink => ⟨fun hmis => ?_, fun hmis hgap => ?_, fun hmis hgap => ?_⟩,
    fun hsingle => ?_, fun c => ⟨?_, fun hlow => sample_noEntry hp hlow c, fun hhigh => sample_level hp hhigh c,
      (pressureSample_resolved x s c).1, fun hs hprobe => sample_keepsDerate hp hs hprobe⟩⟩
  · rw [hdriver, (lineOf_readingOf x.control).trans hline]
    exact sampledDriver_onset hlink hmis
  · rw [hdriver, (lineOf_readingOf x.control).trans hline]
    exact sampledDriver_close hlink hmis hgap
  · rw [hdriver, (lineOf_readingOf x.control).trans hline]
    exact sampledDriver_apart hlink hmis (Nat.not_le.mpr hgap)
  · rw [hdriver, ← lineOf_readingOf]
    exact sampledDriver_single (hsingle.imp_right (lineOf_readingOf x.control).trans)
  · rw [sample_noDemandSource hp c, noSource_sampled hp, lineOf_readingOf]

end Sys2Proof
end

