-- ==== Sys2Proof/Proofs/SkidCycle.lean ====
section
/-! The operations of the skid cycle of a channel: what each leaves of its record and its SKID entry (R46 to R54), and the timed steps
of the cycle (O17). -/

namespace Sys2Proof

open Sys2Proof.Machine

/-! ## The record and the entry of a skid cycle -/

/-- The parts that hold the skid cycle of a channel: its record and its SKID entry. -/
def isCycleOf (c : Channel) : Part → Bool
  | .skid d => d == c
  | .entry d k => d == c && k == .skid
  | _ => false

/-- A channel stands in its cycle with a record and an entry. -/
def InCycle (c : Channel) (k : SkidRec) (o : Option Entry) (s : State) : Prop :=
  s.skid.get c = k ∧ entryOf s c .skid = o

section Cycle
variable {c : Channel} {k : SkidRec} {o : Option Entry} {s t : State}

theorem InCycle.same (hs : InCycle c k o s) (h : SameOn (isCycleOf c) s t) : InCycle c k o t := by
  have hskid : t.skid.get c = s.skid.get c := h (.skid c) (by simp [isCycleOf])
  have hentry : entryOf t c .skid = entryOf s c .skid := h (.entry c .skid) (by simp [isCycleOf])
  exact ⟨hskid.trans hs.1, hentry.trans hs.2⟩

theorem sameCycle_iff : SameOn (isCycleOf c) s t ↔ InCycle c (s.skid.get c) (entryOf s c .skid) t := by
  refine ⟨fun h => InCycle.same ⟨rfl, rfl⟩ h, fun ⟨hskid, hentry⟩ q hq => ?_⟩
  cases q <;> simp_all [isCycleOf, samePart]

theorem InCycle.frame {l : List Part} (hs : InCycle c k o s) (h : OnlyChanges l s t)
    (hl : l.all (fun q => !isCycleOf c q) = true) : InCycle c k o t := hs.same (.of_frame h hl)

theorem InCycle.event (hs : InCycle c k o s) : InCycle c k o (queueEvent s) := hs.frame (queueEvent_frame s) rfl

theorem InCycle.refresh (hs : InCycle c k o s) : InCycle c k o (refreshFaults s) := hs.frame (refreshFaults_frame s) rfl

theorem setSkid_cycle (c : Channel) (k : SkidRec) (s : State) :
    InCycle c k (entryOf s c .skid) (s.setSkid (s.skid.set c k)) := ⟨by simp, rfl⟩

/-- A SKID entry posted with its record: both stand (R46). -/
theorem postSkid_cycle (c : Channel) (e : Entry) (k : SkidRec) (s : State) :
    InCycle c k (some { e with level := min 1000 e.level }) (post c .skid e (s.setSkid (s.skid.set c k))) := by
  have hskid := post_frame c .skid e (s.setSkid (s.skid.set c k)) (.skid c) (by simp [resolveParts, abortParts])
  exact ⟨Eq.trans hskid (setSkid_cycle c k s).1, post_entry c .skid e _⟩

theorem postSkid_resolved (c : Channel) (e : Entry) (k : SkidRec) (s : State) :
    Resolved (refreshFaults (post c .skid e (s.setSkid (s.skid.set c k)))) c :=
  ((resolve_resolved c _).keeps ((refreshFaults_quiet _).resolution.mono (isResolutionOf_le c))).1

/-! ## The transitions (R49 to R52) -/

theorem enterRelease_cycle (c : Channel) (s : State) :
    InCycle c { s.skid.get c with state := .release, held := none, timer := 0, stepDue := false }
      (some ⟨0, none, some (.skid .release)⟩) (enterRelease c s) := postSkid_cycle c _ _ s

/-- A hold is taken at the delivery reading, limited to 1000 kPa (R50). -/
theorem enterHold_cycle (n : Nat) {d : Nat} (hd : s.front.delivery.get c = some d) :
    InCycle c { s.skid.get c with state := .hold, held := some (min 1000 d), timer := 0, forcedCount := n, stepDue := false }
      (some ⟨min 1000 d, none, some (.skid .hold)⟩) (enterHold n c s) := by
  have hlevel : holdLevel s c = min 1000 d := by simp [holdLevel, hd]
  have hclamped : min 1000 (min 1000 d) = min 1000 d := by omega
  unfold enterHold
  rw [hlevel]
  obtain ⟨hskid, hentry⟩ := postSkid_cycle c (skidEntry .hold (min 1000 d)) { s.skid.get c with
    state := .hold, held := some (min 1000 d), timer := 0, forcedCount := n, stepDue := false } s
  exact ⟨hskid, by rw [hentry, skidEntry, hclamped]⟩

theorem enterReapply_cycle (n : Nat) (c : Channel) (s : State) :
    InCycle c { s.skid.get c with state := .reapply, held := some n, timer := 0, stepDue := false }
      (some ⟨min 1000 n, none, some (.skid .reapply)⟩) (enterReapply n c s) := postSkid_cycle c _ _ s

/-! ## The return to FREE (R48, R53, R57) -/

/-- A skid record once its cycle has ended. -/
def freedRec (k : SkidRec) : SkidRec := { k with state := .free, held := none, timer := 0, stepDue := false }

theorem freeSkid_of_free (h : (s.skid.get c).state = .free) : freeSkid c s = s := by simp [freeSkid, h]

theorem freeSkid_eq (h : (s.skid.get c).state ≠ .free) : freeSkid c s =
    queueEvent (withdraw c .skid (s.setSkid (s.skid.set c (freedRec (s.skid.get c))))) := by
  simp [freeSkid, h, freedRec]

theorem freeSkid_cycle (h : (s.skid.get c).state ≠ .free) :
    InCycle c (freedRec (s.skid.get c)) none (freeSkid c s) := by
  rw [freeSkid_eq h]
  refine InCycle.event ⟨?_, withdraw_entry c .skid _⟩
  have hskid := withdraw_frame c .skid (s.setSkid (s.skid.set c (freedRec (s.skid.get c)))) (.skid c)
    (by simp [resolveParts, abortParts])
  exact Eq.trans hskid (setSkid_cycle c _ s).1

/-- The return to FREE is an own event (R57). -/
theorem freeSkid_queued (h : (s.skid.get c).state ≠ .free) : EventQueued s (freeSkid c s) := by
  intro hactive
  rw [freeSkid_eq h]
  refine queueEvent_queued ?_
  have hup := (withdraw_frame c .skid _).step (setSkid_frame s c (freedRec (s.skid.get c))) (l := skidParts c)
    (by simp [skidParts]) (by intro q hq; simp only [skidParts, List.mem_cons] at hq ⊢; tauto) (.linkPort .up)
    (by simp [skidParts, resolveParts, abortParts])
  exact (congrArg PortRec.state hup).trans hactive

/-- Anti-lock is disabled as its cycle ends (R54). -/
theorem disableAntiLock_cycle (h : (s.skid.get c).state ≠ .free) :
    InCycle c (freedRec { s.skid.get c with forcedCount := 3, disabled := true }) none (disableAntiLock c s) := by
  have hset := setSkid_cycle c { s.skid.get c with forcedCount := 3, disabled := true } s
  have hfree := freeSkid_cycle (c := c) (s := s.setSkid (s.skid.set c { s.skid.get c with forcedCount := 3, disabled := true }))
    (by rw [hset.1]; exact h)
  rw [hset.1] at hfree
  exact hfree.event

end Cycle

/-! ## The timed steps (R50 to R52, R54) -/

section Steps
variable {c : Channel} {s : State}

theorem skidDue_of {k : SkidState} {n : Nat} (hdue : (s.skid.get c).stepDue = true) (hk : (s.skid.get c).state = k)
    (hn : n ≤ (s.skid.get c).timer) : skidDue k n s c = true := by simp [skidDue, hdue, hk, hn]

/-- A posting of the cycle with the faults brought up to date. -/
theorem skidRow_frame {t : State} (h : OnlyChanges (skidParts c) s t) :
    OnlyChanges (skidParts c ++ noticeParts) s (refreshFaults t) :=
  (refreshFaults_frame t).step h (List.subset_append_left _ _) (List.subset_append_right _ _)

/-- An end of the cycle with the faults brought up to date. -/
theorem freeRow_frame {t : State} (h : OnlyChanges (freeParts c) s t) :
    OnlyChanges (freeParts c) s (refreshFaults t) :=
  (refreshFaults_frame t).step h (fun _ h => h) (by intro q hq; simp [freeParts, eventParts, hq])

theorem EventQueued.refresh {t : State} (h : EventQueued s t) : EventQueued s (refreshFaults t) := by
  intro hactive
  rw [statusQueue_refresh]
  exact h hactive

/-- A release of 600 ms is held and counted, and the third in a row disables anti-lock (R50, R54). -/
theorem skidForcedHold_acts (hdue : (s.skid.get c).stepDue = true) (hstate : (s.skid.get c).state = .release)
    (htimer : 600 ≤ (s.skid.get c).timer) : ∃ t, exec (.skidForcedHold c) s = .next t ∧
      ((s.skid.get c).forcedCount < 2 → ∀ d, s.front.delivery.get c = some d →
        t.skid.get c = { s.skid.get c with
          state := .hold, held := some (min 1000 d), timer := 0, forcedCount := (s.skid.get c).forcedCount + 1, stepDue := false } ∧
        entryOf t c .skid = some ⟨min 1000 d, none, some (.skid .hold)⟩ ∧ Resolved t c ∧
        OnlyChanges (skidParts c ++ noticeParts) s t) ∧
      (2 ≤ (s.skid.get c).forcedCount →
        t.skid.get c = { s.skid.get c with
          state := .free, held := none, timer := 0, forcedCount := 3, disabled := true, stepDue := false } ∧
        entryOf t c .skid = none ∧ EventQueued s t ∧ OnlyChanges (freeParts c) s t) := by
  have hd := skidDue_of hdue hstate htimer
  refine ⟨refreshFaults (forcedHold c s), by simp [exec, execSkidForcedHold, whenDue, hd], fun hcount d hread => ?_,
    fun hcount => ?_⟩
  · have hhold : forcedHold c s = enterHold ((s.skid.get c).forcedCount + 1) c s := if_pos (by omega)
    obtain ⟨hskid, hentry⟩ := (enterHold_cycle ((s.skid.get c).forcedCount + 1) hread).refresh
    rw [hhold]
    exact ⟨hskid, hentry, postSkid_resolved c _ _ s, skidRow_frame (enterHold_frame _ c s)⟩
  · have hdisable : forcedHold c s = disableAntiLock c s := if_neg (by omega)
    obtain ⟨hskid, hentry⟩ := (disableAntiLock_cycle (c := c) (s := s) (by simp [hstate])).refresh
    rw [hdisable]
    refine ⟨hskid, hentry, eventQueued_refresh ?_, freeRow_frame (disableAntiLock_frame c s)⟩
    exact freeSkid_upState c _

/-- A hold of 100 ms passes to REAPPLY at the held level (R51). -/
theorem skidHoldTimeout_acts {n : Nat} (hdue : (s.skid.get c).stepDue = true) (hstate : (s.skid.get c).state = .hold)
    (htimer : 100 ≤ (s.skid.get c).timer) (hheld : (s.skid.get c).held = some n) :
    ∃ t, exec (.skidHoldTimeout c) s = .next t ∧
      t.skid.get c = { s.skid.get c with state := .reapply, timer := 0, stepDue := false } ∧
      entryOf t c .skid = some ⟨min 1000 n, none, some (.skid .reapply)⟩ ∧ Resolved t c ∧
      OnlyChanges (skidParts c ++ noticeParts) s t := by
  have hd := skidDue_of hdue hstate htimer
  obtain ⟨hskid, hentry⟩ := (enterReapply_cycle n c s).refresh
  refine ⟨refreshFaults (enterReapply n c s), by simp [exec, execSkidHoldTimeout, whenDue, hd, hheld], ?_, hentry,
    postSkid_resolved c _ _ s, skidRow_frame (enterReapply_frame n c s)⟩
  rw [hskid, ← hheld]

/-- After 50 ms in REAPPLY the level rises by 20 kPa, or the cycle ends (R52, R53). -/
theorem skidReapplyStep_acts {n : Nat} (hdue : (s.skid.get c).stepDue = true) (hstate : (s.skid.get c).state = .reapply)
    (htimer : 50 ≤ (s.skid.get c).timer) (hheld : (s.skid.get c).held = some n) :
    ∃ t, exec (.skidReapplyStep c) s = .next t ∧
      (n + 20 < (s.demand.summary.get c).largestApply →
        t.skid.get c = { s.skid.get c with state := .reapply, held := some (n + 20), timer := 0, stepDue := false } ∧
        entryOf t c .skid = some ⟨min 1000 (n + 20), none, some (.skid .reapply)⟩ ∧ Resolved t c ∧
        OnlyChanges (skidParts c ++ noticeParts) s t) ∧
      ((s.demand.summary.get c).largestApply ≤ n + 20 →
        t.skid.get c = { s.skid.get c with state := .free, held := none, timer := 0, stepDue := false } ∧
        entryOf t c .skid = none ∧ EventQueued s t ∧ OnlyChanges (freeParts c) s t) := by
  have hd := skidDue_of hdue hstate htimer
  refine ⟨refreshFaults (reapplyStep c s), by simp [exec, execSkidReapplyStep, whenDue, hd], fun hlow => ?_, fun hend => ?_⟩
  · have hstep : reapplyStep c s = enterReapply (n + 20) c s := by
      simp [reapplyStep, hheld, lastApply, Nat.not_le.mpr hlow]
    obtain ⟨hskid, hentry⟩ := (enterReapply_cycle (n + 20) c s).refresh
    rw [hstep]
    exact ⟨hskid, hentry, postSkid_resolved c _ _ s, skidRow_frame (enterReapply_frame _ c s)⟩
  · have hstep : reapplyStep c s = freeSkid c s := by simp [reapplyStep, hheld, lastApply, hend]
    have hne : (s.skid.get c).state ≠ .free := by simp [hstate]
    obtain ⟨hskid, hentry⟩ := (freeSkid_cycle hne).refresh
    rw [hstep]
    exact ⟨hskid, hentry, (freeSkid_queued hne).refresh, freeRow_frame (freeSkid_frame c s)⟩

end Steps

/-- Settles O17, one row at a time. -/
theorem skidStepsTakeTheirCourse : Obligations.SkidStepsTakeTheirCourse := fun _ _ hdue =>
  ⟨skidForcedHold_acts hdue, fun hstate htimer _ hheld => skidHoldTimeout_acts hdue hstate htimer hheld,
    fun hstate htimer _ hheld => skidReapplyStep_acts hdue hstate htimer hheld⟩

end Sys2Proof
end

