-- ==== Sys2Proof/Proofs/WheelPulses.lean ====
section
/-! A wheel pulse, and the wake it is in PARKED (R40, R178; O16): nothing in a wake after its notice to Port A clears that notice. -/

namespace Sys2Proof

open Sys2Proof.Machine

/-! ## Port A's notice of a wake (R170, R178) -/

/-- Port A's wake reason flag stands as in an earlier state. -/
def WakeFlagSame (s t : State) : Prop := t.portA.attention.wakeReason = s.portA.attention.wakeReason

section WakeFlag
variable {s t u : State}

theorem WakeFlagSame.refl (s : State) : WakeFlagSame s s := rfl

theorem WakeFlagSame.trans (h : WakeFlagSame s t) (k : WakeFlagSame t u) : WakeFlagSame s u := Eq.trans k h

theorem WakeFlagSame.of_frame {l : List Part} (h : OnlyChanges l s t) (hl : .attention .a ∉ l) : WakeFlagSame s t := by
  have hflags : t.portA.attention = s.portA.attention := h (.attention .a) hl
  exact congrArg Attention.wakeReason hflags

/-- A flag raised beside it leaves it alone. -/
theorem setAttention_flag {p : Port} {x : Attention} (h : x.wakeReason = (portOf s p).attention.wakeReason) :
    WakeFlagSame s (setAttention s p x) := by
  cases p with
  | a => exact h
  | b => exact WakeFlagSame.refl s

theorem raiseNewFault_flag (p : Port) (b : Bool) (s : State) : WakeFlagSame s (raiseNewFault s p b) := setAttention_flag rfl

theorem refreshFaults_flag (s : State) : WakeFlagSame s (refreshFaults s) :=
  ((WakeFlagSame.of_frame (setFaults_frame s _) (by simp)).trans (raiseNewFault_flag .a _ _)).trans (raiseNewFault_flag .b _ _)

theorem queueEvent_flag (s : State) : WakeFlagSame s (queueEvent s) := by
  unfold queueEvent
  dsimp only
  split
  · exact (refreshFaults_flag s).trans (.of_frame (setStatusQueue_frame _ _) (by simp))
  · exact refreshFaults_flag s

theorem storeResult_flag (c : Channel) (p : Port) (r : TestResult) (s : State) : WakeFlagSame s (storeResult c p r s) :=
  (WakeFlagSame.of_frame (setResult_frame s c r) (by simp)).trans (setAttention_flag rfl)

theorem abortRunning_flag (k : TestCause) (s : State) : WakeFlagSame s (abortRunning k s) := by
  unfold abortRunning
  split
  · exact .refl s
  · have hstored (c : Channel) (p : Port) (r : TestResult) : WakeFlagSame s (storeResult c p r (s.setTests { s.tests with
        holder := .free })) := (WakeFlagSame.of_frame (setHolder_frame s .free) (by simp)).trans (storeResult_flag c p r _)
    dsimp only
    split
    · exact hstored _ _ _
    · exact (hstored _ _ _).trans (.of_frame (openExhaust_frame _ _) (by simp))

theorem abortTestOf_flag (c : Channel) (k : TestCause) (s : State) : WakeFlagSame s (abortTestOf c k s) := by
  unfold abortTestOf
  split
  · exact abortRunning_flag k s
  · exact .refl s

theorem refuseHead_flag (k : TestCause) (s : State) : WakeFlagSame s (refuseHead k s) := by
  unfold refuseHead
  split
  · exact .refl s
  · exact (WakeFlagSame.of_frame (dropHead_frame s) (by simp)).trans (storeResult_flag _ _ _ _)

theorem testBackupNotice_flag (c : Channel) (s : State) : WakeFlagSame s (testBackupNotice c s) := by
  have habort := abortTestOf_flag c .backup s
  unfold testBackupNotice
  dsimp only
  split
  · exact habort.trans (refuseHead_flag _ _)
  · exact habort

theorem resolve_flag (c : Channel) (s : State) : WakeFlagSame s (resolve c s) := by
  have hwrite := WakeFlagSame.of_frame (writeResolution_frame c s) (by simp)
  unfold resolve
  split
  · exact hwrite.trans (abortTestOf_flag c _ _)
  · exact hwrite

theorem freeSkid_flag (c : Channel) (s : State) : WakeFlagSame s (freeSkid c s) := by
  rcases freeSkid_cases c s with h | ⟨k, -, h⟩ <;> rw [h]
  · exact .refl s
  · refine (WakeFlagSame.of_frame (setSkid_frame s c k) (by simp)).trans (WakeFlagSame.trans ?_ (queueEvent_flag _))
    rcases withdraw_cases c .skid (s.setSkid (s.skid.set c k)) with hw | hw <;> rw [hw]
    · exact .refl _
    · exact (WakeFlagSame.of_frame (putEntry_frame _ c .skid none) (by simp)).trans (resolve_flag c _)

theorem enterBackup_flag (c : Channel) (s : State) : WakeFlagSame s (enterBackup c s) := by
  rw [enterBackup_eq]
  exact (((WakeFlagSame.of_frame (deEnergise_frame c s) (by simp)).trans (testBackupNotice_flag c _)).trans
    (freeSkid_flag c _)).trans (queueEvent_flag _)

theorem addCause_flag (k : Cause) (c : Channel) (s : State) : WakeFlagSame s (addCause k c s) := by
  have hput := WakeFlagSame.of_frame (setCauses_frame (s := s) c ((channelOf s c).causes.put k true)
    (channelOf s c).startupHeld) (by simp)
  rcases addCause_cases k c s with ⟨h, -⟩ | ⟨h, -⟩ | ⟨h, -⟩ <;> rw [h]
  · exact .refl s
  · exact hput.trans (enterBackup_flag c _)
  · exact hput

theorem addStartup_flag (c : Channel) (s : State) : WakeFlagSame s (addStartup c s) :=
  (WakeFlagSame.of_frame (startupHeld_frame c s) (by simp)).trans (addCause_flag .startup c _)

end WakeFlag

/-! ## A row that wakes the part (R178) -/

theorem addStartup_held (c : Channel) (s : State) : (channelOf (addStartup c s) c).startupHeld = true := by
  unfold addStartup
  rw [addCause_held]
  simp

/-- In PARKED a wake is taken as R178 says. -/
theorem wake_woken {s : State} (hp : isParked s = true) (r : WakeReason) : Woken s (wake r s) r := by
  let told := raiseWakeReason (s.setStandby { s.standby with
    opState := .starting, startingTimer := 0, wakeReason := some r, wakeTimer := none })
  have hwake : wake r s = forChannels addStartup told := if_pos hp
  have hstandby : (forChannels addStartup told).standby = told.standby :=
    forChannels_frame addStartup_frame told .standby (by decide +kernel)
  have hflag : WakeFlagSame told (forChannels addStartup told) := forChannels_rel (fun _ _ _ => .trans) addStartup_flag told
  have hheld (c : Channel) : (channelOf (forChannels addStartup told) c).startupHeld = true := by
    refine forChannels_each (P := fun d t => (channelOf t d).startupHeld = true) addStartup_held (fun d e t hd ht => ?_) told c
    exact Eq.trans (addStartup_frame e t (.causes d) (backupParts_other hd).1).2 ht
  refine ⟨?_, fun c => ⟨wake_addsCauses hp r c, ?_⟩, ?_⟩ <;> rw [hwake]
  · exact hstandby
  · exact hheld c
  · exact hflag

theorem Woken.refresh {s t : State} {r : WakeReason} (h : Woken s t r) : Woken s (refreshFaults t) r := by
  obtain ⟨hstandby, hcauses, hflag⟩ := h
  have hkept (c : Channel) := refreshFaults_frame t (.causes c) (by simp [noticeParts])
  exact ⟨Eq.trans (refreshFaults_frame t .standby (by simp [noticeParts])) hstandby,
    fun c => ⟨(hcauses c).1.after (hkept c), (hkept c).2.trans (hcauses c).2⟩, Eq.trans (refreshFaults_flag t) hflag⟩

theorem wakeRow_frame (r : WakeReason) (s : State) :
    OnlyChanges (noticeParts ++ wakeParts s) s (refreshFaults (wake r s)) :=
  (refreshFaults_frame _).step (wake_frame_parked r s) (List.subset_append_right _ _) (List.subset_append_left _ _)

theorem wakeRow_wheel (r : WakeReason) (s : State) (c : Channel) :
    (refreshFaults (wake r s)).wheels.wheel.get c = s.wheels.wheel.get c := by
  refine wakeRow_frame r s (.wheel c) ?_
  rw [List.mem_append, not_or]
  exact ⟨by simp [noticeParts], not_mem_wakeParts (by simp) fun d => by
    simp [backupParts, freeParts, resolveParts, abortParts, eventParts, noticeParts]⟩

/-! ## WHEEL_PULSE (R40) -/

/-- A pulse within the present millisecond sets the period, or only starts the timing, by the time since the one before. -/
theorem pulseRec_eq {m : Nat} (hm : m < 1000) (w : WheelRec) : pulseRec m w =
    { w with
      period := if max 1 (w.age + m - w.edgeOffset) < 200000 then some (max 1 (w.age + m - w.edgeOffset)) else none
      age := 0, edgeOffset := m } := by
  have hmin : min 999 m = m := by omega
  simp only [pulseRec, hmin]
  split <;> rfl

/-- Settles O16: the pulse writes the channel's wheel record, and what follows it is the wake alone. -/
theorem pulseSetsThePeriod : Obligations.PulseSetsThePeriod := by
  intro s c m hm w elapsed
  let pulsed := s.setWheels { s.wheels with wheel := s.wheels.wheel.set c (pulseRec m w) }
  have hpulse : OnlyChanges [.wheel c] s pulsed := setWheel_frame s c _
  have hrecord : pulsed.wheels.wheel.get c = pulseRec m w := by simp [pulsed]
  refine ⟨refreshFaults (wake .motion pulsed), rfl, ?_, fun hp => ?_, ?_⟩
  · exact (wakeRow_wheel .motion pulsed c).trans (hrecord.trans (pulseRec_eq hm w))
  · have hparked : isParked pulsed = true := (hpulse.parked (by simp)).trans hp
    obtain ⟨hstandby, hcauses, hflag⟩ := (wake_woken hparked .motion).refresh
    exact ⟨hstandby, fun d => (hcauses d).1.before (hpulse (.causes d) (by simp)), hflag⟩
  · have hparts : wakeParts pulsed ⊆ wakeParts s := wakeParts_subset hpulse fun _ => by simp
    refine (wakeRow_frame .motion pulsed).step hpulse (by simp) fun q hq => ?_
    simp only [List.mem_append, List.mem_cons] at hq ⊢
    exact hq.imp .inr fun h => hparts h

end Sys2Proof
end

