-- ==== Sys2Proof/Proofs/EventsWaiting.lean ====
section
/-! An event frame that waits in the upstream STATUS queue waits through every operation of a pressure sample (R148). -/

namespace Sys2Proof

open Sys2Proof.Machine

namespace EventsWait
variable {s t u : State}

theorem refl (s : State) : EventsWait s s := id

theorem trans (h : EventsWait s t) (k : EventsWait t u) : EventsWait s u := fun hs => k (h hs)

theorem event (h : EventsWait s t) : EventsWait s (queueEvent t) := h.trans (queueEvent_wait t)

theorem frame {l : List Part} (h : EventsWait s t) (k : OnlyChanges l t u) (hl : .statusQueue ∉ l) : EventsWait s u :=
  h.trans (.of_frame k hl)

theorem channels {g : Channel → State → State} (h : ∀ c t, EventsWait t (g c t)) (s : State) :
    EventsWait s (forChannels g s) := forChannels_rel (R := EventsWait) (fun _ _ _ => trans) h s

theorem foldl {α : Type} {g : State → α → State} (h : ∀ t a, EventsWait t (g t a)) :
    ∀ (as : List α) (s : State), EventsWait s (as.foldl g s)
  | [], s => refl s
  | a :: as, s => (h s a).trans (foldl h as (g s a))

end EventsWait

/-! ## Skid states, causes and wakes (R2, R48, R178) -/

theorem withdraw_wait (c : Channel) (k : Source) (s : State) : EventsWait s (withdraw c k s) :=
  .of_frame (withdraw_frame c k s) (by simp [resolveParts, abortParts])

theorem freeSkid_wait (c : Channel) (s : State) : EventsWait s (freeSkid c s) := by
  rcases freeSkid_cases c s with h | ⟨k, -, h⟩ <;> rw [h]
  · exact .refl s
  · exact ((EventsWait.of_frame (setSkid_frame s c k) (by simp)).trans (withdraw_wait c .skid _)).event

theorem enterBackup_wait (c : Channel) (s : State) : EventsWait s (enterBackup c s) := by
  rw [enterBackup_eq]
  have hnoticed := (EventsWait.of_frame (deEnergise_frame c s) (by simp)).frame (testBackupNotice_quiet c _) (by simp)
  exact (hnoticed.trans (freeSkid_wait c _)).event

theorem addCause_wait (k : Cause) (c : Channel) (s : State) : EventsWait s (addCause k c s) := by
  have hput := EventsWait.of_frame (setCauses_frame (s := s) c ((channelOf s c).causes.put k true)
    (channelOf s c).startupHeld) (by simp)
  rcases addCause_cases k c s with ⟨h, -⟩ | ⟨h, -⟩ | ⟨h, -⟩ <;> rw [h]
  · exact .refl s
  · exact hput.trans (enterBackup_wait c _)
  · exact hput

theorem wake_wait (r : WakeReason) (s : State) : EventsWait s (wake r s) := by
  have hstartup (c : Channel) (t : State) : EventsWait t (addStartup c t) :=
    (EventsWait.of_frame (startupHeld_frame c t) (by simp)).trans (addCause_wait .startup c _)
  unfold wake
  split
  · exact ((EventsWait.of_frame (setStandby_frame s _) (by simp)).frame (raiseWakeReason_frame _) (by simp)).trans
      (.channels hstartup _)
  · exact .refl s

theorem enterElectronic_wait (c : Channel) (s : State) : EventsWait s (enterElectronic c s) := by
  unfold enterElectronic
  refine EventsWait.event (.of_frame (l := [.valves c]) ?_ (by simp))
  exact setChannel_frame (.inr ⟨rfl, rfl⟩) (.inr ⟨rfl, rfl⟩) (.inl (by simp)) (.inr rfl)

theorem removeAutomatic_wait (c : Channel) (s : State) : EventsWait s (removeAutomatic c s) := by
  have hset := EventsWait.of_frame (setCauses_frame (s := s) c (remainingCauses s c) (channelOf s c).startupHeld) (by simp)
  unfold removeAutomatic
  split
  · rcases keepCauses_cases (remainingCauses s c) c s with ⟨h, -⟩ | ⟨h, -⟩ <;> rw [h]
    · exact hset.trans (enterElectronic_wait c _)
    · exact hset
  · exact .refl s

/-! ## Tyres and the apply of a set (R90, R91, R163) -/

theorem writePosition_wait (n : Nat) (r : PositionRec) (s : State) : EventsWait s (writePosition n r s) := by
  have hput := EventsWait.of_frame (putPosition_frame n r s) (by simp)
  have hform := ((hput.frame (formDerate_frame (positionChannel n) _) (by simp)).frame (formRollFlag_frame _) (by simp)).frame
    (formWorst_frame _) (by simp)
  unfold writePosition
  dsimp only
  split_ifs
  · exact hput
  · exact hform.event.trans (wake_wait .tyre _)
  · exact hform

theorem reevaluate_wait (n : Nat) (s : State) : EventsWait s (reevaluate n s) := by
  unfold reevaluate
  split
  · exact .refl s
  · exact writePosition_wait n _ s

theorem handOnLoads_wait (s : State) : EventsWait s (handOnLoads s) := by
  have htarget (t : State) (x : TyreUnit) : EventsWait t (t.setTyre x) := fun h => h
  have hload : EventsWait s (s.setLoad (formGroup s.cal.active s.load)) := fun h => h
  unfold handOnLoads formTargets
  exact hload.trans ((htarget _ _).trans (.foldl (fun t n => reevaluate_wait n t) allPositions _))

theorem testReady_wait (s : State) : EventsWait s (testReady s) := by
  have hperiodic (t : State) : EventsWait t (queuePeriodic t) := by
    intro ht
    have hsame (x : StatusItem) : isEvent (rebuildPeriodic (periodicFrame t) x) = isEvent x := by cases x <;> rfl
    unfold queuePeriodic
    dsimp only
    split
    · simpa [List.any_map, Function.comp_def, hsame] using ht
    · simp [ht]
  unfold testReady
  split
  · have hport (r : PortRec) (n : Nat) : EventsWait s ((setLinkPort s .up r).setLink { (setLinkPort s .up r).link with
        sincePeriodic := n }) := id
    exact ((hport _ 0).frame (refreshFaults_frame _) (by simp [noticeParts])).trans (hperiodic _)
  · exact .refl s

theorem tryApply_wait (s : State) : EventsWait s (tryApply s) := by
  have hstaged : EventsWait s (takeStaged s) := fun h => h
  have htaken : EventsWait s (takenSet s) := by
    unfold takenSet
    exact hstaged.frame (returnFree_frame .applied _) (by simp [stagingParts])
  have hmeasured : EventsWait (takenSet s) (measuredLoads (takenSet s)) := fun h => h
  have hhand := (htaken.trans hmeasured).trans (handOnLoads_wait _)
  have hreload : EventsWait s (reloadLoads (takenSet s)) := by
    rcases reloadLoads_cases (takenSet s) with ⟨-, h⟩ | h <;> rw [h]
    · exact hhand
    · exact (hhand.frame (resolveAll_frame _) (by decide +kernel)).frame (formRollFlag_frame _) (by simp)
  rcases tryApply_cases s with h | ⟨-, -, h⟩ <;> rw [h]
  · exact .refl s
  · rw [applyCal_eq]
    refine (hreload.trans (testReady_wait _)).frame (restartWakeTimer_frame _) ?_
    split <;> simp

end Sys2Proof
end

