-- ==== Sys2Proof/Proofs/SkidTurn.lean ====
section
/-! The turn of a channel in the skid cycle of a pressure sample: the state that the sample brings to it, and what the rest of the sample
leaves of its outcome (R46 to R53, R56). -/

namespace Sys2Proof

open Sys2Proof.Machine

/-! ## Steps that leave a skid cycle alone -/

/-- A skid cycle is left as it stands, and an event frame that waits goes on waiting. -/
structure CycleKept (c : Channel) (s t : State) : Prop where
  cycle : SameOn (isCycleOf c) s t
  events : EventsWait s t

section Kept
variable {c : Channel} {s t u : State}

theorem CycleKept.refl (c : Channel) (s : State) : CycleKept c s s := ⟨.refl _ s, .refl s⟩

theorem CycleKept.trans (h : CycleKept c s t) (k : CycleKept c t u) : CycleKept c s u :=
  ⟨h.cycle.trans k.cycle, h.events.trans k.events⟩

theorem CycleKept.of_frame {l : List Part} (h : OnlyChanges l s t)
    (hl : l.all (fun q => !isCycleOf c q && q != .statusQueue) = true) : CycleKept c s t := by
  simp only [List.all_eq_true, Bool.and_eq_true, bne_iff_ne] at hl
  exact ⟨.of_frame h (List.all_eq_true.mpr fun q hq => (hl q hq).1), .of_frame h fun hq => (hl _ hq).2 rfl⟩

theorem CycleKept.event (h : CycleKept c s t) : CycleKept c s (queueEvent t) :=
  h.trans ⟨.of_frame (queueEvent_frame t) rfl, queueEvent_wait t⟩

/-! ## The rollover stage (R113 to R121), but for the entry into PROBE -/

theorem setStage_kept (r : StageRec) (s : State) : CycleKept c s (setStage r s) := .of_frame (setStage_frame r s) rfl

theorem postRolls_kept {g : Channel → State → State} (hg : ∀ d t, g d t = t ∨ ∃ k n, g d t = postRoll k n d t) (s : State) :
    CycleKept c s (forChannels g s) := by
  refine forChannels_rel (R := CycleKept c) (fun _ _ _ => .trans) (fun d t => ?_) s
  rcases hg d t with h | ⟨k, n, h⟩ <;> rw [h]
  · exact .refl c t
  · exact .of_frame (postRoll_frame k n d t) (by simp [rollParts, resolveParts, abortParts, isCycleOf])

theorem freeGenerator_kept (s : State) : CycleKept c s (freeGenerator s) := .of_frame (freeGenerator_frame s) rfl

theorem leaveStage_kept (r : StageRec) (s : State) :
    CycleKept c s (queueEvent (withdrawRoll (freeGenerator (setStage r s)))) := by
  have hfree := (setStage_kept r s).trans (freeGenerator_kept (c := c) _)
  exact (hfree.trans (.of_frame (withdrawRoll_frame _) (by cases c <;> decide +kernel))).event

theorem enterIntervene_kept (s : State) : CycleKept c s (enterIntervene s) :=
  (((setStage_kept _ s).trans (freeGenerator_kept _)).trans (postRolls_kept (fun _ _ => .inr ⟨_, _, rfl⟩) _)).event

theorem stageTests_kept (hprobe : (stageTests s).roll.stage.stage = .probe → s.roll.stage.stage = .probe) :
    CycleKept c s (stageTests s) := by
  have hset (r : StageRec) : CycleKept c s (setStage r s) := setStage_kept r s
  have hintervene (r : StageRec) : CycleKept c s (enterIntervene (setStage r s)) := (hset r).trans (enterIntervene_kept _)
  cases hstage : s.roll.stage.stage <;> simp only [stageTests, hstage] at hprobe ⊢
  case off => exact (hset _).event
  case quiet =>
    split_ifs
    · exact (hset _).event
    · exact .refl c s
  case watch =>
    split_ifs at hprobe ⊢
    · exact hintervene _
    · exact hintervene _
    · exact absurd (hprobe (enterProbe_stage _)) (by simp)
    · exact hset _
  case probe =>
    split_ifs
    · exact hintervene _
    · exact hintervene _
    · exact (hset _).trans (leaveStage_kept _ _)
    · exact hset _
  case intervene => exact (hset _).trans (postRolls_kept followSide_cases _)
  case recover =>
    split_ifs
    · exact enterIntervene_kept s
    · exact hset _

theorem sampleRollover_kept (hprobe : (sampleRollover s).roll.stage.stage = .probe → s.roll.stage.stage = .probe) :
    CycleKept c s (sampleRollover s) := by
  have hind : CycleKept c s (formIndicators (fallHoldOff s)) :=
    (setStage_kept _ s).trans (.of_frame (formIndicators_frame _) rfl)
  rcases sampleRollover_cases s with h | h | h <;> rw [h] at hprobe ⊢
  · exact setStage_kept _ s
  · exact hind
  · rcases stageSample_cases (formIndicators (fallHoldOff s)) with h | h | h <;> rw [h] at hprobe ⊢
    · exact hind
    · exact hind.trans (leaveStage_kept _ _)
    · exact hind.trans (stageTests_kept hprobe)

/-! ## From the skid cycle to the end of the sample -/

theorem sampleFinish_kept (hp : isParked s = false) : CycleKept c s (sampleFinish s) := by
  have happly : CycleKept c s (tryApply s) :=
    ⟨.of_frame ((tryApply_frame s).mono (applyPieces_awake hp)) (by cases c <;> decide +kernel), tryApply_wait s⟩
  exact (happly.trans (.of_frame (sampleLoadClock_frame _) rfl)).trans (.of_frame (refreshFaults_frame _) rfl)

/-- What the skid cycle of a sample leaves of a channel stands at the end of a sample that does not enter PROBE. -/
theorem skidsSampled_kept {tested : Option Channel} {behind : List TestRequest} (hp : isParked s = false)
    (hprobe : (sampleFinish (sampleControlled tested behind s)).roll.stage.stage = .probe → s.roll.stage.stage = .probe) :
    CycleKept c (skidsSampled tested s) (sampleFinish (sampleControlled tested behind s)) := by
  rw [stageSampled_stage, ← skidsSampled_stage tested s] at hprobe
  have hroll : CycleKept c (skidsSampled tested s) (sampleRollover (skidsSampled tested s)) := sampleRollover_kept hprobe
  have hhead : CycleKept c (skidsSampled tested s) (sampleMonitors (forChannels (controlSample tested) s)) := by
    rcases sampleMonitors_cases (forChannels (controlSample tested) s) with h | h <;> rw [h]
    · exact hroll
    · exact hroll.trans (.of_frame (sampleHead_frame _) (by cases c <;> decide +kernel))
  exact (hhead.trans (.of_frame (rejoinQueue_frame behind _) rfl)).trans
    (sampleFinish_kept ((sampleControlled_parked tested behind s).trans hp))

end Kept

/-! ## Up to the turn of a channel -/

/-- The parts that the turn of a channel looks at. -/
def isTurnOf (c : Channel) : Part → Bool
  | .front | .stage | .speeds | .linkPort .up => true
  | .wheel d | .causes d | .resolution d | .skid d => d == c
  | .entry d k => d == c && k == .skid
  | _ => false

theorem isCycleOf_le_turn (c : Channel) (q : Part) (h : isCycleOf c q = true) : isTurnOf c q = true := by
  cases q <;> simp_all [isCycleOf, isTurnOf]

/-- What the turn of a channel looks at is left as it stands, and an event frame that waits goes on waiting. -/
structure TurnKept (c : Channel) (s t : State) : Prop where
  turn : SameOn (isTurnOf c) s t
  events : EventsWait s t

section Turn
variable {c : Channel} {s t u : State}

theorem TurnKept.trans (h : TurnKept c s t) (k : TurnKept c t u) : TurnKept c s u :=
  ⟨h.turn.trans k.turn, h.events.trans k.events⟩

theorem TurnKept.cycle (h : TurnKept c s t) : CycleKept c s t := ⟨h.turn.mono (isCycleOf_le_turn c), h.events⟩

theorem skidSample_wait (c : Channel) (s : State) : EventsWait s (skidSample c s) := by
  have hpost (k : SkidRec) (e : Entry) (t : State) : EventsWait t (post c .skid e (t.setSkid (t.skid.set c k))) :=
    .of_frame (postSkid_frame c e k t) (by simp [skidParts, resolveParts, abortParts])
  have hset (k : SkidRec) (t : State) : EventsWait t (t.setSkid (t.skid.set c k)) := .of_frame (setSkid_frame t c k) (by simp)
  have htick := hset { s.skid.get c with timer := min 600 ((s.skid.get c).timer + 10) } s
  have hfree := freeSkid_wait c s
  unfold skidSample
  split
  · cases hstate : (s.skid.get c).state <;> simp only [stepWatched, hstate]
    case free =>
      split_ifs
      · exact (hpost _ _ s).event
      · exact .refl s
    case release =>
      split_ifs
      · exact hfree
      · exact htick.trans (hpost _ _ _)
      · exact htick.trans (hset _ _)
    case hold =>
      split_ifs
      · exact hfree
      · exact htick.trans (hpost _ _ _)
      · exact htick.trans (hset _ _)
    case reapply =>
      split_ifs
      · exact hfree
      · exact htick.trans (hpost _ _ _)
      · exact htick.trans (hset _ _)
  · exact hfree

theorem skidSample_turnKept {d : Channel} (hd : d ≠ c) (s : State) : TurnKept c s (skidSample d s) := by
  refine ⟨.of_frame (skidSample_frame d s) ?_, skidSample_wait d s⟩
  simp [freeParts, resolveParts, abortParts, eventParts, noticeParts, isTurnOf, hd]

/-- The control samples, the running test and the supply supervision leave the skid cycles alone. -/
theorem beforeSkids_kept (tested : Option Channel) (s : State) :
    TurnKept c s (sampleSupply (sampleTest (forChannels (controlSample tested) s))) := by
  have hcontrol := forChannels_frame (controlSample_frame tested) s
  have hmeasured := (sampleMeasures_frame _).step hcontrol (l := everyChannel (fun c => [.valves c]) ++ measureParts)
    (List.subset_append_left _ _) (List.subset_append_right _ _)
  refine ⟨.of_frame hmeasured (by cases c <;> decide +kernel), ?_⟩
  have htest := (EventsWait.of_frame hcontrol (by decide +kernel)).frame (sampleTest_frame _) (by decide +kernel)
  have hset (t : State) (x : SupplyRec) : EventsWait t (t.setSupply x) := .of_frame (setSupply_frame t x) (by simp)
  unfold sampleSupply
  split
  · exact htest
  · dsimp only
    split
    · exact (htest.trans (hset _ _)).event
    · exact htest.trans (hset _ _)

/-- A channel has its turn in the skid cycle in a state that shows it all it looks at, and no other turn touches its outcome. -/
theorem skidsSampled_turn (tested : Option Channel) (c : Channel) (s : State) :
    ∃ v, TurnKept c s v ∧ CycleKept c (skidSample c v) (skidsSampled tested s) := by
  have hturn := forChannels_turn (R := fun t u => ∃ v, TurnKept c t v ∧ CycleKept c (skidSample c v) u) (S := TurnKept c) c
    (fun _ _ _ h ⟨v, hv, hu⟩ => ⟨v, h.trans hv, hu⟩) (fun _ _ _ ⟨v, hv, hu⟩ h => ⟨v, hv, hu.trans h.cycle⟩)
    (fun t => ⟨t, ⟨.refl _ t, .refl t⟩, .refl c _⟩) (fun d t hd => skidSample_turnKept hd t)
    (sampleSupply (sampleTest (forChannels (controlSample tested) s)))
  obtain ⟨v, hv, hu⟩ := hturn
  exact ⟨v, (beforeSkids_kept tested s).trans hv, hu⟩

end Turn

/-! ## A cycle that an entry into BACKUP ends before its turn (R2, R48) -/

/-- A skid cycle is left as it stands, or has ended with its own event (R57). -/
structure CycleLeft (c : Channel) (s t : State) : Prop where
  port : samePart s t (.linkPort .up)
  events : EventsWait s t
  cycle : SameOn (isCycleOf c) s t ∨
    ((s.skid.get c).state ≠ .free ∧ InCycle c (freedRec (s.skid.get c)) none t ∧ EventQueued s t)

section Left
variable {c : Channel} {s t u : State}

theorem EventQueued.before (hport : samePart s t (.linkPort .up)) (h : EventQueued t u) : EventQueued s u :=
  fun hactive => h ((congrArg PortRec.state hport).trans hactive)

theorem EventQueued.after (h : EventQueued s t) (k : EventsWait t u) : EventQueued s u := fun hactive => k (h hactive)

theorem CycleLeft.refl (c : Channel) (s : State) : CycleLeft c s s := ⟨.refl s _, .refl s, .inl (.refl _ s)⟩

theorem CycleLeft.trans (h : CycleLeft c s t) (k : CycleLeft c t u) : CycleLeft c s u := by
  refine ⟨h.port.trans k.port, h.events.trans k.events, ?_⟩
  rcases h.cycle with hsame | ⟨hne, hfreed, hevent⟩ <;> rcases k.cycle with ksame | ⟨kne, kfreed, kevent⟩
  · exact .inl (hsame.trans ksame)
  · have hskid : t.skid.get c = s.skid.get c := (sameCycle_iff.mp hsame).1
    rw [hskid] at kne kfreed
    exact .inr ⟨kne, kfreed, kevent.before h.port⟩
  · exact .inr ⟨hne, hfreed.same ksame, hevent.after k.events⟩
  · exact absurd (by rw [hfreed.1]; rfl) kne

theorem CycleLeft.of_kept (h : CycleKept c s t) (hport : samePart s t (.linkPort .up)) : CycleLeft c s t :=
  ⟨hport, h.events, .inl h.cycle⟩

theorem CycleLeft.of_frame {l : List Part} (h : OnlyChanges l s t) (hport : .linkPort .up ∉ l)
    (hl : l.all (fun q => !isCycleOf c q && q != .statusQueue) = true) : CycleLeft c s t :=
  .of_kept (.of_frame h hl) (h _ hport)

theorem CycleLeft.event (h : CycleLeft c s t) : CycleLeft c s (queueEvent t) :=
  h.trans (.of_kept (CycleKept.refl c t).event (queueEvent_frame t _ (by simp [eventParts, noticeParts])))

theorem freeSkid_left (c : Channel) (s : State) : CycleLeft c s (freeSkid c s) := by
  by_cases h : (s.skid.get c).state = .free
  · rw [freeSkid_of_free h]
    exact .refl c s
  · exact ⟨freeSkid_frame c s _ (by simp [freeParts, resolveParts, abortParts, eventParts, noticeParts]), freeSkid_wait c s,
      .inr ⟨h, freeSkid_cycle h, freeSkid_queued h⟩⟩

theorem addCause_left (k : Cause) (d : Channel) (s : State) : CycleLeft c s (addCause k d s) := by
  by_cases hd : d = c
  · subst hd
    have hput : CycleLeft d s (setChannel s d { channelOf s d with causes := (channelOf s d).causes.put k true }) :=
      .of_frame (setCauses_frame (s := s) d _ (channelOf s d).startupHeld) (by simp) rfl
    rcases addCause_cases k d s with ⟨h, -⟩ | ⟨h, -⟩ | ⟨h, -⟩ <;> rw [h]
    · exact .refl d s
    · rw [enterBackup_eq]
      have hnoticed := (hput.trans (.of_frame (deEnergise_frame d _) (by simp) rfl)).trans
        (.of_frame (testBackupNotice_quiet d _) (by simp) rfl)
      exact (hnoticed.trans (freeSkid_left d _)).event
    · exact hput
  · refine .of_kept ⟨.of_frame (addCause_frame k d s) ?_, addCause_wait k d s⟩ (addCause_frame k d s _ ?_) <;>
      simp [backupParts, freeParts, resolveParts, abortParts, eventParts, noticeParts, isCycleOf, hd]

theorem checkDelivery_left (before : PerChannel Reading) (d : Channel) (s : State) :
    CycleLeft c s (checkDelivery before d s) := by
  unfold checkDelivery
  split_ifs
  · exact .refl c s
  · exact .of_frame (setCauses_frame (s := s) d (channelOf s d).causes false) (by simp) rfl
  · exact addCause_left _ d s
  · exact .refl c s

theorem updateDrivers_left (s : State) : CycleLeft c s (forChannels updateDriver s) := by
  have hframe := forChannels_frame updateDriver_frame s
  exact .of_frame hframe (by decide +kernel) (by cases c <;> decide +kernel)

theorem updateDrivers_stands (s : State) : SameOn (isCycleOf c) s (forChannels updateDriver s) := by
  have hframe := forChannels_frame updateDriver_frame s
  exact .of_frame hframe (by cases c <;> decide +kernel)

theorem setDriver_left (d : DriverRec) (s : State) : CycleLeft c s (s.setDriver d) :=
  .of_frame (setDriver_frame s d) (by simp) rfl

theorem formDemand_left (s : State) : CycleLeft c s (formDemand s) := by
  rw [formDemand_eq]
  refine CycleLeft.trans ?_ (updateDrivers_left _)
  cases h : noSource s with
  | false =>
    rw [writeDemand_sourced h]
    exact setDriver_left _ s
  | true =>
    rw [writeDemand_unsourced h]
    exact (setDriver_left _ s).trans
      (forChannels_rel (R := CycleLeft c) (fun _ _ _ => .trans) (addCause_left .noDemandSource) _)

theorem endDemand_kept (s : State) : CycleKept c s (forChannels removeAutomatic (resolveAll s)) := by
  have hresolve : CycleKept c s (resolveAll s) := .of_frame (resolveAll_frame s) (by cases c <;> decide +kernel)
  exact hresolve.trans ⟨.of_frame (forChannels_frame removeAutomatic_frame _) (by cases c <;> decide +kernel),
    .channels removeAutomatic_wait _⟩

theorem endDemand_left (s : State) : CycleLeft c s (forChannels removeAutomatic (resolveAll s)) := by
  have hresolve : samePart s (resolveAll s) (.linkPort .up) := resolveAll_frame s _ (by decide +kernel)
  exact .of_kept (endDemand_kept s)
    (hresolve.trans (forChannels_frame removeAutomatic_frame _ _ (by decide +kernel)))

/-- Up to the control samples a cycle goes on, or ends with the entry of its channel into BACKUP. -/
theorem sampleResolved_left {x : SampleSet} (hp : isParked s = false) :
    CycleLeft c (sampleRaised (sampleReadings x (headAlone s))) (sampleResolved x s) := by
  have hsensors : CycleLeft c (sampleRaised (sampleReadings x (headAlone s))) (sampleSensors x (headAlone s)) := by
    rw [sampleSensors_eq]
    exact forChannels_rel (R := CycleLeft c) (fun _ _ _ => .trans) (checkDelivery_left _) _
  have hdriver : CycleLeft c (sampleSensors x (headAlone s)) (sampleDriver (sampleSensors x (headAlone s))) := by
    rw [sampleDriver_awake ((sampleSensors_parked x s).trans hp)]
    exact (setDriver_left _ _).trans (formDemand_left _)
  exact (hsensors.trans hdriver).trans (endDemand_left _)

end Left

end Sys2Proof
end

