-- ==== Sys2Proof/Proofs/SkidSampled.lean ====
section
/-! The skid cycle of a pressure sample (R46 to R53, R57; O13): a channel comes to its turn with the slip of the sample, steps once, and
the rest of the sample leaves it so. -/

namespace Sys2Proof

open Sys2Proof.Machine

/-! ## An ELECTRONIC channel comes to its turn in its cycle -/

section Untouched
variable {c : Channel} {s : State}

/-- The check of the delivery readings ends a cycle only with DELIVERY_SENSOR (R2, R14). -/
theorem checkDeliveries_kept (before : PerChannel Reading) (s : State)
    (h : (channelOf (forChannels (checkDelivery before) s) c).causes.has .deliverySensor = false) :
    SameOn (isCycleOf c) s (forChannels (checkDelivery before) s) := by
  let f : Part → Bool := fun q => isCycleOf c q || q == .causes c
  have hcauses {t u : State} (hs : SameOn f t u) : samePart t u (.causes c) := hs _ (by simp [f])
  have hcycle {t u : State} (hs : SameOn f t u) : SameOn (isCycleOf c) t u := hs.mono fun q hq => by simp [f, hq]
  refine forChannels_turn (R := fun t u => (channelOf u c).causes.has .deliverySensor = false → SameOn (isCycleOf c) t u)
    (S := SameOn f) c (fun t u v hs hR hno => (hcycle hs).trans (hR hno)) (fun t u v hR hs hno => ?_) (fun t hno => ?_)
    (fun d t hd => ?_) s h
  · rw [(hcauses hs).1] at hno
    exact (hR hno).trans (hcycle hs)
  · unfold checkDelivery at hno ⊢
    split_ifs at hno ⊢
    · exact .refl _ t
    · exact .of_frame (setCauses_frame (s := t) c (channelOf t c).causes false) rfl
    · simp [addCause_causes] at hno
    · exact .refl _ t
  · refine .of_frame (checkDelivery_frame before d t) ?_
    simp [f, backupParts, freeParts, resolveParts, abortParts, eventParts, noticeParts, isCycleOf, hd]

/-- An ELECTRONIC channel has taken no cause at the sample. -/
theorem sampleResolved_uncaused {x : SampleSet} (hp : isParked s = false) (he : electronic (sampleResolved x s) c = true) :
    (channelOf (sampleSensors x (headAlone s)) c).causes.has .deliverySensor = false ∧
    noSource (sampleResolved x s) = false := by
  have hnone := (CauseSet.isEmpty_iff _).mp he
  have hcauses := sampleResolved_causes (x := x) hp c
  rcases Nat.lt_or_ge (sampleResolved x s).driver.demand 15 with hlow | hhigh
  · have hsensor := hcauses.low hlow .deliverySensor
    have hsource := hcauses.low hlow .noDemandSource
    rw [hnone] at hsensor hsource
    exact ⟨hsensor.symm, hsource.symm⟩
  · have hsensor := hcauses.high hhigh .deliverySensor
    have hsource := hcauses.high hhigh .noDemandSource
    rw [hnone, eq_comm, Bool.or_eq_false_iff] at hsensor hsource
    exact ⟨hsensor.1, by simpa using hsource.2⟩

theorem setDriver_stands (d : DriverRec) (s : State) : SameOn (isCycleOf c) s (s.setDriver d) :=
  .of_frame (setDriver_frame s d) rfl

/-- With a source at hand D moves no skid cycle. -/
theorem formDemand_stands (h : noSource s = false) : SameOn (isCycleOf c) s (formDemand s) := by
  rw [formDemand_eq, writeDemand_sourced h]
  exact (setDriver_stands _ s).trans (updateDrivers_stands _)

theorem sampleDriver_stands (hp : isParked s = false) (h : noSource (sampleDriver s) = false) :
    SameOn (isCycleOf c) s (sampleDriver s) := by
  rw [sampleDriver_awake hp, noSource_formDemand] at h
  rw [sampleDriver_awake hp]
  exact (setDriver_stands _ s).trans (formDemand_stands h)

theorem noSource_endDemand (s : State) : noSource (forChannels removeAutomatic (resolveAll s)) = noSource s := by
  have hresolved : (resolveAll s).driver = s.driver := resolveAll_frame s .driver (by decide +kernel)
  have hdriver : (forChannels removeAutomatic (resolveAll s)).driver = (resolveAll s).driver :=
    forChannels_frame removeAutomatic_frame _ .driver (by decide +kernel)
  simp only [noSource, hdriver, hresolved]

/-- Up to the control samples the cycle of a channel that is ELECTRONIC then stands as it did. -/
theorem sampleResolved_stands {x : SampleSet} (hp : isParked s = false) (he : electronic (sampleResolved x s) c = true) :
    SameOn (isCycleOf c) (sampleRaised (sampleReadings x (headAlone s))) (sampleResolved x s) := by
  obtain ⟨hsensor, hsource⟩ := sampleResolved_uncaused hp he
  have hchecked : SameOn (isCycleOf c) (sampleRaised (sampleReadings x (headAlone s))) (sampleSensors x (headAlone s)) :=
    checkDeliveries_kept _ _ hsensor
  have hno : noSource (sampleDriver (sampleSensors x (headAlone s))) = false := (noSource_endDemand _).symm.trans hsource
  have hformed := sampleDriver_stands (c := c) ((sampleSensors_parked x s).trans hp) hno
  exact (hchecked.trans hformed).trans (endDemand_kept _).cycle

end Untouched

/-! ## The state at the turn of a channel -/

/-- The skid record that a sample brings to the turn of a channel: the one it had, with the slip of the sample (R47). -/
def sampledSkid (x : SampleSet) (s : State) (c : Channel) : SkidRec :=
  { s.skid.get c with slip := ((pressureSample x s).skid.get c).slip }

/-- A channel is watched at a sample (R48): its mode, its wheel and its delivery reading are those the sample ends with, the disabled
flag and the probed side those it began with. -/
def WatchedAt (x : SampleSet) (s : State) (c : Channel) : Prop :=
  electronic (pressureSample x s) c = true ∧ ((pressureSample x s).wheels.wheel.get c).valid = true ∧
  (pressureSample x s).front.delivery.get c ≠ none ∧ (s.skid.get c).disabled = false ∧
  s.roll.stage.probed ≠ some (channelSide c)

/-- A state in which a channel has its turn in the skid cycle of a sample. -/
structure AtTurn (x : SampleSet) (s : State) (c : Channel) (v : State) : Prop where
  port : samePart s v (.linkPort .up)
  /-- The cycle goes on, or the entry of the channel into BACKUP has ended it. -/
  arrives : InCycle c (sampledSkid x s c) (entryOf s c .skid) v ∨
    ((s.skid.get c).state ≠ .free ∧ InCycle c (freedRec (sampledSkid x s c)) none v ∧ EventQueued s v)
  stands : electronic v c = true → InCycle c (sampledSkid x s c) (entryOf s c .skid) v
  watch : watched v c = true ↔ WatchedAt x s c
  vref : v.wheels.vref = (pressureSample x s).wheels.vref
  front : v.front = (pressureSample x s).front
  apply : lastApply v c = lastApply (sampleResolved x s) c
  rest : CycleKept c (skidSample c v) (pressureSample x s)

section Arrival
variable {x : SampleSet} {s : State} {c : Channel}

theorem formSlips_skid (c : Channel) (s : State) : (forChannels formSlip s).skid.get c =
    { s.skid.get c with slip := ((forChannels formSlip s).skid.get c).slip } := by
  cases c <;> simp [forChannels, formSlip]

/-- The readings of a sample form the slip and leave the cycle, and the raised state moves neither. -/
theorem sampleRaised_cycle (x : SampleSet) (s : State) (c : Channel) :
    InCycle c (sampledSkid x s c) (entryOf s c .skid) (sampleRaised (sampleReadings x (headAlone s))) := by
  have hslip := (afterReadings_slip x s c).1
  have hread : InCycle c (sampledSkid x s c) (entryOf s c .skid) (sampleReadings x (headAlone s)) := by
    refine ⟨?_, ?_⟩
    · rw [sampledSkid, hslip]
      exact formSlips_skid c (sampleWheels x.wheelClosed ((headAlone s).setFront (frontOf x)))
    · exact sampleReadings_frame x (headAlone s) (.entry c .skid) (by cases c <;> decide +kernel)
  exact hread.frame (sampleRaised_frame _) (by cases c <;> decide +kernel)

theorem sampleRaised_port (x : SampleSet) (s : State) :
    samePart s (sampleRaised (sampleReadings x (headAlone s))) (.linkPort .up) := by
  have hhead := headAlone_frame s (.linkPort .up) (by simp)
  have hread := sampleReadings_frame x (headAlone s) (.linkPort .up) (by decide +kernel)
  exact (hhead.trans hread).trans (sampleRaised_frame _ (.linkPort .up) (by decide +kernel))

theorem sampledSkid_state : (sampledSkid x s c).state = (s.skid.get c).state := by simp only [sampledSkid]

theorem sampledSkid_disabled : (sampledSkid x s c).disabled = (s.skid.get c).disabled := by simp only [sampledSkid]

/-- Whether its cycle goes on or has ended, a channel keeps its disabled flag up to its turn. -/
theorem arrival_disabled {v : State} (h : InCycle c (sampledSkid x s c) (entryOf s c .skid) v ∨
    ((s.skid.get c).state ≠ .free ∧ InCycle c (freedRec (sampledSkid x s c)) none v ∧ EventQueued s v)) :
    (v.skid.get c).disabled = (s.skid.get c).disabled := by
  rcases h with ⟨h, -⟩ | ⟨-, ⟨h, -⟩, -⟩
  · rw [h, sampledSkid_disabled]
  · rw [h, freedRec, sampledSkid_disabled]

/-- A cycle that stood at the readings of a sample comes to the turn as it stood, or ended. -/
theorem arrival_of_left {v : State} (h : CycleLeft c (sampleRaised (sampleReadings x (headAlone s))) v) :
    InCycle c (sampledSkid x s c) (entryOf s c .skid) v ∨
      ((s.skid.get c).state ≠ .free ∧ InCycle c (freedRec (sampledSkid x s c)) none v ∧ EventQueued s v) := by
  have hstart := sampleRaised_cycle x s c
  rcases h.cycle with hsame | ⟨hne, hfreed, hevent⟩
  · exact .inl (hstart.same hsame)
  · rw [hstart.1] at hne hfreed
    rw [sampledSkid_state] at hne
    exact .inr ⟨hne, hfreed, hevent.before (sampleRaised_port x s)⟩

theorem turn_electronic {t v : State} (hv : TurnKept c t v) : electronic v c = electronic t c :=
  electronic_same (hv.turn (.causes c) (by simp [isTurnOf]))

theorem turn_stage {v : State} (hv : TurnKept c (sampleResolved x s) v) : v.roll.stage = s.roll.stage := by
  have hturn : v.roll.stage = (sampleResolved x s).roll.stage := hv.turn .stage rfl
  have hresolved : (sampleResolved x s).roll.stage = s.roll.stage := sampleResolved_frame x s .stage (by decide +kernel)
  rw [hturn, hresolved]

theorem turn_front {v : State} (hp : isParked s = false) (hv : TurnKept c (sampleResolved x s) v) :
    v.front = (pressureSample x s).front := by
  have hturn : v.front = (sampleResolved x s).front := hv.turn .front rfl
  have htail : (pressureSample x s).front = (sampleResolved x s).front := pressureSample_tail hp .front (by decide +kernel)
  rw [hturn, htail]

theorem turn_wheel {v : State} (hp : isParked s = false) (hv : TurnKept c (sampleResolved x s) v) :
    v.wheels.wheel.get c = (pressureSample x s).wheels.wheel.get c := by
  have hturn : v.wheels.wheel.get c = (sampleResolved x s).wheels.wheel.get c := hv.turn (.wheel c) (by simp [isTurnOf])
  have htail : (pressureSample x s).wheels.wheel.get c = (sampleResolved x s).wheels.wheel.get c :=
    pressureSample_tail hp (.wheel c) (by cases c <;> decide +kernel)
  rw [hturn, htail]

theorem turn_vref {v : State} (hp : isParked s = false) (hv : TurnKept c (sampleResolved x s) v) :
    v.wheels.vref = (pressureSample x s).wheels.vref := by
  have hturn : v.wheels.vref = (sampleResolved x s).wheels.vref := (hv.turn .speeds rfl).1
  have htail : (pressureSample x s).wheels.vref = (sampleResolved x s).wheels.vref :=
    (pressureSample_tail hp .speeds (by decide +kernel)).1
  rw [hturn, htail]

theorem turn_lastApply {t v : State} (hv : TurnKept c t v) : lastApply v c = lastApply t c := by
  have hsummary : v.demand.summary.get c = t.demand.summary.get c :=
    (hv.turn (.resolution c) (by simp [isTurnOf])).2
  rw [lastApply, hsummary, lastApply]

theorem turn_watched {v : State} (hp : isParked s = false) (hv : TurnKept c (sampleResolved x s) v)
    (hdisabled : (v.skid.get c).disabled = (s.skid.get c).disabled) : watched v c = true ↔ WatchedAt x s c := by
  have hmode : electronic (pressureSample x s) c = electronic v c :=
    (electronic_same (sample_causes hp c)).trans (turn_electronic hv).symm
  rw [WatchedAt, hmode, ← turn_wheel hp hv, ← turn_front hp hv, ← turn_stage hv, ← hdisabled]
  simp [watched, heldByProbe, and_assoc, Option.isSome_iff_ne_none]

/-- What its turn leaves of a channel stands at the end of a sample that does not enter PROBE. -/
theorem afterTurns_kept (hp : isParked s = false)
    (hprobe : (pressureSample x s).roll.stage.stage = .probe → s.roll.stage.stage = .probe) :
    CycleKept c (skidsSampled ((runningTest s).map RunningTest.channel) (sampleResolved x s)) (pressureSample x s) := by
  have hresolved : (sampleResolved x s).roll.stage = s.roll.stage := sampleResolved_frame x s .stage (by decide +kernel)
  rw [← hresolved, pressureSample_eq] at hprobe
  rw [pressureSample_eq]
  exact skidsSampled_kept ((sampleResolved_parked x s).trans hp) hprobe

/-- Every channel has its turn in the skid cycle of a sample, and one that does not enter PROBE ends with its outcome. -/
theorem exists_atTurn (hp : isParked s = false)
    (hprobe : (pressureSample x s).roll.stage.stage = .probe → s.roll.stage.stage = .probe) : ∃ v, AtTurn x s c v := by
  obtain ⟨v, hv, hrest⟩ := skidsSampled_turn ((runningTest s).map RunningTest.channel) c (sampleResolved x s)
  have hport : samePart (sampleResolved x s) v (.linkPort .up) := hv.turn (.linkPort .up) rfl
  have hleft := (sampleResolved_left (c := c) (x := x) hp).trans (.of_kept hv.cycle hport)
  have harrives := arrival_of_left hleft
  refine ⟨v, (sampleRaised_port x s).trans hleft.port, harrives, fun he => ?_, turn_watched hp hv (arrival_disabled harrives),
    turn_vref hp hv, turn_front hp hv, turn_lastApply hv, hrest.trans (afterTurns_kept hp hprobe)⟩
  rw [turn_electronic hv] at he
  exact ((sampleRaised_cycle x s c).same (sampleResolved_stands hp he)).same hv.cycle.cycle

end Arrival

/-! ## The step of a channel in its turn (R48 to R53) -/

section Step
variable {c : Channel} {v : State}

theorem cycleEnds_iff : cycleEnds v c = true ↔
    lastApply v c = 0 ∨ ∃ h, (v.skid.get c).held = some h ∧ lastApply v c ≤ h := by
  cases hheld : (v.skid.get c).held <;> simp [cycleEnds, hheld]

theorem skidTick_skid (c : Channel) (v : State) : (skidTick c v).skid.get c =
    { v.skid.get c with timer := min 600 ((v.skid.get c).timer + 10) } := by simp [skidTick]

/-- A sample that brings no transition counts toward the next timed step (R50 to R52). -/
theorem skidWaits_cycle (c : Channel) (v : State) :
    InCycle c { v.skid.get c with timer := min 600 ((v.skid.get c).timer + 10), stepDue := true } (entryOf v c .skid)
      (markStep c (skidTick c v)) :=
  ⟨by simp [markStep, skidTick_skid], rfl⟩

/-- A free channel enters RELEASE from a slip of 205 under braking (R49). -/
theorem skidSample_brakes (hw : watched v c = true) (hk : (v.skid.get c).state = .free)
    (hon : 205 ≤ slipLevel v c ∧ 50 ≤ v.wheels.vref ∧ 0 < lastApply v c) :
    InCycle c { v.skid.get c with state := .release, held := none, timer := 0, stepDue := false }
      (some ⟨0, none, some (.skid .release)⟩) (skidSample c v) ∧ EventQueued v (skidSample c v) := by
  have hstep : skidSample c v = queueEvent (enterRelease c v) := by simp [skidSample, hw, stepWatched, hk, hon]
  have hup : samePart v (enterRelease c v) (.linkPort .up) :=
    enterRelease_frame c v _ (by simp [skidParts, resolveParts, abortParts])
  rw [hstep]
  exact ⟨(enterRelease_cycle c v).event, fun hactive => queueEvent_queued ((congrArg PortRec.state hup).trans hactive)⟩

theorem skidSample_stays (hw : watched v c = true) (hk : (v.skid.get c).state = .free)
    (hoff : ¬ (205 ≤ slipLevel v c ∧ 50 ≤ v.wheels.vref ∧ 0 < lastApply v c)) : skidSample c v = v := by
  simp only [skidSample, hw, stepWatched, hk, if_neg hoff, if_true]

/-- A cycle that ends, or whose channel is not watched, returns to FREE (R48, R53). -/
theorem skidSample_freed (hk : (v.skid.get c).state ≠ .free) (h : watched v c = true → cycleEnds v c = true) :
    skidSample c v = freeSkid c v := by
  cases hw : watched v c
  · simp [skidSample, hw]
  · cases hstate : (v.skid.get c).state <;> simp_all [skidSample, stepWatched]

/-- A watched release is held, unforced, at the delivery reading once the slip falls below 102 (R50). -/
theorem skidSample_release (hw : watched v c = true) (hk : (v.skid.get c).state = .release) (hends : cycleEnds v c = false) :
    (slipLevel v c < 102 → ∀ d, v.front.delivery.get c = some d →
      InCycle c { v.skid.get c with state := .hold, held := some (min 1000 d), timer := 0, forcedCount := 0, stepDue := false }
        (some ⟨min 1000 d, none, some (.skid .hold)⟩) (skidSample c v)) ∧
    (102 ≤ slipLevel v c → skidSample c v = markStep c (skidTick c v)) := by
  refine ⟨fun hslip d hd => ?_, fun hslip => ?_⟩
  · have hstep : skidSample c v = enterHold 0 c (skidTick c v) := by simp [skidSample, hw, stepWatched, hk, hends, hslip]
    have hhold := enterHold_cycle (c := c) (s := skidTick c v) 0 hd
    rw [skidTick_skid] at hhold
    rw [hstep]
    exact hhold
  · simp [skidSample, hw, stepWatched, hk, hends, Nat.not_lt.mpr hslip]

/-- A watched hold passes to REAPPLY at the held level once the slip falls below 51 (R51). -/
theorem skidSample_hold {n : Nat} (hw : watched v c = true) (hk : (v.skid.get c).state = .hold)
    (hends : cycleEnds v c = false) (hheld : (v.skid.get c).held = some n) :
    (slipLevel v c < 51 →
      InCycle c { v.skid.get c with state := .reapply, held := some n, timer := 0, stepDue := false }
        (some ⟨min 1000 n, none, some (.skid .reapply)⟩) (skidSample c v)) ∧
    (51 ≤ slipLevel v c → skidSample c v = markStep c (skidTick c v)) := by
  refine ⟨fun hslip => ?_, fun hslip => ?_⟩
  · have hstep : skidSample c v = enterReapply n c (skidTick c v) := by
      simp [skidSample, hw, stepWatched, hk, hends, hslip, hheld]
    have hreapply := enterReapply_cycle n c (skidTick c v)
    rw [skidTick_skid] at hreapply
    rw [hstep]
    exact hreapply
  · simp [skidSample, hw, stepWatched, hk, hends, Nat.not_lt.mpr hslip]

/-- A watched reapplication falls back to RELEASE from a slip of 205 (R52). -/
theorem skidSample_reapply (hw : watched v c = true) (hk : (v.skid.get c).state = .reapply) (hends : cycleEnds v c = false) :
    (205 ≤ slipLevel v c →
      InCycle c { v.skid.get c with state := .release, held := none, timer := 0, stepDue := false }
        (some ⟨0, none, some (.skid .release)⟩) (skidSample c v)) ∧
    (slipLevel v c < 205 → skidSample c v = markStep c (skidTick c v)) := by
  refine ⟨fun hslip => ?_, fun hslip => ?_⟩
  · have hstep : skidSample c v = enterRelease c (skidTick c v) := by
      simp [skidSample, hw, stepWatched, hk, hends, hslip]
    have hrelease := enterRelease_cycle c (skidTick c v)
    rw [skidTick_skid] at hrelease
    rw [hstep]
    exact hrelease
  · simp [skidSample, hw, stepWatched, hk, hends, Nat.not_le.mpr hslip]

end Step

/-! ## The outcome of a sample -/

/-- The cycle of a watched channel ends at a sample (R53): by the APPLY level of its resolution and the level held before it. -/
def EndsAt (x : SampleSet) (s : State) (c : Channel) : Prop :=
  lastApply (sampleResolved x s) c = 0 ∨
    ∃ h, (s.skid.get c).held = some h ∧ lastApply (sampleResolved x s) c ≤ h

/-- The cycle of a channel ends at a sample with its own event (R57). -/
def FreedAt (x : SampleSet) (s : State) (c : Channel) : Prop :=
  InCycle c (freedRec (sampledSkid x s c)) none (pressureSample x s) ∧ EventQueued s (pressureSample x s)

/-- A sample counts toward the next timed step and leaves the SKID entry (R50 to R52). -/
def WaitsAt (x : SampleSet) (s : State) (c : Channel) : Prop :=
  InCycle c { sampledSkid x s c with timer := min 600 ((s.skid.get c).timer + 10), stepDue := true } (entryOf s c .skid)
    (pressureSample x s)

section Outcome
variable {x : SampleSet} {s v : State} {c : Channel}

theorem AtTurn.reaches {k : SkidRec} {o : Option Entry} (hv : AtTurn x s c v) (h : InCycle c k o (skidSample c v)) :
    InCycle c k o (pressureSample x s) := h.same hv.rest.cycle

theorem AtTurn.queues (hv : AtTurn x s c v) (h : EventQueued v (skidSample c v)) : EventQueued s (pressureSample x s) :=
  (h.before hv.port).after hv.rest.events

theorem AtTurn.goes (hv : AtTurn x s c v) (hw : watched v c = true) :
    InCycle c (sampledSkid x s c) (entryOf s c .skid) v := by
  refine hv.stands ?_
  simp only [watched, Bool.and_eq_true] at hw
  exact hw.1.1.1.1

theorem AtTurn.slip (hv : AtTurn x s c v) (hw : watched v c = true) :
    slipLevel v c = ((pressureSample x s).skid.get c).slip.getD 0 := by
  simp only [slipLevel, (hv.goes hw).1, sampledSkid]

theorem AtTurn.ends_iff (hv : AtTurn x s c v) (hw : watched v c = true) : cycleEnds v c = true ↔ EndsAt x s c := by
  rw [cycleEnds_iff, hv.apply, (hv.goes hw).1]
  simp only [sampledSkid, EndsAt]

theorem AtTurn.not_ends (hv : AtTurn x s c v) (hw : watched v c = true) (hends : ¬ EndsAt x s c) :
    cycleEnds v c = false := by
  rw [← hv.ends_iff hw] at hends
  simpa using hends

theorem AtTurn.state (hv : AtTurn x s c v) (hw : watched v c = true) : (v.skid.get c).state = (s.skid.get c).state := by
  rw [(hv.goes hw).1, sampledSkid_state]

/-- A channel that is FREE and not watched stays so (R48). -/
theorem AtTurn.unwatched_free (hv : AtTurn x s c v) (hw : watched v c = false) (hk : (s.skid.get c).state = .free) :
    (pressureSample x s).skid.get c = sampledSkid x s c := by
  rcases hv.arrives with hgo | ⟨hne, -, -⟩
  · have hfree : (v.skid.get c).state = .free := by rw [hgo.1, sampledSkid_state, hk]
    have hstep : skidSample c v = v := by simp [skidSample, hw, freeSkid_of_free hfree]
    rw [← hstep] at hgo
    exact (hv.reaches hgo).1
  · exact absurd hk hne

/-- A cycle whose channel is not watched, or that R53 ends, is FREE after the sample (R48, R53). -/
theorem AtTurn.freed (hv : AtTurn x s c v) (hk : (s.skid.get c).state ≠ .free)
    (hends : watched v c = true → EndsAt x s c) : FreedAt x s c := by
  rcases hv.arrives with hgo | ⟨-, hfreed, hevent⟩
  · have hstate : (v.skid.get c).state ≠ .free := by rwa [hgo.1, sampledSkid_state]
    have hstep : skidSample c v = freeSkid c v := skidSample_freed hstate fun hw => (hv.ends_iff hw).mpr (hends hw)
    have hfreed := freeSkid_cycle hstate
    rw [← hstep, hgo.1] at hfreed
    refine ⟨hv.reaches hfreed, hv.queues ?_⟩
    rw [hstep]
    exact freeSkid_queued hstate
  · have hfree : (v.skid.get c).state = .free := by rw [hfreed.1, freedRec]
    have hw : watched v c = false := by
      by_contra hw
      rw [hv.state (by simpa using hw)] at hfree
      exact hk hfree
    have hstep : skidSample c v = v := by simp [skidSample, hw, freeSkid_of_free hfree]
    rw [← hstep] at hfreed hevent
    exact ⟨hv.reaches hfreed, hevent.after hv.rest.events⟩

theorem AtTurn.waits (hv : AtTurn x s c v) (hw : watched v c = true) (hstep : skidSample c v = markStep c (skidTick c v)) :
    WaitsAt x s c := by
  obtain ⟨hskid, hentry⟩ := hv.goes hw
  have hwaits := skidWaits_cycle c v
  rw [← hstep, hskid, hentry] at hwaits
  have htimer : (sampledSkid x s c).timer = (s.skid.get c).timer := by simp only [sampledSkid]
  rw [htimer] at hwaits
  exact hv.reaches hwaits

/-- A watched FREE channel enters RELEASE or stays (R49). -/
theorem AtTurn.free (hv : AtTurn x s c v) (hw : watched v c = true) (hk : (s.skid.get c).state = .free) :
    (205 ≤ ((pressureSample x s).skid.get c).slip.getD 0 ∧ 50 ≤ (pressureSample x s).wheels.vref ∧
        0 < lastApply (sampleResolved x s) c →
      InCycle c { sampledSkid x s c with state := .release, held := none, timer := 0, stepDue := false }
        (some ⟨0, none, some (.skid .release)⟩) (pressureSample x s) ∧ EventQueued s (pressureSample x s)) ∧
    (¬ (205 ≤ ((pressureSample x s).skid.get c).slip.getD 0 ∧ 50 ≤ (pressureSample x s).wheels.vref ∧
        0 < lastApply (sampleResolved x s) c) →
      InCycle c (sampledSkid x s c) (entryOf s c .skid) (pressureSample x s)) := by
  have hstate := (hv.state hw).trans hk
  rw [← hv.slip hw, ← hv.vref, ← hv.apply]
  refine ⟨fun hon => ?_, fun hoff => ?_⟩
  · obtain ⟨hrelease, hevent⟩ := skidSample_brakes hw hstate hon
    rw [(hv.goes hw).1] at hrelease
    exact ⟨hv.reaches hrelease, hv.queues hevent⟩
  · have hstays := hv.goes hw
    rw [← skidSample_stays hw hstate hoff] at hstays
    exact hv.reaches hstays

/-- A watched release is held at the delivery reading or goes on (R50). -/
theorem AtTurn.release (hv : AtTurn x s c v) (hw : watched v c = true) (hk : (s.skid.get c).state = .release)
    (hends : ¬ EndsAt x s c) :
    (((pressureSample x s).skid.get c).slip.getD 0 < 102 → ∀ d, (pressureSample x s).front.delivery.get c = some d →
      InCycle c { sampledSkid x s c with
          state := .hold, held := some (min 1000 d), timer := 0, forcedCount := 0, stepDue := false }
        (some ⟨min 1000 d, none, some (.skid .hold)⟩) (pressureSample x s)) ∧
    (102 ≤ ((pressureSample x s).skid.get c).slip.getD 0 → WaitsAt x s c) := by
  obtain ⟨hhold, hstep⟩ := skidSample_release hw ((hv.state hw).trans hk) (hv.not_ends hw hends)
  rw [hv.front, hv.slip hw, (hv.goes hw).1] at hhold
  rw [hv.slip hw] at hstep
  exact ⟨fun hslip d hd => hv.reaches (hhold hslip d hd), fun hslip => hv.waits hw (hstep hslip)⟩

/-- A watched hold passes to REAPPLY or goes on (R51). -/
theorem AtTurn.hold {n : Nat} (hv : AtTurn x s c v) (hw : watched v c = true) (hk : (s.skid.get c).state = .hold)
    (hends : ¬ EndsAt x s c) (hheld : (s.skid.get c).held = some n) :
    (((pressureSample x s).skid.get c).slip.getD 0 < 51 →
      InCycle c { sampledSkid x s c with state := .reapply, held := some n, timer := 0, stepDue := false }
        (some ⟨min 1000 n, none, some (.skid .reapply)⟩) (pressureSample x s)) ∧
    (51 ≤ ((pressureSample x s).skid.get c).slip.getD 0 → WaitsAt x s c) := by
  have hgo := (hv.goes hw).1
  have hlevel : (v.skid.get c).held = some n := by simp only [hgo, sampledSkid, hheld]
  obtain ⟨hreapply, hstep⟩ := skidSample_hold hw ((hv.state hw).trans hk) (hv.not_ends hw hends) hlevel
  rw [hv.slip hw, hgo] at hreapply
  rw [hv.slip hw] at hstep
  exact ⟨fun hslip => hv.reaches (hreapply hslip), fun hslip => hv.waits hw (hstep hslip)⟩

/-- A watched reapplication falls back to RELEASE or goes on (R52). -/
theorem AtTurn.reapply (hv : AtTurn x s c v) (hw : watched v c = true) (hk : (s.skid.get c).state = .reapply)
    (hends : ¬ EndsAt x s c) :
    (205 ≤ ((pressureSample x s).skid.get c).slip.getD 0 →
      InCycle c { sampledSkid x s c with state := .release, held := none, timer := 0, stepDue := false }
        (some ⟨0, none, some (.skid .release)⟩) (pressureSample x s)) ∧
    (((pressureSample x s).skid.get c).slip.getD 0 < 205 → WaitsAt x s c) := by
  obtain ⟨hrelease, hstep⟩ := skidSample_reapply hw ((hv.state hw).trans hk) (hv.not_ends hw hends)
  rw [hv.slip hw, (hv.goes hw).1] at hrelease
  rw [hv.slip hw] at hstep
  exact ⟨fun hslip => hv.reaches (hrelease hslip), fun hslip => hv.waits hw (hstep hslip)⟩

end Outcome

/-- Settles O13, by the state at the turn of the channel: what comes before it forms the slip and at most ends the cycle, and what
comes after it leaves the outcome. -/
theorem sampleStepsTheSkidCycle : Obligations.SampleStepsTheSkidCycle := by
  intro s x c hp
  refine ⟨pressureSample x s, rfl, ?_⟩
  intro k e slip apply watch ends freed waits hprobe
  obtain ⟨v, hv⟩ := exists_atTurn (c := c) hp hprobe
  have hon (hw : watch) : watched v c = true := hv.watch.mpr hw
  have hoff (hw : ¬ watch) : watched v c = false := by simpa using mt hv.watch.mp hw
  have hfreed (h : FreedAt x s c) : freed := by
    obtain ⟨⟨hskid, hentry⟩, hevent⟩ := h
    simp only [freedRec, sampledSkid] at hskid
    exact ⟨hskid, hentry, hevent⟩
  have hwaits (h : WaitsAt x s c) : waits := by
    obtain ⟨hskid, hentry⟩ := h
    simp only [sampledSkid] at hskid
    exact ⟨hskid, hentry⟩
  refine ⟨fun hw => ⟨fun hk => hv.unwatched_free (hoff hw) hk, fun hk => hfreed (hv.freed hk ?_)⟩,
    fun hw hk => ?_, fun hw hk hends => hfreed (hv.freed hk fun _ => hends), fun hw hk hends => ?_,
    fun hw hk hends n hheld => ?_, fun hw hk hends => ?_⟩
  · simp [hoff hw]
  · obtain ⟨hrelease, hstays⟩ := hv.free (hon hw) hk
    refine ⟨fun hbrakes => ?_, hstays⟩
    obtain ⟨⟨hskid, hentry⟩, hevent⟩ := hrelease hbrakes
    simp only [sampledSkid] at hskid
    exact ⟨hskid, hentry, hevent⟩
  · obtain ⟨hhold, hgoes⟩ := hv.release (hon hw) hk hends
    simp only [InCycle, sampledSkid] at hhold
    exact ⟨hhold, fun hslip => hwaits (hgoes hslip)⟩
  · obtain ⟨hreapply, hgoes⟩ := hv.hold (hon hw) hk hends hheld
    simp only [InCycle, sampledSkid, ← hheld] at hreapply
    exact ⟨hreapply, fun hslip => hwaits (hgoes hslip)⟩
  · obtain ⟨hrelease, hgoes⟩ := hv.reapply (hon hw) hk hends
    simp only [InCycle, sampledSkid] at hrelease
    exact ⟨hrelease, fun hslip => hwaits (hgoes hslip)⟩

end Sys2Proof
end

