-- ==== Sys2Proof/Proofs/LoadTables.lean ====
section
/-! The load curve (R75; O51) and the axle tables under seal validation (R61, R64, R155; O52). -/

namespace Sys2Proof

open Sys2Proof.Machine

/-! ## The load curve (R75) -/

/-- The gain's share of the gap above the knee, rounded to nearest, is at most the gap. -/
theorem gainShare_le {gap gain : Nat} (hgain : gain ≤ 1024) : (gap * gain + 512) / 1024 ≤ gap := by
  have hmul : gap * gain ≤ gap * 1024 := Nat.mul_le_mul_left gap hgain
  omega

theorem gainShare_mono {a b : Nat} (gain : Nat) (h : a ≤ b) : (a * gain + 512) / 1024 ≤ (b * gain + 512) / 1024 := by
  have hmul : a * gain ≤ b * gain := Nat.mul_le_mul_right gain h
  omega

theorem curveOf_below {knee x : Nat} (gain : Nat) (h : x ≤ knee) : curveOf knee gain x = x := if_pos h

theorem curveOf_above {knee x : Nat} (gain : Nat) (h : knee < x) :
    curveOf knee gain x = knee + ((x - knee) * gain + 512) / 1024 := if_neg (by omega)

theorem curveOf_le {knee gain : Nat} (x : Nat) (hgain : gain ≤ 1024) : curveOf knee gain x ≤ x := by
  rcases Nat.lt_or_ge knee x with h | h
  · have := gainShare_le (gap := x - knee) hgain
    rw [curveOf_above gain h]
    omega
  · exact (curveOf_below gain h).le

/-- The curve leaves what is below the knee and keeps what is above it above the knee. -/
theorem min_knee_le_curveOf (knee gain x : Nat) : min x knee ≤ curveOf knee gain x := by
  rcases Nat.lt_or_ge knee x with h | h
  · rw [curveOf_above gain h]
    omega
  · rw [curveOf_below gain h]
    omega

theorem curveOf_mono {knee gain x y : Nat} (h : x ≤ y) : curveOf knee gain x ≤ curveOf knee gain y := by
  rcases Nat.lt_or_ge knee x with hx | hx
  · have := gainShare_mono gain (Nat.sub_le_sub_right h knee)
    rw [curveOf_above gain hx, curveOf_above gain (by omega)]
    omega
  · have := min_knee_le_curveOf knee gain y
    rw [curveOf_below gain hx]
    rcases Nat.lt_or_ge knee y with hy | hy
    · omega
    · rw [curveOf_below gain hy]
      omega

theorem curveOf_full (knee x : Nat) : curveOf knee 1024 x = x := by
  rcases Nat.lt_or_ge knee x with h | h
  · rw [curveOf_above 1024 h]
    omega
  · exact curveOf_below 1024 h

/-- Settles O51: the curve is `curveOf` at the knee and the gain in force, and `CalInv` bounds the gain. -/
theorem loadCurveKeepsItsBounds : Obligations.LoadCurveKeepsItsBounds := by
  intro s x y hs
  obtain ⟨-, -, -, -, -, hgain, -⟩ := hs
  refine ⟨curveOf_below _, curveOf_above _, curveOf_le x hgain, curveOf_mono, min_knee_le_curveOf _ _ x, fun hfull => ?_⟩
  rw [curve, hfull, curveOf_full]

/-! ## The words of a valid set (R155) -/

/-- Every word of a content that passes seal validation passes its own tests. -/
theorem sealWordOk_of_valid {ws : List Nat} (h : sealFailure ws = none) {i : Nat} (hi : i < 69) : sealWordOk ws i = true := by
  have := List.find?_eq_none.mp h i (List.mem_range.mpr hi)
  simpa using this

theorem axleWord_of_valid {ws : List Nat} (h : sealFailure ws = none) {i : Nat} (hi : i < 30) :
    axleWordOk (calWord ws i) (calWord ws (i - 1)) (i % 10) = true := by
  have hok := sealWordOk_of_valid h (Nat.lt_trans hi (by decide))
  simpa only [sealWordOk, hi, if_true] using hok

theorem axleBase_lt (x : Axle) : axleBase x + 9 < 30 ∧ axleBase x % 10 = 0 := by cases x <;> decide

/-- The pressures of an axle's table rise strictly. -/
theorem calP_lt_succ {ws : List Nat} (h : sealFailure ws = none) (x : Axle) {k : Nat} (hk : k < 4) :
    calP ws x k < calP ws x (k + 1) := by
  obtain ⟨hbase, hten⟩ := axleBase_lt x
  have hok := axleWord_of_valid h (i := axleBase x + (k + 1)) (by omega)
  have hmod : (axleBase x + (k + 1)) % 10 = k + 1 := by omega
  have hprev : axleBase x + (k + 1) - 1 = axleBase x + k := by omega
  rw [hmod, hprev] at hok
  simp only [axleWordOk, beq_iff_eq, Nat.succ_ne_zero, if_false, show k + 1 < 5 by omega, if_true, Bool.and_eq_true,
    decide_eq_true_eq] at hok
  exact hok.2

/-- The loads of an axle's table never fall. -/
theorem calL_le_succ {ws : List Nat} (h : sealFailure ws = none) (x : Axle) {k : Nat} (hk : k < 4) :
    calL ws x k ≤ calL ws x (k + 1) := by
  obtain ⟨hbase, hten⟩ := axleBase_lt x
  have hok := axleWord_of_valid h (i := axleBase x + 5 + (k + 1)) (by omega)
  have hmod : (axleBase x + 5 + (k + 1)) % 10 = k + 6 := by omega
  have hprev : axleBase x + 5 + (k + 1) - 1 = axleBase x + 5 + k := by omega
  rw [hmod, hprev] at hok
  simp only [axleWordOk, beq_iff_eq, show k + 6 ≠ 0 by omega, show ¬ k + 6 < 5 by omega, show k + 6 ≠ 5 by omega, if_false,
    Bool.and_eq_true, decide_eq_true_eq] at hok
  exact hok.2

/-! ## The interpolation (R61) -/

section Table
variable {ws : List Nat} {x : Axle}

/-- A load on a segment stays between the loads of its two ends. -/
theorem segmentLoad_bounds (h : sealFailure ws = none) {k m : Nat} (hk : k < 4) (hm : m ≤ calP ws x (k + 1)) :
    calL ws x k ≤ segmentLoad ws x k m ∧ segmentLoad ws x k m ≤ calL ws x (k + 1) := by
  have hp := calP_lt_succ h x hk
  have hl := calL_le_succ h x hk
  have hmul : (calL ws x (k + 1) - calL ws x k) * (m - calP ws x k) ≤
      (calL ws x (k + 1) - calL ws x k) * (calP ws x (k + 1) - calP ws x k) := Nat.mul_le_mul_left _ (by omega)
  have hquot : ((calL ws x (k + 1) - calL ws x k) * (m - calP ws x k) + (calP ws x (k + 1) - calP ws x k) / 2) /
      (calP ws x (k + 1) - calP ws x k) < calL ws x (k + 1) - calL ws x k + 1 := by
    rw [Nat.div_lt_iff_lt_mul (by omega), Nat.add_mul]
    omega
  exact ⟨Nat.le_add_right _ _, (Nat.add_le_add_left (Nat.le_of_lt_succ hquot) _).trans_eq (Nat.add_sub_cancel' hl)⟩

theorem segmentLoad_mono {k m n : Nat} (h : m ≤ n) : segmentLoad ws x k m ≤ segmentLoad ws x k n :=
  Nat.add_le_add_left (Nat.div_le_div_right (Nat.add_le_add_right (Nat.mul_le_mul_left _ (Nat.sub_le_sub_right h _)) _)) _

theorem tableLoad_low {m : Nat} (hm : m ≤ calP ws x 0) : tableLoad ws x m = calL ws x 0 := if_pos hm

/-- The pressures of a valid table, one below the other. -/
theorem calP_chain (h : sealFailure ws = none) (x : Axle) : calP ws x 0 < calP ws x 1 ∧ calP ws x 1 < calP ws x 2 ∧
    calP ws x 2 < calP ws x 3 ∧ calP ws x 3 < calP ws x 4 :=
  ⟨calP_lt_succ h x (by decide), calP_lt_succ h x (by decide), calP_lt_succ h x (by decide), calP_lt_succ h x (by decide)⟩

theorem calP_mono (h : sealFailure ws = none) (x : Axle) {j k : Nat} (hjk : j ≤ k) (hk : k ≤ 4) : calP ws x j ≤ calP ws x k := by
  induction k, hjk using Nat.le_induction with
  | base => exact le_rfl
  | succ k _ ih => exact (ih (by omega)).trans (calP_lt_succ h x hk).le

theorem calL_mono (h : sealFailure ws = none) (x : Axle) {j k : Nat} (hjk : j ≤ k) (hk : k ≤ 4) : calL ws x j ≤ calL ws x k := by
  induction k, hjk using Nat.le_induction with
  | base => exact le_rfl
  | succ k _ ih => exact (ih (by omega)).trans (calL_le_succ h x hk)

theorem tableLoad_high (h : sealFailure ws = none) {m : Nat} (hm : calP ws x 4 ≤ m) : tableLoad ws x m = calL ws x 4 := by
  have := calP_chain h x
  rw [tableLoad, if_neg (by omega), if_pos hm]

/-- Between the ends of the table a pressure lies on one segment. -/
theorem exists_segment {m : Nat} (hlow : calP ws x 0 < m) (hhigh : m < calP ws x 4) :
    ∃ k, k < 4 ∧ calP ws x k ≤ m ∧ m < calP ws x (k + 1) := by
  rcases Nat.lt_or_ge m (calP ws x 1) with h1 | h1
  · exact ⟨0, by decide, hlow.le, h1⟩
  rcases Nat.lt_or_ge m (calP ws x 2) with h2 | h2
  · exact ⟨1, by decide, h1, h2⟩
  rcases Nat.lt_or_ge m (calP ws x 3) with h3 | h3
  · exact ⟨2, by decide, h2, h3⟩
  · exact ⟨3, by decide, h3, hhigh⟩

/-- The load on the segment that holds a pressure above P0 is the interpolation on it. -/
theorem tableLoad_segment (h : sealFailure ws = none) {k m : Nat} (hk : k < 4) (hlow : calP ws x 0 < m)
    (hm : calP ws x k ≤ m) (hnext : m < calP ws x (k + 1)) : tableLoad ws x m = segmentLoad ws x k m := by
  have := calP_chain h x
  interval_cases k <;> simp only [Nat.reduceAdd] at hnext <;> unfold tableLoad <;>
    simp only [show ¬ m ≤ calP ws x 0 by omega, show ¬ calP ws x 4 ≤ m by omega, if_false]
  · rw [if_pos hnext]
  · rw [if_neg (by omega), if_pos hnext]
  · rw [if_neg (by omega), if_neg (by omega), if_pos hnext]
  · rw [if_neg (by omega), if_neg (by omega), if_neg (by omega)]

/-- A segment that holds a larger pressure is no earlier one. -/
theorem segment_le (h : sealFailure ws = none) {j k m n : Nat} (hj : j < 4) (hmn : m ≤ n) (hjm : calP ws x j ≤ m)
    (hnk : n < calP ws x (k + 1)) : j ≤ k := by
  by_contra hkj
  have := calP_mono h x (j := k + 1) (k := j) (by omega) hj.le
  omega

/-- No two segments hold one pressure. -/
theorem segment_unique (h : sealFailure ws = none) {j k m : Nat} (hj : j < 4) (hk : k < 4) (hjm : calP ws x j ≤ m)
    (hmj : m < calP ws x (j + 1)) (hkm : calP ws x k ≤ m) (hmk : m < calP ws x (k + 1)) : j = k :=
  le_antisymm (segment_le h hj le_rfl hjm hmk) (segment_le h hk le_rfl hkm hmj)

/-- A pressure is at the low end of the table, at its high end, or on one segment between them. -/
theorem tableLoad_cases (h : sealFailure ws = none) (m : Nat) :
    (m ≤ calP ws x 0 ∧ tableLoad ws x m = calL ws x 0) ∨ (calP ws x 4 ≤ m ∧ tableLoad ws x m = calL ws x 4) ∨
    ∃ k, k < 4 ∧ calP ws x 0 < m ∧ calP ws x k ≤ m ∧ m < calP ws x (k + 1) ∧ tableLoad ws x m = segmentLoad ws x k m := by
  rcases Nat.lt_or_ge (calP ws x 0) m with hlow | hlow
  · rcases Nat.lt_or_ge m (calP ws x 4) with hhigh | hhigh
    · obtain ⟨k, hk, hkm, hmk⟩ := exists_segment hlow hhigh
      exact .inr (.inr ⟨k, hk, hlow, hkm, hmk, tableLoad_segment h hk hlow hkm hmk⟩)
    · exact .inr (.inl ⟨hhigh, tableLoad_high h hhigh⟩)
  · exact .inl ⟨hlow, tableLoad_low hlow⟩

theorem tableLoad_bounds (h : sealFailure ws = none) (m : Nat) :
    calL ws x 0 ≤ tableLoad ws x m ∧ tableLoad ws x m ≤ calL ws x 4 := by
  rcases tableLoad_cases (x := x) h m with ⟨-, hm⟩ | ⟨-, hm⟩ | ⟨k, hk, -, -, hmk, hm⟩ <;> rw [hm]
  · exact ⟨le_rfl, calL_mono h x (by omega) le_rfl⟩
  · exact ⟨calL_mono h x (by omega) le_rfl, le_rfl⟩
  · obtain ⟨hstart, hend⟩ := segmentLoad_bounds h hk hmk.le
    exact ⟨(calL_mono h x (by omega) hk.le).trans hstart, hend.trans (calL_mono h x hk le_rfl)⟩

/-- The table never falls as the pressure rises. -/
theorem tableLoad_mono (h : sealFailure ws = none) {m n : Nat} (hmn : m ≤ n) : tableLoad ws x m ≤ tableLoad ws x n := by
  have hm := tableLoad_bounds (x := x) h m
  have hn := tableLoad_bounds (x := x) h n
  rcases tableLoad_cases (x := x) h m with ⟨-, em⟩ | ⟨hhigh, -⟩ | ⟨j, hj, hlow, hjm, hmj, em⟩
  · omega
  · rw [tableLoad_high h hhigh, tableLoad_high h (hhigh.trans hmn)]
  rcases tableLoad_cases (x := x) h n with ⟨hend, -⟩ | ⟨-, en⟩ | ⟨k, hk, -, hkn, hnk, en⟩
  · omega
  · omega
  rcases Nat.lt_or_eq_of_le (segment_le h hj hmn hjm hnk) with hjk | rfl
  · rw [em, en]
    exact ((segmentLoad_bounds h hj hmj.le).2.trans (calL_mono h x hjk hk.le)).trans (segmentLoad_bounds h hk hnk.le).1
  · rw [em, en]
    exact segmentLoad_mono hmn

end Table

/-! ## The filter (R64) -/

/-- Below the instant load a step rises by an eighth of the gap, by one unit at least. -/
theorem filterStep_rise {instant effective : Nat} (h : effective < instant) :
    filterStep instant effective = effective + max 1 ((instant - effective) / 8) := by
  have hdiv : ((instant : Int) - effective).tdiv 8 = ((instant - effective) / 8 : Nat) := by
    rw [← Nat.cast_sub h.le]
    rfl
  simp only [filterStep, hdiv]
  split_ifs <;> omega

/-- Above it a step falls likewise. -/
theorem filterStep_fall {instant effective : Nat} (h : instant < effective) :
    filterStep instant effective = effective - max 1 ((effective - instant) / 8) := by
  have hdiv : ((instant : Int) - effective).tdiv 8 = -((effective - instant) / 8 : Nat) := by
    rw [← Int.neg_sub, ← Nat.cast_sub h.le, Int.neg_tdiv]
    rfl
  simp only [filterStep, hdiv]
  split_ifs <;> omega

theorem filterStep_self (n : Nat) : filterStep n n = n := by simp [filterStep]

theorem filterStep_between {instant effective : Nat} (h : effective ≤ instant) :
    effective ≤ filterStep instant effective ∧ filterStep instant effective ≤ instant := by
  rcases Nat.lt_or_eq_of_le h with h | rfl
  · rw [filterStep_rise h]
    omega
  · simp [filterStep_self]

theorem filterStep_between_above {instant effective : Nat} (h : instant ≤ effective) :
    instant ≤ filterStep instant effective ∧ filterStep instant effective ≤ effective := by
  rcases Nat.lt_or_eq_of_le h with h | rfl
  · rw [filterStep_fall h]
    omega
  · simp [filterStep_self]

/-- Settles O52, from the cases of the table and the two directions of the filter. -/
theorem instantLoadFollowsTheTable : Obligations.InstantLoadFollowsTheTable := by
  intro ws x m n h p l load
  obtain ⟨hlow, hhigh⟩ := tableLoad_bounds (x := x) h m
  refine ⟨tableLoad_low, tableLoad_high h, fun hm hm' => ?_, hlow, hhigh, tableLoad_mono h, fun hmn => ?_, fun hnm => ?_⟩
  · obtain ⟨k, hk, hkm, hmk⟩ := exists_segment hm hm'
    exact ⟨k, hk, hkm, hmk, fun j hj hjm hmj => segment_unique h hj hk hjm hmj hkm hmk, tableLoad_segment h hk hm hkm hmk⟩
  · exact ⟨(filterStep_between hmn).1, (filterStep_between hmn).2, filterStep_rise⟩
  · exact ⟨(filterStep_between_above hnm).1, (filterStep_between_above hnm).2, filterStep_fall⟩

end Sys2Proof
end

