-- ==== Sys2Proof/Proofs/RecordWalk.lean ====
section
/-! The parts that hold the calibration, the loads and the tyres, and a walk over the rows of the opcode table that leave them alone: what
an invariant of those parts owes the remaining rows is `RecordKept`. -/

namespace Sys2Proof

open Sys2Proof.Machine

/-! ## The records of calibration, loads and tyres -/

/-- The parts that the invariants of the calibration and of the tyres speak of. -/
def isRecord : Part → Bool
  | .calActive | .staging | .group | .raised | .positions | .strangers | .learn | .rollFlag | .worst => true
  | .derate _ => true
  | _ => false

/-- The records of calibration, loads and tyres are the same in two states. -/
def RecordsStay (s t : State) : Prop := SameOn isRecord s t

theorem RecordsStay.refl (s : State) : RecordsStay s s := SameOn.refl _ s

theorem RecordsStay.trans {s t u : State} (h : RecordsStay s t) (k : RecordsStay t u) : RecordsStay s u := SameOn.trans h k

theorem RecordsStay.frame {l : List Part} {s t : State} (h : OnlyChanges l s t) (hl : l.all (fun q => !isRecord q) = true) :
    RecordsStay s t := SameOn.of_frame h hl

theorem RecordsStay.refresh {s t : State} (h : RecordsStay s t) : RecordsStay s (refreshFaults t) :=
  h.trans (.frame (refreshFaults_frame t) rfl)

theorem RecordsStay.event {s t : State} (h : RecordsStay s t) : RecordsStay s (queueEvent t) :=
  h.trans (.frame (queueEvent_frame t) rfl)

theorem RecordsStay.wake {s t : State} (h : RecordsStay s t) (r : WakeReason) : RecordsStay s (Machine.wake r t) :=
  h.trans (.frame (wake_frame r t) rfl)

theorem RecordsStay.whenDue {b : Bool} {f : State → State} {s : State} (h : RecordsStay s (f s)) :
    RecordsStay s (whenDue b f s) := by
  unfold Machine.whenDue
  split
  · exact h.refresh
  · exact .refl s

/-- What a transfer adds to its command leaves the records alone (R165, R178). -/
theorem transfer_recordsStay (p : Port) (n : Nat) (act : Action) (s : State) : RecordsStay (act s).2 (transfer p n act s) := by
  have hanswer (r : Response) : RecordsStay (act s).2 (answer (act s).2 p r) := .frame (answer_frame _ p r) rfl
  unfold transfer
  dsimp only
  split
  · exact ((hanswer _).wake _).refresh
  · exact (hanswer _).refresh

theorem RecordsStay.transfer {p : Port} {n : Nat} {act : Action} {s : State} (h : RecordsStay s (act s).2) :
    RecordsStay s (transfer p n act s) := h.trans (transfer_recordsStay p n act s)

theorem setPending_recordsStay (s : State) (q : List Instr) : RecordsStay s (s.setPending q) := by
  intro p hp
  cases p <;> simp_all [samePart, isRecord]

theorem setLink_recordsStay (s : State) (x : LinkUnit) : RecordsStay s (s.setLink x) := by
  intro q hq
  cases q <;> simp_all [samePart, isRecord]

theorem formDemand_recordsStay (s : State) (d : DriverRec) : RecordsStay s (formDemand (s.setDriver d)) :=
  (RecordsStay.frame (setDriver_frame s d) rfl).trans (.frame (formDemand_frame _) rfl)

theorem enterDown_recordsStay (l : LinkPort) (k : DropCause) (n : Nat) (b : Bool) (s : State) :
    RecordsStay s (enterDown l k n b s) := .frame (enterDown_frame l k n b s) (by cases l <;> rfl)

theorem setActivity_recordsStay (l : LinkPort) (b : Bool) (s : State) : RecordsStay s (setActivity l b s) :=
  .frame (setLinkPort_frame s l _) rfl

theorem receiveTraffic_recordsStay {h : State → State} (l : LinkPort) (x : TrafficClass) (f : LinkFrame)
    (hh : ∀ t, RecordsStay t (h t)) (s : State) : RecordsStay s (receiveTraffic l x f h s) := by
  have hret : RecordsStay s (addReturns l f s) := .frame (addReturns_frame l f s) rfl
  have hcredit (t : State) : RecordsStay t (creditError l t) := .frame (creditError_frame l t) (by cases l <;> rfl)
  unfold receiveTraffic
  split
  · exact .frame (countBad_frame l s) (by cases l <;> rfl)
  · split
    · exact .refl s
    · exact .refl s
    · exact .refl s
    · exact .frame (oweReturn_frame l x s) rfl
    · split
      · exact hcredit s
      · split
        · exact (hret.trans (.frame (takeSlot_frame l x _) rfl)).trans (hh _)
        · exact hret.trans (hcredit _)

theorem endHoldOff_recordsStay (l : LinkPort) (s : State) : RecordsStay s (endHoldOff l s) := by
  have hset (t : State) (r : PortRec) : RecordsStay t (setLinkPort t l r) := .frame (setLinkPort_frame t l r) rfl
  unfold endHoldOff
  dsimp only
  split
  · exact (hset s _).trans (.frame (enterSettle_frame l _) rfl)
  · exact hset s _

theorem receiveUnknown_recordsStay (l : LinkPort) (f : LinkFrame) (s : State) : RecordsStay s (receiveUnknown l f s) := by
  unfold receiveUnknown
  split_ifs
  · exact .frame (creditError_frame l s) (by cases l <;> rfl)
  · exact .frame (addReturns_frame l f s) rfl
  · exact .refl s

theorem lineActivity_recordsStay (l : LinkPort) (s : State) :
    ∃ t, exec (.lineActivity l) s = .next t ∧ RecordsStay s t := by
  have hset := setActivity_recordsStay l true s
  refine ⟨_, rfl, RecordsStay.refresh ?_⟩
  split
  · cases l with
    | up => exact hset.wake _
    | down => exact hset
  · split
    · exact hset.trans (.frame (enterSettle_frame l _) rfl)
    · exact hset

theorem setEmergency_recordsStay (s : State) : RecordsStay s (setEmergency s) :=
  ((RecordsStay.frame (setSupply_frame s _) rfl).trans (.frame (forChannels_frame postEmerg_frame _) rfl)).event

theorem setLowReservoir_recordsStay (s : State) : RecordsStay s (setLowReservoir s) :=
  (RecordsStay.frame (setSupply_frame s _) rfl).event

theorem clearEmergency_recordsStay (s : State) : RecordsStay s (clearEmergency s) :=
  ((RecordsStay.frame (setSupply_frame s _) rfl).trans
    (.frame (forChannels_frame (fun c t => withdraw_frame c .emerg t) _) rfl)).event

theorem serviceReqProcess_recordsStay (s : State) : ∃ t, exec .serviceReqProcess s = .next t ∧ RecordsStay s t := by
  simp only [exec, execServiceReqProcess]
  split
  · exact ⟨_, rfl, .refl s⟩
  · exact ⟨_, rfl, (RecordsStay.frame (processRequest_frame s _) rfl).refresh⟩

theorem serviceRespJoin_recordsStay (s : State) : ∃ t, exec .serviceRespJoin s = .next t ∧ RecordsStay s t := by
  simp only [exec, execServiceRespJoin]
  split
  · exact ⟨_, rfl, .refl s⟩
  · exact ⟨_, rfl, (RecordsStay.frame (joinResponse_frame _ s) rfl).refresh⟩

/-! ## Standby, tests and attention -/

theorem cancelTest_recordsStay (c : Channel) (s : State) : RecordsStay s (cancelTest c s) := by
  have hqueue : RecordsStay s (cancelQueued c s) := by
    unfold cancelQueued
    split
    · exact .refl s
    · exact (RecordsStay.frame (keepRequests_frame _ s) rfl).trans (.frame (storeResult_frame _ _ _ _) rfl)
  exact hqueue.trans (.frame (abortTestOf_frame c .cancelled _) rfl)

theorem attentionAction_recordsStay (p : Port) (index part : Nat) (s : State) :
    RecordsStay s (attentionAction p index part s).2 := by
  unfold attentionAction
  split
  · exact partReply_state (.refl s) (.frame (setAttention_frame s p _) rfl)
  · exact .refl s

theorem readAction_recordsStay (p : Port) (table index part : Nat) (s : State) :
    RecordsStay s (readAction p table index part s).2 := by
  unfold readAction
  split
  · exact .refl s
  · exact partReply_state (.refl s) (.refl s)

theorem parkPort_recordsStay (l : LinkPort) (s : State) : RecordsStay s (parkPort l s) := by
  unfold parkPort
  dsimp only
  split
  · exact .frame (setLinkPort_frame s l _) rfl
  · exact enterDown_recordsStay l _ _ _ s

theorem parkedRecords_recordsStay (s : State) : RecordsStay s (parkedRecords s) :=
  (((RecordsStay.frame (setStandby_frame s _) rfl).trans (.frame (forChannels_frame (addCause_frame .parked) _) rfl)).trans
    (.frame (setDriver_frame _ _) rfl)).trans (.frame (setSupply_frame _ _) rfl)

theorem offStage_recordsStay (s : State) : RecordsStay s (offStage s) := by
  unfold offStage
  split
  · exact .refl s
  · exact .frame (stageOff_frame s) rfl

theorem enterParked_recordsStay (s : State) : RecordsStay s (enterParked s) :=
  (((((parkedRecords_recordsStay s).trans (.frame (emptyTables_frame _) rfl)).trans (offStage_recordsStay _)).trans
    (parkPort_recordsStay .up _)).trans (parkPort_recordsStay .down _)).trans (setLink_recordsStay _ _)

theorem standbyAction_recordsStay (s : State) : RecordsStay s (standbyAction s).2 := by
  unfold standbyAction
  split
  · exact .refl s
  · exact enterParked_recordsStay s

/-! ## Rows that leave the records alone -/

/-- The rows that write the calibration, a load or a tyre. -/
def isRecordRow : Instr → Bool
  | .powerOnReset | .pinReset | .startingTimerExpiry | .pressureSample _ | .loadUpdate | .tyreTelegram _ | .learnTimeout
  | .tyreStale _ | .calIdleTimeout | .calSealTimeout | .tyreLearn _ _ | .tyreAssign _ _ _ | .tyreAdopt _ _ _
  | .tyreClear _ _ | .calBegin _ | .calPointer _ _ | .calWrite _ _ _ | .calRead _ _ _ | .calSeal _ | .calConfirm _ _
  | .calAbandon _ | .portSync _ => true
  | _ => false

theorem latchRow_recordsStay {i : Instr} (hi : isLatchRow i = true) (s : State) :
    ∃ t, exec i s = .next t ∧ RecordsStay s t := by
  cases i with
  | trackingTimeout c => exact ⟨_, rfl, RecordsStay.whenDue (.frame (addCause_frame .tracking c s) rfl)⟩
  | emergencyOnset => exact ⟨_, rfl, (setEmergency_recordsStay s).whenDue⟩
  | emergencyRecovery => exact ⟨_, rfl, (clearEmergency_recordsStay s).whenDue⟩
  | lowReservoirOnset => exact ⟨_, rfl, (setLowReservoir_recordsStay s).whenDue⟩
  | ctrlEntryExpiry p c => exact ⟨_, rfl, RecordsStay.whenDue (.frame (withdraw_frame c _ s) rfl)⟩
  | skidForcedHold c => exact ⟨_, rfl, RecordsStay.whenDue (.frame (forcedHold_frame c s) rfl)⟩
  | skidHoldTimeout c => exact ⟨_, rfl, RecordsStay.whenDue (.frame (enterReapply_frame _ c s) rfl)⟩
  | skidReapplyStep c => exact ⟨_, rfl, RecordsStay.whenDue (.frame (reapplyStep_frame c s) rfl)⟩
  | rolloverCalmToQuiet => exact ⟨_, rfl, RecordsStay.whenDue (.frame (plainStage_frame _ s) rfl)⟩
  | probeTimeout => exact ⟨_, rfl, RecordsStay.whenDue (.frame (probeToWatch_frame s) rfl)⟩
  | interveneEnd => exact ⟨_, rfl, RecordsStay.whenDue (.frame (enterRecover_frame s) rfl)⟩
  | recoverStep => exact ⟨_, rfl, RecordsStay.whenDue (.frame (stepRecover_frame s) rfl)⟩
  | testStart =>
    rcases exec_testStart s with h | ⟨q, -, h⟩ <;> rw [h]
    · exact ⟨_, rfl, .refl s⟩
    · exact ⟨_, rfl, (RecordsStay.frame (startTest_frame q s) rfl).refresh⟩
  | testHeadTimeout => exact ⟨_, rfl, RecordsStay.whenDue (.frame (refuseHead_frame_all _ s) rfl)⟩
  | testPulseEnd =>
    rcases exec_testPulseEnd s with h | ⟨q, -, h⟩ <;> rw [h]
    · exact ⟨_, rfl, .refl s⟩
    · exact ⟨_, rfl, (RecordsStay.frame (endPulse_frame q s) rfl).refresh⟩
  | testSettleEnd =>
    rcases exec_testSettleEnd s with h | ⟨q, -, h⟩ <;> rw [h]
    · exact ⟨_, rfl, .refl s⟩
    · exact ⟨_, rfl, (RecordsStay.frame (endSettle_frame q s) rfl).refresh⟩
  | testVentEnd =>
    rcases exec_testVentEnd s with h | ⟨q, -, h⟩ <;> rw [h]
    · exact ⟨_, rfl, .refl s⟩
    · exact ⟨_, rfl, (RecordsStay.frame (endVent_frame q s) rfl).refresh⟩
  | onTimeEnd c =>
    refine ⟨_, rfl, RecordsStay.whenDue (.frame (l := [.valves c]) ?_ rfl)⟩
    exact setChannel_frame (.inr ⟨rfl, rfl⟩) (.inr ⟨rfl, rfl⟩) (.inl (by simp)) (.inr rfl)
  | _ => simp [isLatchRow] at hi

theorem demandRow_recordsStay {i : Instr} (hi : isDemandRow i = true) (hr : isRecordRow i = false) (s : State) :
    ∃ t, exec i s = .next t ∧ RecordsStay s t := by
  cases i with
  | mismatchOnset => exact ⟨_, rfl, RecordsStay.whenDue (f := setMismatch) (formDemand_recordsStay s _)⟩
  | mismatchRecovery => exact ⟨_, rfl, RecordsStay.whenDue (f := clearMismatch) (formDemand_recordsStay s _)⟩
  | linkAgeExpiry => exact ⟨_, rfl, RecordsStay.whenDue (.frame (loseLink_frame s) rfl)⟩
  | lineLoss l => exact ⟨_, rfl, ((setActivity_recordsStay l false s).trans (enterDown_recordsStay l _ _ _ _)).refresh⟩
  | linkHoldOffExpiry l => exact ⟨_, rfl, (endHoldOff_recordsStay l s).whenDue⟩
  | settleExpiry => exact ⟨_, rfl, RecordsStay.whenDue (.frame (enterTrain_frame .up s) rfl)⟩
  | downstreamTrainStart => exact ⟨_, rfl, RecordsStay.whenDue (.frame (enterTrain_frame .down s) rfl)⟩
  | trainFrameSend l =>
    exact ⟨_, rfl, ((RecordsStay.frame (sendTrain_frame l _ s) rfl).trans (.frame (setLinkPort_frame _ l _) rfl)).whenDue⟩
  | trainAttemptTimeout l => exact ⟨_, rfl, RecordsStay.whenDue (.frame (failAttempt_frame l s) (by cases l <;> rfl))⟩
  | trainFrameReceived l f => exact ⟨_, rfl, (RecordsStay.frame (receiveTrain_frame l _ s) (by cases l <;> rfl)).refresh⟩
  | linkBadFrame l => exact ⟨_, rfl, (RecordsStay.frame (countBad_frame l s) (by cases l <;> rfl)).refresh⟩
  | errorCountDecay l => exact ⟨_, rfl, RecordsStay.whenDue (.frame (setLinkPort_frame s l _) rfl)⟩
  | creditReturnTimeout l => exact ⟨_, rfl, RecordsStay.whenDue (.frame (sendTrain_frame l true s) rfl)⟩
  | creditStall l => exact ⟨_, rfl, (enterDown_recordsStay l _ _ _ s).whenDue⟩
  | demandFrameReceived f =>
    exact ⟨_, rfl, (receiveTraffic_recordsStay .up .demand _ (fun t => .frame (relayDemand_frame _ t) rfl) s).refresh⟩
  | demandSlotSend => exact ⟨_, rfl, RecordsStay.whenDue (.frame (sendDemandSlot_frame s) rfl)⟩
  | statusFrameReceived f =>
    exact ⟨_, rfl, (receiveTraffic_recordsStay .down .status _ (fun t => .frame (relayStatus_frame _ t) rfl) s).refresh⟩
  | statusQueueSend => exact ⟨_, rfl, RecordsStay.whenDue (.frame (sendStatusHead_frame s) rfl)⟩
  | ownPeriodicStatus =>
    exact ⟨_, rfl, RecordsStay.whenDue (f := buildPeriodic) ((setLink_recordsStay s _).trans (.frame (queuePeriodic_frame _) rfl))⟩
  | serviceReqReceived f =>
    exact ⟨_, rfl, (receiveTraffic_recordsStay .up .service _ (fun t => .frame (holdRequest_frame _ t) rfl) s).refresh⟩
  | serviceReqProcess => exact serviceReqProcess_recordsStay s
  | serviceRespReceived f =>
    exact ⟨_, rfl, (receiveTraffic_recordsStay .down .service _ (fun t => .frame (holdResponse_frame _ t) rfl) s).refresh⟩
  | serviceRespJoin => exact serviceRespJoin_recordsStay s
  | serviceQueueSend l => exact ⟨_, rfl, RecordsStay.whenDue (.frame (sendServiceHead_frame l s) (by cases l <;> rfl))⟩
  | frameOfKindNotReceived l f =>
    exact ⟨_, rfl, (receiveTraffic_recordsStay l _ f (fun t => .frame (freeSlot_frame l _ t) rfl) s).refresh⟩
  | unknownKindFrame l f => exact ⟨_, rfl, (receiveUnknown_recordsStay l f s).refresh⟩
  | inertialSample bs => exact ⟨_, rfl, (RecordsStay.frame (takeInertial_frame bs s) rfl).refresh⟩
  | inertialAgeExpiry =>
    exact ⟨_, rfl, RecordsStay.whenDue (.frame (l := [.inertial])
      (setRoll_frame (.inl (by simp)) (.inr rfl) (.inr rfl) (.inr rfl)) rfl)⟩
  | _ => simp [isDemandRow, isRecordRow] at hi hr

theorem tyreRow_recordsStay {i : Instr} (hi : isTyreRow i = true) (hr : isRecordRow i = false) (s : State) :
    ∃ t, exec i s = .next t ∧ RecordsStay s t := by
  cases i with
  | wheelPulse c micros => exact ⟨_, rfl, ((RecordsStay.frame (setWheel_frame s c _) rfl).wake _).refresh⟩
  | wakeTimerExpiry => exact ⟨_, rfl, ((RecordsStay.refl s).wake _).whenDue⟩
  | lineActivity l => exact lineActivity_recordsStay l s
  | badCommandFrame p => exact ⟨_, rfl, RecordsStay.transfer (.refl s)⟩
  | noCommand p => exact ⟨_, rfl, RecordsStay.transfer (.refl s)⟩
  | linkEnable p =>
    exact ⟨_, rfl, RecordsStay.transfer (takenFrom_state (.refl s)
      ((setLink_recordsStay s _).trans (.frame (testReady_frame _) rfl)))⟩
  | read p table index part =>
    refine ⟨_, rfl, RecordsStay.transfer ?_⟩
    split
    · exact attentionAction_recordsStay p index part s
    · exact readAction_recordsStay p table index part s
  | readAttention p index part => exact ⟨_, rfl, (attentionAction_recordsStay p index part s).transfer⟩
  | clearFaults p => exact ⟨_, rfl, RecordsStay.transfer (.frame (clearFaultView_frame _ s) rfl)⟩
  | _ => simp [isTyreRow, isRecordRow] at hi hr

theorem portRow_recordsStay {i : Instr} (hi : isPortRow i = true) (hr : isRecordRow i = false) (s : State) :
    ∃ t, exec i s = .next t ∧ RecordsStay s t := by
  have h0 := RecordsStay.refl s
  cases i with
  | postApply p mask level lifetime =>
    exact ⟨_, rfl, RecordsStay.transfer (takenFrom_state h0 (withArgument_state h0 fun _ => unlessState_state h0 fun _ =>
      .frame (forMask_frame_all mask (fun c t => post_frame c _ _ t) s) rfl))⟩
  | postLimit p mask level lifetime =>
    exact ⟨_, rfl, RecordsStay.transfer (takenFrom_state h0 (withArgument_state h0 fun _ => unlessState_state h0 fun _ =>
      .frame (forMask_frame_all mask (fun c t => post_frame c _ _ t) s) rfl))⟩
  | withdraw p mask =>
    exact ⟨_, rfl, RecordsStay.transfer (withArgument_state h0 fun _ =>
      .frame (forMask_frame_all mask (fun c t => withdraw_frame c _ t) s) rfl)⟩
  | restore p mask =>
    exact ⟨_, rfl, RecordsStay.transfer (takenFrom_state h0 (withArgument_state h0 fun _ => unlessState_state h0 fun _ =>
      .frame (forMask_frame_all mask restoreChannel_frame s) rfl))⟩
  | forceBackup p mask =>
    exact ⟨_, rfl, RecordsStay.transfer (withArgument_state h0 fun _ =>
      .frame (forMask_frame_all mask (addCause_frame .forced) s) rfl)⟩
  | requestTest p n =>
    exact ⟨_, rfl, RecordsStay.transfer (withChannel_state h0 fun c => unlessState_state h0 fun _ => unlessState_state h0 fun _ =>
      unlessState_state h0 fun _ => .frame (enqueueTest_frame p c s) rfl)⟩
  | cancelTest p n => exact ⟨_, rfl, RecordsStay.transfer (withChannel_state h0 fun c => cancelTest_recordsStay c s)⟩
  | linkDisable p =>
    exact ⟨_, rfl, RecordsStay.transfer (takenFrom_state h0
      ((setLink_recordsStay s _).trans (enterDown_recordsStay .up _ _ _ _)))⟩
  | standby p => exact ⟨_, rfl, RecordsStay.transfer (takenFrom_state h0 (standbyAction_recordsStay s))⟩
  | _ => simp [isPortRow, isRecordRow] at hi hr

/-- Every row but those that write the records leaves them alone. -/
theorem exec_recordsStay {i : Instr} (hr : isRecordRow i = false) (s : State) : ∃ t, exec i s = .next t ∧ RecordsStay s t := by
  by_cases hla : isLatchRow i = true
  · exact latchRow_recordsStay hla s
  by_cases hd : isDemandRow i = true
  · exact demandRow_recordsStay hd hr s
  by_cases hty : isTyreRow i = true
  · exact tyreRow_recordsStay hty hr s
  by_cases hp : isPortRow i = true
  · exact portRow_recordsStay hp hr s
  cases i <;> simp_all [isLatchRow, isDemandRow, isTyreRow, isPortRow, isRecordRow]

/-! ## What every predicate on the records has -/

section Records
variable {P : State → Prop} (hsame : ∀ {s t : State}, RecordsStay s t → P s → P t)
include hsame

theorem transfer_keepsRecords {p : Port} {n : Nat} {act : Action} {s : State} (h : P (act s).2) : P (transfer p n act s) :=
  hsame (transfer_recordsStay p n act s) h

theorem whenDue_keepsRecords {b : Bool} {f : State → State} {s : State} (h : b = true → P (f s)) (hs : P s) :
    P (whenDue b f s) := by
  unfold whenDue
  split
  · exact hsame (RecordsStay.refl _).refresh (h ‹_›)
  · exact hs

/-- Of the records a PORT_SYNC writes the Staging Record and the learn record alone (R171). -/
theorem syncPort_keepsRecords {p : Port} (hstaging : ∀ {t : State}, P t → P (syncStaging p t))
    (hlearn : ∀ {t : State}, P t → P (syncLearn p t)) {s : State} (hs : P s) : P (syncPort p s) := by
  have hqueue : P (keepRequests (fun q => q.port != p) (forChannels (fun c t => withdraw c (portSource p) t) s)) :=
    hsame ((RecordsStay.frame (forChannels_frame (fun c t => withdraw_frame c _ t) s) rfl).trans
      (.frame (keepRequests_frame _ _) rfl)) hs
  exact hsame (((RecordsStay.refl _).refresh.trans (.frame (setAttention_frame _ p _) rfl)).trans
    (.frame (clearFaultView_frame _ _) rfl)) (hlearn (hstaging hqueue))

end Records

/-! ## What an invariant of the records owes -/

/-- The rows that write the records by an operation of their own, not as part of a load update or of a pressure sample. -/
def isOwnRow : Instr → Bool
  | .startingTimerExpiry | .pressureSample _ | .loadUpdate => false
  | i => isRecordRow i

/-- What makes a predicate on the records an invariant: the operations that write them keep it. -/
structure RecordKept (P : State → Prop) : Prop where
  same {s t : State} : RecordsStay s t → P s → P t
  loadUpdate {s : State} : P s → P (loadUpdate s)
  formRaised {s : State} : P s → P (formRaised s)
  tryApply {s : State} : P s → P (tryApply s)
  tick {s : State} : P s → P (tick s)
  ownRow {i : Instr} {s : State} : isOwnRow i = true → P s → ∃ t, exec i s = .next t ∧ P t

section Kept
variable {P : State → Prop} (hP : RecordKept P)
include hP

theorem RecordKept.enterRunning {s : State} (hs : P s) : P (enterRunning s) := by
  have hstart : RecordsStay s (startedUp s) :=
    ((RecordsStay.frame (setStandby_frame s _) rfl).trans (.frame (forChannels_frame startupCheck_frame _) rfl)).trans
      (.frame (setSupply_frame _ _) rfl)
  rw [enterRunning_eq]
  exact hP.loadUpdate (hP.same hstart hs)

/-- At a sample the records are written by the raised state (R67) and by the apply of an armed set (R163) alone. -/
theorem RecordKept.pressureSample (x : SampleSet) {s : State} (hs : P s) : P (pressureSample x s) := by
  have hread : RecordsStay s (sampleReadings x (headAlone s)) :=
    (RecordsStay.frame (headAlone_frame s) rfl).trans (.frame (sampleReadings_frame x _) rfl)
  have hraised : P (sampleRaised (sampleReadings x (headAlone s))) := by
    unfold sampleRaised
    split
    · exact hP.same hread hs
    · exact hP.formRaised (hP.same hread hs)
  have hresolved : P (sampleResolved x s) := by
    unfold sampleResolved
    rw [sampleSensors_eq]
    exact hP.same ((RecordsStay.frame (forChannels_frame (checkDelivery_frame _) _) rfl).trans
      (.frame (sampleDemand_frame _) rfl)) hraised
  have hcontrolled := hP.same (RecordsStay.frame (sampleControlled_frame
    ((runningTest s).map RunningTest.channel) s.tests.queue.tail (sampleResolved x s)) (by decide +kernel)) hresolved
  rw [pressureSample_eq]
  exact hP.same ((RecordsStay.frame (sampleLoadClock_frame _) rfl).refresh) (hP.tryApply hcontrolled)

theorem RecordKept.passMillisecond {s : State} (hs : P s) : P (passMillisecond s) := by
  have hinertial (t : State) : RecordsStay t (loseInertial t) :=
    .frame (l := [.inertial]) (setRoll_frame (.inl (by simp)) (.inr rfl) (.inr rfl) (.inr rfl)) rfl
  have hlink (t : State) : RecordsStay t (loseLink t) := .frame (loseLink_frame t) rfl
  exact hP.same ((hinertial _).whenDue.trans (hlink _).whenDue) (hP.tick hs)

theorem RecordKept.exec (i : Instr) {s : State} (hs : P s) : ∃ t, exec i s = .next t ∧ P t := by
  by_cases hr : isRecordRow i = true
  · by_cases hown : isOwnRow i = true
    · exact hP.ownRow hown hs
    · cases i with
      | startingTimerExpiry => exact ⟨_, rfl, whenDue_keepsRecords hP.same (fun _ => hP.enterRunning hs) hs⟩
      | pressureSample x => exact ⟨_, rfl, hP.pressureSample x hs⟩
      | loadUpdate => exact ⟨_, rfl, whenDue_keepsRecords hP.same (fun _ => hP.loadUpdate hs) hs⟩
      | _ => simp_all [isOwnRow, isRecordRow]
  · obtain ⟨t, h, hstay⟩ := exec_recordsStay (by simpa using hr) s
    exact ⟨t, h, hP.same hstay hs⟩

/-- Every step keeps an invariant of the records. -/
theorem RecordKept.step {s t : State} (hstep : step s = .next t) (hs : P s) : P t := by
  have hexec {u v : State} (i : Instr) (hu : P u) (h : Machine.exec i u = .next v) : P v := by
    obtain ⟨w, hw, hPw⟩ := hP.exec i hu
    rw [hw] at h
    cases h
    exact hPw
  unfold Machine.step at hstep
  split at hstep
  · unfold idle at hstep
    split at hstep
    · exact hexec _ hs hstep
    · cases hstep
      exact hP.passMillisecond hs
  · exact hexec _ (hP.same (setPending_recordsStay s _) hs) hstep

end Kept

end Sys2Proof
end

