-- ==== Sys2Proof/Proofs/LoadsHandedOn.lean ====
section
/-! What the Load Estimator hands on (R71 to R74, R88): the group load, laden fraction, gain and targets that stand afterwards, and what
the re-evaluation of the tyres leaves alone. The load update (R59 to R66; O18). -/

namespace Sys2Proof

open Sys2Proof.Machine

/-! ## What the handing on leaves alone -/

/-- The parts of the loads and of the calibration that no writing of a position record touches. -/
def isLoadPart : Part → Bool
  | .front | .supply | .axles | .raised | .group | .targets | .calActive | .staging | .strangers | .learn => true
  | _ => false

theorem positionParts_spareLoads (s : State) : (positionParts s).all (fun q => !isLoadPart q) = true := by
  unfold positionParts wakeParts
  split <;> rfl

theorem reevaluate_spares (n : Nat) (s : State) : SameOn isLoadPart s (reevaluate n s) :=
  .of_frame (reevaluate_frame n s) (positionParts_spareLoads s)

/-- The positions re-evaluated one after the other (R91). -/
def reevaluateAll (s : State) : State := allPositions.foldl (fun t n => reevaluate n t) s

/-- The targets formed anew (R88). -/
def withTargets (s : State) : State :=
  s.setTyre { s.tyre with target := ⟨targetOf s .ax1, targetOf s .ax2, targetOf s .ax3⟩ }

theorem reevaluateAll_spares (s : State) : SameOn isLoadPart s (reevaluateAll s) := by
  unfold reevaluateAll
  generalize allPositions = ns
  induction ns generalizing s with
  | nil => exact .refl _ s
  | cons n ns ih => exact (reevaluate_spares n s).trans (ih (reevaluate n s))

/-- The group load formed and put into the Load Table. -/
def withGroup (s : State) : State := s.setLoad (formGroup s.cal.active s.load)

theorem handOnLoads_eq (s : State) : handOnLoads s = reevaluateAll (withTargets (withGroup s)) := rfl

/-- The parts of the loads and of the calibration that the handing on leaves alone. -/
def isLoadSource : Part → Bool
  | .front | .supply | .axles | .raised | .calActive | .staging | .strangers | .learn => true
  | _ => false

theorem handOnLoads_spares (s : State) : SameOn isLoadSource s (handOnLoads s) := by
  refine .of_frame (handOnLoads_frame s) ?_
  unfold loadParts positionParts wakeParts
  split <;> rfl

theorem handOnRaised_spares (s : State) : SameOn isLoadPart s (handOnRaised s) := .of_frame (handOnRaised_frame s) rfl

/-! ## What stands afterwards -/

theorem LoadsFormed.stay {s t : State} (h : SameOn isLoadPart s t) (hs : LoadsFormed s) : LoadsFormed t := by
  obtain ⟨haxle, -, -⟩ := h .axles rfl
  obtain ⟨hgroup, hlambda, hgain⟩ := h .group rfl
  obtain ⟨hcal, -, -⟩ := h .calActive rfl
  unfold LoadsFormed
  rw [haxle, hgroup, hlambda, hgain, hcal]
  exact hs

theorem TargetsFormed.stay {s t : State} (h : SameOn isLoadPart s t) (hs : TargetsFormed s) : TargetsFormed t := by
  have htarget : t.tyre.target = s.tyre.target := h .targets rfl
  obtain ⟨-, hlambda, -⟩ := h .group rfl
  obtain ⟨hcal, -, -⟩ := h .calActive rfl
  unfold TargetsFormed
  rw [htarget, hlambda, hcal]
  exact hs

theorem handOnLoads_loads (s : State) : LoadsFormed (handOnLoads s) := by
  rw [handOnLoads_eq]
  refine LoadsFormed.stay (reevaluateAll_spares _) ?_
  exact ⟨rfl, rfl, rfl⟩

theorem withTargets_formed (s : State) : TargetsFormed (withTargets s) := by
  intro x
  cases x <;> rfl

theorem handOnLoads_targets (s : State) : TargetsFormed (handOnLoads s) := by
  rw [handOnLoads_eq]
  exact TargetsFormed.stay (reevaluateAll_spares _) (withTargets_formed _)

/-- The laden fraction stays within 1024, and the gain between the empty gain and 1024 (R72, R73, R155). -/
theorem LoadsFormed.bounds {s : State} (h : LoadsFormed s) (hcal : sealFailure s.cal.active = none) :
    s.load.lambda ≤ 1024 ∧ calGEmpty s.cal.active ≤ s.load.gain ∧ s.load.gain ≤ 1024 := by
  obtain ⟨-, hlambda, hgain⟩ := h
  have hword := sealWordOk_of_valid hcal (i := 32) (by omega)
  have hempty : calGEmpty s.cal.active ≤ 1024 := by
    simp [sealWordOk] at hword
    exact hword.2
  have hle : s.load.lambda ≤ 1024 := by omega
  have hpart : (1024 - calGEmpty s.cal.active) * s.load.lambda / 1024 ≤ 1024 - calGEmpty s.cal.active := by
    rw [Nat.div_le_iff_le_mul_add_pred (by omega)]
    nlinarith
  omega

/-! ## The load update (R59 to R66) -/

/-- The axles after a load update, before the loads are handed on. -/
def updatedLoads (s : State) : State :=
  s.setLoad { s.load with axle := updatedAxles s, frozen := filterFrozen s, sinceUpdate := 0 }

theorem loadUpdate_eq (s : State) : loadUpdate s =
    if (handOnLoads (updatedLoads s)).supply.emergency then forChannels postEmerg (handOnLoads (updatedLoads s))
    else handOnLoads (updatedLoads s) := by
  unfold loadUpdate updatedLoads
  dsimp only

/-- The EMERG levels of a load update touch no load (R16). -/
theorem loadUpdate_spares (s : State) : SameOn isLoadPart (handOnLoads (updatedLoads s)) (loadUpdate s) := by
  rw [loadUpdate_eq]
  split
  · exact .of_frame (forChannels_frame postEmerg_frame _) rfl
  · exact .refl _ _

theorem loadUpdate_loads (s : State) : LoadsFormed (loadUpdate s) :=
  (handOnLoads_loads _).stay (loadUpdate_spares s)

theorem loadUpdate_targets (s : State) : TargetsFormed (loadUpdate s) :=
  (handOnLoads_targets _).stay (loadUpdate_spares s)

theorem updatedLoads_spares {s : State} {q : Part} (hq : q ≠ .axles) : samePart s (updatedLoads s) q := by
  cases q <;> simp_all [samePart, updatedLoads]

theorem loadUpdate_sources {s : State} {q : Part} (hq : isLoadSource q = true) (hn : q ≠ .axles) :
    samePart s (loadUpdate s) q := by
  have hmid := (updatedLoads_spares hn).trans (handOnLoads_spares (updatedLoads s) q hq)
  exact hmid.trans (loadUpdate_spares s q (by cases q <;> simp_all [isLoadSource, isLoadPart]))

theorem loadUpdate_axles (s : State) : (loadUpdate s).load.axle = updatedAxles s ∧
    (loadUpdate s).load.frozen = filterFrozen s ∧ (loadUpdate s).load.sinceUpdate = 0 := by
  have h := (handOnLoads_spares (updatedLoads s) .axles rfl).trans (loadUpdate_spares s .axles rfl)
  exact h

theorem updatedAxles_get (s : State) (x : Axle) :
    (updatedAxles s).get x = updateAxle s (filterFrozen s) x (s.load.axle.get x) := by
  cases x <;> rfl

/-- The measured fields of an updated axle (R60 to R62). -/
theorem updateAxle_measured (s : State) (b : Bool) (x : Axle) (r : AxleRec) :
    (updateAxle s b x r).mean = bagMean s x ∧ (updateAxle s b x r).bagValid = (bagMean s x).isSome ∧
    (updateAxle s b x r).instant = instantLoad s.cal.active x (bagMean s x) ∧
    (updateAxle s b x r).overRange = overRangeOf s.cal.active x (bagMean s x) := by
  unfold updateAxle effectiveAfter
  dsimp only
  split_ifs <;> exact ⟨rfl, rfl, rfl, rfl⟩

/-- A jump of an axle is pending after a load update (R63): the bag state has just become invalid, or a jump was pending. -/
theorem jumpAfter_eq (raised was now old : Bool) :
    jumpAfter raised was now old = if now || raised then false else was || old := by
  unfold jumpAfter
  cases was <;> rfl

/-- The effective load of an updated axle, and the jump that stays pending (R63 to R66). -/
theorem updateAxle_effective (s : State) (b : Bool) (x : Axle) (r : AxleRec) :
    let inst := instantLoad s.cal.active x (bagMean s x)
    let jump := jumpAfter (axleRaised s x) r.bagValid (bagMean s x).isSome r.jumpPending
    (updateAxle s b x r).jumpPending = (jump && b) ∧
    (updateAxle s b x r).effective =
      if axleRaised s x then 0 else if b then r.effective else if jump then inst else filterStep inst r.effective := by
  intro inst jump
  have hraised (h : axleRaised s x = true) : jump = false := by
    simp only [jump, jumpAfter_eq, h, Bool.or_true, if_true]
  unfold updateAxle
  dsimp only
  split
  · next h => exact ⟨by simp [← hraised h, jump, measureAxle], rfl⟩
  · unfold effectiveAfter
    split
    · next hb => exact ⟨by simp [hb, jump, measureAxle], rfl⟩
    · next hb =>
      have hfree : b = false := by simpa using hb
      cases hj : jump <;> simp_all [jump, measureAxle, inst]

/-- In an emergency a load update forms the EMERG level of every channel from the new gain (R16). -/
theorem loadUpdate_emerg {s : State} (he : s.supply.emergency = true) (c : Channel) : entryOf (loadUpdate s) c .emerg =
    some ⟨min 1000 (curveOf (calKnee s.cal.active) (loadUpdate s).load.gain 800), none, none⟩ := by
  have hsource := handOnLoads_spares (updatedLoads s)
  have hcal : (handOnLoads (updatedLoads s)).cal.active = s.cal.active := (hsource .calActive rfl).1
  have hsupply : (handOnLoads (updatedLoads s)).supply = s.supply := hsource .supply rfl
  have hgain : (loadUpdate s).load.gain = (handOnLoads (updatedLoads s)).load.gain :=
    (loadUpdate_spares s .group rfl).2.2
  rw [hgain, ← hcal, ← postEmerg_entries, loadUpdate_eq, hsupply, if_pos he]

/-- Settles O18: the axles are updated one by one, the loads handed on from them, and the EMERG levels posted last. -/
theorem loadUpdateFormsTheLoads : Obligations.LoadUpdateFormsTheLoads := by
  unfold Obligations.LoadUpdateFormsTheLoads
  intro s hrun hdue
  have hwhole : whenDue (loadDue s) loadUpdate s = refreshFaults (loadUpdate s) := by
    simp [whenDue, loadDue, hrun, hdue]
  have hrefresh := refreshFaults_frame (loadUpdate s)
  have hloads : SameOn isLoadPart (loadUpdate s) (refreshFaults (loadUpdate s)) := .of_frame hrefresh rfl
  obtain ⟨haxle, hfrozen, hsince⟩ := loadUpdate_axles s
  obtain ⟨taxle, tfrozen, tsince⟩ := hloads .axles rfl
  obtain ⟨tgroup, tlambda, tgain⟩ := hloads .group rfl
  have hcal : (loadUpdate s).cal.active = s.cal.active := (loadUpdate_sources (q := .calActive) rfl (by simp)).1
  have tcal : (refreshFaults (loadUpdate s)).cal.active = s.cal.active := (hloads .calActive rfl).1.trans hcal
  obtain ⟨fgroup, flambda, fgain⟩ := (loadUpdate_loads s).stay hloads
  have ftargets := (loadUpdate_targets s).stay hloads
  rw [tcal] at flambda fgain
  refine ⟨refreshFaults (loadUpdate s), congrArg Host.Outcome.next hwhole, ?_⟩
  refine ⟨tsince.trans hsince, tfrozen.trans hfrozen,
    (loadUpdate_sources (q := .raised) rfl (by simp)).trans (hloads .raised rfl), fun x => ?axles, fgroup, flambda, fgain,
    fun x => ?targets, fun he c => ?emerg, ?frame⟩
  case axles =>
    have hx : (refreshFaults (loadUpdate s)).load.axle.get x = updateAxle s (filterFrozen s) x (s.load.axle.get x) := by
      rw [taxle, haxle, updatedAxles_get]
    obtain ⟨hmean, hvalid, hinstant, hover⟩ := updateAxle_measured s (filterFrozen s) x (s.load.axle.get x)
    obtain ⟨hjump, heffective⟩ := updateAxle_effective s (filterFrozen s) x (s.load.axle.get x)
    simp only [jumpAfter_eq] at hjump heffective
    intro r m inst jump
    rw [hx, tfrozen, hfrozen]
    exact ⟨hmean, hvalid, hinstant, hover, hjump, heffective⟩
  case targets =>
    rw [ftargets x, tcal]
  case emerg =>
    have hentry : entryOf (refreshFaults (loadUpdate s)) c .emerg = entryOf (loadUpdate s) c .emerg :=
      hrefresh (.entry c .emerg) (by simp [noticeParts])
    rw [hentry, tgain]
    exact loadUpdate_emerg he c
  case frame =>
    rw [← hwhole]
    exact (whenDue_frame (loadUpdate_frame s)).mono (by simp)

end Sys2Proof
end

