-- ==== Sys2Proof/Proofs/CalibrationKept.lean ====
section
/-! Every step keeps the calibration in force valid and the load gain within its bounds (R58, R72, R73, R155 to R163; O58). -/

namespace Sys2Proof

open Sys2Proof.Machine

/-! ## The parts of the invariant -/

/-- The Active Calibration passes seal validation, under its own check value (R154, R155). -/
def ActiveSealed (k : CalStore) : Prop :=
  k.active.length = calSize ∧ sealFailure k.active = none ∧ k.check = crc16 (bytesOfWords k.active)

/-- The Staging Record agrees with its state (R156, R159). -/
def StagingFits (g : Staging) : Prop :=
  (g.claimant = none ↔ g.state = .free) ∧ (g.state = .free → g.content = []) ∧
  (g.state ≠ .free → g.content.length = calSize) ∧
  (g.state = .sealed ∨ g.state = .armed →
    sealFailure g.content = none ∧ g.sealedCheck = some (crc16 (bytesOfWords g.content)))

/-- The laden fraction and the load gain within their bounds (R72, R73). -/
def GainBounded (s : State) : Prop :=
  s.load.lambda ≤ 1024 ∧ calGEmpty s.cal.active ≤ s.load.gain ∧ s.load.gain ≤ 1024

theorem calInv_iff (s : State) : CalInv s ↔ ActiveSealed s.cal ∧ GainBounded s ∧ StagingFits s.cal.staging := by
  unfold CalInv ActiveSealed GainBounded StagingFits
  simp only [and_assoc]

/-- The parts that the invariant of the calibration speaks of. -/
def isCal : Part → Bool
  | .calActive | .staging | .group => true
  | _ => false

theorem CalInv.stay {s t : State} (h : SameOn isCal s t) (hs : CalInv s) : CalInv t := by
  obtain ⟨hactive, -, hcheck⟩ := h .calActive rfl
  obtain ⟨-, hlambda, hgain⟩ := h .group rfl
  have hstaging : t.cal.staging = s.cal.staging := h .staging rfl
  unfold CalInv
  rw [hactive, hcheck, hlambda, hgain, hstaging]
  exact hs

theorem CalInv.frame {l : List Part} {s t : State} (hs : CalInv s) (h : OnlyChanges l s t)
    (hl : l.all (fun q => !isCal q) = true) : CalInv t := hs.stay (.of_frame h hl)

theorem CalInv.records {s t : State} (h : RecordsStay s t) (hs : CalInv s) : CalInv t :=
  hs.stay (h.mono (fun q hq => by cases q <;> simp_all [isCal, isRecord]))

theorem positionParts_spareCal (s : State) : (positionParts s).all (fun q => !isCal q) = true := by
  unfold positionParts wakeParts
  split <;> rfl

/-! ## The loads formed under a sealed calibration -/

theorem CalInv.handOnLoads {s : State} (hactive : ActiveSealed s.cal) (hstaging : StagingFits s.cal.staging) :
    CalInv (handOnLoads s) := by
  have hsource := handOnLoads_spares s
  obtain ⟨hcal, -, hcheck⟩ := hsource .calActive rfl
  have hg : (Machine.handOnLoads s).cal.staging = s.cal.staging := hsource .staging rfl
  have hsealed : ActiveSealed (Machine.handOnLoads s).cal := by
    unfold ActiveSealed
    rw [hcal, hcheck]
    exact hactive
  exact (calInv_iff _).mpr ⟨hsealed, (handOnLoads_loads s).bounds hsealed.2.1, by rwa [hg]⟩

theorem CalInv.handOnRaised {s : State} (hs : CalInv s) : CalInv (Machine.handOnRaised s) :=
  hs.frame (handOnRaised_frame s) rfl

theorem CalInv.formRaised {s : State} (hs : CalInv s) : CalInv (Machine.formRaised s) := by
  obtain ⟨hactive, -, hstaging⟩ := (calInv_iff s).mp hs
  rcases formRaised_cases s with h | ⟨l, h⟩ <;> rw [h]
  · exact hs
  · exact (CalInv.handOnLoads (s := s.setLoad l) hactive hstaging).handOnRaised

theorem CalInv.loadUpdate {s : State} (hs : CalInv s) : CalInv (Machine.loadUpdate s) := by
  obtain ⟨hactive, -, hstaging⟩ := (calInv_iff s).mp hs
  refine CalInv.stay ((loadUpdate_spares s).mono (fun q hq => by cases q <;> simp_all [isCal, isLoadPart])) ?_
  exact CalInv.handOnLoads (s := updatedLoads s) hactive hstaging

/-! ## The Staging Record -/

theorem StagingFits.free (o : CalOutcome) (g : Staging) : StagingFits (freeStaging o g) := by
  simp [StagingFits, freeStaging]

theorem CalInv.setStaging {s : State} {g : Staging} (hs : CalInv s) (hg : StagingFits g) : CalInv (Machine.setStaging g s) := by
  obtain ⟨hactive, hgain, -⟩ := (calInv_iff s).mp hs
  exact (calInv_iff _).mpr ⟨hactive, hgain, hg⟩

theorem CalInv.returnFree {s : State} (hs : CalInv s) (o : CalOutcome) : CalInv (Machine.returnFree o s) :=
  ((hs.setStaging (.free o s.cal.staging)).frame (raiseCalOutcome_frame _ .a) rfl).frame (raiseCalOutcome_frame _ .b) rfl

theorem CalInv.timeoutStaging {s : State} (hs : CalInv s) : CalInv (Machine.timeoutStaging s) :=
  (hs.frame (latchEvent_frame calTimeoutIndex s) rfl).returnFree .timeout

theorem CalInv.mismatchStaging {s : State} (hs : CalInv s) : CalInv (Machine.mismatchStaging s) :=
  (hs.frame (latchEvent_frame calMismatchIndex s) rfl).returnFree .mismatch

/-- A record written anew outside SEALED and ARMED needs a content of full size alone. -/
theorem StagingFits.opened {g : Staging} (hstate : g.state = .opened) (hclaim : g.claimant ≠ none)
    (hsize : g.content.length = calSize) : StagingFits g := by
  simp [StagingFits, hstate, hclaim, hsize]

theorem CalInv.openStaging {s : State} (hs : CalInv s) (p : Port) : CalInv (Machine.openStaging p s) := by
  obtain ⟨⟨hsize, -⟩, -⟩ := (calInv_iff s).mp hs
  exact hs.setStaging (.opened rfl (by simp) hsize)

/-- The fields of the record that no condition speaks of may change. -/
theorem StagingFits.of_same {g k : Staging} (hg : StagingFits g) (hstate : k.state = g.state) (hclaim : k.claimant = g.claimant)
    (hcontent : k.content = g.content) (hcheck : k.sealedCheck = g.sealedCheck) : StagingFits k := by
  unfold StagingFits
  rw [hstate, hclaim, hcontent, hcheck]
  exact hg

theorem CalInv.staging {s : State} (hs : CalInv s) : StagingFits s.cal.staging := ((calInv_iff s).mp hs).2.2

theorem CalInv.touchIdle {s : State} (hs : CalInv s) (p : Port) : CalInv (Machine.touchIdle p s) := by
  unfold Machine.touchIdle
  split
  · exact hs.setStaging (hs.staging.of_same rfl rfl rfl rfl)
  · exact hs

theorem CalInv.setPointer {s : State} (hs : CalInv s) (n : Nat) : CalInv (Machine.setPointer n s) :=
  hs.setStaging (hs.staging.of_same rfl rfl rfl rfl)

/-- Writing words keeps the number of words (R158). -/
theorem writeWords_length (content : List Nat) (pointer : Nat) (ws : List Nat) :
    (writeWords content pointer ws).1.length = content.length := by
  induction ws generalizing content pointer with
  | nil => rfl
  | cons w ws ih =>
    unfold writeWords
    split
    · rw [ih, List.length_set]
    · exact ih content pointer

/-- The passing of a state check that refuses outside a staging state. -/
theorem staging_of_check {k : StagingState} {s : State} (h : (!stagingIs k s) = false) : s.cal.staging.state = k := by
  simpa [stagingIs] using h

theorem CalInv.writeAction {s : State} (hs : CalInv s) (hopen : s.cal.staging.state = .opened) (ws : List Nat) :
    CalInv (Machine.writeAction ws s).2 := by
  obtain ⟨hclaim, -, hsize, -⟩ := hs.staging
  refine hs.setStaging (.opened hopen ?_ ?_)
  · simp [hclaim, hopen]
  · exact (writeWords_length _ _ _).trans (hsize (by simp [hopen]))

theorem CalInv.sealAction {s : State} (hs : CalInv s) (hopen : s.cal.staging.state = .opened) :
    CalInv (Machine.sealAction s).2 := by
  obtain ⟨hclaim, -, hsize, -⟩ := hs.staging
  unfold Machine.sealAction
  split
  · exact hs
  · next hvalid =>
    refine hs.setStaging ?_
    simp [StagingFits, hclaim, hopen, hsize, hvalid]

/-! ## The apply (R163) -/

theorem takenSet_cal (s : State) : (takenSet s).cal = { s.cal with
    active := s.cal.staging.content, generation := nextGeneration s.cal.generation,
    check := s.cal.staging.sealedCheck.getD s.cal.check, staging := freeStaging .applied s.cal.staging } := rfl

theorem CalInv.reloadLoads {s : State} (hactive : ActiveSealed s.cal) (hstaging : StagingFits s.cal.staging) :
    CalInv (Machine.reloadLoads s) := by
  have hloads : CalInv (Machine.handOnLoads (measuredLoads s)) :=
    CalInv.handOnLoads (s := measuredLoads s) hactive hstaging
  rcases reloadLoads_cases s with ⟨-, h⟩ | h <;> rw [h]
  · exact hloads
  · exact hloads.handOnRaised

/-- An armed content passes seal validation, so the words in force after the apply do. -/
theorem CalInv.tryApply {s : State} (hs : CalInv s) : CalInv (Machine.tryApply s) := by
  rcases tryApply_cases s with h | ⟨harmed, -, h⟩ <;> rw [h]
  · exact hs
  · obtain ⟨-, -, hsize, hseal⟩ := hs.staging
    obtain ⟨hvalid, hcheck⟩ := hseal (.inr harmed)
    have htaken : ActiveSealed (takenSet s).cal := by
      rw [takenSet_cal]
      exact ⟨hsize (by simp [harmed]), hvalid, by simp [hcheck]⟩
    have hreload : CalInv (Machine.reloadLoads (takenSet s)) :=
      CalInv.reloadLoads htaken (by rw [takenSet_cal]; exact .free _ _)
    rw [applyCal_eq]
    unfold restartWakeTimer
    split
    · exact (hreload.frame (testReady_frame _) rfl).frame (setStandby_frame _ _) rfl
    · exact hreload.frame (testReady_frame _) rfl

theorem CalInv.confirmAction {s : State} (hs : CalInv s) (hsealed : s.cal.staging.state = .sealed) (check : Nat) :
    CalInv (Machine.confirmAction check s).2 := by
  obtain ⟨hclaim, -, hsize, hseal⟩ := hs.staging
  obtain ⟨hvalid, hsum⟩ := hseal (.inl hsealed)
  unfold Machine.confirmAction
  split
  · refine CalInv.tryApply (hs.setStaging ?_)
    simp [StagingFits, hclaim, hsealed, hsize, hvalid, hsum]
  · exact hs.mismatchStaging

/-! ## The millisecond, the resets and PORT_SYNC -/

theorem CalInv.tick {s : State} (hs : CalInv s) : CalInv (Machine.tick s) := by
  obtain ⟨hactive, hgain, hstaging⟩ := (calInv_iff s).mp hs
  exact (calInv_iff _).mpr ⟨hactive, hgain, hstaging.of_same rfl rfl rfl rfl⟩

theorem reset_calInv : CalInv State.reset := by
  refine (calInv_iff _).mpr ⟨⟨rfl, ?_, ?_⟩, ?_, ?_⟩
  · exact Tests.test_seal_validation.1
  · simp only [State.reset, CalStore.reset]
  · unfold GainBounded
    decide
  · simp [StagingFits, State.reset, CalStore.reset, Staging.reset]

theorem resetState_calInv (k : ResetCause) (s : State) : CalInv (resetState k s) :=
  reset_calInv.frame (resetState_frame k s) rfl

theorem CalInv.syncStaging {s : State} (hs : CalInv s) (p : Port) : CalInv (Machine.syncStaging p s) := by
  unfold Machine.syncStaging
  dsimp only
  split
  · exact (hs.setStaging (.free .discarded s.cal.staging)).frame (raiseCalOutcome_frame _ _) rfl
  · exact hs

theorem CalInv.syncLearn {s : State} (hs : CalInv s) (p : Port) : CalInv (Machine.syncLearn p s) := by
  unfold Machine.syncLearn
  split
  · exact hs
  · split
    · exact hs.frame (endLearn_frame _ _ s) rfl
    · exact hs

theorem CalInv.syncPort {s : State} (hs : CalInv s) (p : Port) : CalInv (Machine.syncPort p s) :=
  syncPort_keepsRecords CalInv.records (fun ht => ht.syncStaging p) (fun ht => ht.syncLearn p) hs

/-! ## The rows that write the records -/

theorem CalInv.transfer {p : Port} {n : Nat} {act : Action} {s : State} (h : CalInv (act s).2) :
    CalInv (Machine.transfer p n act s) := transfer_keepsRecords CalInv.records h

theorem CalInv.whenDue {b : Bool} {f : State → State} {s : State} (h : CalInv (f s)) (hs : CalInv s) :
    CalInv (Machine.whenDue b f s) := whenDue_keepsRecords CalInv.records (fun _ => h) hs

theorem CalInv.touching {p : Port} {act : Action} {s : State} (hs : CalInv s) (h : ∀ t, CalInv t → CalInv (act t).2) :
    CalInv (Machine.touching p act s).2 := h _ (hs.touchIdle p)

/-- What the writing of positions, of the Stranger List and of the learn record changes holds no calibration. -/
theorem tyreParts_spareCal (s : State) : (Part.learn :: .strangers :: positionParts s).all (fun q => !isCal q) = true := by
  rw [List.all_cons, List.all_cons, positionParts_spareCal]
  rfl

theorem adoptAction_calInv {s : State} (hs : CalInv s) (n index : Nat) : CalInv (adoptAction n index s).2 := by
  unfold adoptAction
  split
  · exact hs
  · exact hs.frame (adoptStranger_frame _ _ s) (tyreParts_spareCal s)

theorem ownRow_calInv {i : Instr} {s : State} (hi : isOwnRow i = true) (hs : CalInv s) :
    ∃ t, exec i s = .next t ∧ CalInv t := by
  cases i with
  | powerOnReset => exact ⟨_, rfl, resetState_calInv _ s⟩
  | pinReset => exact ⟨_, rfl, resetState_calInv _ s⟩
  | tyreTelegram bs =>
    exact ⟨_, rfl, (hs.frame (takeTelegram_frame bs s) (tyreParts_spareCal s)).frame (refreshFaults_frame _) rfl⟩
  | learnTimeout =>
    exact ⟨_, rfl, CalInv.whenDue ((hs.frame (endLearn_frame _ _ s) rfl).frame (raiseLearnOutcome_frame _) rfl) hs⟩
  | tyreStale n => exact ⟨_, rfl, CalInv.whenDue (hs.frame (setStale_frame n s) rfl) hs⟩
  | calIdleTimeout => exact ⟨_, rfl, CalInv.whenDue hs.timeoutStaging hs⟩
  | calSealTimeout => exact ⟨_, rfl, CalInv.whenDue hs.timeoutStaging hs⟩
  | tyreLearn p n =>
    exact ⟨_, rfl, CalInv.transfer (takenFrom_state hs (withArgument_state hs fun _ => unlessState_state hs fun _ =>
      hs.frame (beginLearn_frame n s) rfl))⟩
  | tyreAssign p n id =>
    exact ⟨_, rfl, CalInv.transfer (takenFrom_state hs (withArgument_state hs fun _ => unlessState_state hs fun _ =>
      hs.frame (assignSensor_frame n id s) (tyreParts_spareCal s)))⟩
  | tyreAdopt p n index =>
    exact ⟨_, rfl, CalInv.transfer (takenFrom_state hs (withArgument_state hs fun _ => adoptAction_calInv hs n index))⟩
  | tyreClear p n =>
    exact ⟨_, rfl, CalInv.transfer (takenFrom_state hs (withArgument_state hs fun _ =>
      hs.frame (clearPosition_frame n s) (positionParts_spareCal s)))⟩
  | calBegin p => exact ⟨_, rfl, CalInv.transfer (unlessState_state hs fun _ => hs.openStaging p)⟩
  | calPointer p index =>
    exact ⟨_, rfl, CalInv.transfer (hs.touching fun t ht => unlessState_state ht fun _ => withArgument_state ht fun _ =>
      unlessState_state ht fun _ => ht.setPointer index)⟩
  | calWrite p count words =>
    exact ⟨_, rfl, CalInv.transfer (hs.touching fun t ht => unlessState_state ht fun _ => withArgument_state ht fun _ =>
      unlessState_state ht fun hopen => ht.writeAction (staging_of_check hopen) _)⟩
  | calRead p index count =>
    exact ⟨_, rfl, CalInv.transfer (hs.touching fun t ht => withArgument_state ht fun _ => unlessState_state ht fun _ => ht)⟩
  | calSeal p =>
    exact ⟨_, rfl, CalInv.transfer (hs.touching fun t ht => unlessState_state ht fun _ =>
      unlessState_state ht fun hopen => ht.sealAction (staging_of_check hopen))⟩
  | calConfirm p check =>
    exact ⟨_, rfl, CalInv.transfer (unlessState_state hs fun _ => unlessState_state hs fun hsealed =>
      hs.confirmAction (staging_of_check hsealed) check)⟩
  | calAbandon p =>
    exact ⟨_, rfl, CalInv.transfer (unlessState_state hs fun _ => unlessState_state hs fun _ => hs.returnFree .abandoned)⟩
  | portSync p => exact ⟨_, rfl, CalInv.transfer (hs.syncPort p)⟩
  | _ => simp [isOwnRow, isRecordRow] at hi

theorem calInv_kept : RecordKept CalInv where
  same h hs := hs.records h
  loadUpdate hs := hs.loadUpdate
  formRaised hs := hs.formRaised
  tryApply hs := hs.tryApply
  tick hs := hs.tick
  ownRow hi hs := ownRow_calInv hi hs

/-- Settles O58: what each operation that writes the calibration, the staging or the group load does, over the walk of the rows. -/
theorem stepsKeepTheCalibrationSealed : Obligations.StepsKeepTheCalibrationSealed := by
  unfold Obligations.StepsKeepTheCalibrationSealed
  intro s t hstep hs
  exact calInv_kept.step hstep hs

end Sys2Proof
end

