-- ==== Sys2Proof/Proofs/SensorTable.lean ====
section
/-! The Sensor Table and what follows from its conditions (R77, R86, R90, R93, R99, R103, R104): what the writing of a position record does
to each clause of `TyreInv`. -/

namespace Sys2Proof

open Sys2Proof.Machine

/-! ## Positions -/

theorem mem_allPositions {n : Nat} : n ∈ allPositions ↔ 1 ≤ n ∧ n ≤ 12 := by
  simp only [allPositions, List.mem_cons, List.not_mem_nil, or_false]
  omega

theorem mem_of_positionOk {n : Nat} (h : positionOk n = true) : n ∈ allPositions := by
  rw [mem_allPositions]
  simpa [positionOk] using h

/-- What a position holds after a record is written into another, or into it. -/
theorem positionOf_putPosition {s : State} {m n : Nat} (r : PositionRec) (hlen : s.tyre.positions.length = 12)
    (hm : m ∈ allPositions) (hn : n ∈ allPositions) :
    positionOf (putPosition n r s) m = if m = n then r else positionOf s m := by
  rw [mem_allPositions] at hm hn
  have hpos : (putPosition n r s).tyre.positions = s.tyre.positions.set (n - 1) r := rfl
  simp only [positionOf, hpos, List.getD_eq_getElem?_getD, List.getElem?_set]
  by_cases h : m = n
  · have : n - 1 < 12 := by omega
    simp [h, hlen, this]
  · have : n - 1 ≠ m - 1 := by omega
    simp [h, this]

/-- Writing the empty record empties the position, whatever the table. -/
theorem positionOf_put_empty (s : State) (m n : Nat) : positionOf (putPosition n PositionRec.empty s) m =
    if m - 1 = n - 1 then PositionRec.empty else positionOf s m := by
  have hpos : (putPosition n PositionRec.empty s).tyre.positions = s.tyre.positions.set (n - 1) PositionRec.empty := rfl
  simp only [positionOf, hpos, List.getD_eq_getElem?_getD, List.getElem?_set]
  by_cases h : m - 1 = n - 1
  · rw [if_pos h.symm, if_pos h]
    split <;> rfl
  · rw [if_neg (Ne.symm h), if_neg h]

theorem positionOf_stay {s t : State} (h : samePart s t .positions) (n : Nat) : positionOf t n = positionOf s n := by
  have hpos : t.tyre.positions = s.tyre.positions := h
  simp only [positionOf, hpos]

theorem positionCondition_stay {s t : State} (h : samePart s t .positions) (n : Nat) :
    positionCondition t n = positionCondition s n := by
  simp only [positionCondition, positionOf_stay h]

/-! ## What the effects of a condition leave alone (R90) -/

/-- The Sensor Table, the Stranger List and the learn record. -/
def isTable : Part → Bool
  | .positions | .strangers | .learn => true
  | _ => false

/-- The effects of a changed condition, the new entry aside: derate, rollover tyre flag, worst condition (R90). -/
def conditionEffects (n : Nat) (s : State) : State := formWorst (formRollFlag (formDerate (positionChannel n) s))

theorem conditionEffects_table (n : Nat) (s : State) : SameOn isTable s (conditionEffects n s) :=
  ((SameOn.of_frame (formDerate_frame _ s) rfl).trans (.of_frame (formRollFlag_frame _) rfl)).trans
    (.of_frame (formWorst_frame _) rfl)

theorem newEntry_records (s : State) : RecordsStay s (newEntry s) := (RecordsStay.refl s).event.wake .tyre

/-- The record is written, and a change of the condition is handed on, with or without a new entry (R90, R104). -/
theorem writePosition_cases (n : Nat) (r : PositionRec) (s : State) :
    (positionCondition s n = recCondition r ∧ writePosition n r s = putPosition n r s) ∨
    RecordsStay (conditionEffects n (putPosition n r s)) (writePosition n r s) := by
  unfold writePosition
  dsimp only
  split
  · exact .inl ⟨‹_›, rfl⟩
  · split
    · exact .inr (newEntry_records _)
    · exact .inr (.refl _)

theorem RecordsStay.table {s t : State} (h : RecordsStay s t) : SameOn isTable s t :=
  h.mono (fun q hq => by cases q <;> simp_all [isTable, isRecord])

/-- Writing a position touches the tables as the bare replacement of the record does. -/
theorem writePosition_table (n : Nat) (r : PositionRec) (s : State) :
    SameOn isTable (putPosition n r s) (writePosition n r s) := by
  rcases writePosition_cases n r s with ⟨-, h⟩ | h
  · rw [h]
    exact .refl _ _
  · exact (conditionEffects_table n _).trans h.table

theorem positionOf_writePosition {s : State} {m n : Nat} (r : PositionRec) (hlen : s.tyre.positions.length = 12)
    (hm : m ∈ allPositions) (hn : n ∈ allPositions) :
    positionOf (writePosition n r s) m = if m = n then r else positionOf s m := by
  rw [positionOf_stay (writePosition_table n r s .positions rfl), positionOf_putPosition r hlen hm hn]

theorem positionOf_unassign (s : State) (m n : Nat) : positionOf (unassign n s) m =
    if m - 1 = n - 1 then PositionRec.empty else positionOf s m := by
  rw [unassign, positionOf_stay (writePosition_table n _ s .positions rfl), positionOf_put_empty]

/-! ## Each sensor ID in one place (R86, R93, R96, R99) -/

/-- R86, R93, R96, R99: the clauses of `TyreInv` on the Sensor Table, the Stranger List and the learn record. -/
structure Placed (s : State) : Prop where
  twelve : s.tyre.positions.length = 12
  once : ∀ m n id, m ∈ allPositions → n ∈ allPositions → (positionOf s m).sensor = some id →
    (positionOf s n).sensor = some id → m = n
  bare : ∀ n, n ∈ allPositions → (positionOf s n).sensor = none → (positionOf s n).data = none
  short : s.tyre.strangers.length ≤ 8
  distinct : (s.tyre.strangers.map Stranger.sensor).Nodup
  apart : ∀ e n, e ∈ s.tyre.strangers → n ∈ allPositions → (positionOf s n).sensor ≠ some e.sensor
  learning : ∀ r, s.tyre.learn = some r → r.position ∈ allPositions

/-- An ID stands in no other position and not in the Stranger List (R99). -/
def NotElsewhere (id n : Nat) (s : State) : Prop :=
  (∀ m, m ∈ allPositions → m ≠ n → (positionOf s m).sensor ≠ some id) ∧ ∀ e, e ∈ s.tyre.strangers → e.sensor ≠ id

section Placed
variable {s t : State}

theorem Placed.stay (h : SameOn isTable s t) (hs : Placed s) : Placed t := by
  have hpos : t.tyre.positions = s.tyre.positions := h .positions rfl
  have hstr : t.tyre.strangers = s.tyre.strangers := h .strangers rfl
  obtain ⟨hlearn, -, -⟩ := h .learn rfl
  have hof (n : Nat) := positionOf_stay (h .positions rfl) n
  constructor
  · rw [hpos]; exact hs.twelve
  · simp only [hof]; exact hs.once
  · simp only [hof]; exact hs.bare
  · rw [hstr]; exact hs.short
  · rw [hstr]; exact hs.distinct
  · simp only [hof, hstr]; exact hs.apart
  · rw [hlearn]; exact hs.learning

/-- The ID a position holds stands nowhere else. -/
theorem Placed.notElsewhere (hs : Placed s) {n id : Nat} (hn : n ∈ allPositions) (h : (positionOf s n).sensor = some id) :
    NotElsewhere id n s := by
  refine ⟨fun m hm hne hid => hne (hs.once m n id hm hn hid h), fun e he hid => ?_⟩
  exact hs.apart e n he hn (by rw [h, hid])

/-- A record that fits a position: data under an ID alone, and an ID that stands nowhere else. -/
def RecordFits (n : Nat) (r : PositionRec) (s : State) : Prop :=
  (r.sensor = none → r.data = none) ∧ ∀ id, r.sensor = some id → NotElsewhere id n s

theorem RecordFits.empty (n : Nat) (s : State) : RecordFits n PositionRec.empty s :=
  ⟨fun _ => rfl, fun id h => by simp [PositionRec.empty] at h⟩

theorem RecordFits.of_id {n id : Nat} {r : PositionRec} (hid : r.sensor = some id) (h : NotElsewhere id n s) :
    RecordFits n r s :=
  ⟨fun hnone => by simp [hid] at hnone, fun j hj => by rw [hid] at hj; cases hj; exact h⟩

/-- A record under the ID the position holds fits it. -/
theorem Placed.fits_same (hs : Placed s) {n id : Nat} {r : PositionRec} (hn : n ∈ allPositions)
    (hid : r.sensor = some id) (h : (positionOf s n).sensor = some id) : RecordFits n r s :=
  .of_id hid (hs.notElsewhere hn h)

theorem Placed.put (hs : Placed s) {n : Nat} {r : PositionRec} (hn : n ∈ allPositions) (hr : RecordFits n r s) :
    Placed (putPosition n r s) := by
  obtain ⟨hbare, helse⟩ := hr
  have hof {m : Nat} (hm : m ∈ allPositions) := positionOf_putPosition (s := s) r hs.twelve hm hn
  constructor
  · exact (List.length_set ..).trans hs.twelve
  · intro m k id hm hk hmid hkid
    rw [hof hm] at hmid
    rw [hof hk] at hkid
    split at hmid <;> split at hkid
    · omega
    · next hmn hkn => exact absurd hkid ((helse id hmid).1 k hk hkn)
    · next hmn hkn => exact absurd hmid ((helse id hkid).1 m hm hmn)
    · exact hs.once m k id hm hk hmid hkid
  · intro m hm hnone
    rw [hof hm] at hnone ⊢
    split at hnone
    · next h => rw [if_pos h]; exact hbare hnone
    · next h => rw [if_neg h]; exact hs.bare m hm hnone
  · exact hs.short
  · exact hs.distinct
  · intro e m he hm hid
    rw [hof hm] at hid
    split at hid
    · exact (helse _ hid).2 e he rfl
    · exact hs.apart e m he hm hid
  · exact hs.learning

theorem Placed.write (hs : Placed s) {n : Nat} {r : PositionRec} (hn : n ∈ allPositions) (hr : RecordFits n r s) :
    Placed (writePosition n r s) := (hs.put hn hr).stay (writePosition_table n r s)

end Placed

/-! ## Derates, the rollover tyre flag and the worst condition (R77, R103, R104) -/

/-- R77: the current derate of a channel is that of its conditions. -/
def DerateShown (c : Channel) (s : State) : Prop :=
  s.load.derate.get c =
    if ∃ n, n ∈ allPositions ∧ positionChannel n = c ∧ isSevere (positionCondition s n) = true then 768 else 1024

/-- R103: the rollover tyre flag is that of the conditions on the lowered axles. -/
def RollShown (s : State) : Prop :=
  s.tyre.rollFlag = true ↔
    ∃ n, n ∈ allPositions ∧ axleRaised s (positionAxle n) = false ∧ isSoft (positionCondition s n) = true

/-- R104: a finding is the worst condition of some positions, and the lowest of them that holds it. -/
def WorstAmong (ns : List Nat) (cond : Nat → Option Condition) (w : Option (Condition × Nat)) : Prop :=
  (∀ n, n ∈ ns → ∀ k, cond n = some k → ∃ j m, w = some (j, m) ∧ conditionCode k ≤ conditionCode j) ∧
  (∀ j m, w = some (j, m) → m ∈ ns ∧ cond m = some j ∧ ∀ n, n ∈ ns → n < m → cond n ≠ some j)

/-- R104: the worst condition is that of the positions. -/
def WorstShown (s : State) : Prop := WorstAmong allPositions (positionCondition s) s.tyre.worst

theorem tyreInv_iff (s : State) :
    TyreInv s ↔ Placed s ∧ (∀ c, DerateShown c s) ∧ RollShown s ∧ WorstShown s := by
  constructor
  · rintro ⟨h1, h2, h3, h4, h5, h6, h7, h8, h9, h10, h11⟩
    exact ⟨⟨h1, h2, h3, h4, h5, h6, h7⟩, h8, h9, h10, h11⟩
  · rintro ⟨⟨h1, h2, h3, h4, h5, h6, h7⟩, h8, h9, h10, h11⟩
    exact ⟨h1, h2, h3, h4, h5, h6, h7, h8, h9, h10, h11⟩

/-- The conditions of the positions are the same in two states. -/
def SameConditions (s t : State) : Prop := ∀ n, n ∈ allPositions → positionCondition t n = positionCondition s n

theorem SameConditions.of_part {s t : State} (h : samePart s t .positions) : SameConditions s t :=
  fun n _ => positionCondition_stay h n

section Shown
variable {s t : State}

theorem DerateShown.keep {c : Channel} (hs : DerateShown c s) (hd : t.load.derate.get c = s.load.derate.get c)
    (hc : ∀ n, n ∈ allPositions → positionChannel n = c → positionCondition t n = positionCondition s n) :
    DerateShown c t := by
  have hiff : (∃ n, n ∈ allPositions ∧ positionChannel n = c ∧ isSevere (positionCondition t n) = true) ↔
      ∃ n, n ∈ allPositions ∧ positionChannel n = c ∧ isSevere (positionCondition s n) = true := by
    refine exists_congr fun n => and_congr_right fun hn => and_congr_right fun hch => ?_
    rw [hc n hn hch]
  unfold DerateShown at hs ⊢
  simp only [hiff]
  exact hd.trans hs

theorem RollShown.keep (hs : RollShown s) (hf : t.tyre.rollFlag = s.tyre.rollFlag) (hr : t.load.raised = s.load.raised)
    (hc : SameConditions s t) : RollShown t := by
  have hax (x : Axle) : axleRaised t x = axleRaised s x := by cases x <;> simp [axleRaised, hr]
  unfold RollShown at hs ⊢
  rw [hf, hs]
  refine exists_congr fun n => and_congr_right fun hn => ?_
  rw [hax, hc n hn]

theorem WorstShown.keep (hs : WorstShown s) (hw : t.tyre.worst = s.tyre.worst) (hc : SameConditions s t) : WorstShown t := by
  obtain ⟨hbound, hlowest⟩ := hs
  refine ⟨fun n hn k hk => ?_, fun j m hjm => ?_⟩
  · rw [hw]
    exact hbound n hn k (by rwa [hc n hn] at hk)
  · rw [hw] at hjm
    obtain ⟨hm, hcond, hbelow⟩ := hlowest j m hjm
    refine ⟨hm, by rw [hc m hm, hcond], fun n hn hlt => ?_⟩
    rw [hc n hn]
    exact hbelow n hn hlt

theorem formDerate_shown (c : Channel) (s : State) : DerateShown c (formDerate c s) := by
  have hpos : samePart s (formDerate c s) .positions := formDerate_frame c s .positions (by simp)
  have hvalue : (formDerate c s).load.derate.get c = derateOf s c := by
    unfold formDerate
    dsimp only
    split <;> simp
  unfold DerateShown
  rw [hvalue]
  simp only [derateOf, positionCondition_stay hpos, List.any_eq_true, Bool.and_eq_true, beq_iff_eq]

theorem formRollFlag_shown (s : State) : RollShown (formRollFlag s) := by
  have hpos : samePart s (formRollFlag s) .positions := formRollFlag_frame s .positions (by simp)
  have hax (x : Axle) : axleRaised (formRollFlag s) x = axleRaised s x := by cases x <;> rfl
  have hflag : (formRollFlag s).tyre.rollFlag =
      allPositions.any (fun n => !axleRaised s (positionAxle n) && isSoft (positionCondition s n)) := rfl
  unfold RollShown
  simp only [hflag, hax, positionCondition_stay hpos, List.any_eq_true, Bool.and_eq_true, Bool.not_eq_true']

section Snoc
variable {ns : List Nat} {cond : Nat → Option Condition} {w : Option (Condition × Nat)} {m : Nat}

/-- A position above those looked at that is no worse than the finding leaves it (R104). -/
theorem WorstAmong.snoc_kept (h : WorstAmong ns cond w) (hm : ∀ n, n ∈ ns → n < m)
    (hk : ∀ k, cond m = some k → ∃ j p, w = some (j, p) ∧ conditionCode k ≤ conditionCode j) :
    WorstAmong (ns ++ [m]) cond w := by
  obtain ⟨hbound, hlowest⟩ := h
  refine ⟨fun n hn k hc => ?_, fun j p hjp => ?_⟩
  · rcases List.mem_append.mp hn with hn | hn
    · exact hbound n hn k hc
    · rw [List.mem_singleton.mp hn] at hc
      exact hk k hc
  · obtain ⟨hp, hcond, hbelow⟩ := hlowest j p hjp
    refine ⟨List.mem_append_left _ hp, hcond, fun n hn hlt => ?_⟩
    rcases List.mem_append.mp hn with hn | hn
    · exact hbelow n hn hlt
    · have := List.mem_singleton.mp hn
      have := hm p hp
      omega

/-- A position worse than all those looked at is the finding (R104). -/
theorem WorstAmong.snoc_new {k : Condition} (hc : cond m = some k)
    (hless : ∀ n, n ∈ ns → ∀ i, cond n = some i → conditionCode i < conditionCode k) :
    WorstAmong (ns ++ [m]) cond (some (k, m)) := by
  refine ⟨fun n hn i hi => ⟨k, m, rfl, ?_⟩, fun j p hjp => ?_⟩
  · rcases List.mem_append.mp hn with hn | hn
    · exact (hless n hn i hi).le
    · rw [List.mem_singleton.mp hn, hc] at hi
      cases hi
      exact Nat.le_refl _
  · cases hjp
    refine ⟨by simp, hc, fun n hn hlt hk => ?_⟩
    rcases List.mem_append.mp hn with hn | hn
    · exact absurd (hless n hn k hk) (Nat.lt_irrefl _)
    · have := List.mem_singleton.mp hn
      omega

/-- One more position, above those looked at, keeps the finding the worst of them (R104). -/
theorem WorstAmong.snoc (h : WorstAmong ns cond w) (hm : ∀ n, n ∈ ns → n < m) :
    WorstAmong (ns ++ [m]) cond (worseOf w ((cond m).map (fun k => (k, m)))) := by
  cases hc : cond m with
  | none =>
    have hw : worseOf w (none : Option (Condition × Nat)) = w := by cases w <;> rfl
    rw [Option.map_none, hw]
    exact h.snoc_kept hm (fun k hk => by simp [hc] at hk)
  | some k =>
    rw [Option.map_some]
    cases w with
    | none =>
      refine WorstAmong.snoc_new hc fun n hn i hi => ?_
      obtain ⟨j, p, hw, -⟩ := h.1 n hn i hi
      simp at hw
    | some found =>
      obtain ⟨j, p⟩ := found
      by_cases hlt : conditionCode j < conditionCode k
      · simp only [worseOf, hlt, if_true]
        refine WorstAmong.snoc_new hc fun n hn i hi => ?_
        obtain ⟨j', p', hw, hle⟩ := h.1 n hn i hi
        cases hw
        omega
      · simp only [worseOf, hlt, if_false]
        refine h.snoc_kept hm fun i hi => ⟨j, p, rfl, ?_⟩
        rw [hc] at hi
        cases hi
        omega

end Snoc

/-- The search for the worst condition, from a finding on the positions before (R104). -/
theorem WorstAmong.foldl (cond : Nat → Option Condition) :
    ∀ (ms ns : List Nat) (w : Option (Condition × Nat)), WorstAmong ns cond w → (ns ++ ms).Pairwise (· < ·) →
      WorstAmong (ns ++ ms) cond (ms.foldl (fun w n => worseOf w ((cond n).map (fun k => (k, n)))) w)
  | [], ns, w, h, _ => by simpa using h
  | m :: ms, ns, w, h, hsorted => by
    have hm : ∀ n, n ∈ ns → n < m := fun n hn =>
      (List.pairwise_append.mp hsorted).2.2 n hn m List.mem_cons_self
    have hnext := WorstAmong.foldl cond ms (ns ++ [m]) _ (h.snoc hm) (by simpa using hsorted)
    simpa using hnext

theorem worstOf_among (s : State) : WorstAmong allPositions (positionCondition s) (worstOf s) := by
  have hnone : WorstAmong [] (positionCondition s) none := ⟨fun n hn => by simp at hn, fun j m h => by simp at h⟩
  exact WorstAmong.foldl (positionCondition s) allPositions [] none hnone (by decide)

theorem formWorst_shown (s : State) : WorstShown (formWorst s) := by
  have hpos : samePart s (formWorst s) .positions := formWorst_frame s .positions (by simp)
  have hvalue : (formWorst s).tyre.worst = worstOf s := rfl
  have hcond : positionCondition (formWorst s) = positionCondition s := funext (positionCondition_stay hpos)
  unfold WorstShown
  rw [hvalue, hcond]
  exact worstOf_among s

end Shown

/-! ## Writing a position record (R90) -/

section Write
variable {s t : State} {n : Nat} {r : PositionRec}

theorem DerateShown.stay {c : Channel} (h : RecordsStay s t) (hs : DerateShown c s) : DerateShown c t :=
  hs.keep (h (.derate c) rfl) (fun n _ _ => positionCondition_stay (h .positions rfl) n)

theorem RollShown.stay (h : RecordsStay s t) (hs : RollShown s) : RollShown t :=
  hs.keep (h .rollFlag rfl) (h .raised rfl) (.of_part (h .positions rfl))

theorem WorstShown.stay (h : RecordsStay s t) (hs : WorstShown s) : WorstShown t :=
  hs.keep (h .worst rfl) (.of_part (h .positions rfl))

/-- A record written into a position leaves the conditions of the others. -/
theorem put_condition (hlen : s.tyre.positions.length = 12) (hn : n ∈ allPositions) {m : Nat} (hm : m ∈ allPositions) :
    positionCondition (putPosition n r s) m = if m = n then recCondition r else positionCondition s m := by
  unfold positionCondition
  rw [positionOf_putPosition r hlen hm hn]
  split <;> rfl

theorem put_sameConditions (hlen : s.tyre.positions.length = 12) (hn : n ∈ allPositions)
    (h : positionCondition s n = recCondition r) : SameConditions s (putPosition n r s) := by
  intro m hm
  rw [put_condition hlen hn hm]
  split
  · next hmn => rw [hmn, h]
  · rfl

/-- After the derate is formed, only the rollover tyre flag and the worst condition change. -/
theorem conditionEffects_afterDerate (n : Nat) (s : State) :
    OnlyChanges [.rollFlag, .worst] (formDerate (positionChannel n) s) (conditionEffects n s) :=
  (formWorst_frame _).step (formRollFlag_frame _) (by simp) (by simp)

theorem conditionEffects_derates (n : Nat) (s : State) (c : Channel) (hs : positionChannel n ≠ c → DerateShown c s) :
    DerateShown c (conditionEffects n s) := by
  have hafter := conditionEffects_afterDerate n s
  have hformed : DerateShown c (formDerate (positionChannel n) s) := by
    by_cases hc : positionChannel n = c
    · rw [hc]
      exact formDerate_shown c s
    · have hframe := formDerate_frame (positionChannel n) s
      exact (hs hc).keep (hframe (.derate c) (by simp [Ne.symm hc]))
        (fun m _ _ => positionCondition_stay (hframe .positions (by simp)) m)
  exact hformed.keep (hafter (.derate c) (by simp)) (fun m _ _ => positionCondition_stay (hafter .positions (by simp)) m)

theorem conditionEffects_roll (n : Nat) (s : State) : RollShown (conditionEffects n s) := by
  have hafter := formWorst_frame (formRollFlag (formDerate (positionChannel n) s))
  exact (formRollFlag_shown _).keep (hafter .rollFlag (by simp)) (hafter .raised (by simp))
    (.of_part (hafter .positions (by simp)))

theorem conditionEffects_worst (n : Nat) (s : State) : WorstShown (conditionEffects n s) := formWorst_shown _

/-- The derates are those of the conditions after the write: the one of the position's channel is formed anew, and no other depends
on the position (R77). -/
theorem write_derates (hlen : s.tyre.positions.length = 12) (hn : n ∈ allPositions) (hs : ∀ c, DerateShown c s)
    (c : Channel) : DerateShown c (writePosition n r s) := by
  rcases writePosition_cases n r s with ⟨hsame, h⟩ | h
  · rw [h]
    exact (hs c).keep rfl (fun m hm _ => put_sameConditions hlen hn hsame m hm)
  · refine DerateShown.stay h (conditionEffects_derates n _ c fun hc => (hs c).keep rfl fun m hm hmc => ?_)
    rw [put_condition hlen hn hm, if_neg (by rintro rfl; exact hc hmc)]

theorem write_roll (hlen : s.tyre.positions.length = 12) (hn : n ∈ allPositions) (hs : RollShown s) :
    RollShown (writePosition n r s) := by
  rcases writePosition_cases n r s with ⟨hsame, h⟩ | h
  · rw [h]
    exact hs.keep rfl rfl (put_sameConditions hlen hn hsame)
  · exact (conditionEffects_roll n _).stay h

theorem write_worst (hlen : s.tyre.positions.length = 12) (hn : n ∈ allPositions) (hs : WorstShown s) :
    WorstShown (writePosition n r s) := by
  rcases writePosition_cases n r s with ⟨hsame, h⟩ | h
  · rw [h]
    exact hs.keep rfl (put_sameConditions hlen hn hsame)
  · exact (conditionEffects_worst n _).stay h

end Write

end Sys2Proof
end

