-- ==== Sys2Proof/Proofs/TyresKept.lean ====
section
/-! Every step keeps each sensor ID in one place, and what follows from the conditions (R77, R86, R93, R96 to R104; O59). -/

namespace Sys2Proof

open Sys2Proof.Machine

/-! ## The invariant without the rollover tyre flag -/

/-- The clauses of `TyreInv` that a change of the raised state leaves standing: all but the rollover tyre flag. -/
structure TyreCore (s : State) : Prop where
  placed : Placed s
  derates : ∀ c, DerateShown c s
  worst : WorstShown s

theorem tyreInv_core (s : State) : TyreInv s ↔ TyreCore s ∧ RollShown s := by
  rw [tyreInv_iff]
  exact ⟨fun ⟨hp, hd, hr, hw⟩ => ⟨⟨hp, hd, hw⟩, hr⟩, fun ⟨⟨hp, hd, hw⟩, hr⟩ => ⟨hp, hd, hr, hw⟩⟩

/-- The parts that the core speaks of. -/
def isTyreCore : Part → Bool
  | .positions | .strangers | .learn | .worst => true
  | .derate _ => true
  | _ => false

section Core
variable {s t : State} {n : Nat} {r : PositionRec}

theorem TyreCore.stay (h : SameOn isTyreCore s t) (hs : TyreCore s) : TyreCore t := by
  have hcond := SameConditions.of_part (h .positions rfl)
  exact ⟨hs.placed.stay (h.mono (fun q hq => by cases q <;> simp_all [isTable, isTyreCore])),
    fun c => (hs.derates c).keep (h (.derate c) rfl) (fun n hn _ => hcond n hn), hs.worst.keep (h .worst rfl) hcond⟩

theorem TyreCore.frame {l : List Part} (hs : TyreCore s) (h : OnlyChanges l s t)
    (hl : l.all (fun q => !isTyreCore q) = true) : TyreCore t := hs.stay (.of_frame h hl)

theorem TyreCore.write (hs : TyreCore s) (hn : n ∈ allPositions) (hr : RecordFits n r s) :
    TyreCore (writePosition n r s) :=
  ⟨hs.placed.write hn hr, write_derates hs.placed.twelve hn hs.derates, write_worst hs.placed.twelve hn hs.worst⟩

/-- A handing on of the raised state forms the rollover tyre flag, whatever it was (R67, R103). -/
theorem TyreCore.handOnRaised (hs : TyreCore s) : TyreInv (Machine.handOnRaised s) := by
  refine (tyreInv_core _).mpr ⟨?_, formRollFlag_shown _⟩
  exact hs.frame (handOnRaised_frame s) rfl

end Core

section Inv
variable {s t : State} {n : Nat} {r : PositionRec}

theorem TyreInv.core (hs : TyreInv s) : TyreCore s := ((tyreInv_core s).mp hs).1

theorem TyreInv.placed (hs : TyreInv s) : Placed s := hs.core.placed

theorem TyreInv.records (h : RecordsStay s t) (hs : TyreInv s) : TyreInv t := by
  obtain ⟨hcore, hroll⟩ := (tyreInv_core s).mp hs
  exact (tyreInv_core t).mpr
    ⟨hcore.stay (h.mono (fun q hq => by cases q <;> simp_all [isTyreCore, isRecord])), hroll.stay h⟩

/-- The parts that the invariant of the tyres speaks of. -/
def isTyrePart : Part → Bool
  | .raised | .rollFlag => true
  | q => isTyreCore q

theorem TyreInv.frame {l : List Part} (hs : TyreInv s) (h : OnlyChanges l s t)
    (hl : l.all (fun q => !isTyrePart q) = true) : TyreInv t := by
  have hsame : SameOn isTyrePart s t := .of_frame h hl
  obtain ⟨hcore, hroll⟩ := (tyreInv_core s).mp hs
  exact (tyreInv_core t).mpr ⟨hcore.stay (hsame.mono (fun q hq => by cases q <;> simp_all [isTyreCore, isTyrePart])),
    hroll.keep (hsame .rollFlag rfl) (hsame .raised rfl) (.of_part (hsame .positions rfl))⟩

theorem TyreInv.write (hs : TyreInv s) (hn : n ∈ allPositions) (hr : RecordFits n r s) : TyreInv (writePosition n r s) := by
  obtain ⟨hcore, hroll⟩ := (tyreInv_core s).mp hs
  exact (tyreInv_core _).mpr ⟨hcore.write hn hr, write_roll hcore.placed.twelve hn hroll⟩

/-- A change of the tables alone that leaves the conditions needs the placing alone. -/
theorem TyreInv.replace (hs : TyreInv s) (hp : Placed t) (hc : SameConditions s t) (hd : t.load.derate = s.load.derate)
    (hr : t.load.raised = s.load.raised) (hf : t.tyre.rollFlag = s.tyre.rollFlag) (hw : t.tyre.worst = s.tyre.worst) :
    TyreInv t := by
  obtain ⟨-, hderate, hroll, hworst⟩ := (tyreInv_iff s).mp hs
  exact (tyreInv_iff t).mpr ⟨hp, fun c => (hderate c).keep (by rw [hd]) (fun n hn _ => hc n hn), hroll.keep hf hr hc,
    hworst.keep hw hc⟩

end Inv

/-! ## Loads (R88, R91) -/

theorem Placed.fits_reevaluated {s : State} (hs : Placed s) {n : Nat} (hn : n ∈ allPositions) {d e : TyreData}
    (hd : (positionOf s n).data = some d) : RecordFits n { positionOf s n with data := some e } s := by
  cases hid : (positionOf s n).sensor with
  | none => simp [hs.bare n hn hid] at hd
  | some id => exact hs.fits_same hn hid hid

theorem TyreCore.reevaluate {s : State} (hs : TyreCore s) {n : Nat} (hn : n ∈ allPositions) :
    TyreCore (Machine.reevaluate n s) := by
  unfold Machine.reevaluate
  split
  · exact hs
  · next d hd => exact hs.write hn (hs.placed.fits_reevaluated hn hd)

theorem TyreInv.reevaluate {s : State} (hs : TyreInv s) {n : Nat} (hn : n ∈ allPositions) :
    TyreInv (Machine.reevaluate n s) := by
  unfold Machine.reevaluate
  split
  · exact hs
  · next d hd => exact hs.write hn (hs.placed.fits_reevaluated hn hd)

theorem reevaluateAll_keeps {P : State → Prop} (h : ∀ n, n ∈ allPositions → ∀ s, P s → P (reevaluate n s)) {s : State}
    (hs : P s) : P (reevaluateAll s) :=
  List.foldlRecOn allPositions _ hs (fun t ht n hn => h n hn t ht)

/-- The loads handed on change targets and group load, and re-evaluate the positions (R71 to R74, R91). -/
theorem handOnLoads_prepares (s : State) : OnlyChanges [.group, .targets] s (withTargets (withGroup s)) := by
  have hgroup : OnlyChanges [.group] s (withGroup s) :=
    setLoad_frame (.inr ⟨rfl, rfl, rfl⟩) (.inr rfl) (.inl (by simp)) rfl
  have htargets (u : State) : OnlyChanges [.targets] u (withTargets u) :=
    setTyre_frame (.inr rfl) (.inr rfl) (.inr ⟨rfl, rfl, rfl⟩) (.inl (by simp)) (.inr rfl) (.inr rfl)
  exact (htargets _).step hgroup (by simp) (by simp)

theorem TyreCore.handOnLoads {s : State} (hs : TyreCore s) : TyreCore (Machine.handOnLoads s) := by
  rw [handOnLoads_eq]
  exact reevaluateAll_keeps (P := TyreCore) (fun n hn t ht => ht.reevaluate hn) (hs.frame (handOnLoads_prepares s) rfl)

theorem TyreInv.handOnLoads {s : State} (hs : TyreInv s) : TyreInv (Machine.handOnLoads s) := by
  rw [handOnLoads_eq]
  exact reevaluateAll_keeps (P := TyreInv) (fun n hn t ht => ht.reevaluate hn) (hs.frame (handOnLoads_prepares s) rfl)

theorem TyreInv.loadUpdate {s : State} (hs : TyreInv s) : TyreInv (Machine.loadUpdate s) := by
  have hupdated : TyreInv (updatedLoads s) :=
    hs.frame (l := [.axles]) (setLoad_frame (.inl (by simp)) (.inr rfl) (.inr ⟨rfl, rfl, rfl⟩) rfl) rfl
  rw [loadUpdate_eq]
  split
  · exact hupdated.handOnLoads.frame (forChannels_frame postEmerg_frame _) rfl
  · exact hupdated.handOnLoads

/-- Axles, raised state and group load written, and handed on with the raised state (R67). -/
theorem TyreInv.raisedLoad {s u : State} (hs : TyreInv s) (hu : OnlyChanges [.axles, .raised, .group] s u) :
    TyreInv (Machine.handOnRaised (Machine.handOnLoads u)) :=
  (hs.core.frame hu rfl).handOnLoads.handOnRaised

theorem TyreInv.formRaised {s : State} (hs : TyreInv s) : TyreInv (Machine.formRaised s) := by
  have hset {l : LoadTable} (hd : l.derate = s.load.derate) : OnlyChanges [.axles, .raised, .group] s (s.setLoad l) :=
    setLoad_frame (.inl (by simp)) (.inl (by simp)) (.inl (by simp)) hd
  unfold Machine.formRaised
  split
  · exact hs
  · split
    · exact hs.raisedLoad (hset rfl)
    · exact hs.raisedLoad (hset rfl)

/-- The Load Estimator of an apply keeps the raised state, or hands a new one on (R70). -/
theorem TyreInv.reloadLoads {s : State} (hs : TyreInv s) : TyreInv (Machine.reloadLoads s) := by
  have hset {l : List Part} (h1 : .axles ∈ l) (h2 : .raised ∈ l ∨ raisedNow s = s.load.raised) :
      OnlyChanges l s (measuredLoads s) := setLoad_frame (.inl h1) h2 (.inr ⟨rfl, rfl, rfl⟩) rfl
  rcases reloadLoads_cases s with ⟨hsame, h⟩ | h <;> rw [h]
  · exact (hs.frame (hset (l := [.axles]) (by simp) (.inr hsame)) rfl).handOnLoads
  · exact hs.raisedLoad (hset (by simp) (.inl (by simp)))

theorem TyreInv.tryApply {s : State} (hs : TyreInv s) : TyreInv (Machine.tryApply s) := by
  rcases tryApply_cases s with h | ⟨-, -, h⟩ <;> rw [h]
  · exact hs
  · have htaken : TyreInv (takenSet s) := by
      have htake : OnlyChanges [.calActive] s (takeStaged s) := by
        intro q hq
        cases q <;> simp_all [samePart, takeStaged]
      exact (hs.frame htake rfl).frame (returnFree_frame _ _) rfl
    have hreload := htaken.reloadLoads
    rw [applyCal_eq]
    unfold restartWakeTimer
    split
    · exact (hreload.frame (testReady_frame _) rfl).frame (setStandby_frame _ _) rfl
    · exact hreload.frame (testReady_frame _) rfl

/-! ## The Stranger List (R93, R94) -/

/-- Another Stranger List, with the Sensor Table as it is. -/
theorem TyreInv.setStrangers {s : State} (hs : TyreInv s) {l : List Stranger} (hshort : l.length ≤ 8)
    (hdistinct : (l.map Stranger.sensor).Nodup)
    (hapart : ∀ e n, e ∈ l → n ∈ allPositions → (positionOf s n).sensor ≠ some e.sensor) :
    TyreInv (s.setTyre { s.tyre with strangers := l }) := by
  have hp := hs.placed
  exact hs.replace ⟨hp.twelve, hp.once, hp.bare, hshort, hdistinct, hapart, hp.learning⟩ (fun _ _ => rfl) rfl rfl rfl rfl

theorem mem_withoutStranger {id : Nat} {l : List Stranger} {e : Stranger} :
    e ∈ withoutStranger id l ↔ e ∈ l ∧ e.sensor ≠ id := by
  simp [withoutStranger, List.mem_filter]

theorem withoutStranger_sublist (id : Nat) (l : List Stranger) : (withoutStranger id l).Sublist l := List.filter_sublist

theorem withoutStranger_distinct {id : Nat} {l : List Stranger} (h : (l.map Stranger.sensor).Nodup) :
    ((withoutStranger id l).map Stranger.sensor).Nodup :=
  h.sublist ((withoutStranger_sublist id l).map _)

/-- The list after a stranger's telegram holds each ID once, the telegram's in front, and at most eight (R94). -/
theorem strangersAfter_placed (t : Telegram) {l : List Stranger} (hshort : l.length ≤ 8)
    (hdistinct : (l.map Stranger.sensor).Nodup) :
    (strangersAfter t l).length ≤ 8 ∧ ((strangersAfter t l).map Stranger.sensor).Nodup ∧
      ∀ e, e ∈ strangersAfter t l → e.sensor = t.sensor ∨ e ∈ l := by
  unfold strangersAfter
  split
  · next e he =>
    have hmem := List.mem_of_find?_eq_some he
    have hid : e.sensor = t.sensor := by simpa using List.find?_some he
    have hlt : (withoutStranger t.sensor l).length < l.length := by
      refine lt_of_le_of_ne (withoutStranger_sublist _ l).length_le fun heq => ?_
      have hwhole := (withoutStranger_sublist t.sensor l).eq_of_length heq
      rw [← hwhole] at hmem
      exact (mem_withoutStranger.mp hmem).2 hid
    refine ⟨by rw [List.length_cons]; omega, ?_, fun k hk => ?_⟩
    · rw [List.map_cons, List.nodup_cons]
      refine ⟨fun h => ?_, withoutStranger_distinct hdistinct⟩
      obtain ⟨k, hk, hks⟩ := List.mem_map.mp h
      exact (mem_withoutStranger.mp hk).2 hks
    · rcases List.mem_cons.mp hk with rfl | hk
      · exact .inl rfl
      · exact .inr (mem_withoutStranger.mp hk).1
  · next hnone =>
    refine ⟨by simp only [List.length_cons, List.length_take]; omega, ?_, fun k hk => ?_⟩
    · rw [List.map_cons, List.nodup_cons]
      refine ⟨fun h => ?_, hdistinct.sublist ((List.take_sublist 7 l).map _)⟩
      obtain ⟨k, hk, hks⟩ := List.mem_map.mp h
      have hne := List.find?_eq_none.mp hnone k (List.mem_of_mem_take hk)
      exact hne (by rw [hks]; simp [strangerOf])
    · rcases List.mem_cons.mp hk with rfl | hk
      · exact .inl rfl
      · exact .inr (List.mem_of_mem_take hk)

theorem TyreInv.takeStranger {s : State} (hs : TyreInv s) {t : Telegram} (h : holderOf s t.sensor = none) :
    TyreInv (Machine.takeStranger t s) := by
  obtain ⟨hshort, hdistinct, hmem⟩ := strangersAfter_placed t hs.placed.short hs.placed.distinct
  refine hs.setStrangers hshort hdistinct fun e n he hn hid => ?_
  rcases hmem e he with hsame | hold
  · have hno := List.find?_eq_none.mp h n hn
    exact hno (by simp [hid, hsame])
  · exact hs.placed.apart e n hold hn hid

/-! ## The learn record (R96 to R98) -/

theorem TyreInv.setLearn {s : State} (hs : TyreInv s) {run : Option LearnRun} {o : Option LearnOutcome} {id : Option Nat}
    (h : ∀ r, run = some r → r.position ∈ allPositions) :
    TyreInv (s.setTyre { s.tyre with learn := run, learnOutcome := o, learnedId := id }) := by
  have hp := hs.placed
  exact hs.replace ⟨hp.twelve, hp.once, hp.bare, hp.short, hp.distinct, hp.apart, h⟩ (fun _ _ => rfl) rfl rfl rfl rfl

theorem TyreInv.endLearn {s : State} (hs : TyreInv s) (o : LearnOutcome) (id : Option Nat) :
    TyreInv (Machine.endLearn o id s) := hs.setLearn (fun r h => by simp at h)

theorem TyreInv.raiseLearnOutcome {s : State} (hs : TyreInv s) : TyreInv (Machine.raiseLearnOutcome s) :=
  hs.frame (raiseLearnOutcome_frame s) rfl

theorem TyreInv.beginLearn {s : State} (hs : TyreInv s) {n : Nat} (hn : n ∈ allPositions) :
    TyreInv (Machine.beginLearn n s) := hs.setLearn (fun r h => by cases h; exact hn)

theorem TyreInv.cancelLearnAt {s : State} (hs : TyreInv s) (n : Nat) : TyreInv (Machine.cancelLearnAt n s) := by
  unfold Machine.cancelLearnAt
  split
  · exact hs
  · split
    · exact (hs.endLearn _ _).raiseLearnOutcome
    · exact hs

/-! ## The move rule (R99) -/

/-- One turn of the move rule: a position other than `n` that holds the ID is unassigned. -/
def takeTurn (id n : Nat) (t : State) (m : Nat) : State :=
  if m ≠ n ∧ (positionOf t m).sensor = some id then unassign m t else t

/-- The positions are cleared of the ID, the Stranger List is still as it was. -/
def takenFromPositions (id n : Nat) (s : State) : State := allPositions.foldl (takeTurn id n) s

theorem takeOut_eq (id n : Nat) (s : State) : takeOut id n s =
    (takenFromPositions id n s).setTyre { (takenFromPositions id n s).tyre with
      strangers := withoutStranger id (takenFromPositions id n s).tyre.strangers } := rfl

theorem TyreInv.takenFromPositions {s : State} (hs : TyreInv s) (id n : Nat) : TyreInv (Sys2Proof.takenFromPositions id n s) := by
  refine List.foldlRecOn allPositions _ hs (fun t ht m hm => ?_)
  unfold takeTurn
  split
  · exact ht.write hm (.empty m t)
  · exact ht

/-- A turn gives the ID to no position. -/
theorem takeTurn_frees (id n m k : Nat) {t : State} (h : (positionOf t k).sensor ≠ some id) :
    (positionOf (takeTurn id n t m) k).sensor ≠ some id := by
  unfold takeTurn
  split
  · rw [positionOf_unassign]
    split
    · simp [PositionRec.empty]
    · exact h
  · exact h

theorem takeTurn_freed (id n m : Nat) (t : State) (hm : m ≠ n) : (positionOf (takeTurn id n t m) m).sensor ≠ some id := by
  unfold takeTurn
  split
  · rw [positionOf_unassign, if_pos rfl]
    simp [PositionRec.empty]
  · next h => exact fun hid => h ⟨hm, hid⟩

theorem takeTurns_freed (id n : Nat) : ∀ (ms : List Nat) (s : State) (k : Nat), k ≠ n →
    (k ∈ ms ∨ (positionOf s k).sensor ≠ some id) → (positionOf (ms.foldl (takeTurn id n) s) k).sensor ≠ some id
  | [], s, k, _, h => by simpa using h
  | m :: ms, s, k, hk, h => by
    refine takeTurns_freed id n ms (takeTurn id n s m) k hk ?_
    rcases h with h | h
    · rcases List.mem_cons.mp h with rfl | h
      · exact .inr (takeTurn_freed id n k s hk)
      · exact .inl h
    · exact .inr (takeTurn_frees id n m k h)

theorem TyreInv.takeOut {s : State} (hs : TyreInv s) (id n : Nat) : TyreInv (Machine.takeOut id n s) := by
  have hfreed := hs.takenFromPositions id n
  have hp := hfreed.placed
  rw [takeOut_eq]
  refine hfreed.setStrangers ((withoutStranger_sublist _ _).length_le.trans hp.short) (withoutStranger_distinct hp.distinct) ?_
  exact fun e m he hm => hp.apart e m (mem_withoutStranger.mp he).1 hm

/-- After the move rule the ID stands nowhere but, it may be, in the position it is to be written into. -/
theorem takeOut_notElsewhere (id n : Nat) (s : State) : NotElsewhere id n (takeOut id n s) := by
  refine ⟨fun m hm hne => ?_, fun e he => (mem_withoutStranger.mp he).2⟩
  exact takeTurns_freed id n allPositions s m hne (.inl hm)

/-- An ID is written into a position by the move rule, with nothing or with data of its own (R97, R99 to R101). -/
theorem TyreInv.assign {s : State} (hs : TyreInv s) {n : Nat} (hn : n ∈ allPositions) {id : Nat}
    (h : NotElsewhere id n s) (dup : Option DupMemory) (d : Option TyreData) :
    TyreInv (writePosition n { sensor := some id, dup := dup, data := d } s) := hs.write hn (.of_id rfl h)

theorem TyreInv.fillPosition {s : State} (hs : TyreInv s) {n : Nat} (hn : n ∈ allPositions) {id : Nat}
    (h : NotElsewhere id n s) (dup : DupMemory) (d : TyreData) : TyreInv (Machine.fillPosition n id dup d s) := by
  have hcleared := hs.assign hn h none none
  refine hcleared.assign hn (hcleared.placed.notElsewhere hn ?_) (some dup) (some d)
  rw [positionOf_writePosition _ hs.placed.twelve hn hn, if_pos rfl]

theorem TyreInv.completeLearn {s : State} (hs : TyreInv s) {n : Nat} (hn : n ∈ allPositions) (t : Telegram) :
    TyreInv (Machine.completeLearn n t s) :=
  (((hs.takeOut t.sensor n).fillPosition hn (takeOut_notElsewhere t.sensor n s) _ _).endLearn _ _).raiseLearnOutcome

theorem TyreInv.assignSensor {s : State} (hs : TyreInv s) {n : Nat} (hn : n ∈ allPositions) (id : Nat) :
    TyreInv (Machine.assignSensor n id s) :=
  ((hs.cancelLearnAt n).takeOut id n).assign hn (takeOut_notElsewhere id n _) none none

theorem TyreInv.adoptStranger {s : State} (hs : TyreInv s) {n : Nat} (hn : n ∈ allPositions) (e : Stranger) :
    TyreInv (Machine.adoptStranger n e s) :=
  ((hs.cancelLearnAt n).takeOut e.sensor n).fillPosition hn (takeOut_notElsewhere e.sensor n _) _ _

theorem TyreInv.clearPosition {s : State} (hs : TyreInv s) {n : Nat} (hn : n ∈ allPositions) :
    TyreInv (Machine.clearPosition n s) := (hs.cancelLearnAt n).write hn (.empty n _)

/-! ## Telegrams and ageing (R85, R87, R92) -/

theorem holderOf_some {s : State} {id n : Nat} (h : holderOf s id = some n) :
    n ∈ allPositions ∧ (positionOf s n).sensor = some id :=
  ⟨List.mem_of_find?_eq_some h, by simpa using List.find?_some h⟩

theorem learnTarget_mem {s : State} (hs : Placed s) {t : Telegram} {n : Nat} (h : learnTarget s t = some n) :
    n ∈ allPositions := by
  unfold learnTarget at h
  split at h
  · simp at h
  · next r hr =>
    split at h
    · cases h
      exact hs.learning r hr
    · simp at h

theorem TyreInv.takeTelegram {s : State} (hs : TyreInv s) (bs : List Byte) : TyreInv (Machine.takeTelegram bs s) := by
  unfold Machine.takeTelegram dispatchTelegram
  dsimp only
  split
  · split
    · next n hn => exact hs.completeLearn (learnTarget_mem hs.placed hn) _
    · split
      · next n hn =>
        obtain ⟨hmem, hid⟩ := holderOf_some hn
        exact hs.write hmem (hs.placed.fits_same hmem hid hid)
      · next hn => exact hs.takeStranger hn
  · exact hs

theorem TyreInv.setStale {s : State} (hs : TyreInv s) {n : Nat} (hn : n ∈ allPositions) :
    TyreInv (Machine.setStale n s) := by
  unfold Machine.setStale
  split
  · exact hs
  · next d hd =>
    refine hs.replace (hs.placed.put hn (hs.placed.fits_reevaluated hn hd)) ?_ rfl rfl rfl rfl
    refine put_sameConditions hs.placed.twelve hn ?_
    simp only [positionCondition, recCondition, hd, Option.map_some]
    rfl

theorem positionOf_tick (s : State) (n : Nat) : positionOf (tick s) n = tickPosition (positionOf s n) := by
  have hpos : (tick s).tyre.positions = s.tyre.positions.map tickPosition := rfl
  simp only [positionOf, hpos, List.getD_eq_getElem?_getD, List.getElem?_map]
  cases s.tyre.positions[n - 1]? <;> rfl

/-- A millisecond moves ages alone. -/
theorem TyreInv.tick {s : State} (hs : TyreInv s) : TyreInv (Machine.tick s) := by
  have hp := hs.placed
  have hstrangers : (Machine.tick s).tyre.strangers = s.tyre.strangers.map tickStranger := rfl
  have hlearn : (Machine.tick s).tyre.learn = s.tyre.learn.map tickLearn := rfl
  refine hs.replace ⟨?twelve, ?once, ?bare, ?short, ?distinct, ?apart, ?learning⟩ (fun n _ => ?conditions) rfl rfl rfl rfl
  case twelve => exact (List.length_map ..).trans hp.twelve
  case once =>
    intro m n id hm hn hmid hnid
    rw [positionOf_tick] at hmid hnid
    exact hp.once m n id hm hn hmid hnid
  case bare =>
    intro n hn hnone
    rw [positionOf_tick] at hnone ⊢
    have hdata := hp.bare n hn hnone
    simp [tickPosition, hdata]
  case short =>
    rw [hstrangers, List.length_map]
    exact hp.short
  case distinct =>
    rw [hstrangers, List.map_map]
    exact hp.distinct
  case apart =>
    intro e n he hn
    rw [hstrangers] at he
    obtain ⟨f, hf, rfl⟩ := List.mem_map.mp he
    rw [positionOf_tick]
    exact hp.apart f n hf hn
  case learning =>
    intro r hr
    rw [hlearn] at hr
    obtain ⟨q, hq, rfl⟩ := Option.map_eq_some_iff.mp hr
    exact hp.learning q hq
  case conditions =>
    unfold positionCondition
    rw [positionOf_tick]
    unfold recCondition tickPosition
    cases (positionOf s n).data <;> rfl

/-! ## The resets and PORT_SYNC -/

theorem reset_positionOf : ∀ n, n ∈ allPositions → positionOf State.reset n = PositionRec.empty := by decide

theorem reset_tyreInv : TyreInv State.reset := by
  have hcond (n : Nat) (hn : n ∈ allPositions) : positionCondition State.reset n = none := by
    simp [positionCondition, reset_positionOf n hn, recCondition, PositionRec.empty]
  have hid (n : Nat) (hn : n ∈ allPositions) : (positionOf State.reset n).sensor = none := by
    rw [reset_positionOf n hn]
    rfl
  refine (tyreInv_iff _).mpr ⟨⟨rfl, ?_, ?_, by decide, by decide, ?_, ?_⟩, fun c => ?_, ?_, ?_, ?_⟩
  · intro m n id hm hn hmid
    simp [hid m hm] at hmid
  · intro n hn _
    rw [reset_positionOf n hn]
    rfl
  · intro e n he
    simp [State.reset, TyreUnit.reset] at he
  · intro r hr
    simp [State.reset, TyreUnit.reset] at hr
  · unfold DerateShown
    rw [if_neg]
    · cases c <;> rfl
    · rintro ⟨n, hn, -, hsevere⟩
      simp [hcond n hn, isSevere] at hsevere
  · refine ⟨fun h => ?_, fun ⟨n, hn, _, hsoft⟩ => ?_⟩
    · simp [State.reset, TyreUnit.reset] at h
    · simp [hcond n hn, isSoft] at hsoft
  · intro n hn k hk
    simp [hcond n hn] at hk
  · intro j m h
    simp [State.reset, TyreUnit.reset] at h

theorem resetState_tyreInv (k : ResetCause) (s : State) : TyreInv (resetState k s) :=
  reset_tyreInv.frame (resetState_frame k s) rfl

theorem TyreInv.syncStaging {s : State} (hs : TyreInv s) (p : Port) : TyreInv (Machine.syncStaging p s) := by
  unfold Machine.syncStaging
  dsimp only
  split
  · exact hs.frame (discardBySync_frame p s) rfl
  · exact hs

theorem TyreInv.syncLearn {s : State} (hs : TyreInv s) (p : Port) : TyreInv (Machine.syncLearn p s) := by
  unfold Machine.syncLearn
  split
  · exact hs
  · split
    · exact hs.endLearn _ _
    · exact hs

theorem TyreInv.syncPort {s : State} (hs : TyreInv s) (p : Port) : TyreInv (Machine.syncPort p s) :=
  syncPort_keepsRecords TyreInv.records (fun ht => ht.syncStaging p) (fun ht => ht.syncLearn p) hs

/-! ## The rows that write the records -/

theorem TyreInv.transfer {p : Port} {n : Nat} {act : Action} {s : State} (h : TyreInv (act s).2) :
    TyreInv (Machine.transfer p n act s) := transfer_keepsRecords TyreInv.records h

theorem TyreInv.whenDue {b : Bool} {f : State → State} {s : State} (h : b = true → TyreInv (f s)) (hs : TyreInv s) :
    TyreInv (Machine.whenDue b f s) := whenDue_keepsRecords TyreInv.records h hs

theorem TyreInv.setStaging {s : State} (hs : TyreInv s) (g : Staging) : TyreInv (Machine.setStaging g s) :=
  hs.frame (setStaging_frame g s) rfl

theorem TyreInv.touching {p : Port} {act : Action} {s : State} (hs : TyreInv s) (h : ∀ t, TyreInv t → TyreInv (act t).2) :
    TyreInv (Machine.touching p act s).2 := by
  refine h _ ?_
  unfold touchIdle
  split
  · exact hs.setStaging _
  · exact hs

theorem TyreInv.sealAction {s : State} (hs : TyreInv s) : TyreInv (Machine.sealAction s).2 := by
  unfold Machine.sealAction
  split
  · exact hs
  · exact hs.setStaging _

theorem TyreInv.confirmAction {s : State} (hs : TyreInv s) (check : Nat) : TyreInv (Machine.confirmAction check s).2 := by
  unfold Machine.confirmAction
  split
  · exact (hs.setStaging _).tryApply
  · exact (hs.frame (latchEvent_frame calMismatchIndex s) rfl).frame (returnFree_frame .mismatch _) rfl

theorem TyreInv.adoptAction {s : State} (hs : TyreInv s) {n : Nat} (hn : n ∈ allPositions) (index : Nat) :
    TyreInv (Machine.adoptAction n index s).2 := by
  unfold Machine.adoptAction
  split
  · exact hs
  · exact hs.adoptStranger hn _

theorem ownRow_tyreInv {i : Instr} {s : State} (hi : isOwnRow i = true) (hs : TyreInv s) :
    ∃ t, exec i s = .next t ∧ TyreInv t := by
  cases i with
  | powerOnReset => exact ⟨_, rfl, resetState_tyreInv _ s⟩
  | pinReset => exact ⟨_, rfl, resetState_tyreInv _ s⟩
  | tyreTelegram bs => exact ⟨_, rfl, (hs.takeTelegram bs).frame (refreshFaults_frame _) rfl⟩
  | learnTimeout => exact ⟨_, rfl, TyreInv.whenDue (fun _ => (hs.endLearn _ _).raiseLearnOutcome) hs⟩
  | tyreStale n =>
    refine ⟨_, rfl, TyreInv.whenDue (fun h => hs.setStale (mem_of_positionOk ?_)) hs⟩
    exact (Bool.and_eq_true_iff.mp h).1
  | calIdleTimeout => exact ⟨_, rfl, TyreInv.whenDue (fun _ => hs.frame (timeoutStaging_frame s) rfl) hs⟩
  | calSealTimeout => exact ⟨_, rfl, TyreInv.whenDue (fun _ => hs.frame (timeoutStaging_frame s) rfl) hs⟩
  | tyreLearn p n =>
    exact ⟨_, rfl, TyreInv.transfer (takenFrom_state hs (withArgument_state hs fun hn => unlessState_state hs fun _ =>
      hs.beginLearn (mem_of_positionOk hn)))⟩
  | tyreAssign p n id =>
    exact ⟨_, rfl, TyreInv.transfer (takenFrom_state hs (withArgument_state hs fun hn => unlessState_state hs fun _ =>
      hs.assignSensor (mem_of_positionOk hn) id))⟩
  | tyreAdopt p n index =>
    exact ⟨_, rfl, TyreInv.transfer (takenFrom_state hs (withArgument_state hs fun hn =>
      hs.adoptAction (mem_of_positionOk hn) index))⟩
  | tyreClear p n =>
    exact ⟨_, rfl, TyreInv.transfer (takenFrom_state hs (withArgument_state hs fun hn =>
      hs.clearPosition (mem_of_positionOk hn)))⟩
  | calBegin p => exact ⟨_, rfl, TyreInv.transfer (unlessState_state hs fun _ => hs.setStaging _)⟩
  | calPointer p index =>
    exact ⟨_, rfl, TyreInv.transfer (hs.touching fun t ht => unlessState_state ht fun _ => withArgument_state ht fun _ =>
      unlessState_state ht fun _ => ht.setStaging _)⟩
  | calWrite p count words =>
    exact ⟨_, rfl, TyreInv.transfer (hs.touching fun t ht => unlessState_state ht fun _ => withArgument_state ht fun _ =>
      unlessState_state ht fun _ => ht.setStaging _)⟩
  | calRead p index count =>
    exact ⟨_, rfl, TyreInv.transfer (hs.touching fun t ht => withArgument_state ht fun _ => unlessState_state ht fun _ => ht)⟩
  | calSeal p =>
    exact ⟨_, rfl, TyreInv.transfer (hs.touching fun t ht => unlessState_state ht fun _ =>
      unlessState_state ht fun _ => ht.sealAction)⟩
  | calConfirm p check =>
    exact ⟨_, rfl, TyreInv.transfer (unlessState_state hs fun _ => unlessState_state hs fun _ => hs.confirmAction check)⟩
  | calAbandon p =>
    exact ⟨_, rfl, TyreInv.transfer (unlessState_state hs fun _ => unlessState_state hs fun _ =>
      hs.frame (returnFree_frame .abandoned s) rfl)⟩
  | portSync p => exact ⟨_, rfl, TyreInv.transfer (hs.syncPort p)⟩
  | _ => simp [isOwnRow, isRecordRow] at hi

theorem tyreInv_kept : RecordKept TyreInv where
  same h hs := hs.records h
  loadUpdate hs := hs.loadUpdate
  formRaised hs := hs.formRaised
  tryApply hs := hs.tryApply
  tick hs := hs.tick
  ownRow hi hs := ownRow_tyreInv hi hs

/-- Settles O59: what each operation that writes a position, the Stranger List, the learn record or the raised state does, over the
walk of the rows. -/
theorem stepsKeepSensorsInOnePlace : Obligations.StepsKeepSensorsInOnePlace := by
  unfold Obligations.StepsKeepSensorsInOnePlace
  intro s t hstep hs
  exact tyreInv_kept.step hstep hs

end Sys2Proof
end

