-- ==== Sys2Proof/Proofs/LiftAxle.lean ====
section
/-! A pressure sample raises and lowers axle 3 (R59, R67 to R69, R71 to R73, R88, R103; O12). -/

namespace Sys2Proof

open Sys2Proof.Machine

/-! ## A change of the raised state (R67 to R69) -/

/-- The loads and the raised state handed on: axles and raised state stay, and what follows from them is formed anew. -/
theorem handedOn_formed (s : State) :
    (handOnRaised (handOnLoads s)).load.axle = s.load.axle ∧ (handOnRaised (handOnLoads s)).load.frozen = s.load.frozen ∧
    (handOnRaised (handOnLoads s)).load.sinceUpdate = s.load.sinceUpdate ∧
    (handOnRaised (handOnLoads s)).load.raised = s.load.raised ∧ LoadsFormed (handOnRaised (handOnLoads s)) ∧
    TargetsFormed (handOnRaised (handOnLoads s)) ∧ RollShown (handOnRaised (handOnLoads s)) := by
  have hlast := handOnRaised_spares (handOnLoads s)
  have hsource := handOnLoads_spares s
  obtain ⟨haxle, hfrozen, hsince⟩ := (hsource .axles rfl).trans (hlast .axles rfl)
  exact ⟨haxle, hfrozen, hsince, (hsource .raised rfl).trans (hlast .raised rfl), (handOnLoads_loads s).stay hlast,
    (handOnLoads_targets s).stay hlast, formRollFlag_shown _⟩

/-- The record of axle 3 as a raise leaves it (R68). -/
def raisedAxle (s : State) : AxleRec := { s.load.axle.ax3 with effective := 0, jumpPending := false }

/-- The record of axle 3 as a lowering leaves it (R69). -/
def loweredAxle (s : State) : AxleRec :=
  { measureAxle s .ax3 s.load.axle.ax3 with
    effective := (measureAxle s .ax3 s.load.axle.ax3).instant, jumpPending := false }

/-- The Load Table with the raised state of the sample, before it is handed on (R67). -/
def turnedLoads (s : State) : State :=
  s.setLoad { s.load with
    raised := raisedNow s, axle := s.load.axle.set .ax3 (if raisedNow s then raisedAxle s else loweredAxle s) }

theorem raiseAxle_eq {s : State} (h : raisedNow s = true) : raiseAxle s = handOnRaised (handOnLoads (turnedLoads s)) := by
  unfold raiseAxle turnedLoads raisedAxle
  simp only [h, if_true]

theorem lowerAxle_eq {s : State} (h : raisedNow s = false) : lowerAxle s = handOnRaised (handOnLoads (turnedLoads s)) := by
  unfold lowerAxle turnedLoads loweredAxle
  simp only [h, Bool.false_eq_true, if_false]

/-- A change of the raised state rewrites axle 3 and hands loads and raised state on (R67 to R69). -/
theorem formRaised_changed {s : State} (h : raisedNow s ≠ s.load.raised) :
    formRaised s = handOnRaised (handOnLoads (turnedLoads s)) := by
  unfold formRaised
  rw [if_neg h]
  split
  · exact raiseAxle_eq ‹_›
  · exact lowerAxle_eq (by simpa using ‹¬ raisedNow s = true›)

theorem formRaised_same {s : State} (h : raisedNow s = s.load.raised) : formRaised s = s := by
  unfold formRaised
  rw [if_pos h]

theorem formRaised_raised (s : State) : (formRaised s).load.raised = raisedNow s := by
  by_cases h : raisedNow s = s.load.raised
  · rw [formRaised_same h, h]
  · rw [formRaised_changed h]
    obtain ⟨-, -, -, hraised, -⟩ := handedOn_formed (turnedLoads s)
    exact hraised

/-- The raised state leaves the load clock, the filter and the axles 1 and 2 alone (R67). -/
theorem formRaised_others (s : State) : (formRaised s).load.frozen = s.load.frozen ∧
    (formRaised s).load.sinceUpdate = s.load.sinceUpdate ∧ (formRaised s).load.axle.ax1 = s.load.axle.ax1 ∧
    (formRaised s).load.axle.ax2 = s.load.axle.ax2 := by
  by_cases h : raisedNow s = s.load.raised
  · rw [formRaised_same h]
    exact ⟨rfl, rfl, rfl, rfl⟩
  · rw [formRaised_changed h]
    obtain ⟨haxle, hfrozen, hsince, -⟩ := handedOn_formed (turnedLoads s)
    exact ⟨hfrozen, hsince, by rw [haxle]; rfl, by rw [haxle]; rfl⟩

/-- A change of the raised state leaves axle 3 as a raise or a lowering does, and everything that follows formed anew. -/
theorem formRaised_formed {s : State} (h : raisedNow s ≠ s.load.raised) :
    (formRaised s).load.axle.ax3 = (if raisedNow s then raisedAxle s else loweredAxle s) ∧
    LoadsFormed (formRaised s) ∧ TargetsFormed (formRaised s) ∧ RollShown (formRaised s) := by
  rw [formRaised_changed h]
  obtain ⟨haxle, -, -, -, hloads, htargets, hroll⟩ := handedOn_formed (turnedLoads s)
  exact ⟨by rw [haxle]; rfl, hloads, htargets, hroll⟩

/-! ## From the raised state of the sample to its end -/

/-- What a sample may change between its raised state and its safe-point test. -/
def afterRaised : List Part := everyChannel backupParts ++ demandParts ++ controlledParts

/-- The sample up to its safe-point test. -/
def sampleUnapplied (x : SampleSet) (s : State) : State :=
  sampleControlled ((runningTest s).map RunningTest.channel) s.tests.queue.tail (sampleResolved x s)

theorem pressureSample_finish (x : SampleSet) (s : State) : pressureSample x s = sampleFinish (sampleUnapplied x s) := rfl

theorem sampleUnapplied_frame (x : SampleSet) (s : State) :
    OnlyChanges afterRaised (sampleRaised (sampleReadings x (headAlone s))) (sampleUnapplied x s) := by
  have hsensors := (forChannels_frame (checkDelivery_frame (headAlone s).front.delivery)
    (sampleRaised (sampleReadings x (headAlone s)))).mono (l := afterRaised) (by intro q hq; simp [afterRaised, hq])
  have hdemand := (sampleDemand_frame _).step hsensors (fun _ h => h) (by intro q hq; simp [afterRaised, hq])
  exact (sampleControlled_frame _ _ _).step hdemand (fun _ h => h) (by intro q hq; simp [afterRaised, hq])

/-- The parts of loads and tyres that only the raised state moves at a sample with no set armed. -/
def isSampledLoad : Part → Bool
  | .axles | .raised | .group | .targets | .calActive | .staging | .standby | .positions | .rollFlag => true
  | _ => false

theorem sampledLoad_no_notice {q : Part} (hq : isSampledLoad q = true) : q ∉ noticeParts := by
  cases q <;> simp_all [isSampledLoad, noticeParts]

theorem sampleUnapplied_loads (x : SampleSet) (s : State) :
    SameOn isSampledLoad (sampleRaised (sampleReadings x (headAlone s))) (sampleUnapplied x s) :=
  .of_frame (sampleUnapplied_frame x s) (by decide +kernel)

/-- The readings of a sample, before its raised state is formed, leave the loads, the tyres and the calibration. -/
theorem sampleReadings_loads (x : SampleSet) (s : State) : SameOn isSampledLoad s (sampleReadings x (headAlone s)) :=
  (SameOn.of_frame (headAlone_frame s) rfl).trans (.of_frame (sampleReadings_frame x _) rfl)

theorem sampleReadings_front (x : SampleSet) (s : State) : (sampleReadings x s).front = frontOf x := by
  have hslips := forChannels_frame formSlip_frame (sampleWheels x.wheelClosed (s.setFront (frontOf x)))
  exact hslips .front (by decide)

/-- With no set armed a sample ends with its load clock (R59, R163). -/
theorem pressureSample_unarmed {s : State} (harmed : s.cal.staging.state ≠ .armed) (x : SampleSet) :
    pressureSample x s = refreshFaults (sampleLoadClock (sampleUnapplied x s)) := by
  have hraised : samePart (sampleReadings x (headAlone s)) (sampleRaised (sampleReadings x (headAlone s))) .staging :=
    sampleRaised_frame _ .staging (by decide +kernel)
  have hstaging : (sampleUnapplied x s).cal.staging = s.cal.staging :=
    ((sampleReadings_loads x s .staging rfl).trans hraised).trans (sampleUnapplied_loads x s .staging rfl)
  have happly : tryApply (sampleUnapplied x s) = sampleUnapplied x s := by simp [tryApply, hstaging, harmed]
  rw [pressureSample_finish, sampleFinish, happly]

theorem sampleUnapplied_running {s : State} (x : SampleSet) : isRunning (sampleUnapplied x s) = isRunning s := by
  have hresolved := sampleResolved_frame x s
  have hcontrolled := sampleControlled_frame ((runningTest s).map RunningTest.channel) s.tests.queue.tail (sampleResolved x s)
  exact (hcontrolled.running (by decide +kernel)).trans (hresolved.running (by decide +kernel))

/-! ## The load clock (R59) -/

/-- Every part that the load clock of a sample leaves alone. -/
theorem sampleLoadClock_spares (s : State) {q : Part} (hq : q ≠ .axles) : samePart s (sampleLoadClock s) q :=
  sampleLoadClock_frame s q (by simpa using hq)

theorem sampleLoadClock_axles (s : State) : (sampleLoadClock s).load.axle = s.load.axle ∧
    (sampleLoadClock s).load.frozen = s.load.frozen ∧
    (sampleLoadClock s).load.sinceUpdate =
      if isRunning s then min 100 (s.load.sinceUpdate + 10) else s.load.sinceUpdate := by
  unfold sampleLoadClock
  split <;> exact ⟨rfl, rfl, rfl⟩

/-- What stands after the raised state of a sample stands at its end, but for the load clock. -/
structure SampleEnds (v t : State) (running : Bool) : Prop where
  axle : t.load.axle = v.load.axle
  frozen : t.load.frozen = v.load.frozen
  since : t.load.sinceUpdate = if running then min 100 (v.load.sinceUpdate + 10) else v.load.sinceUpdate
  raised : t.load.raised = v.load.raised
  group : samePart v t .group
  targets : samePart v t .targets
  positions : samePart v t .positions
  rollFlag : samePart v t .rollFlag
  cal : t.cal.active = v.cal.active

theorem pressureSample_ends {s : State} (hp : isParked s = false) (harmed : s.cal.staging.state ≠ .armed) (x : SampleSet) :
    SampleEnds (formRaised (sampleReadings x (headAlone s))) (pressureSample x s) (isRunning s) := by
  have hawake : isParked (sampleReadings x (headAlone s)) = false :=
    (isParked_of_standby (sampleReadings_loads x s .standby rfl)).trans hp
  have hraised : sampleRaised (sampleReadings x (headAlone s)) = formRaised (sampleReadings x (headAlone s)) := by
    simp [sampleRaised, hawake]
  have hloads := sampleUnapplied_loads x s
  rw [hraised] at hloads
  have hrefresh := refreshFaults_frame (sampleLoadClock (sampleUnapplied x s))
  obtain ⟨caxle, cfrozen, csince⟩ := sampleLoadClock_axles (sampleUnapplied x s)
  obtain ⟨uaxle, ufrozen, usince⟩ := hloads .axles rfl
  have hend : ∀ q, isSampledLoad q = true → q ≠ .axles →
      samePart (formRaised (sampleReadings x (headAlone s))) (pressureSample x s) q := by
    intro q hq hne
    rw [pressureSample_unarmed harmed]
    exact ((hloads q hq).trans (sampleLoadClock_spares _ hne)).trans (hrefresh q (sampledLoad_no_notice hq))
  have haxles : samePart (sampleLoadClock (sampleUnapplied x s)) (pressureSample x s) .axles := by
    rw [pressureSample_unarmed harmed]
    exact hrefresh .axles (by simp [noticeParts])
  obtain ⟨taxle, tfrozen, tsince⟩ := haxles
  refine ⟨(taxle.trans caxle).trans uaxle, (tfrozen.trans cfrozen).trans ufrozen, ?_, hend .raised rfl (by simp),
    hend .group rfl (by simp), hend .targets rfl (by simp), hend .positions rfl (by simp), hend .rollFlag rfl (by simp),
    (hend .calActive rfl (by simp)).1⟩
  rw [tsince, csince, sampleUnapplied_running, usince]

section Ends
variable {v t : State} {b : Bool}

theorem SampleEnds.loadsFormed (h : SampleEnds v t b) (hv : LoadsFormed v) : LoadsFormed t := by
  obtain ⟨hgroup, hlambda, hgain⟩ := h.group
  unfold LoadsFormed
  rw [h.axle, hgroup, hlambda, hgain, h.cal]
  exact hv

theorem SampleEnds.targetsFormed (h : SampleEnds v t b) (hv : TargetsFormed v) : TargetsFormed t := by
  have htargets : t.tyre.target = v.tyre.target := h.targets
  unfold TargetsFormed
  rw [htargets, h.group.2.1, h.cal]
  exact hv

theorem SampleEnds.rollShown (h : SampleEnds v t b) (hv : RollShown v) : RollShown t :=
  hv.keep h.rollFlag h.raised (.of_part h.positions)

end Ends

/-- Settles O12: the raised state formed from the readings of the sample, carried to its end. -/
theorem sampleRaisesAndLowersAxle3 : Obligations.SampleRaisesAndLowersAxle3 := by
  unfold Obligations.SampleRaisesAndLowersAxle3
  intro s x hp harmed
  have hread := sampleReadings_loads x s
  have hends := pressureSample_ends hp harmed x
  have hfront := sampleReadings_front x (headAlone s)
  obtain ⟨hcal, -, -⟩ := hread .calActive rfl
  obtain ⟨raxle, rfrozen, rsince⟩ := hread .axles rfl
  have rraised : (sampleReadings x (headAlone s)).load.raised = s.load.raised := hread .raised rfl
  obtain ⟨ofrozen, osince, oax1, oax2⟩ := formRaised_others (sampleReadings x (headAlone s))
  have hnow : raisedNow (sampleReadings x (headAlone s)) = (calLiftFitted s.cal.active && x.liftRaised) := by
    unfold raisedNow
    rw [hcal, hfront]
    rfl
  have hraised : (pressureSample x s).load.raised = raisedNow (sampleReadings x (headAlone s)) :=
    hends.raised.trans (formRaised_raised _)
  have hchanged (h : (pressureSample x s).load.raised ≠ s.load.raised) :
      raisedNow (sampleReadings x (headAlone s)) ≠ (sampleReadings x (headAlone s)).load.raised := by
    rwa [hraised, ← rraised] at h
  refine ⟨pressureSample x s, rfl, hraised.trans hnow, ?_, ?_, ?_, ?_, fun h => ?same, fun h hup => ?raise, fun h hdown => ?lower,
    fun h => ?formed⟩
  · rw [hends.frozen, ofrozen, rfrozen]
  · rw [hends.axle, oax1, raxle]
  · rw [hends.axle, oax2, raxle]
  · rw [hends.since, osince, rsince]
  case same =>
    have hstay : raisedNow (sampleReadings x (headAlone s)) = (sampleReadings x (headAlone s)).load.raised := by
      rw [rraised, ← hraised]
      exact not_not.mp h
    rw [formRaised_same hstay] at hends
    exact ⟨by rw [hends.axle, raxle], (hread .group rfl).trans hends.group, (hread .targets rfl).trans hends.targets,
      (hread .positions rfl).trans hends.positions⟩
  case raise =>
    obtain ⟨hax3, -⟩ := formRaised_formed (hchanged h)
    rw [hraised] at hup
    rw [hends.axle, hax3, if_pos hup, raisedAxle, raxle]
  case lower =>
    obtain ⟨hax3, -⟩ := formRaised_formed (hchanged h)
    rw [hraised] at hdown
    have hsampled : (pressureSample x s).front = (sampleReadings x (headAlone s)).front :=
      (pressureSample_front x s).trans hfront.symm
    intro mean load
    have hmean : bagMean (sampleReadings x (headAlone s)) .ax3 = mean := by
      simp only [mean, hsampled, bagMean, PerAxle.get]
      cases (sampleReadings x (headAlone s)).front.bagLeft.ax3 <;>
        cases (sampleReadings x (headAlone s)).front.bagRight.ax3 <;> rfl
    have hlowered : loweredAxle (sampleReadings x (headAlone s)) =
        ⟨mean, mean.isSome, load, load, false, overRangeOf s.cal.active .ax3 mean⟩ := by
      unfold loweredAxle measureAxle
      simp only [hmean, hcal, load]
    rw [hends.axle, hax3, hdown, if_neg (by simp), hlowered]
    cases mean <;> rfl
  case formed =>
    obtain ⟨-, hloads, htargets, hroll⟩ := formRaised_formed (hchanged h)
    exact ⟨hends.loadsFormed hloads, hends.targetsFormed htargets, hends.rollShown hroll⟩

end Sys2Proof
end

