-- ==== Sys2Proof/Proofs/StandingFlags.lean ====
section
/-! The attention flags that faults, test results and wakes leave alone (R134, R169, R170, R178), through all that a wake or a port
transfer does: what tells Port A how a learn ended (R97, R98) stands. -/

namespace Sys2Proof

open Sys2Proof.Machine

/-! ## Flags that only their own events raise (R170) -/

/-- A flag of an attention record that no fault, no test result and no wake raises. -/
structure Standing (f : Attention → Bool) : Prop where
  fault (x : Attention) (b : Bool) : f { x with newFault := b } = f x
  test (x : Attention) (b : Bool) : f { x with testResult := b } = f x
  wake (x : Attention) (b : Bool) : f { x with wakeReason := b } = f x

theorem learnOutcome_standing : Standing Attention.learnOutcome := ⟨fun _ _ => rfl, fun _ _ => rfl, fun _ _ => rfl⟩

/-- A flag of Port A stands as in an earlier state. -/
def FlagSame (f : Attention → Bool) (s t : State) : Prop := f t.portA.attention = f s.portA.attention

section Flag
variable {f : Attention → Bool} {s t u : State}

theorem FlagSame.refl (f : Attention → Bool) (s : State) : FlagSame f s s := rfl

theorem FlagSame.trans (h : FlagSame f s t) (k : FlagSame f t u) : FlagSame f s u := Eq.trans k h

theorem FlagSame.of_frame {l : List Part} (h : OnlyChanges l s t) (hl : .attention .a ∉ l) : FlagSame f s t :=
  congrArg f (h (.attention .a) hl)

theorem FlagSame.setAttention {p : Port} {x : Attention} (h : f x = f (portOf s p).attention) :
    FlagSame f s (setAttention s p x) := by
  cases p with
  | a => exact h
  | b => exact .refl f s

variable (hf : Standing f)
include hf

theorem refreshFaults_standing (s : State) : FlagSame f s (refreshFaults s) :=
  ((FlagSame.of_frame (setFaults_frame s _) (by simp)).trans (.setAttention (hf.fault _ _))).trans
    (.setAttention (hf.fault _ _))

theorem queueEvent_standing (s : State) : FlagSame f s (queueEvent s) :=
  (refreshFaults_standing hf s).trans (.of_frame (queueEvent_queue_frame s) (by simp))

theorem storeResult_standing (c : Channel) (p : Port) (r : TestResult) (s : State) :
    FlagSame f s (storeResult c p r s) :=
  (FlagSame.of_frame (setResult_frame s c r) (by simp)).trans (.setAttention (hf.test _ _))

theorem abortRunning_standing (k : TestCause) (s : State) : FlagSame f s (abortRunning k s) := by
  have hstored (c : Channel) (p : Port) (r : TestResult) :
      FlagSame f s (storeResult c p r (s.setTests { s.tests with holder := .free })) :=
    (FlagSame.of_frame (setHolder_frame s .free) (by simp)).trans (storeResult_standing hf c p r _)
  unfold abortRunning
  split
  · exact .refl f s
  · dsimp only
    split
    · exact hstored _ _ _
    · exact (hstored _ _ _).trans (.of_frame (openExhaust_frame _ _) (by simp))

theorem abortTestOf_standing (c : Channel) (k : TestCause) (s : State) : FlagSame f s (abortTestOf c k s) := by
  unfold abortTestOf
  split
  · exact abortRunning_standing hf k s
  · exact .refl f s

theorem testBackupNotice_standing (c : Channel) (s : State) : FlagSame f s (testBackupNotice c s) := by
  have habort := abortTestOf_standing hf c .backup s
  have hrefuse (t : State) : FlagSame f t (refuseHead .notElectronic t) := by
    unfold refuseHead
    split
    · exact .refl f t
    · exact (FlagSame.of_frame (dropHead_frame t) (by simp)).trans (storeResult_standing hf _ _ _ _)
  unfold testBackupNotice
  dsimp only
  split
  · exact habort.trans (hrefuse _)
  · exact habort

theorem resolve_standing (c : Channel) (s : State) : FlagSame f s (resolve c s) := by
  have hwrite : FlagSame f s (writeResolution c s) := .of_frame (writeResolution_frame c s) (by simp)
  unfold resolve
  split
  · exact hwrite.trans (abortTestOf_standing hf c _ _)
  · exact hwrite

theorem freeSkid_standing (c : Channel) (s : State) : FlagSame f s (freeSkid c s) := by
  have hwithdraw (t : State) : FlagSame f t (withdraw c .skid t) := by
    rcases withdraw_cases c .skid t with h | h <;> rw [h]
    · exact .refl f t
    · exact (FlagSame.of_frame (putEntry_frame t c .skid none) (by simp)).trans (resolve_standing hf c _)
  rcases freeSkid_cases c s with h | ⟨k, -, h⟩ <;> rw [h]
  · exact .refl f s
  · exact ((FlagSame.of_frame (setSkid_frame s c k) (by simp)).trans (hwithdraw _)).trans (queueEvent_standing hf _)

theorem addCause_standing (k : Cause) (c : Channel) (s : State) : FlagSame f s (addCause k c s) := by
  have hput := FlagSame.of_frame (f := f) (setCauses_frame (s := s) c ((channelOf s c).causes.put k true)
    (channelOf s c).startupHeld) (by simp)
  have henter (t : State) : FlagSame f t (enterBackup c t) := by
    rw [enterBackup_eq]
    exact (((FlagSame.of_frame (deEnergise_frame c t) (by simp)).trans (testBackupNotice_standing hf c _)).trans
      (freeSkid_standing hf c _)).trans (queueEvent_standing hf _)
  rcases addCause_cases k c s with ⟨h, -⟩ | ⟨h, -⟩ | ⟨h, -⟩ <;> rw [h]
  · exact .refl f s
  · exact hput.trans (henter _)
  · exact hput

theorem wake_standing (r : WakeReason) (s : State) : FlagSame f s (wake r s) := by
  have hstartup (c : Channel) (t : State) : FlagSame f t (addStartup c t) :=
    (FlagSame.of_frame (startupHeld_frame c t) (by simp)).trans (addCause_standing hf .startup c _)
  unfold wake
  split
  · exact ((FlagSame.of_frame (setStandby_frame s _) (by simp)).trans (.setAttention (hf.wake _ _))).trans
      (forChannels_rel (fun _ _ _ => .trans) hstartup _)
  · exact .refl f s

/-- What a transfer adds to its command tells Port A of faults and of a wake alone (R165, R178). -/
theorem transfer_standing (p : Port) (n : Nat) (act : Action) (s : State) :
    FlagSame f (act s).2 (transfer p n act s) := by
  have hanswer (r : Response) : FlagSame f (act s).2 (answer (act s).2 p r) := .of_frame (answer_frame _ p r) (by simp)
  unfold transfer
  dsimp only
  split
  · exact ((hanswer _).trans (wake_standing hf _ _)).trans (refreshFaults_standing hf _)
  · exact (hanswer _).trans (refreshFaults_standing hf _)

end Flag

end Sys2Proof
end

