-- ==== Sys2Proof/Proofs/NewEntries.lean ====
section
/-! What the writing of a position record leaves there, and whom it tells (R90, R97, R99 to R102, R104): a new entry into CRITICAL
or LEAK queues an own event and wakes the part; any other write tells nobody. -/

namespace Sys2Proof

open Sys2Proof.Machine

/-! ## A new entry into CRITICAL or LEAK (R104) -/

/-- An own event has been queued, and in PARKED the part has been woken for its tyres (R104). -/
def EntryTold (s t : State) : Prop := EventQueued s t ∧ (isParked s = true → Woken s t .tyre)

/-- The parts of an earlier state that a new entry depends on. -/
def isToldFrom : Part → Bool
  | .standby | .causes _ | .linkPort .up => true
  | _ => false

/-- The parts that show a new entry afterwards, Port A's wake reason flag aside. -/
def isToldIn : Part → Bool
  | .standby | .causes _ | .statusQueue => true
  | _ => false

section Told
variable {s t u : State}

theorem Woken.before {r : WakeReason} (h : SameOn isToldFrom s t) (k : Woken t u r) : Woken s u r := by
  have hsame : t.standby = s.standby := h .standby rfl
  obtain ⟨hstandby, hcauses, hflag⟩ := k
  refine ⟨by rw [hstandby, hsame], fun c => ⟨(hcauses c).1.before (h (.causes c) rfl), (hcauses c).2⟩, hflag⟩

theorem EntryTold.before (h : SameOn isToldFrom s t) (k : EntryTold t u) : EntryTold s u := by
  have hparked : isParked t = isParked s := isParked_of_standby (h .standby rfl)
  exact ⟨k.1.before (h (.linkPort .up) rfl), fun hp => (k.2 (hparked.trans hp)).before h⟩

theorem EntryTold.after (h : EntryTold s t) (hsame : SameOn isToldIn t u) (hflag : WakeFlagSame t u) : EntryTold s u := by
  obtain ⟨hqueued, hwoken⟩ := h
  have hqueue : u.link.statusQueue = t.link.statusQueue := hsame .statusQueue rfl
  refine ⟨fun hactive => by rw [hqueue]; exact hqueued hactive, fun hp => ?_⟩
  obtain ⟨hstandby, hcauses, htold⟩ := hwoken hp
  have hkept (c : Channel) := hsame (.causes c) rfl
  exact ⟨Eq.trans (hsame .standby rfl) hstandby,
    fun c => ⟨(hcauses c).1.after (hkept c), (hkept c).2.trans (hcauses c).2⟩, Eq.trans hflag htold⟩

theorem EntryTold.refresh (h : EntryTold s t) : EntryTold s (refreshFaults t) :=
  h.after (.of_frame (refreshFaults_frame t) rfl) (refreshFaults_flag t)

/-- A part that its command has woken is not woken again by the transfer (R178). -/
theorem EntryTold.transfer {p : Port} {n : Nat} {act : Action} (h : EntryTold s (act s).2) :
    EntryTold s (transfer p n act s) := by
  let answered := answer (act s).2 p ⟨n, (act s).1.code, (act s).1.record⟩
  have hframe : OnlyChanges [.response p] (act s).2 answered := answer_frame _ p _
  have htold : EntryTold s answered := h.after (.of_frame hframe rfl) (.of_frame hframe (by simp))
  have hwake : (if isParked s then wake .port answered else answered) = answered := by
    split
    · next hp =>
      refine wake_awake .port answered ?_
      obtain ⟨hstandby, -⟩ := htold.2 hp
      simp [isParked, hstandby]
    · rfl
  rw [transfer_eq, hwake]
  exact htold.refresh

theorem newEntry_told (s : State) : EntryTold s (newEntry s) := by
  have hsame : SameOn isToldFrom s (queueEvent s) := .of_frame (queueEvent_frame s) rfl
  have hparked : isParked (queueEvent s) = isParked s := isParked_of_standby (hsame .standby rfl)
  refine ⟨fun hactive => wake_wait .tyre _ (queueEvent_queued hactive), fun hp => ?_⟩
  exact (wake_woken (hparked.trans hp) .tyre).before hsame

end Told

/-! ## Writing a position record (R90) -/

section Write
variable {s : State} {n : Nat} {r : PositionRec}

/-- A record written and its condition handed on, the new entry aside. -/
theorem putEffects_frame (n : Nat) (r : PositionRec) (s : State) :
    OnlyChanges (recordParts n) s (conditionEffects n (putPosition n r s)) := by
  have hput := (putPosition_frame n r s).mono (l := recordParts n) (by simp [recordParts])
  have hderate := (formDerate_frame (positionChannel n) _).step hput (fun _ h => h) (by simp [recordParts])
  exact (conditionEffects_afterDerate n _).step hderate (fun _ h => h) (by simp [recordParts])

/-- A write that brings no new entry into CRITICAL or LEAK tells nobody. -/
theorem writePosition_untold (h : isSevere (recCondition r) = true → isSevere (positionCondition s n) = true) :
    OnlyChanges (recordParts n) s (writePosition n r s) := by
  have hput := (putPosition_frame n r s).mono (l := recordParts n) (by simp [recordParts])
  have hcalm : ¬ ((isSevere (recCondition r) && !isSevere (positionCondition s n)) = true) := by simpa using h
  unfold writePosition
  dsimp only
  rw [if_neg hcalm]
  split
  · exact hput
  · exact putEffects_frame n r s

/-- A write that brings a new entry tells of it. -/
theorem writePosition_told (hnew : isSevere (recCondition r) = true) (hold : isSevere (positionCondition s n) = false) :
    EntryTold s (writePosition n r s) := by
  have hne : positionCondition s n ≠ recCondition r := fun h => by simp [h, hnew] at hold
  have hwrite : writePosition n r s = newEntry (conditionEffects n (putPosition n r s)) := by
    simp [writePosition, conditionEffects, hne, hnew, hold]
  rw [hwrite]
  exact (newEntry_told _).before (.of_frame (putEffects_frame n r s) rfl)

theorem writePosition_length (n : Nat) (r : PositionRec) (s : State) :
    (writePosition n r s).tyre.positions.length = s.tyre.positions.length := by
  have hpos : (writePosition n r s).tyre.positions = (putPosition n r s).tyre.positions :=
    writePosition_table n r s .positions rfl
  rw [hpos]
  exact List.length_set

theorem writePosition_strangers (n : Nat) (r : PositionRec) (s : State) : samePart s (writePosition n r s) .strangers :=
  writePosition_table n r s .strangers rfl

end Write

/-! ## Filling a position (R97, R101) -/

/-- The record of a position that an ID has taken with no data. -/
def bareRec (id : Nat) : PositionRec := { sensor := some id, dup := none, data := none }

section Fill
variable {s : State} {n : Nat} (id : Nat) (dup : DupMemory) (d : TyreData)

theorem fillPosition_eq (n : Nat) (s : State) : fillPosition n id dup d s =
    writePosition n ⟨some id, some dup, some d⟩ (writePosition n (bareRec id) s) := rfl

theorem positionOf_fillPosition (hlen : s.tyre.positions.length = 12) (hn : n ∈ allPositions) {m : Nat}
    (hm : m ∈ allPositions) :
    positionOf (fillPosition n id dup d s) m = if m = n then ⟨some id, some dup, some d⟩ else positionOf s m := by
  rw [fillPosition_eq, positionOf_writePosition _ ((writePosition_length _ _ _).trans hlen) hm hn,
    positionOf_writePosition _ hlen hm hn]
  split <;> rfl

theorem fillPosition_strangers (n : Nat) (s : State) : samePart s (fillPosition n id dup d s) .strangers :=
  (writePosition_strangers n (bareRec id) s).trans (writePosition_strangers n _ _)

/-- Cleared first, the position makes a severe reading a new entry, whatever it held. -/
theorem fillPosition_told (hlen : s.tyre.positions.length = 12) (hn : n ∈ allPositions)
    (hsevere : isSevere (some (dataCondition d)) = true) : EntryTold s (fillPosition n id dup d s) := by
  have hbare : OnlyChanges (recordParts n) s (writePosition n (bareRec id) s) := writePosition_untold (fun h => by cases h)
  have hcleared : isSevere (positionCondition (writePosition n (bareRec id) s) n) = false := by
    unfold positionCondition
    rw [positionOf_writePosition _ hlen hn hn, if_pos rfl]
    rfl
  rw [fillPosition_eq]
  exact (writePosition_told (r := ⟨some id, some dup, some d⟩) hsevere hcleared).before (.of_frame hbare rfl)

end Fill

/-! ## The move rule (R99) -/

/-- What the move rule may change: an unassigned position tells nobody. -/
def moveParts : List Part :=
  [.positions, .strangers, .rollFlag, .worst] ++ everyChannel (fun c => [.derate c, .resolution c])

theorem unassign_untold (n : Nat) (s : State) : OnlyChanges moveParts s (unassign n s) := by
  have hwrite : OnlyChanges (recordParts n) s (unassign n s) := writePosition_untold (fun h => by cases h)
  refine hwrite.mono fun q hq => ?_
  have hchannel := subset_everyChannel (fun c => [Part.derate c, Part.resolution c]) (positionChannel n)
  simp only [recordParts, List.mem_cons, List.not_mem_nil, or_false] at hq
  rcases hq with rfl | rfl | rfl | rfl | rfl
  · simp [moveParts]
  · exact List.mem_append_right _ (hchannel (by simp))
  · exact List.mem_append_right _ (hchannel (by simp))
  · simp [moveParts]
  · simp [moveParts]

theorem takeTurn_untold (id n : Nat) (t : State) (m : Nat) : OnlyChanges moveParts t (takeTurn id n t m) :=
  OnlyChanges.ite (fun _ => unassign_untold m t) (fun _ => .refl _ t)

theorem takeOut_untold (id n : Nat) (s : State) : OnlyChanges moveParts s (takeOut id n s) := by
  have hturns : OnlyChanges moveParts s (takenFromPositions id n s) := foldl_frame (takeTurn_untold id n) allPositions s
  rw [takeOut_eq]
  exact hturns.trans (setTyre_frame (.inr rfl) (.inl (by simp [moveParts])) (.inr ⟨rfl, rfl, rfl⟩) (.inr rfl) (.inr rfl)
    (.inr rfl))

theorem positionOf_takeTurn (id n : Nat) {k m : Nat} (hk : k ∈ allPositions) (hm : m ∈ allPositions) (hne : k ≠ n) (s : State) :
    positionOf (takeTurn id n s m) k =
      if k = m ∧ (positionOf s k).sensor = some id then PositionRec.empty else positionOf s k := by
  unfold takeTurn
  by_cases hkm : k = m
  · subst hkm
    by_cases hid : (positionOf s k).sensor = some id
    · rw [if_pos ⟨hne, hid⟩, positionOf_unassign, if_pos rfl, if_pos ⟨rfl, hid⟩]
    · rw [if_neg (fun h => hid h.2), if_neg (fun h => hid h.2)]
  · have hindex : k - 1 ≠ m - 1 := by
      rw [mem_allPositions] at hk hm
      omega
    rw [if_neg (c := k = m ∧ _) (fun h => hkm h.1)]
    split
    · rw [positionOf_unassign, if_neg hindex]
    · rfl

/-- What the turns of some positions do to a position: cleared, if its turn was among them and it held the ID. -/
theorem positionOf_takeTurns (id n : Nat) {k : Nat} (hk : k ∈ allPositions) (hne : k ≠ n) :
    ∀ (ms : List Nat) (s : State), (∀ m, m ∈ ms → m ∈ allPositions) → positionOf (ms.foldl (takeTurn id n) s) k =
      if k ∈ ms ∧ (positionOf s k).sensor = some id then PositionRec.empty else positionOf s k
  | [], s, _ => by simp
  | m :: ms, s, hms => by
    have hm := hms m List.mem_cons_self
    rw [List.foldl_cons, positionOf_takeTurns id n hk hne ms _ (fun j hj => hms j (List.mem_cons_of_mem m hj)),
      positionOf_takeTurn id n hk hm hne]
    by_cases hcleared : k = m ∧ (positionOf s k).sensor = some id
    · rw [if_pos hcleared, ite_self, if_pos ⟨by simp [hcleared.1], hcleared.2⟩]
    · rw [if_neg hcleared]
      refine if_congr ?_ rfl rfl
      rw [List.mem_cons]
      tauto

theorem takeOut_takenOut (id n : Nat) (s : State) : TakenOut s (takeOut id n s) id n := by
  have hstrangers : samePart s (takenFromPositions id n s) .strangers :=
    List.foldlRecOn (motive := fun t => samePart s t .strangers) allPositions _ (samePart.refl s _) fun t ht m _ => by
      refine ht.trans ?_
      unfold takeTurn
      split
      · exact writePosition_strangers m _ t
      · exact samePart.refl t _
  refine ⟨fun m hm hne => ?_, congrArg (withoutStranger id) hstrangers⟩
  refine (positionOf_takeTurns id n hm hne allPositions s fun _ h => h).trans ?_
  simp [hm]

theorem takeOut_length (id n : Nat) (s : State) :
    (takeOut id n s).tyre.positions.length = s.tyre.positions.length :=
  List.foldlRecOn (motive := fun (t : State) => t.tyre.positions.length = s.tyre.positions.length) allPositions _ rfl
    fun t ht m _ => by
      split
      · exact (writePosition_length m _ t).trans ht
      · exact ht

section Taken
variable {s t u : State} {id n : Nat}

theorem TakenOut.before (hpositions : samePart s t .positions) (hstrangers : samePart s t .strangers)
    (k : TakenOut t u id n) : TakenOut s u id n := by
  obtain ⟨hpos, hlist⟩ := k
  refine ⟨fun m hm hne => ?_, Eq.trans hlist (congrArg (withoutStranger id) hstrangers)⟩
  rw [hpos m hm hne, positionOf_stay hpositions]

/-- What is done to the position itself leaves it so. -/
theorem TakenOut.after (h : TakenOut s t id n) (hpos : ∀ m, m ∈ allPositions → m ≠ n → positionOf u m = positionOf t m)
    (hstrangers : samePart t u .strangers) : TakenOut s u id n :=
  ⟨fun m hm hne => (hpos m hm hne).trans (h.1 m hm hne), Eq.trans hstrangers h.2⟩

theorem TakenOut.stay (h : TakenOut s t id n) (k : SameOn isTable t u) : TakenOut s u id n :=
  h.after (fun m _ _ => positionOf_stay (k .positions rfl) m) (k .strangers rfl)

end Taken

end Sys2Proof
end

