-- ==== Sys2Proof/Proofs/TyreCommands.lean ====
section
/-! TYRE_LEARN, TYRE_ASSIGN, TYRE_ADOPT and TYRE_CLEAR (R96, R98 to R102; O31): what each does to the tables before its transfer is
answered, and what the transfer leaves of it. -/

namespace Sys2Proof

open Sys2Proof.Machine

/-! ## A learn cancelled (R98) -/

section Learn
variable {s t u : State} {n : Nat}

theorem LearnCancelled.after (h : LearnCancelled s t n) (hlearn : samePart t u .learn)
    (hflag : FlagSame Attention.learnOutcome t u) : LearnCancelled s u n := by
  obtain ⟨hcancelled, helsewhere⟩ := h
  obtain ⟨hrun, houtcome, hid⟩ := hlearn
  refine ⟨fun r hr hn => ?_, fun hno => (helsewhere hno).trans ⟨hrun, houtcome, hid⟩⟩
  obtain ⟨h1, h2, h3, h4⟩ := hcancelled r hr hn
  exact ⟨hrun.trans h1, houtcome.trans h2, hid.trans h3, Eq.trans hflag h4⟩

theorem cancelLearnAt_cancelled (n : Nat) (s : State) : LearnCancelled s (cancelLearnAt n s) n := by
  cases hlearn : s.tyre.learn with
  | none =>
    have hsame : cancelLearnAt n s = s := by simp [cancelLearnAt, hlearn]
    rw [hsame]
    exact ⟨fun r hr => by simp [hlearn] at hr, fun _ => samePart.refl s _⟩
  | some run =>
    by_cases hn : run.position = n
    · have hended : cancelLearnAt n s = raiseLearnOutcome (endLearn .cancelled none s) := by
        simp [cancelLearnAt, hlearn, hn]
      rw [hended]
      exact ⟨fun _ _ _ => ⟨rfl, rfl, rfl, rfl⟩, fun hno => absurd hn (hno run hlearn)⟩
    · have hsame : cancelLearnAt n s = s := by simp [cancelLearnAt, hlearn, hn]
      rw [hsame]
      refine ⟨fun r hr hrn => ?_, fun _ => samePart.refl s _⟩
      rw [hlearn, Option.some.injEq] at hr
      exact absurd (hr ▸ hrn) hn

end Learn

/-! ## The learn outcome past the writing of positions -/

/-- The learn record and the responses of the ports. -/
def isAside : Part → Bool
  | .learn | .response _ => true
  | _ => false

theorem aside_not_positionParts {q : Part} (hq : isAside q = true) (s : State) : q ∉ positionParts s := by
  have hbackup (c : Channel) : q ∉ backupParts c := by
    cases q <;> simp_all [isAside, backupParts, freeParts, resolveParts, abortParts, eventParts, noticeParts]
  have hwake : q ∉ wakeParts s := not_mem_wakeParts (by rintro rfl; cases hq) hbackup
  simp only [positionParts, List.mem_append, mem_everyChannel, not_or, not_exists]
  cases q <;> simp_all [isAside, eventParts, noticeParts]

theorem response_not_positionParts (p : Port) (s : State) : .response p ∉ positionParts s := aside_not_positionParts rfl s

/-- Nothing that a written record sets off takes the learn outcome flag away. -/
theorem writePosition_standing {f : Attention → Bool} (hf : Standing f) (n : Nat) (r : PositionRec) (s : State) :
    FlagSame f s (writePosition n r s) := by
  have hput : FlagSame f s (putPosition n r s) := .of_frame (putPosition_frame n r s) (by simp)
  have heffects : FlagSame f s (conditionEffects n (putPosition n r s)) :=
    .of_frame (putEffects_frame n r s) (by simp [recordParts])
  unfold writePosition
  dsimp only
  split_ifs
  · exact hput
  · exact (heffects.trans (queueEvent_standing hf _)).trans (wake_standing hf .tyre _)
  · exact heffects

/-! ## A command that writes an ID (R98 to R101) -/

/-- A learn at the position cancelled, and the ID taken out of every other place: what comes before an ID is written. -/
def readied (id n : Nat) (s : State) : State := takeOut id n (cancelLearnAt n s)

section Readied
variable (id n : Nat) (s : State)

theorem cancelLearnAt_positions : samePart s (cancelLearnAt n s) .positions :=
  cancelLearnAt_frame n s .positions (by simp)

theorem readied_untold : OnlyChanges (.learn :: .attention .a :: moveParts) s (readied id n s) :=
  (takeOut_untold id n _).step (cancelLearnAt_frame n s) (by simp) (by simp)

theorem readied_length : (readied id n s).tyre.positions.length = s.tyre.positions.length :=
  (takeOut_length id n _).trans (congrArg List.length (cancelLearnAt_positions n s))

theorem readied_cancelled : LearnCancelled s (readied id n s) n := by
  have hmove := takeOut_untold id n (cancelLearnAt n s)
  exact (cancelLearnAt_cancelled n s).after (hmove .learn (by simp [moveParts, mem_everyChannel]))
    (.of_frame hmove (by simp [moveParts, mem_everyChannel]))

theorem readied_takenOut : TakenOut s (readied id n s) id n :=
  (takeOut_takenOut id n _).before (cancelLearnAt_positions n s) (cancelLearnAt_frame n s .strangers (by simp))

theorem readied_target (m : Nat) : positionTarget (readied id n s) m = s.tyre.target.get (positionAxle m) := by
  have htarget : (readied id n s).tyre.target = s.tyre.target :=
    readied_untold id n s .targets (by simp [moveParts, mem_everyChannel])
  simp only [positionTarget, htarget]

end Readied

/-! ## The commands (R96, R100 to R102) -/

theorem positionOk_of_mem {n : Nat} (h : n ∈ allPositions) : positionOk n = true := by
  rw [mem_allPositions] at h
  simp [positionOk, h]

/-- What the transfer of a command that was carried out leaves of it, beside its answer (R165, R178). -/
theorem tyreCommand_acts {n : Nat} {act : Action} {l : List Part} {s u : State} (hact : act s = (plainReply .ok, u))
    (hframe : OnlyChanges l s u) (hl : .response .a ∉ l) :
    Answered s (transfer .a n act s) .a n .ok [] ∧ RecordsStay u (transfer .a n act s) ∧
      FlagSame Attention.learnOutcome u (transfer .a n act s) ∧
      OnlyChanges (l ++ transferParts s .a) s (transfer .a n act s) := by
  have hstate : (act s).2 = u := congrArg Prod.snd hact
  exact ⟨transfer_answered hact hframe hl, hstate ▸ transfer_recordsStay .a n act s,
    hstate ▸ transfer_standing learnOutcome_standing .a n act s, transfer_frame (hstate ▸ hframe)⟩

section Commands
variable {s : State} {n : Nat}

theorem tyreLearn_begins (hn : n ∈ allPositions) (hfree : s.tyre.learn = none) : ∃ t, exec (.tyreLearn .a n) s = .next t ∧
    Answered s t .a 8 .ok [] ∧ t.tyre.learn = some ⟨n, 120000⟩ ∧ t.tyre.learnOutcome = none ∧ t.tyre.learnedId = none ∧
    OnlyChanges (.learn :: transferParts s .a) s t := by
  obtain ⟨hanswer, hrecords, -, hchanges⟩ := tyreCommand_acts (n := 8) (s := s) (u := beginLearn n s)
    (act := takenFrom .a .a (withArgument (positionOk n)
      (unlessState (fun t => t.tyre.learn.isSome) .busy (accept (beginLearn n)))))
    (by simp [takenFrom, withArgument, unlessState, accept, positionOk_of_mem hn, hfree]) (beginLearn_frame n s) (by simp)
  obtain ⟨hlearn, houtcome, hid⟩ := hrecords .learn rfl
  exact ⟨_, rfl, hanswer, hlearn, houtcome, hid, hchanges⟩

theorem tyreAssign_writes (hn : n ∈ allPositions) (hlen : s.tyre.positions.length = 12) {id : Nat}
    (hother : (positionOf s n).sensor ≠ some id) : ∃ t, exec (.tyreAssign .a n id) s = .next t ∧
    Answered s t .a 9 .ok [] ∧ positionOf t n = ⟨some id, none, none⟩ ∧ TakenOut s t id n ∧ LearnCancelled s t n ∧
    OnlyChanges (.learn :: .strangers :: positionParts s ++ transferParts s .a) s t := by
  have hassign : assignSensor n id s = writePosition n (bareRec id) (readied id n s) := rfl
  have hof {m : Nat} (hm : m ∈ allPositions) :=
    positionOf_writePosition (bareRec id) ((readied_length id n s).trans hlen) hm hn
  obtain ⟨hanswer, hrecords, hflag, hchanges⟩ := tyreCommand_acts (n := 9) (s := s) (u := assignSensor n id s)
    (act := takenFrom .a .a (withArgument (positionOk n)
      (unlessState (fun t => (positionOf t n).sensor == some id) .already (accept (assignSensor n id)))))
    (by simp [takenFrom, withArgument, unlessState, accept, positionOk_of_mem hn, hother]) (assignSensor_frame n id s)
    (by simp [response_not_positionParts])
  rw [hassign] at hrecords hflag
  refine ⟨_, rfl, hanswer, ?position, ?moved, ?cancelled, hchanges⟩
  case position =>
    rw [positionOf_stay (hrecords .positions rfl), hof hn, if_pos rfl]
    rfl
  case moved =>
    refine TakenOut.stay ((readied_takenOut id n s).after (fun m hm hne => ?_) (writePosition_strangers n _ _)) hrecords.table
    rw [hof hm, if_neg hne]
  case cancelled =>
    have hwrite := writePosition_frame_all n (bareRec id) (readied id n s)
    exact ((readied_cancelled id n s).after (hwrite .learn (aside_not_positionParts rfl _))
      (writePosition_standing learnOutcome_standing n _ _)).after (hrecords .learn rfl) hflag

/-- A flag evaluated as at a first telegram has its set condition alone (R89). -/
theorem flagNext_first (set clear : Bool) : flagNext set clear false = set := by
  unfold flagNext
  cases set <;> simp

theorem adoptedData_eq (target : Nat) (e : Stranger) : adoptedData target e =
    let p := min 1275 ((e.pMeas + 100) * 293 / (e.temperature + 273).toNat - 100)
    ⟨e.pMeas, e.temperature, p, false, decide (p < target * 819 / 1024), decide (p < target * 922 / 1024),
      decide (95 ≤ e.temperature), e.ageMs, decide (600000 ≤ e.ageMs), false⟩ := by
  have hstale : decide (600 ≤ e.ageMs / 1000) = decide (600000 ≤ e.ageMs) := decide_eq_decide.mpr (by omega)
  simp only [adoptedData, criticalNext, lowNext, hotNext, flagNext_first, hstale]
  rfl

theorem tyreAdopt_fills (hn : n ∈ allPositions) (hlen : s.tyre.positions.length = 12) {index : Nat} {e : Stranger}
    (he : s.tyre.strangers[index]? = some e) : ∃ t, exec (.tyreAdopt .a n index) s = .next t ∧
    Answered s t .a 10 .ok [] ∧ TakenOut s t e.sensor n ∧ LearnCancelled s t n ∧
    positionOf t n = ⟨some e.sensor, some ⟨e.counter, e.counterAge⟩,
      some (adoptedData (s.tyre.target.get (positionAxle n)) e)⟩ ∧
    (isSevere (positionCondition t n) = true → EntryTold s t) ∧
    OnlyChanges (.learn :: .strangers :: positionParts s ++ transferParts s .a) s t := by
  let d := adoptedData (s.tyre.target.get (positionAxle n)) e
  let act : Action := takenFrom .a .a (withArgument (positionOk n) (adoptAction n index))
  have hadopt : adoptStranger n e s = fillPosition n e.sensor ⟨e.counter, e.counterAge⟩ d (readied e.sensor n s) := by
    simp only [d, ← readied_target e.sensor n s n]
    rfl
  have hready : (readied e.sensor n s).tyre.positions.length = 12 := (readied_length e.sensor n s).trans hlen
  have hof {m : Nat} (hm : m ∈ allPositions) :=
    positionOf_fillPosition e.sensor ⟨e.counter, e.counterAge⟩ d hready hn hm
  have hact : act s = (plainReply .ok, adoptStranger n e s) := by
    simp [act, takenFrom, withArgument, adoptAction, accept, positionOk_of_mem hn, he]
  obtain ⟨hanswer, hrecords, hflag, hchanges⟩ := tyreCommand_acts (n := 10) hact (adoptStranger_frame n e s)
    (by simp [response_not_positionParts])
  have hposition : positionOf (transfer .a 10 act s) n = ⟨some e.sensor, some ⟨e.counter, e.counterAge⟩, some d⟩ := by
    rw [positionOf_stay (hrecords .positions rfl), hadopt, hof hn, if_pos rfl]
  refine ⟨_, rfl, hanswer, ?moved, ?cancelled, hposition, fun hsevere => ?told, hchanges⟩
  case moved =>
    refine TakenOut.stay ?_ hrecords.table
    rw [hadopt]
    refine (readied_takenOut e.sensor n s).after (fun m hm hne => ?_) (fillPosition_strangers _ _ d n _)
    rw [hof hm, if_neg hne]
  case cancelled =>
    have hfill := fillPosition_frame n e.sensor ⟨e.counter, e.counterAge⟩ d (readied e.sensor n s)
    refine LearnCancelled.after ?_ (hrecords .learn rfl) hflag
    rw [hadopt]
    exact (readied_cancelled e.sensor n s).after (hfill .learn (aside_not_positionParts rfl _))
      ((writePosition_standing learnOutcome_standing n _ _).trans (writePosition_standing learnOutcome_standing n _ _))
  case told =>
    unfold positionCondition at hsevere
    rw [hposition] at hsevere
    refine EntryTold.transfer (act := act) ?_
    rw [hact]
    change EntryTold s (adoptStranger n e s)
    rw [hadopt]
    refine (fillPosition_told e.sensor ⟨e.counter, e.counterAge⟩ d hready hn hsevere).before ?_
    exact .of_frame (readied_untold e.sensor n s) rfl

theorem tyreClear_empties (hn : n ∈ allPositions) : ∃ t, exec (.tyreClear .a n) s = .next t ∧
    Answered s t .a 11 .ok [] ∧ positionOf t n = PositionRec.empty ∧
    (∀ m, m ∈ allPositions → m ≠ n → positionOf t m = positionOf s m) ∧ LearnCancelled s t n ∧
    OnlyChanges (.learn :: positionParts s ++ transferParts s .a) s t := by
  obtain ⟨hanswer, hrecords, hflag, hchanges⟩ := tyreCommand_acts (n := 11) (s := s) (u := clearPosition n s)
    (act := takenFrom .a .a (withArgument (positionOk n) (accept (clearPosition n))))
    (by simp [takenFrom, withArgument, accept, positionOk_of_mem hn]) (clearPosition_frame n s)
    (by simp [response_not_positionParts])
  have hpos := positionOf_stay (hrecords .positions rfl)
  refine ⟨_, rfl, hanswer, ?emptied, fun m hm hne => ?others, ?cancelled, hchanges⟩
  case emptied => rw [hpos, clearPosition, positionOf_unassign, if_pos rfl]
  case others =>
    have hindex : m - 1 ≠ n - 1 := by
      rw [mem_allPositions] at hm hn
      omega
    rw [hpos, clearPosition, positionOf_unassign, if_neg hindex, positionOf_stay (cancelLearnAt_positions n s)]
  case cancelled =>
    have hclear := unassign_untold n (cancelLearnAt n s)
    exact ((cancelLearnAt_cancelled n s).after (hclear .learn (by simp [moveParts, mem_everyChannel]))
      (.of_frame hclear (by simp [moveParts, mem_everyChannel]))).after (hrecords .learn rfl) hflag

end Commands

/-- Settles O31: each command passes its checks and writes the tables; the transfer adds its answer, and no second wake to that of a
severe adoption. -/
theorem tyreCommandsTeachPositions : Obligations.TyreCommandsTeachPositions := by
  unfold Obligations.TyreCommandsTeachPositions
  intro s n hn hlen
  refine ⟨tyreLearn_begins hn, fun id => tyreAssign_writes hn hlen, fun index e he => ?_, tyreClear_empties hn⟩
  obtain ⟨t, hexec, hanswer, hmoved, hcancelled, hposition, htold, hchanges⟩ := tyreAdopt_fills hn hlen he
  refine ⟨t, hexec, hanswer, hmoved, hcancelled, hposition.trans ?_, fun hsevere => ?_, hchanges⟩
  · rw [adoptedData_eq]
  · obtain ⟨hqueued, hwoken⟩ := htold hsevere
    refine ⟨hqueued, fun hp => ?_⟩
    obtain ⟨hstandby, -⟩ := hwoken hp
    rw [hstandby]

end Sys2Proof
end

