-- ==== Sys2Proof/Proofs/TelegramIntake.lean ====
section
/-! A telegram as delivered (R82 to R85, R87, R89, R90, R94, R97, R104; O19): the checks that drop it, and the dispatch of one that is
taken. -/

namespace Sys2Proof

open Sys2Proof.Machine

/-! ## The position that holds an ID, duplicates (R83) -/

/-- The lowest position that holds an ID. -/
def IsHolder (s : State) (id n : Nat) : Prop :=
  n ∈ allPositions ∧ (positionOf s n).sensor = some id ∧
    ∀ m, m ∈ allPositions → m < n → (positionOf s m).sensor ≠ some id

section Holder
variable {s : State} {id n : Nat}

theorem allPositions_eq : allPositions = List.range' 1 12 := rfl

theorem holderOf_iff : holderOf s id = some n ↔ IsHolder s id n := by
  unfold holderOf IsHolder
  rw [allPositions_eq, List.find?_range'_eq_some]
  simp only [beq_iff_eq, Bool.not_eq_true', beq_eq_false_iff_ne, List.mem_range'_1]
  constructor
  · rintro ⟨hid, hn, hbelow⟩
    exact ⟨hn, hid, fun m hm hlt => hbelow m hm.1 hlt⟩
  · rintro ⟨hn, hid, hbelow⟩
    exact ⟨hid, hn, fun m hm hlt => hbelow m ⟨hm, by omega⟩ hlt⟩

theorem holderOf_none_iff : holderOf s id = none ↔ ∀ n, ¬ IsHolder s id n := by
  simp only [← holderOf_iff, Option.eq_none_iff_forall_ne_some, ne_eq]

/-- R83: the counter of the last telegram of an ID, at its position or in the Stranger List, within 2000 ms. -/
theorem isDuplicate_iff (s : State) (g : Telegram) : isDuplicate s g = true ↔
    (∃ n d, IsHolder s g.sensor n ∧ (positionOf s n).dup = some d ∧ d.counter = g.counter ∧ d.age < 2000) ∨
    (∃ e, (∀ n, ¬ IsHolder s g.sensor n) ∧ s.tyre.strangers.find? (fun e => e.sensor == g.sensor) = some e ∧
      e.counter = g.counter ∧ e.counterAge < 2000) := by
  have hmemory : isDuplicate s g = true ↔
      ∃ d, dupMemory s g.sensor = some d ∧ d.counter = g.counter ∧ d.age < 2000 := by
    unfold isDuplicate
    cases dupMemory s g.sensor <;> simp
  rw [hmemory]
  unfold dupMemory
  cases hholder : holderOf s g.sensor with
  | some n =>
    have hn := holderOf_iff.mp hholder
    constructor
    · rintro ⟨d, hd, hrepeats⟩
      exact .inl ⟨n, d, hn, hd, hrepeats⟩
    · rintro (⟨m, d, hm, hd, hrepeats⟩ | ⟨e, hnone, -⟩)
      · rw [← holderOf_iff, hholder, Option.some.injEq] at hm
        subst hm
        exact ⟨d, hd, hrepeats⟩
      · exact absurd hn (hnone n)
  | none =>
    have hnone := holderOf_none_iff.mp hholder
    constructor
    · rintro ⟨d, hd, hrepeats⟩
      obtain ⟨e, he, rfl⟩ := Option.map_eq_some_iff.mp hd
      exact .inr ⟨e, hnone, he, hrepeats⟩
    · rintro (⟨n, d, hn, -⟩ | ⟨e, -, he, hrepeats⟩)
      · exact absurd hn (hnone n)
      · exact ⟨_, Option.map_eq_some_iff.mpr ⟨e, he, rfl⟩, hrepeats⟩

end Holder

/-! ## Acceptance windows (R84) -/

/-- The mask of an acceptance window. -/
def windowMask (ws : List Nat) (k : Nat) : Nat := ws.getD (43 + 5 * k) 0 * 65536 + ws.getD (44 + 5 * k) 0

theorem any_windows (p : Nat → Bool) : [0, 1, 2, 3].any p = true ↔ ∃ k, k < 4 ∧ p k = true := by
  rw [show [0, 1, 2, 3] = List.range 4 from rfl, List.any_eq_true]
  simp only [List.mem_range]

/-- R84: a window matches, or none is enabled. -/
theorem isAccepted_iff (ws : List Nat) (id : Nat) : isAccepted ws id = true ↔
    (∃ k, k < 4 ∧ ws.getD (40 + 5 * k) 0 = 1 ∧ id &&& windowMask ws k =
      (ws.getD (41 + 5 * k) 0 * 65536 + ws.getD (42 + 5 * k) 0) &&& windowMask ws k) ∨
    ∀ k, k < 4 → ws.getD (40 + 5 * k) 0 ≠ 1 := by
  have hmatches (k : Nat) : windowMatches ws id k = true ↔ ws.getD (40 + 5 * k) 0 = 1 ∧ id &&& windowMask ws k =
      (ws.getD (41 + 5 * k) 0 * 65536 + ws.getD (42 + 5 * k) 0) &&& windowMask ws k := by
    simp only [windowMatches, calWindowEnabled, Bool.and_eq_true, beq_iff_eq]
    rfl
  have hdisabled : (!([0, 1, 2, 3].any (calWindowEnabled ws))) = true ↔ ∀ k, k < 4 → ws.getD (40 + 5 * k) 0 ≠ 1 := by
    rw [Bool.not_eq_true', ← Bool.not_eq_true, any_windows]
    simp only [calWindowEnabled, beq_iff_eq, not_exists, not_and]
    rfl
  rw [isAccepted, Bool.or_eq_true, any_windows, hdisabled]
  simp only [hmatches]

/-! ## The data of a telegram (R87, R89) -/

theorem leakSet_eq (previous : Option TyreData) (p : Nat) (rapid : Bool) : leakSet previous p rapid =
    (rapid || match previous with
      | some d => decide (d.ageMs / 1000 ≤ 120 ∧ p + 15 ≤ d.pComp)
      | none => false) := by
  cases previous with
  | none => rfl
  | some d => simp only [leakSet, Bool.decide_and]

/-! ## Dispatch (R85) -/

/-- R85, case 1: a learn flag from an ID that the learning position does not hold completes the learn. -/
def Completes (s : State) (g : Telegram) (n : Nat) : Prop :=
  (∃ r, s.tyre.learn = some r ∧ r.position = n) ∧ g.learn = true ∧ (positionOf s n).sensor ≠ some g.sensor

theorem learnTarget_iff (s : State) (g : Telegram) (n : Nat) : learnTarget s g = some n ↔ Completes s g n := by
  unfold learnTarget Completes
  cases s.tyre.learn with
  | none => simp
  | some r =>
    dsimp only
    constructor
    · intro h
      split at h
      · next hcase =>
        simp only [Bool.and_eq_true, bne_iff_ne] at hcase
        cases h
        exact ⟨⟨r, rfl, rfl⟩, hcase⟩
      · simp at h
    · rintro ⟨⟨q, hq, rfl⟩, hlearn, hother⟩
      cases hq
      simp [hlearn, hother]

theorem learnTarget_none_iff (s : State) (g : Telegram) : learnTarget s g = none ↔ ∀ n, ¬ Completes s g n := by
  simp only [← learnTarget_iff, Option.eq_none_iff_forall_ne_some, ne_eq]

section Dispatch
variable {s : State} {g : Telegram} {n : Nat}

theorem dispatch_completes (h : Completes s g n) : dispatchTelegram g s = completeLearn n g s := by
  simp only [dispatchTelegram, (learnTarget_iff s g n).mpr h]

theorem dispatch_updates (hlearn : ∀ m, ¬ Completes s g m) (h : IsHolder s g.sensor n) :
    dispatchTelegram g s = takeForPosition n g s := by
  simp only [dispatchTelegram, (learnTarget_none_iff s g).mpr hlearn, holderOf_iff.mpr h]

theorem dispatch_stranger (hlearn : ∀ m, ¬ Completes s g m) (h : ∀ m, ¬ IsHolder s g.sensor m) :
    dispatchTelegram g s = takeStranger g s := by
  simp only [dispatchTelegram, (learnTarget_none_iff s g).mpr hlearn, holderOf_none_iff.mpr h]

/-- A position updated: its own record alone, and a severe reading that follows none is told (R87, R104). -/
theorem takeForPosition_updates (hlen : s.tyre.positions.length = 12) (hn : n ∈ allPositions) :
    let t := refreshFaults (takeForPosition n g s)
    positionOf t n = ⟨(positionOf s n).sensor, some ⟨g.counter, 0⟩,
      some (dataAfter (positionOf s n).data (s.tyre.target.get (positionAxle n)) g)⟩ ∧
    (∀ m, m ∈ allPositions → m ≠ n → positionOf t m = positionOf s m) ∧
    (isSevere (positionCondition s n) = false → isSevere (positionCondition t n) = true → EntryTold s t) ∧
    OnlyChanges (recordParts n ++ eventParts ++ wakeParts s) s t := by
  intro t
  let r : PositionRec := ⟨(positionOf s n).sensor, some ⟨g.counter, 0⟩,
    some (dataAfter (positionOf s n).data (s.tyre.target.get (positionAxle n)) g)⟩
  have hof {m : Nat} (hm : m ∈ allPositions) : positionOf t m = if m = n then r else positionOf s m :=
    (positionOf_stay (refreshFaults_frame _ .positions (by simp [noticeParts])) m).trans
      (positionOf_writePosition r hlen hm hn)
  have hposition : positionOf t n = r := (hof hn).trans (if_pos rfl)
  refine ⟨hposition, fun m hm hne => (hof hm).trans (if_neg hne), fun hold hsevere => EntryTold.refresh ?_, ?_⟩
  · unfold positionCondition at hsevere
    rw [hposition] at hsevere
    exact writePosition_told hsevere hold
  · refine (refreshFaults_frame _).step (writePosition_frame n r s) (fun _ h => h) (fun q hq => ?_)
    simp [eventParts, hq]

/-- The Stranger List with the telegram in front (R94). -/
theorem strangersAfter_eq (g : Telegram) (l : List Stranger) : strangersAfter g l =
    let stranger := l.find? (fun e => e.sensor == g.sensor)
    ⟨g.sensor, g.pMeas, (g.tempCode : Int) - 40, g.counter, 0,
        (match stranger with
         | some e => min 255 (e.hits + 1)
         | none => 1), 0⟩ ::
      (if stranger.isSome then l.filter (fun e => e.sensor != g.sensor) else l.take 7) := by
  dsimp only
  unfold strangersAfter
  cases l.find? (fun e => e.sensor == g.sensor) <;> rfl

theorem takeStranger_joins (g : Telegram) (s : State) :
    (refreshFaults (takeStranger g s)).tyre.strangers = strangersAfter g s.tyre.strangers ∧
    OnlyChanges (.strangers :: noticeParts) s (refreshFaults (takeStranger g s)) :=
  ⟨refreshFaults_frame (takeStranger g s) .strangers (by simp [noticeParts]),
    (refreshFaults_frame _).step (takeStranger_frame g s) (by simp) (by simp)⟩

end Dispatch

/-! ## A completed learn (R97) -/

/-- A completed learn ends and Port A is told, the faults brought up to date. -/
def learnClosed (id : Nat) (s : State) : State := refreshFaults (raiseLearnOutcome (endLearn .completed (some id) s))

section Closed
variable {s t : State} (id : Nat)

theorem learnClosed_frame (s : State) : OnlyChanges (.learn :: noticeParts) s (learnClosed id s) := by
  have hraise := (raiseLearnOutcome_frame _).step (endLearn_frame .completed (some id) s) (l := .learn :: noticeParts)
    (by simp) (by simp [noticeParts])
  exact (refreshFaults_frame _).step hraise (fun _ h => h) (by simp)

theorem learnClosed_outcome (s : State) : (learnClosed id s).tyre.learn = none ∧
    (learnClosed id s).tyre.learnOutcome = some .completed ∧ (learnClosed id s).tyre.learnedId = some id ∧
    (learnClosed id s).portA.attention.learnOutcome = true := by
  let raised := raiseLearnOutcome (endLearn .completed (some id) s)
  obtain ⟨hrun, houtcome, hid⟩ := refreshFaults_frame raised .learn (by simp [noticeParts])
  exact ⟨hrun, houtcome, hid, refreshFaults_standing learnOutcome_standing raised⟩

theorem EntryTold.learnClosed (h : EntryTold s t) : EntryTold s (learnClosed id t) := by
  have hend := endLearn_frame .completed (some id) t
  have hraise := raiseLearnOutcome_frame (endLearn .completed (some id) t)
  exact ((h.after (.of_frame hend rfl) (.of_frame hend (by simp))).after (.of_frame hraise rfl) rfl).refresh

end Closed

/-- The position holds the ID as after a first telegram, and a severe reading is told (R97, R104). -/
theorem completeLearn_learns {s : State} {g : Telegram} {n : Nat} (hlen : s.tyre.positions.length = 12)
    (hn : n ∈ allPositions) :
    let t := refreshFaults (completeLearn n g s)
    positionOf t n = ⟨some g.sensor, some ⟨g.counter, 0⟩, some (dataAfter none (s.tyre.target.get (positionAxle n)) g)⟩ ∧
    TakenOut s t g.sensor n ∧ (isSevere (positionCondition t n) = true → EntryTold s t) ∧
    t.tyre.learn = none ∧ t.tyre.learnOutcome = some .completed ∧ t.tyre.learnedId = some g.sensor ∧
    t.portA.attention.learnOutcome = true ∧ OnlyChanges (.learn :: .strangers :: positionParts s) s t := by
  intro t
  let d := dataAfter none (s.tyre.target.get (positionAxle n)) g
  let moved := takeOut g.sensor n s
  let filled := fillPosition n g.sensor ⟨g.counter, 0⟩ d moved
  have hmove := takeOut_untold g.sensor n s
  have hmoved : moved.tyre.positions.length = 12 := (takeOut_length g.sensor n s).trans hlen
  have htarget : moved.tyre.target = s.tyre.target := hmove .targets (by simp [moveParts, mem_everyChannel])
  have hd : dataAfter none (positionTarget moved n) g = d := by simp only [d, positionTarget, htarget]
  have hclosed : t = learnClosed g.sensor filled := by
    simp only [t, completeLearn, learnClosed, filled, moved, ← hd]
  have hafter : OnlyChanges (.learn :: noticeParts) filled t := hclosed ▸ learnClosed_frame g.sensor filled
  have hof {m : Nat} (hm : m ∈ allPositions) : positionOf t m =
      if m = n then ⟨some g.sensor, some ⟨g.counter, 0⟩, some d⟩ else positionOf moved m :=
    (positionOf_stay (hafter .positions (by simp [noticeParts])) m).trans (positionOf_fillPosition _ _ d hmoved hn hm)
  have hposition : positionOf t n = ⟨some g.sensor, some ⟨g.counter, 0⟩, some d⟩ := (hof hn).trans (if_pos rfl)
  obtain ⟨hrun, houtcome, hid, hflag⟩ := hclosed ▸ learnClosed_outcome g.sensor filled
  refine ⟨hposition, ?moved, fun hsevere => ?told, hrun, houtcome, hid, hflag, ?frame⟩
  case moved =>
    refine (takeOut_takenOut g.sensor n s).after (fun m hm hne => (hof hm).trans (if_neg hne)) ?_
    exact (fillPosition_strangers _ _ d n moved).trans (hafter .strangers (by simp [noticeParts]))
  case told =>
    unfold positionCondition at hsevere
    rw [hposition] at hsevere
    have hfilled : EntryTold moved filled := fillPosition_told g.sensor ⟨g.counter, 0⟩ d hmoved hn hsevere
    rw [hclosed]
    exact (hfilled.before (.of_frame hmove rfl)).learnClosed g.sensor
  case frame =>
    refine (refreshFaults_frame _).step (completeLearn_frame n g s) (fun _ h => h) (fun q hq => ?_)
    simp [positionParts, eventParts, hq]

/-! ## TYRE_TELEGRAM (R82 to R85) -/

/-- R82 to R84: what a telegram passes to be taken. -/
theorem telegramTaken_iff (bs : List Byte) (s : State) :
    (telegramGood bs && !isDuplicate s (telegramOf bs) && isAccepted s.cal.active (telegramOf bs).sensor) = true ↔
    bs.length = 8 ∧ bs.getD 7 0#8 = ~~~ (byteSum (bs.take 7)) ∧ byteAt bs 6 ≤ 165 ∧
      ¬ isDuplicate s (telegramOf bs) = true ∧ isAccepted s.cal.active (telegramOf bs).sensor = true := by
  simp only [telegramGood, Bool.and_eq_true, decide_eq_true_eq, Bool.not_eq_true', Bool.not_eq_true, and_assoc]
  rfl

/-- Settles O19: a telegram that is not taken leaves the faults to be brought up to date; one that is taken goes the way of its case
of R85. -/
theorem telegramIsDispatched : Obligations.TelegramIsDispatched := by
  unfold Obligations.TelegramIsDispatched
  intro s bs hlen
  refine ⟨refreshFaults (takeTelegram bs s), rfl, ?_⟩
  intro g temp p holds stranger repeated word mask accepted taken completes newEntry data
  have htaken : taken ↔ (telegramGood bs && !isDuplicate s g && isAccepted s.cal.active g.sensor) = true := by
    rw [telegramTaken_iff, isDuplicate_iff, isAccepted_iff]
    rfl
  have hdata (previous : Option TyreData) (target : Nat) : dataAfter previous target g = data previous target := by
    simp only [dataAfter, leakSet_eq, criticalNext, lowNext, hotNext]
    cases previous <;> rfl
  have hdispatch (h : taken) : takeTelegram bs s = dispatchTelegram g s := if_pos (htaken.mp h)
  refine ⟨fun h => ?dropped, fun h hlearn n hn => ?updated, fun h hlearn hnone => ?stranger, fun h n hn hmem => ?learned⟩
  case dropped =>
    have hsame : takeTelegram bs s = s := if_neg (fun hcheck => h (htaken.mpr hcheck))
    rw [hsame]
    exact refreshFaults_frame s
  case updated =>
    have hupdates := takeForPosition_updates (g := g) hlen hn.1
    rw [← dispatch_updates hlearn hn, ← hdispatch h] at hupdates
    obtain ⟨hposition, hothers, htold, hchanges⟩ := hupdates
    exact ⟨hposition.trans (by rw [hdata]), hothers, htold, hchanges⟩
  case stranger =>
    have hjoins := takeStranger_joins g s
    rw [← dispatch_stranger hlearn hnone, ← hdispatch h] at hjoins
    obtain ⟨hlist, hchanges⟩ := hjoins
    exact ⟨hlist.trans (strangersAfter_eq g s.tyre.strangers), hchanges⟩
  case learned =>
    have hlearns := completeLearn_learns (g := g) hlen hmem
    rw [← dispatch_completes hn, ← hdispatch h] at hlearns
    obtain ⟨hposition, hmoved, htold, hrest⟩ := hlearns
    exact ⟨hposition.trans (by rw [hdata]), hmoved, htold, hrest⟩

end Sys2Proof
end

