-- ==== Sys2Proof/Proofs/InertialLine.lean ====
section
/-! The inertial line: a sample as it comes in, and the age that ends its availability (R106, R107; O20). -/

namespace Sys2Proof

open Sys2Proof.Machine

/-- What makes an inertial sample good (R106). -/
theorem inertialGood_iff (r : InertialRec) (bs : List Byte) : inertialGood r bs = true ↔
    bs.length = 4 ∧ bs.getD 3 0#8 = crc8 (bs.take 3) ∧ -1500 ≤ sampleAccel bs ∧ sampleAccel bs ≤ 1500 ∧
      r.counter ≠ some (sampleCounter bs) := by
  simp [inertialGood, and_assoc]

theorem takeInertial_good {bs : List Byte} {s : State} (h : inertialGood s.roll.inertial bs = true) :
    (takeInertial bs s).roll.inertial = ⟨some (sampleAccel bs), some (sampleCounter bs), some 0, true⟩ := by
  unfold takeInertial
  rw [if_pos h]
  rfl

theorem takeInertial_bad {bs : List Byte} {s : State} (h : ¬ inertialGood s.roll.inertial bs = true) :
    takeInertial bs s = s := if_neg h

theorem loseInertial_frame (s : State) : OnlyChanges [.inertial] s (loseInertial s) :=
  setRoll_frame (.inl (by simp)) (.inr rfl) (.inr rfl) (.inr rfl)

/-- The inertial record is no business of the latching of faults. -/
theorem inertial_refresh (s : State) : (refreshFaults s).roll.inertial = s.roll.inertial :=
  refreshFaults_frame s .inertial (by simp [noticeParts])

theorem accelAvailable_aged {r : InertialRec} {a : Nat} (h : r.age = some a) (ha : 50 ≤ a) : accelAvailable r = false := by
  simp [accelAvailable, h, ha]

/-- INERTIAL_LINE (R168) is live in RUNNING while the acceleration is unavailable. -/
theorem liveList_inertial (s : State) :
    (liveList s).getD 38 false = (isRunning s && !accelAvailable s.roll.inertial) := rfl

/-- Settles O20: a good sample is taken whole, and the age that is reported takes the availability alone. -/
theorem inertialSamplesComeAndAge : Obligations.InertialSamplesComeAndAge := by
  intro s bs
  refine ⟨⟨refreshFaults (takeInertial bs s), rfl, ?_⟩, fun havailable a hage h50 hlen => ?aged⟩
  · intro a n good
    have hgood : good ↔ inertialGood s.roll.inertial bs = true := (inertialGood_iff _ _).symm
    refine ⟨fun h => ⟨?_, ?_⟩, fun h => ?_⟩
    · rw [inertial_refresh]
      exact takeInertial_good (hgood.mp h)
    · exact (refreshFaults_frame _).step (takeInertial_frame bs s) (by simp) (by simp)
    · rw [takeInertial_bad fun hg => h (hgood.mpr hg)]
      exact refreshFaults_frame s
  case aged =>
    have hdue : inertialAged s = true := by simp [inertialAged, havailable, hage, h50]
    have hlost : accelAvailable (loseInertial s).roll.inertial = false := accelAvailable_aged (a := a) hage h50
    refine ⟨refreshFaults (loseInertial s), by simp [exec, execInertialAgeExpiry, whenDue, hdue], inertial_refresh _, ?_,
      (refreshFaults_frame _).step (loseInertial_frame s) (by simp) (by simp)⟩
    refine fault_live hlen (by decide) ?_
    rw [liveList_inertial, hlost]
    exact Bool.and_true _

end Sys2Proof
end

