-- ==== Sys2Proof/Proofs/StageOperations.lean ====
section
/-! The operations of the rollover stage (R113 to R122): what each leaves of the stage record, of the ROLL entries and of the
generator, up to the own event that ends it. -/

namespace Sys2Proof

open Sys2Proof.Machine

/-! ## The stage record but for its levels -/

/-- The stage record is as it was but for the ROLL levels. -/
def LevelsOnly (s t : State) : Prop := t.roll.stage = { s.roll.stage with level := t.roll.stage.level }

theorem LevelsOnly.refl (s : State) : LevelsOnly s s := rfl

theorem LevelsOnly.trans {s t u : State} (h : LevelsOnly s t) (k : LevelsOnly t u) : LevelsOnly s u := by
  unfold LevelsOnly at h k ⊢
  rw [k, h]

theorem LevelsOnly.of_frame {l : List Part} {s t : State} (h : OnlyChanges l s t) (hl : .stage ∉ l) : LevelsOnly s t := by
  have hstage : t.roll.stage = s.roll.stage := h .stage hl
  unfold LevelsOnly
  rw [hstage]

theorem postRoll_levelsOnly (k : Stage) (n : Nat) (c : Channel) (s : State) : LevelsOnly s (postRoll k n c s) := by
  unfold LevelsOnly
  rw [postRoll_stage]

/-! ## ROLL entries posted channel by channel (R119 to R121) -/

/-- The ROLL level and the resolution of a channel are left alone, and so are the inner side and the calibration. -/
structure RollKept (c : Channel) (s t : State) : Prop where
  level : t.roll.stage.level.get c = s.roll.stage.level.get c
  inner : t.roll.inner = s.roll.inner
  active : t.cal.active = s.cal.active
  resolution : SameOn (isResolutionOf c) s t

/-- A ROLL level stands on a channel with its entry, and the channel is resolved with it. -/
structure Posted (k : Stage) (n : Nat) (c : Channel) (s : State) : Prop where
  level : s.roll.stage.level.get c = some n
  entry : entryOf s c .roll = some ⟨min 1000 n, none, some (.stage k)⟩
  resolved : ChannelResolved s c

section Posting
variable {c d : Channel} {k : Stage} {n : Nat} {s t u : State}

theorem RollKept.refl (c : Channel) (s : State) : RollKept c s s := ⟨rfl, rfl, rfl, .refl _ s⟩

theorem RollKept.trans (h : RollKept c s t) (g : RollKept c t u) : RollKept c s u :=
  ⟨g.level.trans h.level, g.inner.trans h.inner, g.active.trans h.active, h.resolution.trans g.resolution⟩

theorem RollKept.entry (h : RollKept c s t) : entryOf t c .roll = entryOf s c .roll :=
  h.resolution (.entry c .roll) (by simp [isResolutionOf])

theorem Posted.keeps (h : Posted k n c s) (g : RollKept c s t) : Posted k n c t :=
  ⟨g.level.trans h.level, g.entry.trans h.entry, h.resolved.keeps g.resolution⟩

theorem postRoll_rollKept (hd : d ≠ c) : RollKept c s (postRoll k n d s) := by
  have hframe := postRoll_frame k n d s
  refine ⟨?_, hframe .inner ?_, (hframe .calActive ?_).1, .of_frame hframe ?_⟩
  · rw [postRoll_stage]
    simp [Ne.symm hd]
  · simp [rollParts, resolveParts, abortParts]
  · simp [rollParts, resolveParts, abortParts]
  · simp [rollParts, resolveParts, abortParts, isResolutionOf, hd]

theorem postRoll_posted (k : Stage) (n : Nat) (c : Channel) (s : State) : Posted k n c (postRoll k n c s) := by
  refine ⟨?_, post_entry c .roll _ _, resolve_resolved c _⟩
  rw [postRoll_stage]
  simp

end Posting

/-- An operation posts the ROLL level `n` of a channel with the detail `k`, or leaves the state where it skips the channel. -/
structure PostsUnless (k : Stage) (skip : State → Channel → Prop) (n : State → Channel → Nat)
    (g : Channel → State → State) : Prop where
  stays {c : Channel} {s : State} : skip s c → g c s = s
  posts {c : Channel} {s : State} : ¬ skip s c → g c s = postRoll k (n s c) c s
  reads {c : Channel} {s t : State} : RollKept c s t → (skip t c ↔ skip s c) ∧ n t c = n s c

section PostsUnless
variable {k : Stage} {skip : State → Channel → Prop} {n : State → Channel → Nat} {g : Channel → State → State}
  (hg : PostsUnless k skip n g)
include hg

theorem PostsUnless.cases (c : Channel) (s : State) : g c s = s ∨ g c s = postRoll k (n s c) c s := by
  by_cases h : skip s c
  · exact .inl (hg.stays h)
  · exact .inr (hg.posts h)

theorem PostsUnless.frame (s : State) : OnlyChanges (everyChannel rollParts) s (forChannels g s) := by
  refine forChannels_frame (fun c t => ?_) s
  rcases hg.cases c t with h | h <;> rw [h]
  · exact .refl _ t
  · exact postRoll_frame _ _ c t

theorem PostsUnless.levelsOnly (s : State) : LevelsOnly s (forChannels g s) := by
  refine forChannels_rel (R := LevelsOnly) (fun _ _ _ => .trans) (fun c t => ?_) s
  rcases hg.cases c t with h | h <;> rw [h]
  · exact .refl t
  · exact postRoll_levelsOnly _ _ c t

theorem PostsUnless.holder (s : State) : HolderLe s (forChannels g s) := by
  refine forChannels_holder (fun c t => ?_) s
  rcases hg.cases c t with h | h <;> rw [h]
  · exact .refl t
  · exact HolderLe.trans (.of_frame (setStage_frame _ t) (by simp)) (post_holder c .roll _ _)

/-- Each channel ends as its own turn leaves it, by what stood before the first turn. -/
theorem PostsUnless.outcome (s : State) (c : Channel) :
    (skip s c → RollKept c s (forChannels g s)) ∧ (¬ skip s c → Posted k (n s c) c (forChannels g s)) := by
  refine forChannels_turn (S := RollKept c)
    (R := fun t u => (skip t c → RollKept c t u) ∧ (¬ skip t c → Posted k (n t c) c u)) c
    (fun t u v h hR => ?_) (fun t u v hR h => ⟨fun hs => (hR.1 hs).trans h, fun hs => (hR.2 hs).keeps h⟩)
    (fun t => ⟨fun hs => ?_, fun hs => ?_⟩) (fun d t hd => ?_) s
  · obtain ⟨hskip, hlevel⟩ := hg.reads h
    rw [hskip, hlevel] at hR
    exact ⟨fun hs => h.trans (hR.1 hs), hR.2⟩
  · rw [hg.stays hs]
    exact .refl c t
  · rw [hg.posts hs]
    exact postRoll_posted k _ c t
  · rcases hg.cases d t with h | h <;> rw [h]
    · exact .refl c t
    · exact postRoll_rollKept hd

end PostsUnless

/-! ## The generator and the entries given up (R117, R119, R122, R129) -/

theorem HolderLe.ne_probe {s t : State} (h : HolderLe s t) (hs : s.tests.holder ≠ .probe) : t.tests.holder ≠ .probe := by
  rcases h with h | h
  · rwa [h]
  · simp [h]

theorem HolderLe.free {s t : State} (h : HolderLe s t) (hs : s.tests.holder = .free) : t.tests.holder = .free := by
  rcases h with h | h
  · rw [h, hs]
  · exact h

theorem freeGenerator_ne_probe (s : State) : (freeGenerator s).tests.holder ≠ .probe := by
  rcases freeGenerator_holder s with ⟨h, hne⟩ | h
  · rwa [h]
  · simp [h]

/-- The generator is at hand where no test runs (R129). -/
theorem freeGenerator_untested {s : State} (h : runningTest s = none) : (freeGenerator s).tests.holder = .free := by
  unfold freeGenerator
  split
  · rfl
  · assumption
  · next hq => simp [runningTest, hq] at h

/-- What a change of stage may change before its event. -/
def movedParts : List Part := .stage :: .holder :: everyChannel rollParts

theorem movedParts_link : .linkPort .up ∉ movedParts ∧ .statusQueue ∉ movedParts := by decide +kernel

/-- A stage record written and the generator given back. -/
def releasedStage (r : StageRec) (s : State) : State := freeGenerator (setStage r s)

theorem releasedStage_frame (r : StageRec) (s : State) : OnlyChanges [.stage, .holder] s (releasedStage r s) :=
  (freeGenerator_frame _).step (setStage_frame r s) (by simp) (by simp)

theorem releasedStage_stage (r : StageRec) (s : State) : (releasedStage r s).roll.stage = r :=
  freeGenerator_stage (setStage r s)

/-- A stage left with its generator and its ROLL entries, its event still to come. -/
def leftStage (r : StageRec) (s : State) : State := withdrawRoll (releasedStage r s)

theorem probeToWatch_eq (s : State) : probeToWatch s = queueEvent (leftStage { s.roll.stage with
    stage := .watch, probed := none, probeTimer := 0, holdOff := 1000, calm := none } s) := rfl

theorem stageOff_eq (s : State) : stageOff s = queueEvent (leftStage { s.roll.stage with
    stage := .off, probed := none, probeTimer := 0, minTimer := 0, ramp := 0, calm := none } s) := rfl

theorem withdrawRoll_stage (s : State) : (withdrawRoll s).roll.stage = { s.roll.stage with level := .const none } :=
  forChannels_frame (fun c t => withdraw_frame c .roll t) (setStage { s.roll.stage with level := .const none } s) .stage
    (by decide +kernel)

theorem withdrawRoll_entry (s : State) (c : Channel) : entryOf (withdrawRoll s) c .roll = none :=
  withdraw_entries .roll _ c

theorem withdrawRoll_holder (s : State) : HolderLe s (withdrawRoll s) :=
  HolderLe.trans (.of_frame (setStage_frame _ s) (by simp)) (forChannels_holder (fun c t => withdraw_holder c .roll t) _)

/-- A stage that was left holds no level, no entry and no generator. -/
structure StageLeft (r : StageRec) (s t : State) : Prop where
  stage : t.roll.stage = { r with level := .const none }
  entries (c : Channel) : entryOf t c .roll = none
  released : t.tests.holder ≠ .probe
  freed : runningTest s = none → t.tests.holder = .free
  frame : OnlyChanges movedParts s t

theorem leftStage_left (r : StageRec) (s : State) : StageLeft r s (leftStage r s) where
  stage := (withdrawRoll_stage _).trans (by rw [releasedStage_stage])
  entries c := withdrawRoll_entry _ c
  released := (withdrawRoll_holder _).ne_probe (freeGenerator_ne_probe _)
  freed h := (withdrawRoll_holder _).free (freeGenerator_untested h)
  frame := (withdrawRoll_frame _).step (releasedStage_frame r s) (by simp [movedParts]) (by simp [movedParts])

/-! ## INTERVENE and RECOVER (R119 to R121) -/

/-- A ROLL level on every channel. -/
def everyLevel (n : Channel → Nat) : PerChannel (Option Nat) := ⟨some (n .ch0), some (n .ch1), some (n .ch2), some (n .ch3)⟩

@[simp] theorem everyLevel_get (n : Channel → Nat) (c : Channel) : (everyLevel n).get c = some (n c) := by cases c <;> rfl

theorem LevelsOnly.everyLevel {n : Channel → Nat} {s t : State} (h : LevelsOnly s t)
    (hn : ∀ c, t.roll.stage.level.get c = some (n c)) :
    t.roll.stage = { s.roll.stage with level := everyLevel n } := by
  have hlevel : t.roll.stage.level = Sys2Proof.everyLevel n :=
    PerChannel.ext_get fun c => (hn c).trans (everyLevel_get n c).symm
  rw [h, hlevel]

theorem interveneLevel_kept {c : Channel} {s t : State} (h : RollKept c s t) : interveneLevel t c = interveneLevel s c := by
  simp only [interveneLevel, h.inner, h.active]

theorem interveneLevel_congr {s t : State} (hinner : t.roll.inner = s.roll.inner) (hactive : t.cal.active = s.cal.active) :
    interveneLevel t = interveneLevel s := by
  funext c
  simp only [interveneLevel, hinner, hactive]

theorem interveneAll_posts : PostsUnless .intervene (fun _ _ => False) interveneLevel
    (fun c t => postRoll .intervene (interveneLevel t c) c t) where
  stays h := h.elim
  posts _ := rfl
  reads h := ⟨.rfl, interveneLevel_kept h⟩

theorem followSide_posts : PostsUnless .intervene (fun s c => s.roll.stage.level.get c = some (interveneLevel s c))
    interveneLevel followSide where
  stays h := if_pos h
  posts h := if_neg h
  reads h := ⟨by rw [h.level, interveneLevel_kept h], interveneLevel_kept h⟩

/-- The ROLL level of a channel, 0 where it is absent. -/
def rollLevel (s : State) (c : Channel) : Nat := (s.roll.stage.level.get c).getD 0

theorem rollLevel_kept {c : Channel} {s t : State} (h : RollKept c s t) : rollLevel t c = rollLevel s c := by
  simp only [rollLevel, h.level]

theorem recoverAll_posts : PostsUnless .recover (fun _ _ => False) rollLevel
    (fun c t => postRoll .recover ((t.roll.stage.level.get c).getD 0) c t) where
  stays h := h.elim
  posts _ := rfl
  reads h := ⟨.rfl, rollLevel_kept h⟩

theorem lowerRoll_posts : PostsUnless .recover (fun s c => rollLevel s c = 0) (fun s c => rollLevel s c - 50) lowerRoll where
  stays h := if_pos h
  posts h := if_neg h
  reads h := ⟨by rw [rollLevel_kept h], by rw [rollLevel_kept h]⟩

/-- A stage with a ROLL level and its entry on every channel. -/
structure StagePosted (k : Stage) (n : Channel → Nat) (r : StageRec) (s t : State) : Prop where
  stage : t.roll.stage = { r with level := everyLevel n }
  posted (c : Channel) : Posted k (n c) c t
  frame : OnlyChanges movedParts s t

/-- The stage record as INTERVENE begins (R119). -/
def interveneRec (r : StageRec) : StageRec :=
  { r with stage := .intervene, probed := none, probeTimer := 0, minTimer := 0, ramp := 0, calm := none }

/-- The machine as it enters INTERVENE, its event still to come (R119). -/
def intervening (s : State) : State :=
  forChannels (fun c t => postRoll .intervene (interveneLevel t c) c t) (releasedStage (interveneRec s.roll.stage) s)

theorem enterIntervene_eq (s : State) : enterIntervene s = queueEvent (intervening s) := rfl

theorem intervening_posted (s : State) :
    StagePosted .intervene (interveneLevel s) (interveneRec s.roll.stage) s (intervening s) := by
  have hframe := releasedStage_frame (interveneRec s.roll.stage) s
  have hlevel : interveneLevel (releasedStage (interveneRec s.roll.stage) s) = interveneLevel s :=
    interveneLevel_congr (hframe .inner (by simp)) (hframe .calActive (by simp)).1
  have hposted (c : Channel) : Posted .intervene (interveneLevel s c) c (intervening s) := by
    have h := (interveneAll_posts.outcome (releasedStage (interveneRec s.roll.stage) s) c).2 id
    rwa [hlevel] at h
  have honly : LevelsOnly (releasedStage (interveneRec s.roll.stage) s) (intervening s) := interveneAll_posts.levelsOnly _
  refine ⟨?_, hposted, ?_⟩
  · rw [honly.everyLevel fun c => (hposted c).level, releasedStage_stage]
  · exact (interveneAll_posts.frame _).step hframe (by simp [movedParts]) (by simp [movedParts])

theorem intervening_released (s : State) : (intervening s).tests.holder ≠ .probe :=
  (interveneAll_posts.holder _).ne_probe (freeGenerator_ne_probe _)

/-- The stage record as RECOVER begins (R121). -/
def recoverRec (r : StageRec) : StageRec := { r with stage := .recover, ramp := 0, calm := none }

/-- The machine as it enters RECOVER, its event still to come (R121). -/
def recovering (s : State) : State :=
  forChannels (fun c t => postRoll .recover ((t.roll.stage.level.get c).getD 0) c t) (setStage (recoverRec s.roll.stage) s)

theorem recovering_posted (s : State) :
    StagePosted .recover (rollLevel s) (recoverRec s.roll.stage) s (recovering s) := by
  have hlevel : rollLevel (setStage (recoverRec s.roll.stage) s) = rollLevel s := rfl
  have hposted (c : Channel) : Posted .recover (rollLevel s c) c (recovering s) := by
    have h := (recoverAll_posts.outcome (setStage (recoverRec s.roll.stage) s) c).2 id
    rwa [hlevel] at h
  have honly : LevelsOnly (setStage (recoverRec s.roll.stage) s) (recovering s) := recoverAll_posts.levelsOnly _
  refine ⟨honly.everyLevel fun c => (hposted c).level, hposted, ?_⟩
  exact (recoverAll_posts.frame _).step (setStage_frame _ s) (by simp [movedParts]) (by simp [movedParts])

/-- In INTERVENE every channel comes to the level of the present inner side (R120). -/
theorem followSides_level (s : State) (c : Channel) :
    (forChannels followSide s).roll.stage.level.get c = some (interveneLevel s c) := by
  obtain ⟨hsame, hposted⟩ := followSide_posts.outcome s c
  by_cases h : s.roll.stage.level.get c = some (interveneLevel s c)
  · exact (hsame h).level.trans h
  · exact (hposted h).level

theorem followSides_stage (s : State) :
    (forChannels followSide s).roll.stage = { s.roll.stage with level := everyLevel (interveneLevel s) } :=
  (followSide_posts.levelsOnly s).everyLevel (followSides_level s)

/-! ## What an event leaves of the stage (R148) -/

theorem stage_event (u : State) : (queueEvent u).roll.stage = u.roll.stage :=
  queueEvent_frame u .stage (by simp [eventParts, noticeParts])

theorem rollEntry_event (u : State) (c : Channel) : entryOf (queueEvent u) c .roll = entryOf u c .roll :=
  queueEvent_frame u (.entry c .roll) (by simp [eventParts, noticeParts])

theorem holder_event (u : State) : (queueEvent u).tests.holder = u.tests.holder :=
  queueEvent_frame u .holder (by simp [eventParts, noticeParts])

end Sys2Proof
end

