-- ==== Sys2Proof/Proofs/StageTimers.lean ====
section
/-! The rows that a timer of the rollover stage brings: the end of calm in WATCH, the end of a probe and of an intervention, and the
steps of RECOVER (R115, R117, R118, R120, R121; O22). -/

namespace Sys2Proof

open Sys2Proof.Machine

/-! ## An event and the faults after it -/

theorem stage_row (u : State) : (refreshFaults (queueEvent u)).roll.stage = u.roll.stage :=
  (refreshFaults_frame _ .stage (by simp [noticeParts])).trans (stage_event u)

theorem holder_row (u : State) : (refreshFaults (queueEvent u)).tests.holder = u.tests.holder :=
  (refreshFaults_frame _ .holder (by simp [noticeParts])).trans (holder_event u)

/-- A change of stage that queues nothing else counts its own event (R148). -/
theorem movedEvent_counted {s u : State} (h : OnlyChanges movedParts s u) :
    EventCounted s (refreshFaults (queueEvent u)) := entriesEvent_link h movedParts_link.1 movedParts_link.2

theorem movedEvent_frame {s u : State} (h : OnlyChanges movedParts s u) :
    OnlyChanges stageParts s (refreshFaults (queueEvent u)) := refreshEvent_frame h

section Rows
variable {s : State} (hrun : isRunning s = true)
include hrun

/-! ## Calm in WATCH, the end of a probe, the end of an intervention -/

theorem calmToQuiet_acts (hstage : s.roll.stage.stage = .watch) (hcalm : 300 ≤ runMs s.roll.stage.calm) :
    ∃ t, exec .rolloverCalmToQuiet s = .next t ∧
      t.roll.stage = { s.roll.stage with stage := .quiet, calm := none } ∧ EventCounted s t ∧
      OnlyChanges (.stage :: eventParts) s t := by
  have hdue : calmOver s = true := by simp [calmOver, hrun, hstage, hcalm]
  have hframe := setStage_frame { s.roll.stage with stage := .quiet, calm := none } s
  exact ⟨refreshFaults (plainStage .quiet s), by simp [exec, execRolloverCalmToQuiet, whenDue, hdue], stage_row _,
    entriesEvent_link hframe (by simp) (by simp), refreshEvent_frame hframe⟩

theorem probeTimeout_acts (hstage : s.roll.stage.stage = .probe) (htimer : 300 ≤ s.roll.stage.probeTimer) :
    ∃ t, exec .probeTimeout s = .next t ∧
      t.roll.stage = { s.roll.stage with
        stage := .watch, probed := none, probeTimer := 0, holdOff := 1000, calm := none, level := .const none } ∧
      (s.tests.holder = .probe → t.tests.holder = .free) ∧ (∀ c, entryOf t c .roll = none) ∧ EventCounted s t ∧
      OnlyChanges stageParts s t := by
  have hdue : probeOver s = true := by simp [probeOver, hrun, hstage, htimer]
  have hleft := leftStage_left { s.roll.stage with
    stage := .watch, probed := none, probeTimer := 0, holdOff := 1000, calm := none } s
  exact ⟨refreshFaults (probeToWatch s), by simp [exec, execProbeTimeout, whenDue, hdue], (stage_row _).trans hleft.stage,
    fun h => (holder_row _).trans (hleft.freed (by simp [runningTest, h])),
    fun c => (entry_event c .roll _).trans (hleft.entries c),
    movedEvent_counted hleft.frame, movedEvent_frame hleft.frame⟩

theorem interveneEnd_acts (hstage : s.roll.stage.stage = .intervene) (hmin : 500 ≤ s.roll.stage.minTimer)
    (hover : 500 ≤ runMs s.roll.stage.calm ∨ s.wheels.gating < 200) : ∃ t, exec .interveneEnd s = .next t ∧
      t.roll.stage = { s.roll.stage with
        stage := .recover, ramp := 0, calm := none, level := s.roll.stage.level.map (fun l => some (l.getD 0)) } ∧
      (∀ c, entryOf t c .roll = some ⟨min 1000 ((s.roll.stage.level.get c).getD 0), none, some (.stage .recover)⟩ ∧
        Resolved t c) ∧
      EventCounted s t ∧ OnlyChanges stageParts s t := by
  have hdue : interveneDue s = true := by simp [interveneDue, interveneOver, hrun, hstage, hmin, hover]
  have hposted := recovering_posted s
  exact ⟨refreshFaults (enterRecover s), by simp [exec, execInterveneEnd, whenDue, hdue],
    (stage_row _).trans hposted.stage,
    fun c => ⟨(entry_event c .roll _).trans (hposted.posted c).entry, (hposted.posted c).resolved.event⟩,
    movedEvent_counted hposted.frame, movedEvent_frame hposted.frame⟩

omit hrun

/-! ## RECOVER_STEP -/

/-- The machine once each ROLL level has fallen by 50 kPa (R121). -/
def loweredRoll (s : State) : State := forChannels lowerRoll (setStage { s.roll.stage with ramp := 0 } s)

theorem loweredRoll_frame (s : State) : OnlyChanges movedParts s (loweredRoll s) :=
  (lowerRoll_posts.frame _).step (setStage_frame _ s) (by simp [movedParts]) (by simp [movedParts])

/-- A channel at 0 stays, and any other is posted 50 kPa lower. -/
theorem loweredRoll_outcome (s : State) (c : Channel) :
    (rollLevel s c = 0 → RollKept c (setStage { s.roll.stage with ramp := 0 } s) (loweredRoll s)) ∧
    (rollLevel s c ≠ 0 → Posted .recover (rollLevel s c - 50) c (loweredRoll s)) := by
  have hlevel : rollLevel (setStage { s.roll.stage with ramp := 0 } s) = rollLevel s := rfl
  have h := lowerRoll_posts.outcome (setStage { s.roll.stage with ramp := 0 } s) c
  rwa [hlevel] at h

theorem loweredRoll_level (s : State) (c : Channel) : rollLevel (loweredRoll s) c = rollLevel s c - 50 := by
  obtain ⟨hzero, hposted⟩ := loweredRoll_outcome s c
  by_cases h : rollLevel s c = 0
  · rw [rollLevel_kept (hzero h), h]
    exact h
  · simp only [rollLevel, (hposted h).level, Option.getD_some]

theorem loweredRoll_levelsOnly (s : State) : LevelsOnly (setStage { s.roll.stage with ramp := 0 } s) (loweredRoll s) :=
  lowerRoll_posts.levelsOnly _

theorem rollDone_lowered (s : State) : rollDone (loweredRoll s) = true ↔ ∀ c, rollLevel s c ≤ 50 := by
  have hall : rollDone (loweredRoll s) = true ↔ ∀ c, rollLevel (loweredRoll s) c = 0 := by
    simp [rollDone, rollLevel]
  simp only [hall, loweredRoll_level, Nat.sub_eq_zero_iff_le]

/-- The stage record once the recovery is over (R121). -/
def recoveredRec (s : State) : StageRec :=
  { (loweredRoll s).roll.stage with stage := if 716 ≤ riskNow (loweredRoll s) then .watch else .quiet, calm := none }

/-- The machine as it leaves RECOVER, its event still to come (R121). -/
def recovered (s : State) : State := withdrawRoll (setStage (recoveredRec s) (loweredRoll s))

theorem stepRecover_going {s : State} (h : ¬ ∀ c, rollLevel s c ≤ 50) : stepRecover s = loweredRoll s :=
  if_neg (mt (rollDone_lowered s).mp h)

theorem stepRecover_over {s : State} (h : ∀ c, rollLevel s c ≤ 50) : stepRecover s = queueEvent (recovered s) :=
  if_pos ((rollDone_lowered s).mpr h)

theorem recovered_frame (s : State) : OnlyChanges movedParts s (recovered s) := by
  have hset := (setStage_frame (recoveredRec s) _).step (loweredRoll_frame s) (fun _ h => h) (by simp [movedParts])
  exact (withdrawRoll_frame _).step hset (fun _ h => h) (by simp [movedParts])

theorem riskNow_lowered (s : State) : riskNow (loweredRoll s) = riskNow s := by
  have hrisk : (loweredRoll s).roll.indicator = s.roll.indicator := loweredRoll_frame s .indicator (by decide +kernel)
  simp only [riskNow, hrisk]

include hrun

theorem recoverStep_acts (hstage : s.roll.stage.stage = .recover) (hramp : 100 ≤ s.roll.stage.ramp) :
    ∃ t, exec .recoverStep s = .next t ∧
      ((¬ ∀ c, rollLevel s c ≤ 50) → t.roll.stage.stage = .recover ∧ t.roll.stage.ramp = 0 ∧
        ∀ c, rollLevel t c = rollLevel s c - 50 ∧
          (0 < rollLevel s c → entryOf t c .roll = some ⟨min 1000 (rollLevel s c - 50), none, some (.stage .recover)⟩ ∧
            Resolved t c) ∧
          (rollLevel s c = 0 → entryOf t c .roll = entryOf s c .roll)) ∧
      ((∀ c, rollLevel s c ≤ 50) →
        t.roll.stage.stage = (if 716 ≤ s.roll.indicator.risk.getD 0 then .watch else .quiet) ∧
        t.roll.stage.level = .const none ∧ (∀ c, entryOf t c .roll = none) ∧ EventCounted s t) ∧
      OnlyChanges stageParts s t := by
  have hdue : recoverDue s = true := by simp [recoverDue, hrun, hstage, hramp]
  refine ⟨refreshFaults (stepRecover s), by simp [exec, execRecoverStep, whenDue, hdue], fun hgoing => ?going,
    fun hended => ?ended, ?frame⟩
  case going =>
    rw [stepRecover_going hgoing]
    have hrecord : (refreshFaults (loweredRoll s)).roll.stage = (loweredRoll s).roll.stage :=
      refreshFaults_frame _ .stage (by simp [noticeParts])
    have hentry (c : Channel) : entryOf (refreshFaults (loweredRoll s)) c .roll = entryOf (loweredRoll s) c .roll :=
      refreshFaults_frame _ (.entry c .roll) (by simp [noticeParts])
    have honly := loweredRoll_levelsOnly s
    unfold LevelsOnly at honly
    rw [hrecord]
    refine ⟨by rw [honly]; exact hstage, by rw [honly]; rfl, fun c => ?_⟩
    obtain ⟨hzero, hposted⟩ := loweredRoll_outcome s c
    refine ⟨?_, fun h => ⟨?_, ?_⟩, fun h => ?_⟩
    · rw [rollLevel, hrecord]
      exact loweredRoll_level s c
    · rw [hentry, (hposted (Nat.pos_iff_ne_zero.mp h)).entry]
    · have hquiet := refreshFaults_quiet (loweredRoll s)
      exact ((hposted (Nat.pos_iff_ne_zero.mp h)).resolved.keeps (hquiet.resolution.mono (isResolutionOf_le c))).1
    · rw [hentry, (hzero h).entry]
      rfl
  case ended =>
    rw [stepRecover_over hended]
    have hleft := withdrawRoll_stage (setStage (recoveredRec s) (loweredRoll s))
    have hrecord : (refreshFaults (queueEvent (recovered s))).roll.stage = { recoveredRec s with level := .const none } :=
      (stage_row _).trans hleft
    refine ⟨?_, ?_, fun c => (entry_event c .roll _).trans (withdrawRoll_entry _ c), movedEvent_counted (recovered_frame s)⟩
    · rw [hrecord, recoveredRec, riskNow_lowered]
      rfl
    · rw [hrecord]
  case frame =>
    by_cases hover : ∀ c, rollLevel s c ≤ 50
    · rw [stepRecover_over hover]
      exact movedEvent_frame (recovered_frame s)
    · rw [stepRecover_going hover]
      exact (refreshFaults_frame _).step (loweredRoll_frame s) (l := stageParts)
        (by intro q hq; simp only [movedParts, stageParts, List.mem_cons, List.mem_append] at hq ⊢; tauto)
        (by intro q hq; simp [stageParts, eventParts, hq])

end Rows

/-- Settles O22, one row at a time. -/
theorem stageTimersPassTheStageOn : Obligations.StageTimersPassTheStageOn := fun _ hrun =>
  ⟨calmToQuiet_acts hrun, probeTimeout_acts hrun, interveneEnd_acts hrun, recoverStep_acts hrun⟩

end Sys2Proof
end

