-- ==== Sys2Proof/Proofs/IndicatorsSampled.lean ====
section
/-! The Rollover Monitor at a pressure sample: the state in which it comes to its turn, the indicators it forms, and the passage of the
stage to OFF (R107 to R114; O21). -/

namespace Sys2Proof

open Sys2Proof.Machine

/-! ## The turn of the Rollover Monitor in a sample -/

/-- The state in which the Rollover Monitor has its turn at a sample: after the skid cycle. -/
def rolloverTurn (x : SampleSet) (s : State) : State :=
  skidsSampled ((runningTest s).map RunningTest.channel) (sampleResolved x s)

/-- The indicators formed at a sample, the stage still as it was but for the hold-off (R108 to R112, R118). -/
def indicated (s : State) : State := formIndicators (fallHoldOff s)

/-- What the sample changes between its resolution and the turn of the Rollover Monitor. -/
def turnParts : List Part := everyChannel (fun c => [.valves c]) ++ measureParts ++ everyChannel freeParts

/-- What the sample may change after that turn, outside PARKED. -/
def endParts : List Part := headParts ++ (.testQueue :: (applyAwake ++ .axles :: noticeParts))

section Turn
variable {x : SampleSet} {s : State}

theorem rolloverTurn_cycle (x : SampleSet) (s : State) : OnlyChanges cycleParts s (rolloverTurn x s) :=
  sampleCycle_frame ((runningTest s).map RunningTest.channel) x s

theorem skidsSampled_frame (tested : Option Channel) (m : State) : OnlyChanges turnParts m (skidsSampled tested m) := by
  have hcontrol := (forChannels_frame (controlSample_frame tested) m).mono (l := turnParts)
    (by intro q hq; simp only [turnParts, List.mem_append]; tauto)
  have hmeasures := (sampleMeasures_frame _).step hcontrol (fun _ h => h)
    (by intro q hq; simp only [turnParts, List.mem_append]; tauto)
  exact (forChannels_frame skidSample_frame _).step hmeasures (fun _ h => h)
    (by intro q hq; simp only [turnParts, List.mem_append]; tauto)

theorem rolloverTurn_frame (x : SampleSet) (s : State) : OnlyChanges turnParts (sampleResolved x s) (rolloverTurn x s) :=
  skidsSampled_frame _ _

theorem rolloverTurn_parked (x : SampleSet) (s : State) : isParked (rolloverTurn x s) = isParked s :=
  (rolloverTurn_cycle x s).parked (by decide +kernel)

theorem rolloverTurn_running (x : SampleSet) (s : State) : isRunning (rolloverTurn x s) = isRunning s :=
  (rolloverTurn_cycle x s).running (by decide +kernel)

/-- The sample from the turn of the Rollover Monitor up to its safe-point test. -/
theorem sampleUnapplied_cases (x : SampleSet) (s : State) :
    sampleUnapplied x s = rejoinQueue s.tests.queue.tail (sampleRollover (rolloverTurn x s)) ∨
    sampleUnapplied x s = rejoinQueue s.tests.queue.tail (sampleHead (sampleRollover (rolloverTurn x s))) := by
  have h := sampleMonitors_cases (forChannels (controlSample ((runningTest s).map RunningTest.channel)) (sampleResolved x s))
  exact h.imp (congrArg (rejoinQueue s.tests.queue.tail)) (congrArg (rejoinQueue s.tests.queue.tail))

theorem sampleUnapplied_end (x : SampleSet) (s : State) :
    OnlyChanges headParts (sampleRollover (rolloverTurn x s)) (sampleUnapplied x s) := by
  have hjoin (u : State) := (rejoinQueue_frame s.tests.queue.tail u).mono (l := headParts) (by simp [headParts])
  rcases sampleUnapplied_cases x s with h | h <;> rw [h]
  · exact hjoin _
  · exact (sampleHead_frame _).trans (hjoin _)

theorem sampleUnapplied_parked (x : SampleSet) (s : State) : isParked (sampleUnapplied x s) = isParked s :=
  (sampleControlled_parked _ _ _).trans (sampleResolved_parked x s)

theorem rolloverEnd_frame (hp : isParked s = false) :
    OnlyChanges endParts (sampleRollover (rolloverTurn x s)) (pressureSample x s) := by
  have hfinish := sampleFinish_frame (applyPieces_awake ((sampleUnapplied_parked x s).trans hp))
  exact hfinish.step (sampleUnapplied_end x s) (List.subset_append_left _ _)
    (fun q hq => List.mem_append_right _ (List.mem_cons_of_mem _ hq))

/-- An event frame that waits after that turn waits at the end of the sample. -/
theorem rolloverEnd_wait (hp : isParked s = false) :
    EventsWait (sampleRollover (rolloverTurn x s)) (pressureSample x s) :=
  (EventsWait.of_frame (sampleUnapplied_end x s) (by decide +kernel)).trans
    (sampleFinish_kept (c := .ch0) ((sampleUnapplied_parked x s).trans hp)).events

theorem tryApply_holder (s : State) : HolderLe s (tryApply s) := by
  have htaken : HolderLe s (takenSet s) := (takenSet_quiet s).holder
  have hmeasured : HolderLe (takenSet s) (measuredLoads (takenSet s)) := .inl rfl
  have hhand := (htaken.trans hmeasured).trans (handOnLoads_run _).holder
  have hreload : HolderLe s (reloadLoads (takenSet s)) := by
    rcases reloadLoads_cases (takenSet s) with ⟨-, h⟩ | h <;> rw [h]
    · exact hhand
    · exact (hhand.trans (resolveAll_holder _)).trans (formRollFlag_quiet _).holder
  rcases tryApply_cases s with h | ⟨-, -, h⟩ <;> rw [h]
  · exact .refl s
  · rw [applyCal_eq]
    refine (hreload.trans (testReady_quiet _).holder).trans (.of_frame (restartWakeTimer_frame _) ?_)
    split <;> simp

theorem rolloverEnd_holder (x : SampleSet) (s : State) :
    HolderLe (sampleRollover (rolloverTurn x s)) (pressureSample x s) := by
  have hunapplied := HolderLe.of_frame (sampleUnapplied_end x s) (by decide +kernel)
  have happlied := hunapplied.trans (tryApply_holder _)
  exact (happlied.trans (.of_frame (sampleLoadClock_frame _) (by simp))).trans
    (.of_frame (refreshFaults_frame _) (by simp [noticeParts]))

theorem HolderLe.untested {t u : State} (h : HolderLe t u) (ht : runningTest t = none) : runningTest u = none := by
  rcases h with h | h <;> rw [runningTest, h]
  exact ht

/-- No test comes to run at a sample. -/
theorem untested_kept : MonitorKept (fun u => runningTest u = none) where
  same h hs := by
    have hholder := h .holder rfl
    simp only [samePart] at hholder
    rwa [runningTest, hholder]
  resolve c s hs := (resolve_holder c s).untested hs
  setSkid _ _ hs := hs
  setStage _ _ hs := hs
  abortRunning k s hs := by rwa [abortRunning_none k s hs]
  setTest hr _ hs := by simp [hr] at hs
  setHolder hh _ := by
    unfold runningTest
    split
    · exact absurd ‹_› (hh _)
    · rfl
    · rfl
  wake r s hs := (wake_holder r s).untested hs
  restartWakeTimer {s} hs := by
    have hholder : (restartWakeTimer s).tests.holder = s.tests.holder :=
      restartWakeTimer_frame s .holder (by split <;> simp)
    rwa [runningTest, hholder]

theorem skidsSampled_untested {m : State} (tested : Option Channel) (h : runningTest m = none) :
    runningTest (skidsSampled tested m) = none := by
  have hcontrol := (HolderLe.of_frame (forChannels_frame (controlSample_frame tested) m) (by decide)).untested h
  have hsupply := untested_kept.same (.of_frame (sampleSupply_frame _) rfl) (untested_kept.sampleTest hcontrol)
  exact forChannels_keeps (P := fun u => runningTest u = none) (fun c _ ht => untested_kept.skidSample c ht) _ hsupply

theorem rolloverTurn_untested (h : runningTest s = none) : runningTest (rolloverTurn x s) = none :=
  skidsSampled_untested _ ((sampleResolved_holder x s).untested h)

end Turn

/-! ## The indicators (R107 to R112) -/

/-- The parts that the indicators are formed from. -/
def isIndicated : Part → Bool
  | .front | .calActive | .group | .raised | .rollFlag | .inertial | .speeds => true
  | _ => false

theorem loweredBags_same {s t : State} (h : SameOn isIndicated s t) (v : PerAxle Reading) :
    loweredBags t v = loweredBags s v := by
  have hraised : t.load.raised = s.load.raised := h .raised rfl
  simp only [loweredBags, hraised]

theorem indicatorsOf_same {s t : State} (h : SameOn isIndicated s t) : indicatorsOf t = indicatorsOf s := by
  have hfront : t.front = s.front := h .front rfl
  have hactive : t.cal.active = s.cal.active := (h .calActive rfl).1
  have hlambda : t.load.lambda = s.load.lambda := (h .group rfl).2.1
  have hflag : t.tyre.rollFlag = s.tyre.rollFlag := h .rollFlag rfl
  have hinertial : t.roll.inertial = s.roll.inertial := h .inertial rfl
  have hgating : t.wheels.gating = s.wheels.gating := (h .speeds rfl).2
  simp only [indicatorsOf, ltrOf, loweredBags_same h, hfront, hactive, hlambda, hflag, hinertial, hgating]

theorem bagSum_eq (l : List Reading) : bagSum l = (l.map (fun b => b.getD 0)).sum := by
  induction l with
  | nil => rfl
  | cons b bs ih => rw [bagSum, ih, List.map_cons, List.sum_cons]

theorem ltrOf_eq (s : State) : ltrOf s =
    let l := bagSum (loweredBags s s.front.bagLeft)
    let r := bagSum (loweredBags s s.front.bagRight)
    if (loweredBags s s.front.bagLeft ++ loweredBags s s.front.bagRight).any Option.isNone then none
    else some (if r + l = 0 then 0 else (((r : Int) - (l : Int)) * 1024).tdiv ((r : Int) + (l : Int))) := by
  have hzero (l r : Nat) : ((r : Int) + (l : Int) = 0) ↔ r + l = 0 := by omega
  simp only [ltrOf, hzero]

theorem lateral_eq (r : InertialRec) : lateral r = match r.age with
    | some a => if a < 50 then r.accel else none
    | none => none := by
  cases h : r.age <;> simp [lateral, accelAvailable, h]

theorem innerOf_eq (i : IndicatorRec) (previous : Side) :
    innerOf i previous = ((signSide i.ay).or (signSide i.ltr)).getD previous := by
  unfold innerOf
  cases signSide i.ay <;> rfl

section Formed
variable {x : SampleSet} {s : State}

theorem indicated_stage (s : State) :
    (indicated s).roll.stage = { s.roll.stage with holdOff := s.roll.stage.holdOff - 10 } := rfl

theorem indicated_indicator (s : State) : (indicated s).roll.indicator = indicatorsOf s := rfl

theorem indicated_inner (s : State) : (indicated s).roll.inner = innerOf (indicatorsOf s) s.roll.inner := rfl

theorem indicated_active (s : State) : (indicated s).cal.active = s.cal.active := rfl

theorem indicated_untested (s : State) : runningTest (indicated s) = runningTest s := rfl

theorem indicated_frame (s : State) : OnlyChanges [.stage, .indicator, .inner] s (indicated s) :=
  (formIndicators_frame _).step (setStage_frame _ s) (by simp) (by simp)

theorem stageSample_frame (s : State) : OnlyChanges probeParts s (stageSample s) := by
  rcases stageSample_cases s with h | h | h <;> rw [h]
  · exact .refl _ s
  · exact (stageOff_frame s).mono stage_subset_probe
  · exact stageTests_frame s

theorem sampleRollover_running {v : State} (h : isRunning v = true) : sampleRollover v = stageSample (indicated v) := by
  have hrunning : v.standby.opState = .running := by simpa [isRunning] using h
  have hstate : (fallHoldOff v).standby.opState = .running := hrunning
  unfold sampleRollover indicated
  dsimp only
  rw [hstate]

/-- Outside PARKED a sample forms the indicators, and the stage machine that follows them in RUNNING leaves them (R111). -/
theorem sampleRollover_indicated {v : State} (h : isParked v = false) :
    OnlyChanges probeParts (indicated v) (sampleRollover v) := by
  cases hop : v.standby.opState with
  | running =>
    rw [sampleRollover_running (by simp [isRunning, hop])]
    exact stageSample_frame _
  | starting =>
    have hforms : sampleRollover v = indicated v := by
      have hstate : (fallHoldOff v).standby.opState = .starting := hop
      unfold sampleRollover indicated
      dsimp only
      rw [hstate]
    rw [hforms]
    exact .refl _ _
  | parked => simp [isParked, hop] at h

/-- The indicators of a sample are those of its resolution. -/
theorem sample_indicator (hp : isParked s = false) :
    (pressureSample x s).roll.indicator = indicatorsOf (sampleResolved x s) := by
  have hend : (pressureSample x s).roll.indicator = (sampleRollover (rolloverTurn x s)).roll.indicator :=
    rolloverEnd_frame (x := x) hp .indicator (by decide +kernel)
  have hformed : (sampleRollover (rolloverTurn x s)).roll.indicator = (indicated (rolloverTurn x s)).roll.indicator :=
    sampleRollover_indicated ((rolloverTurn_parked x s).trans hp) .indicator (by decide +kernel)
  rw [hend, hformed, indicated_indicator]
  exact indicatorsOf_same (.of_frame (rolloverTurn_frame x s) (by decide +kernel))

theorem sample_inner (hp : isParked s = false) :
    (pressureSample x s).roll.inner = innerOf (pressureSample x s).roll.indicator s.roll.inner := by
  have hend : (pressureSample x s).roll.inner = (sampleRollover (rolloverTurn x s)).roll.inner :=
    rolloverEnd_frame (x := x) hp .inner (by decide +kernel)
  have hformed : (sampleRollover (rolloverTurn x s)).roll.inner = (indicated (rolloverTurn x s)).roll.inner :=
    sampleRollover_indicated ((rolloverTurn_parked x s).trans hp) .inner (by decide +kernel)
  have hbefore : (rolloverTurn x s).roll.inner = s.roll.inner := rolloverTurn_cycle x s .inner (by decide +kernel)
  have hsame : indicatorsOf (rolloverTurn x s) = indicatorsOf (sampleResolved x s) :=
    indicatorsOf_same (.of_frame (rolloverTurn_frame x s) (by decide +kernel))
  rw [hend, hformed, indicated_inner, hbefore, hsame, sample_indicator hp]

/-- With no set armed the indicators rest on what the sample ends with (R163). -/
theorem sample_loads_unarmed (harmed : s.cal.staging.state ≠ .armed) :
    SameOn (fun q => q == .group || q == .raised || q == .rollFlag) (sampleResolved x s) (pressureSample x s) := by
  have hcontrolled := sampleControlled_frame ((runningTest s).map RunningTest.channel) s.tests.queue.tail (sampleResolved x s)
  have hclock := (sampleLoadClock_frame _).step hcontrolled (l := controlledParts ++ .axles :: noticeParts) (by simp) (by simp)
  have hend := (refreshFaults_frame _).step hclock (fun _ h => h) (by intro q hq; simp [hq])
  rw [pressureSample_unarmed harmed]
  exact .of_frame hend (by decide +kernel)

end Formed

/-! ## The passage to OFF (R113, R114) -/

section Off
variable {x : SampleSet} {s : State}

/-- A change of stage at a sample in RUNNING has queued its own event at the end of the sample (R148). -/
theorem rolloverEvent_queued {u : State} (hp : isParked s = false) (hstep : sampleRollover (rolloverTurn x s) = queueEvent u)
    (hport : samePart (indicated (rolloverTurn x s)) u (.linkPort .up)) : EventQueued s (pressureSample x s) := by
  have hturn : samePart s (rolloverTurn x s) (.linkPort .up) := rolloverTurn_cycle x s (.linkPort .up) (by decide +kernel)
  have hbefore := hturn.trans ((indicated_frame (rolloverTurn x s) (.linkPort .up) (by simp)).trans hport)
  have hqueued : EventQueued s (sampleRollover (rolloverTurn x s)) := by
    intro hactive
    rw [hstep]
    exact queueEvent_queued ((congrArg PortRec.state hbefore).trans hactive)
  exact hqueued.after (rolloverEnd_wait hp)

theorem sample_stage (hp : isParked s = false) :
    (pressureSample x s).roll.stage = (sampleRollover (rolloverTurn x s)).roll.stage :=
  rolloverEnd_frame (x := x) hp .stage (by decide +kernel)

theorem turn_stageRec (x : SampleSet) (s : State) : (indicated (rolloverTurn x s)).roll.stage =
    { s.roll.stage with holdOff := s.roll.stage.holdOff - 10 } := by
  have hturn : (rolloverTurn x s).roll.stage = s.roll.stage := rolloverTurn_cycle x s .stage (by decide +kernel)
  rw [indicated_stage, hturn]

theorem turn_enabled (x : SampleSet) (s : State) : (indicated (rolloverTurn x s)).cal.active = s.cal.active := by
  have hturn : (rolloverTurn x s).cal.active = s.cal.active := (rolloverTurn_cycle x s .calActive (by decide +kernel)).1
  rw [indicated_active, hturn]

theorem turn_indicator (hp : isParked s = false) :
    (indicated (rolloverTurn x s)).roll.indicator = (pressureSample x s).roll.indicator := by
  rw [sample_indicator hp, indicated_indicator]
  exact indicatorsOf_same (.of_frame (rolloverTurn_frame x s) (by decide +kernel))

theorem stageSample_blocked {w : State} (h : calRollEnabled w.cal.active = false ∨ w.roll.indicator.risk = none) :
    stageSample w = if w.roll.stage.stage = .off then w else stageOff w := by
  have hblocked : (!calRollEnabled w.cal.active || w.roll.indicator.risk.isNone) = true := by
    rcases h with h | h <;> simp [h]
  unfold stageSample
  rw [hblocked]
  exact if_pos rfl

/-- The stage record as OFF begins (R114). -/
def offRec (r : StageRec) : StageRec :=
  { r with stage := .off, probed := none, probeTimer := 0, minTimer := 0, ramp := 0, calm := none }

theorem stageSample_off {w : State} (h : calRollEnabled w.cal.active = false ∨ w.roll.indicator.risk = none)
    (hon : w.roll.stage.stage ≠ .off) : ∃ u, stageSample w = queueEvent u ∧ StageLeft (offRec w.roll.stage) w u :=
  ⟨leftStage (offRec w.roll.stage) w, (stageSample_blocked h).trans ((if_neg hon).trans (stageOff_eq w)), leftStage_left _ w⟩

/-- Without an indicator, or with rollover not enabled, the stage is OFF after a sample in RUNNING (R114). -/
theorem sample_off (hrun : isRunning s = true)
    (hblocked : calRollEnabled s.cal.active = false ∨ (pressureSample x s).roll.indicator.risk = none) :
    (s.roll.stage.stage = .off →
      (pressureSample x s).roll.stage = { s.roll.stage with holdOff := s.roll.stage.holdOff - 10 }) ∧
    (s.roll.stage.stage ≠ .off →
      (pressureSample x s).roll.stage = { s.roll.stage with
        stage := .off, probed := none, probeTimer := 0, holdOff := s.roll.stage.holdOff - 10, minTimer := 0, calm := none
        ramp := 0, level := .const none } ∧
      (∀ c, entryOf (pressureSample x s) c .roll = none) ∧
      (s.tests.holder = .probe → (pressureSample x s).tests.holder = .free) ∧ EventQueued s (pressureSample x s)) := by
  have hp := not_parked_of_running hrun
  have hstage := turn_stageRec x s
  rw [← turn_enabled x s, ← turn_indicator hp] at hblocked
  have hsample := sampleRollover_running ((rolloverTurn_running x s).trans hrun)
  refine ⟨fun hoff => ?_, fun hon => ?_⟩
  · rw [sample_stage hp, hsample, stageSample_blocked hblocked, hstage, if_pos hoff, hstage]
  · obtain ⟨u, hstep, hleft⟩ := stageSample_off hblocked (by rwa [hstage])
    rw [hstep] at hsample
    refine ⟨?_, fun c => ?_, fun hprobe => ?_, rolloverEvent_queued hp hsample (hleft.frame _ movedParts_link.1)⟩
    · rw [sample_stage hp, hsample, stage_event, hleft.stage, hstage]
      rfl
    · have hend : entryOf (pressureSample x s) c .roll = entryOf (sampleRollover (rolloverTurn x s)) c .roll :=
        rolloverEnd_frame (x := x) hp (.entry c .roll) (by cases c <;> decide +kernel)
      rw [hend, hsample, rollEntry_event]
      exact hleft.entries c
    · have huntested : runningTest (rolloverTurn x s) = none := rolloverTurn_untested (by simp [runningTest, hprobe])
      refine (rolloverEnd_holder x s).free ?_
      rw [hsample, holder_event]
      exact hleft.freed ((indicated_untested _).trans huntested)

end Off

/-- Settles O21: the indicators are formed from what the resolution of the sample leaves, and nothing after them moves them. -/
theorem sampleFormsTheIndicators : Obligations.SampleFormsTheIndicators := by
  intro s x hp
  refine ⟨pressureSample x s, rfl, ?_⟩
  have hindicator := sample_indicator (x := x) hp
  have hinner := sample_inner (x := x) hp
  have hloads := sample_loads_unarmed (x := x) (s := s)
  have hfront : (pressureSample x s).front = (sampleResolved x s).front := pressureSample_tail hp .front (by decide +kernel)
  have hspeeds : samePart (sampleResolved x s) (pressureSample x s) .speeds := pressureSample_tail hp .speeds (by decide +kernel)
  have hcal : samePart s (sampleResolved x s) .calActive := sampleResolved_frame x s .calActive (by decide +kernel)
  have hinertial : (sampleResolved x s).roll.inertial = s.roll.inertial := sampleResolved_frame x s .inertial (by decide +kernel)
  have hoff := sample_off (x := x) (s := s)
  generalize pressureSample x s = t at *
  generalize sampleResolved x s = v at *
  intro m i thr l r bags sign
  replace hindicator : i = indicatorsOf m := hindicator
  replace hfront : t.front = m.front := hfront
  replace hinertial : m.roll.inertial = s.roll.inertial := hinertial
  have hactive : m.cal.active = s.cal.active := hcal.1
  have hthr : thresholdOf m.cal.active m.load.lambda = thr := by rw [hactive]; rfl
  have hused : i.thrUsed = if m.tyre.rollFlag then thr - thr / 8 else thr := by rw [hindicator, ← hthr]; rfl
  have hsign (v : Option Int) : signSide v = sign v := by cases v <;> rfl
  have hleft : l = bagSum (bags t.front.bagLeft) := by rw [hfront]; exact congrArg IndicatorRec.sumLeft hindicator
  have hright : r = bagSum (bags t.front.bagRight) := by rw [hfront]; exact congrArg IndicatorRec.sumRight hindicator
  refine ⟨fun harmed => ?_, by rw [hleft, bagSum_eq], by rw [hright, bagSum_eq], ?_, ?_, hused, by rw [hindicator]; rfl, ?_, ?_,
    ?_, ?_, ?_, ?_, hoff⟩
  · exact ⟨(hloads harmed .group rfl).2.1, hloads harmed .raised rfl, hloads harmed .rollFlag rfl⟩
  · rw [hleft, hright, hfront, hindicator]
    exact ltrOf_eq m
  · rw [hindicator, ← hthr]
    rfl
  · rw [hindicator, ← hinertial]
    exact lateral_eq m.roll.inertial
  · rw [hused, hindicator, ← hthr]
    rfl
  · rw [hindicator, ← hactive]
    rfl
  · have hrisk : i.risk = riskIndex i.riskAccel i.riskLtr := by rw [hindicator]; rfl
    rw [hrisk]
    cases i.riskAccel <;> cases i.riskLtr <;> rfl
  · rw [hindicator, hspeeds.2]
    rfl
  · rw [hinner, innerOf_eq, hsign, hsign]

end Sys2Proof
end

