-- ==== Sys2Proof/Proofs/AbortedTests.lean ====
section
/-! A test that runs when a sample begins, on a channel without a further request: up to the turn of the Rollover Monitor it runs on or
has been aborted, and its result stays from the abort to the end of the sample (R129, R133; O14). -/

namespace Sys2Proof

open Sys2Proof.Machine

/-! ## A test that runs on or was aborted -/

/-- A channel has no request in the queue, and its test runs or its last result is that of an abort. -/
def TestPending (c : Channel) (s : State) : Prop :=
  c ∉ s.tests.queue.map TestRequest.channel ∧
    (underTest s c = true ∨ (s.tests.result.get c).outcome = some .aborted)

/-- The parts that this speaks of. -/
def isTestOf (c : Channel) : Part → Bool
  | .holder | .testQueue => true
  | .result d => d == c
  | _ => false

section Pending
variable {c : Channel} {s t : State}

theorem TestPending.same (hs : TestPending c s) (h : SameOn (isTestOf c) s t) : TestPending c t := by
  obtain ⟨hqueue, hrun⟩ := hs
  have hholder : t.tests.holder = s.tests.holder := h .holder rfl
  have hresult : t.tests.result.get c = s.tests.result.get c := h (.result c) (by simp [isTestOf])
  refine ⟨?_, ?_⟩
  · rw [(h .testQueue rfl).1]
    exact hqueue
  · rw [underTest, runningTest, hholder, hresult]
    exact hrun

theorem TestPending.frame {l : List Part} (hs : TestPending c s) (h : OnlyChanges l s t)
    (hl : l.all (fun q => !isTestOf c q) = true) : TestPending c t := hs.same (.of_frame h hl)

theorem TestPending.outcome (hs : TestPending c s) (h : underTest s c = false) :
    (s.tests.result.get c).outcome = some .aborted := hs.2.resolve_left (by simp [h])

theorem TestPending.event (hs : TestPending c s) : TestPending c (queueEvent s) := hs.frame (queueEvent_frame s) rfl

/-- A queue that keeps some of its requests. -/
theorem TestPending.shorter (hs : TestPending c s) (h : OnlyChanges [.testQueue] s t)
    (hsub : t.tests.queue ⊆ s.tests.queue) : TestPending c t := by
  have hholder : t.tests.holder = s.tests.holder := h .holder (by simp)
  have hresult : t.tests.result.get c = s.tests.result.get c := h (.result c) (by simp)
  refine ⟨fun hmem => hs.1 (List.map_subset _ hsub hmem), ?_⟩
  rw [underTest, runningTest, hholder, hresult]
  exact hs.2

/-! ## Aborts, resolutions and refusals -/

/-- The result of an abort (R133). -/
theorem abortRunning_result {q : RunningTest} (k : TestCause) (h : runningTest s = some q) :
    (abortRunning k s).tests.result.get q.channel = abortedResult q k := by
  have hstored (u : State) (r : TestResult) : (storeResult q.channel q.port r u).tests.result.get q.channel = r := by
    simp [storeResult, raiseTestResult, setAttention]
  unfold abortRunning
  rw [h]
  dsimp only
  split
  · exact hstored _ _
  · exact hstored _ _

theorem TestPending.abortRunning (hs : TestPending c s) (k : TestCause) : TestPending c (abortRunning k s) := by
  cases hr : runningTest s with
  | none => rwa [abortRunning_none k s hr]
  | some q =>
    have hframe := abortRunning_frame_of k s q hr
    refine ⟨?_, .inr ?_⟩
    · rw [(hframe .testQueue (by simp [abortParts])).1]
      exact hs.1
    · by_cases hq : q.channel = c
      · rw [← hq, abortRunning_result k hr]
        rfl
      · have hkept : (Machine.abortRunning k s).tests.result.get c = s.tests.result.get c :=
          hframe (.result c) (by simp [abortParts, Ne.symm hq])
        rw [hkept]
        exact hs.outcome (by simp [underTest, hr, hq])

theorem TestPending.abortTestOf (hs : TestPending c s) (d : Channel) (k : TestCause) : TestPending c (abortTestOf d k s) := by
  unfold Machine.abortTestOf
  split
  · exact hs.abortRunning k
  · exact hs

theorem TestPending.resolve (hs : TestPending c s) (d : Channel) : TestPending c (resolve d s) := by
  have hwritten : TestPending c (writeResolution d s) := hs.frame (writeResolution_frame d s) rfl
  unfold Machine.resolve
  split
  · exact hwritten.abortTestOf d .demand
  · exact hwritten

theorem TestPending.resolveAll (hs : TestPending c s) : TestPending c (resolveAll s) :=
  forChannels_keeps (P := TestPending c) (fun d _ ht => ht.resolve d) _ hs

theorem TestPending.post (hs : TestPending c s) (d : Channel) (k : Source) (e : Entry) : TestPending c (post d k e s) :=
  (hs.frame (putEntry_frame s d k _) rfl).resolve d

theorem TestPending.withdraw (hs : TestPending c s) (d : Channel) (k : Source) : TestPending c (withdraw d k s) := by
  rcases withdraw_cases d k s with h | h <;> rw [h]
  · exact hs
  · exact (hs.frame (putEntry_frame s d k _) rfl).resolve d

theorem TestPending.setSkid (hs : TestPending c s) (d : Channel) (k : SkidRec) :
    TestPending c (s.setSkid (s.skid.set d k)) := hs.frame (setSkid_frame s d k) rfl

theorem TestPending.freeSkid (hs : TestPending c s) (d : Channel) : TestPending c (freeSkid d s) := by
  rcases freeSkid_cases d s with h | ⟨k, -, h⟩ <;> rw [h]
  · exact hs
  · exact ((hs.setSkid d k).withdraw d .skid).event

/-- A head that is refused is another channel's. -/
theorem TestPending.refuseHead (hs : TestPending c s) (k : TestCause) : TestPending c (refuseHead k s) := by
  unfold Machine.refuseHead
  split
  · exact hs
  · next q rest hq =>
    have hne : q.channel ≠ c := fun h => hs.1 (by simp [hq, h])
    have hdropped : TestPending c (dropHead s) := hs.shorter (dropHead_frame s) (List.tail_subset _)
    exact hdropped.frame (storeResult_frame q.channel q.port _ _) (by simp [isTestOf, hne])

theorem TestPending.sampleHead (hs : TestPending c s) : TestPending c (sampleHead s) := by
  unfold Machine.sampleHead
  split
  · exact hs
  · split
    · exact hs.refuseHead _
    · exact hs.shorter (setQueue_frame s _ _ _) (fun _ h => h)

theorem TestPending.rejoinQueue {behind : List TestRequest} (hs : TestPending c s)
    (hbehind : c ∉ behind.map TestRequest.channel) : TestPending c (rejoinQueue behind s) := by
  refine ⟨?_, hs.2⟩
  have hnone : c ∉ (s.tests.queue ++ behind).map TestRequest.channel := by
    rw [List.map_append, List.mem_append]
    exact fun h => h.elim hs.1 hbehind
  exact hnone

/-! ## BACKUP and the driver demand -/

theorem TestPending.setCauses (hs : TestPending c s) (d : Channel) (k : CauseSet) (b : Bool) :
    TestPending c (setChannel s d { channelOf s d with causes := k, startupHeld := b }) :=
  hs.frame (setChannel_frame (l := [.causes d]) (.inl (by simp)) (.inr ⟨rfl, rfl⟩) (.inr ⟨rfl, rfl, rfl, rfl, rfl⟩) (.inr rfl)) rfl

theorem TestPending.addCause (hs : TestPending c s) (k : Cause) (d : Channel) : TestPending c (addCause k d s) := by
  have hput : TestPending c (setChannel s d { channelOf s d with causes := (channelOf s d).causes.put k true }) :=
    hs.setCauses d _ _
  have hnotice {u : State} (hu : TestPending c u) : TestPending c (testBackupNotice d u) := by
    have habort := hu.abortTestOf d .backup
    unfold testBackupNotice
    dsimp only
    split
    · exact habort.refuseHead _
    · exact habort
  rcases addCause_cases k d s with ⟨h, -⟩ | ⟨h, -⟩ | ⟨h, -⟩ <;> rw [h]
  · exact hs
  · rw [enterBackup_eq]
    exact ((hnotice (hput.frame (deEnergise_frame d _) rfl)).freeSkid d).event
  · exact hput

theorem TestPending.formDemand (hs : TestPending c s) (d : DriverRec) : TestPending c (formDemand (s.setDriver d)) := by
  have hset (e : DriverRec) {u : State} (hu : TestPending c u) : TestPending c (u.setDriver e) := hu.frame (setDriver_frame u e) rfl
  have hwrite : TestPending c (writeDemand (s.setDriver d)) := by
    unfold writeDemand
    dsimp only
    split
    · exact forChannels_keeps (P := TestPending c) (fun e _ ht => ht.addCause _ e) _ (hset _ (hset _ hs))
    · exact hset _ (hset _ hs)
  rw [formDemand_eq]
  refine forChannels_keeps (P := TestPending c) (fun e t ht => ?_) _ hwrite
  rcases updateDriver_cases e t with h | ⟨_, h⟩ | h <;> rw [h]
  · exact ht
  · exact ht.post e .driver _
  · exact ht.withdraw e .driver

/-! ## Up to the turn of the Rollover Monitor -/

theorem TestPending.sampleRaised (hs : TestPending c s) : TestPending c (sampleRaised s) := by
  unfold Sys2Proof.sampleRaised
  split
  · exact hs
  · next hp =>
    rcases formRaised_cases s with h | ⟨l, h⟩ <;> rw [h]
    · exact hs
    · have hrest : isParked s = false := by simpa using hp
      have hawake : isParked (s.setLoad l) = false := hrest
      have hset : TestPending c (s.setLoad l) := hs
      have hhanded : TestPending c (handOnLoads (s.setLoad l)) := by
        refine hset.frame (handOnLoads_frame _) ?_
        simp only [loadParts, positionParts, wakeParts, hawake]
        rfl
      exact hhanded.resolveAll.frame (formRollFlag_frame _) rfl

theorem TestPending.sampleSensors (hs : TestPending c s) (x : SampleSet) : TestPending c (sampleSensors x s) := by
  have hraised := (hs.frame (sampleReadings_frame x s) rfl).sampleRaised
  rw [sampleSensors_eq]
  refine forChannels_keeps (P := TestPending c) (fun d t ht => ?_) _ hraised
  unfold checkDelivery
  split_ifs
  · exact ht
  · exact ht.setCauses d _ _
  · exact ht.addCause _ d
  · exact ht

theorem TestPending.sampleDemand (hs : TestPending c s) : TestPending c (sampleDemand s) := by
  have hdriver : TestPending c (sampleDriver s) := by
    unfold sampleDriver
    split
    · exact hs
    · exact hs.formDemand _
  exact forChannels_keeps (P := TestPending c) (fun d t ht => ht.frame (removeAutomatic_frame d t) (by cases d <;> rfl)) _
    hdriver.resolveAll

theorem TestPending.sampleTest (hs : TestPending c s) : TestPending c (sampleTest s) := by
  unfold Machine.sampleTest
  split
  · exact hs
  · next q hq =>
    split
    · exact hs.abortRunning .motion
    · obtain ⟨hqueue, hrun⟩ := hs
      refine ⟨hqueue, hrun.imp_left fun h => ?_⟩
      have hchannel : (q.channel == c) = true := by simpa only [underTest, hq] using h
      simpa [underTest, setTest, runningTest] using hchannel

theorem TestPending.skidSample (hs : TestPending c s) (d : Channel) : TestPending c (skidSample d s) := by
  have hpost {n : Nat} {g : SkidState} {k : SkidRec} {u : State} (hu : TestPending c u) :
      TestPending c (Machine.post d .skid (skidEntry g n) (u.setSkid (u.skid.set d k))) := (hu.setSkid d k).post d .skid _
  have htick : TestPending c (skidTick d s) := hs.setSkid d _
  have hmark : TestPending c (markStep d (skidTick d s)) := htick.setSkid d _
  unfold Machine.skidSample
  split
  case isFalse => exact hs.freeSkid d
  case isTrue =>
    cases hstate : (s.skid.get d).state <;> simp only [stepWatched, hstate]
    case free =>
      split_ifs
      · exact (hpost hs).event
      · exact hs
    case release =>
      split_ifs
      · exact hs.freeSkid d
      · exact hpost htick
      · exact hmark
    case hold =>
      split_ifs
      · exact hs.freeSkid d
      · exact hpost htick
      · exact hmark
    case reapply =>
      split_ifs
      · exact hs.freeSkid d
      · exact hpost htick
      · exact hmark

theorem TestPending.skidsSampled (hs : TestPending c s) (tested : Option Channel) : TestPending c (skidsSampled tested s) := by
  have hcontrol : TestPending c (forChannels (controlSample tested) s) :=
    hs.frame (forChannels_frame (controlSample_frame tested) s) rfl
  have hsupply := hcontrol.sampleTest.frame (sampleSupply_frame _) rfl
  exact forChannels_keeps (P := TestPending c) (fun d _ ht => ht.skidSample d) _ hsupply

/-- A test that runs as the sample begins runs on or has been aborted when the Rollover Monitor has its turn. -/
theorem rolloverTurn_pending {q : RunningTest} {x : SampleSet} (hqueue : QueueInv s) (hq : s.tests.holder = .test q) :
    TestPending q.channel (rolloverTurn x s) := by
  obtain ⟨-, -, hnone⟩ := hqueue
  have hstart : TestPending q.channel s := ⟨hnone q hq, .inl (by simp [underTest, runningTest, hq])⟩
  have hhead := hstart.shorter (headAlone_frame s) (List.take_subset 1 _)
  have hresolved : TestPending q.channel (sampleResolved x s) := (hhead.sampleSensors x).sampleDemand
  exact hresolved.skidsSampled _

/-! ## As the stage enters PROBE, and after it -/

theorem TestPending.enterProbe (hs : TestPending c s) : TestPending c (enterProbe s) := by
  obtain ⟨hqueue, hrun⟩ := hs.abortRunning .rollover
  have hidle : underTest (Machine.abortRunning .rollover s) c = false := by
    cases hr : runningTest s with
    | none => rw [abortRunning_none _ s hr]; simp [underTest, hr]
    | some q => simp [underTest, runningTest, abortRunning_holder .rollover s q hr]
  have hprobing : TestPending c (probing s) := ⟨hqueue, .inr (hrun.resolve_left (by simp [hidle]))⟩
  rw [enterProbe_eq]
  refine (forChannels_keeps (P := TestPending c) (fun d t ht => ?_) _ hprobing).event
  unfold Machine.probeChannel
  split
  · exact ((ht.freeSkid d).frame (setStage_frame _ _) rfl).post d .roll _
  · exact ht

end Pending

end Sys2Proof
end

