-- ==== Sys2Proof/Proofs/ProbeEntered.lean ====
section
/-! The entry of the stage into PROBE (R56, R116, R129): the inner channels given the probe pressure, the outer ones left alone, the
generator held. -/

namespace Sys2Proof

open Sys2Proof.Machine

/-! ## A generator that no test holds stays as it is -/

/-- The generator stays with its holder unless a test holds it. -/
def HolderStays (s t : State) : Prop := runningTest s = none → t.tests.holder = s.tests.holder

section Holder
variable {s t u : State}

theorem HolderStays.refl (s : State) : HolderStays s s := fun _ => rfl

theorem HolderStays.trans (h : HolderStays s t) (k : HolderStays t u) : HolderStays s u := fun hs => by
  have hholder := h hs
  exact (k (by rwa [runningTest, hholder])).trans hholder

theorem HolderStays.of_frame {l : List Part} (h : OnlyChanges l s t) (hl : .holder ∉ l) : HolderStays s t := fun _ => h .holder hl

theorem resolve_holderStays (c : Channel) (s : State) : HolderStays s (resolve c s) := fun hs => by
  have hwritten : (writeResolution c s).tests.holder = s.tests.holder := writeResolution_frame c s .holder (by simp)
  have hidle : underTest (writeResolution c s) c = false := by
    have hnone : runningTest (writeResolution c s) = none := by rwa [runningTest, hwritten]
    simp [underTest, hnone]
  unfold resolve abortTestOf
  rw [hidle]
  split <;> exact hwritten

theorem post_holderStays (c : Channel) (k : Source) (e : Entry) (s : State) : HolderStays s (post c k e s) :=
  (HolderStays.of_frame (putEntry_frame s c k _) (by simp)).trans (resolve_holderStays c _)

theorem freeSkid_holderStays (c : Channel) (s : State) : HolderStays s (freeSkid c s) := by
  have hwithdraw (u : State) : HolderStays u (withdraw c .skid u) := by
    rcases withdraw_cases c .skid u with h | h <;> rw [h]
    · exact .refl u
    · exact (HolderStays.of_frame (putEntry_frame u c .skid _) (by simp)).trans (resolve_holderStays c _)
  rcases freeSkid_cases c s with h | ⟨k, -, h⟩ <;> rw [h]
  · exact .refl s
  · exact ((HolderStays.of_frame (setSkid_frame s c k) (by simp)).trans (hwithdraw _)).trans
      (.of_frame (queueEvent_frame _) (by simp [eventParts, noticeParts]))

theorem probeChannel_holderStays (c : Channel) (s : State) : HolderStays s (probeChannel c s) := by
  rcases probeChannel_cases c s with ⟨-, h⟩ | ⟨-, n, h⟩ <;> rw [h]
  · exact .refl s
  · exact ((freeSkid_holderStays c s).trans (.of_frame (setStage_frame _ _) (by simp))).trans (post_holderStays c .roll _ _)

end Holder

/-! ## A channel under the probe and one beside it -/

/-- What the probe leaves of a channel beside it, and what every channel reads for its own part. -/
structure ProbeSpares (c : Channel) (s t : State) : Prop where
  level : t.roll.stage.level.get c = s.roll.stage.level.get c
  entry : samePart s t (.entry c .roll)
  inner : t.roll.inner = s.roll.inner
  active : t.cal.active = s.cal.active
  skid : samePart s t (.skid c)

/-- A channel under the probe: FREE, and at the probe pressure (R56, R116). -/
structure Probed (n : Nat) (c : Channel) (s : State) : Prop where
  level : s.roll.stage.level.get c = some n
  free : (s.skid.get c).state = .free
  entry : entryOf s c .roll = some ⟨min 1000 n, none, some (.stage .probe)⟩

section Probe
variable {c d : Channel} {n : Nat} {s t u : State}

theorem ProbeSpares.refl (c : Channel) (s : State) : ProbeSpares c s s := ⟨rfl, .refl _ _, rfl, rfl, .refl _ _⟩

theorem ProbeSpares.trans (h : ProbeSpares c s t) (k : ProbeSpares c t u) : ProbeSpares c s u :=
  ⟨k.level.trans h.level, h.entry.trans k.entry, k.inner.trans h.inner, k.active.trans h.active, h.skid.trans k.skid⟩

theorem Probed.keeps (h : Probed n c s) (k : ProbeSpares c s t) : Probed n c t := by
  have hskid : t.skid.get c = s.skid.get c := k.skid
  have hentry : entryOf t c .roll = entryOf s c .roll := k.entry
  exact ⟨k.level.trans h.level, by rw [hskid]; exact h.free, hentry.trans h.entry⟩

theorem probeChannel_spares (hd : d ≠ c) (s : State) : ProbeSpares c s (probeChannel d s) := by
  have hframe := probeChannel_frame d s
  have hlevel : (probeChannel d s).roll.stage.level.get c = s.roll.stage.level.get c := by
    rcases probeChannel_cases d s with ⟨-, h⟩ | ⟨-, n, h⟩ <;> rw [h]
    rw [postRoll_stage, (freeSkid_rollUnit d s).1]
    simp [Ne.symm hd]
  refine ⟨hlevel, hframe _ ?_, hframe .inner ?_, (hframe .calActive ?_).1, hframe _ ?_⟩ <;>
    simp [rollParts, freeParts, resolveParts, abortParts, eventParts, noticeParts, Ne.symm hd]

theorem probeChannel_probed (h : channelSide c = s.roll.inner) : Probed (calProbe s.cal.active) c (probeChannel c s) := by
  have hstep : probeChannel c s = postRoll .probe (calProbe s.cal.active) c (freeSkid c s) := by
    simp [probeChannel, onSide, h]
  have hskid : (postRoll .probe (calProbe s.cal.active) c (freeSkid c s)).skid.get c = (freeSkid c s).skid.get c :=
    postRoll_frame _ _ c _ (.skid c) (by simp [rollParts, resolveParts, abortParts])
  rw [hstep]
  refine ⟨?_, by rw [hskid]; exact freeSkid_free c s, post_entry c .roll _ _⟩
  rw [postRoll_stage]
  simp

/-- Each channel ends by the inner side as it stood before the first (R116). -/
theorem probeChannels_outcome (s : State) (c : Channel) :
    (channelSide c = s.roll.inner → Probed (calProbe s.cal.active) c (forChannels probeChannel s)) ∧
    (channelSide c ≠ s.roll.inner → ProbeSpares c s (forChannels probeChannel s)) := by
  refine forChannels_turn (S := ProbeSpares c) (R := fun t u =>
      (channelSide c = t.roll.inner → Probed (calProbe t.cal.active) c u) ∧
      (channelSide c ≠ t.roll.inner → ProbeSpares c t u)) c
    (fun t u v h hR => ?_) (fun t u v hR h => ⟨fun hs => (hR.1 hs).keeps h, fun hs => (hR.2 hs).trans h⟩)
    (fun t => ⟨probeChannel_probed, fun hs => ?_⟩) (fun d t hd => probeChannel_spares hd t) s
  · rw [h.inner, h.active] at hR
    exact ⟨hR.1, fun hs => h.trans (hR.2 hs)⟩
  · have hstays : probeChannel c t = t := by simp [probeChannel, onSide, hs]
    rw [hstays]
    exact .refl c t

theorem probeChannels_levelsOnly (s : State) : LevelsOnly s (forChannels probeChannel s) := by
  refine forChannels_rel (R := LevelsOnly) (fun _ _ _ => .trans) (fun c t => ?_) s
  rcases probeChannel_cases c t with ⟨-, h⟩ | ⟨-, n, h⟩ <;> rw [h]
  · exact .refl t
  · exact (LevelsOnly.of_frame (freeSkid_frame c t) (by cases c <;> decide +kernel)).trans (postRoll_levelsOnly _ _ c _)

/-! ## The stage in PROBE -/

/-- The stage record as PROBE begins (R116). -/
def probeRec (side : Side) (r : StageRec) : StageRec :=
  { r with stage := .probe, probed := some side, probeTimer := 0, calm := none }

theorem probing_stage (s : State) : (probing s).roll.stage = probeRec s.roll.inner s.roll.stage := by
  have hframe := abortRunning_frame .rollover s
  have hstage : (abortRunning .rollover s).roll.stage = s.roll.stage := hframe .stage (by decide +kernel)
  have hinner : (abortRunning .rollover s).roll.inner = s.roll.inner := hframe .inner (by decide +kernel)
  rw [← hstage, ← hinner]
  rfl

theorem probing_spares (s : State) (c : Channel) : ProbeSpares c s (probing s) := by
  have hframe := probing_frame s
  refine ⟨?_, hframe _ ?_, hframe .inner ?_, (hframe .calActive ?_).1, hframe _ ?_⟩
  · rw [probing_stage]
    rfl
  all_goals cases c <;> decide +kernel

/-- The stage in PROBE, its event still to come (R116). -/
structure ProbeEntered (s t : State) : Prop where
  record : LevelsOnly (probing s) t
  holder : t.tests.holder = .probe
  inner (c : Channel) : channelSide c = s.roll.inner → Probed (calProbe s.cal.active) c t
  outer (c : Channel) : channelSide c ≠ s.roll.inner → ProbeSpares c s t

theorem probeChannels_entered (s : State) : ProbeEntered s (forChannels probeChannel (probing s)) := by
  have hspares := probing_spares s
  have hholder : HolderStays (probing s) (forChannels probeChannel (probing s)) :=
    forChannels_rel (R := HolderStays) (fun _ _ _ => .trans) probeChannel_holderStays _
  refine ⟨probeChannels_levelsOnly _, hholder rfl, fun c hc => ?_, fun c hc => ?_⟩
  · have h := (probeChannels_outcome (probing s) c).1
    rw [(hspares c).inner, (hspares c).active] at h
    exact h hc
  · have h := (probeChannels_outcome (probing s) c).2
    rw [(hspares c).inner] at h
    exact (hspares c).trans (h hc)

end Probe

end Sys2Proof
end

