-- ==== Sys2Proof/Proofs/StageSampled.lean ====
section
/-! The tests of the rollover stage at a sample in RUNNING: the state in which they are made, what the rest of the sample leaves of their
outcome, and the outcome stage by stage (R113 to R121, R56, R129; O14). -/

namespace Sys2Proof

open Sys2Proof.Machine

/-! ## The sample around the tests of the stage -/

/-- What a sample changes after the tests of a stage in which no set is applied. -/
def closeParts : List Part := headParts ++ (.axles :: noticeParts)

/-- A sample from `s` to `t` that makes the tests of the stage in `w`. -/
structure StageTurn (s w t : State) : Prop where
  stage : w.roll.stage = { s.roll.stage with holdOff := s.roll.stage.holdOff - 10 }
  port : samePart s w (.linkPort .up)
  entries (c : Channel) : samePart s w (.entry c .roll)
  active : w.cal.active = s.cal.active
  ends : OnlyChanges endParts (stageTests w) t
  waits : EventsWait (stageTests w) t
  holder : HolderLe (stageTests w) t
  closes : stageCalm t = false → OnlyChanges closeParts (stageTests w) t
  pending {q : RunningTest} : QueueInv s → s.tests.holder = .test q → TestPending q.channel w
  settled {c : Channel} : stageCalm t = false → c ∉ s.tests.queue.map TestRequest.channel → TestPending c (stageTests w) →
    TestPending c t

section Around
variable {x : SampleSet} {s : State}

theorem stageCalm_same {s t : State} (h : t.roll.stage = s.roll.stage) : stageCalm t = stageCalm s := by
  simp only [stageCalm, h]

/-- An armed set is not applied while the stage is not calm (R163). -/
theorem tryApply_busy {u : State} (h : stageCalm u = false) : tryApply u = u := by
  rcases tryApply_cases u with h' | ⟨-, hsafe, -⟩
  · exact h'
  · simp [safePoint, h] at hsafe

theorem pressureSample_busy (hp : isParked s = false) (hbusy : stageCalm (pressureSample x s) = false) :
    pressureSample x s = refreshFaults (sampleLoadClock (sampleUnapplied x s)) := by
  have hunapplied : (sampleUnapplied x s).roll.stage = (sampleRollover (rolloverTurn x s)).roll.stage :=
    sampleUnapplied_end x s .stage (by decide +kernel)
  have hcalm := (stageCalm_same ((sample_stage hp).trans hunapplied.symm)).symm.trans hbusy
  exact congrArg (fun u => refreshFaults (sampleLoadClock u)) (tryApply_busy hcalm)

theorem sampleClose_frame {u v : State} (h : OnlyChanges headParts u v) :
    OnlyChanges closeParts u (refreshFaults (sampleLoadClock v)) := by
  have hclock := (sampleLoadClock_frame v).step h (l := closeParts) (List.subset_append_left _ _) (by simp [closeParts])
  exact (refreshFaults_frame _).step hclock (fun _ hq => hq) (fun q hq => by simp [closeParts, hq])

theorem TestPending.sampled {c : Channel} (hp : isParked s = false) (hbusy : stageCalm (pressureSample x s) = false)
    (hqueue : c ∉ s.tests.queue.map TestRequest.channel) (h : TestPending c (sampleRollover (rolloverTurn x s))) :
    TestPending c (pressureSample x s) := by
  have hbehind : c ∉ s.tests.queue.tail.map TestRequest.channel :=
    fun hmem => hqueue (List.map_subset _ (List.tail_subset _) hmem)
  have hunapplied : TestPending c (sampleUnapplied x s) := by
    rcases sampleUnapplied_cases x s with hcase | hcase <;> rw [hcase]
    · exact h.rejoinQueue hbehind
    · exact h.sampleHead.rejoinQueue hbehind
  rw [pressureSample_busy hp hbusy]
  exact (hunapplied.frame (sampleLoadClock_frame _) rfl).frame (refreshFaults_frame _) rfl

theorem stageSample_tests {w : State} {n : Nat} (henabled : calRollEnabled w.cal.active = true)
    (hrisk : w.roll.indicator.risk = some n) : stageSample w = stageTests w := by
  simp [stageSample, henabled, hrisk]

theorem sample_stageTurn {n : Nat} (hrun : isRunning s = true) (henabled : calRollEnabled s.cal.active = true)
    (hrisk : (pressureSample x s).roll.indicator.risk = some n) :
    StageTurn s (indicated (rolloverTurn x s)) (pressureSample x s) := by
  have hp := not_parked_of_running hrun
  have hformed := indicated_frame (rolloverTurn x s)
  have hbefore := rolloverTurn_cycle x s
  have hsample := sampleRollover_running ((rolloverTurn_running x s).trans hrun)
  rw [← turn_enabled x s] at henabled
  rw [← turn_indicator hp] at hrisk
  rw [stageSample_tests henabled hrisk] at hsample
  refine ⟨turn_stageRec x s, (hbefore (.linkPort .up) (by decide +kernel)).trans (hformed _ (by simp)),
    fun c => (hbefore (.entry c .roll) (by cases c <;> decide +kernel)).trans (hformed _ (by simp)), turn_enabled x s, ?_, ?_, ?_,
    fun hbusy => ?_, fun hqueue hq => ?_, fun hbusy hqueue hpending => ?_⟩
  · rw [← hsample]
    exact rolloverEnd_frame hp
  · rw [← hsample]
    exact rolloverEnd_wait hp
  · rw [← hsample]
    exact rolloverEnd_holder x s
  · rw [← hsample, pressureSample_busy hp hbusy]
    exact sampleClose_frame (sampleUnapplied_end x s)
  · exact (rolloverTurn_pending hqueue hq).frame hformed rfl
  · rw [← hsample] at hpending
    exact hpending.sampled hp hbusy hqueue

end Around

/-! ## What the tests read, as it stands at the end of the sample -/

/-- Whether a channel of a lowered axle shows wheel lift. -/
def ShowsLift (t : State) (c : Channel) : Prop :=
  (servesAxle3 c = false ∨ t.load.raised = false) ∧ 307 ≤ ((t.skid.get c).slip).getD 0

/-- Whether the driver brakes a channel. -/
def DriverBrakes (t : State) (c : Channel) : Prop := 50 ≤ levelOr0 (entryOf t c .driver)

section Reads
variable {s w t : State} (h : StageTurn s w t)
include h

theorem StageTurn.frame : OnlyChanges (probeParts ++ endParts) w t :=
  h.ends.step (stageTests_frame w) (List.subset_append_left _ _) (List.subset_append_right _ _)

theorem StageTurn.riskNow_eq {n : Nat} (hrisk : t.roll.indicator.risk = some n) : riskNow w = n := by
  have hindicator : t.roll.indicator = w.roll.indicator := h.frame .indicator (by decide +kernel)
  rw [riskNow, ← hindicator, hrisk]
  rfl

theorem StageTurn.gating : t.wheels.gating = w.wheels.gating := (h.frame .speeds (by decide +kernel)).2

theorem StageTurn.inner : t.roll.inner = w.roll.inner := h.frame .inner (by decide +kernel)

theorem StageTurn.electronic_eq (c : Channel) : electronic t c = electronic w c := by
  have hcauses : samePart w t (.causes c) := h.frame (.causes c) (by cases c <;> decide +kernel)
  rw [electronic, hcauses.1, electronic]

theorem StageTurn.braked (c : Channel) : DriverBrakes t c ↔ 50 ≤ driverEntryLevel w c := by
  have hentry : entryOf t c .driver = entryOf w c .driver := h.frame (.entry c .driver) (by cases c <;> decide +kernel)
  rw [DriverBrakes, hentry, driverEntryLevel]

theorem StageTurn.slip (c : Channel) : (t.skid.get c).slip = (w.skid.get c).slip := by
  have hstep : SlipAs w c (stageTests w) := (slipAs_kept w c).tail.stageTests ⟨rfl, rfl⟩
  exact (hstep.frame h.ends (by cases c <;> decide +kernel)).1

variable (hbusy : stageCalm t = false)
include hbusy

theorem StageTurn.raised : t.load.raised = w.load.raised :=
  ((stageTests_frame w) .raised (by decide +kernel)).trans (h.closes hbusy .raised (by decide +kernel))

theorem StageTurn.lifts (c : Channel) : ShowsLift t c ↔ (onLowered w c && shows307 w c) = true := by
  rw [ShowsLift, h.slip, h.raised hbusy, onLowered, shows307, raisedChannel, slipLevel]
  cases servesAxle3 c <;> simp

end Reads

/-! ## The tests themselves -/

section Tests
variable {s w t : State} {n : Nat} (h : StageTurn s w t) (hrisk : t.roll.indicator.risk = some n)
include h hrisk

theorem StageTurn.limit_iff : riskAtLimit w = true ↔ 1024 ≤ n ∧ 200 ≤ t.wheels.gating := by
  simp [riskAtLimit, h.riskNow_eq hrisk, h.gating]

theorem StageTurn.calm_eq : calmAfter w = if n < 614 then some (match w.roll.stage.calm with
    | none => 0
    | some k => min 500 (k + 10)) else none := by
  rw [calmAfter, h.riskNow_eq hrisk]
  by_cases hn : n < 614 <;> cases w.roll.stage.calm <;> simp [runSample, runStep, hn]

theorem StageTurn.mayProbe_iff : mayProbe w = true ↔ 870 ≤ n ∧ 200 ≤ t.wheels.gating ∧ w.roll.stage.holdOff = 0 ∧
    ∀ c, channelSide c = t.roll.inner → electronic t c = true ∧ ¬ DriverBrakes t c := by
  have hchannel (c : Channel) : (!onSide w.roll.inner c || (electronic w c && decide (driverEntryLevel w c < 50))) = true ↔
      (channelSide c = t.roll.inner → electronic t c = true ∧ ¬ DriverBrakes t c) := by
    rw [h.electronic_eq, h.braked, h.inner, not_le]
    by_cases hside : channelSide c = w.roll.inner <;> simp [onSide, hside]
  simp only [mayProbe, h.riskNow_eq hrisk, h.gating, Bool.and_eq_true, decide_eq_true_eq, List.all_eq_true, mem_allChannels,
    forall_const, hchannel, and_assoc]

omit h hrisk in
theorem isProbed_iff {side : Side} (hside : w.roll.stage.probed = some side) (c : Channel) :
    isProbed w c = true ↔ channelSide c = side := by
  rw [isProbed, heldByProbe, hside, beq_iff_eq, Option.some.injEq]
  exact eq_comm

theorem StageTurn.spoiled_iff {side : Side} (hside : w.roll.stage.probed = some side) : probeSpoiled w = true ↔
    t.wheels.gating < 200 ∨ n < 614 ∨ t.roll.inner ≠ side ∨
      ∃ c, channelSide c = side ∧ (electronic t c = false ∨ DriverBrakes t c) := by
  have hchannel (c : Channel) : (isProbed w c && (!electronic w c || decide (50 ≤ driverEntryLevel w c))) = true ↔
      channelSide c = side ∧ (electronic t c = false ∨ DriverBrakes t c) := by
    rw [Bool.and_eq_true, isProbed_iff hside, h.electronic_eq, h.braked]
    simp
  have hturned : (!(w.roll.stage.probed == some w.roll.inner)) = true ↔ t.roll.inner ≠ side := by
    rw [hside, h.inner]
    simp [ne_comm]
  simp only [probeSpoiled, h.riskNow_eq hrisk, h.gating, hturned, Bool.or_eq_true, decide_eq_true_eq, List.any_eq_true,
    mem_allChannels, true_and, hchannel, or_assoc]

variable (hbusy : stageCalm t = false)
include hbusy

theorem StageTurn.brakedLift_iff : brakedLift w = true ↔ 870 ≤ n ∧ 200 ≤ t.wheels.gating ∧
    ∃ c, channelSide c = t.roll.inner ∧ ShowsLift t c ∧ DriverBrakes t c := by
  have hchannel (c : Channel) :
      (onSide w.roll.inner c && onLowered w c && decide (50 ≤ driverEntryLevel w c) && shows307 w c) = true ↔
      channelSide c = t.roll.inner ∧ ShowsLift t c ∧ DriverBrakes t c := by
    rw [h.lifts hbusy, h.braked, h.inner]
    simp only [onSide, Bool.and_eq_true, beq_iff_eq, decide_eq_true_eq]
    tauto
  simp only [brakedLift, h.riskNow_eq hrisk, h.gating, Bool.and_eq_true (decide _ && decide _), Bool.and_eq_true (decide _),
    decide_eq_true_eq, List.any_eq_true, mem_allChannels, true_and, hchannel, and_assoc]

omit hrisk in
theorem StageTurn.probeLift_iff {side : Side} (hside : w.roll.stage.probed = some side) : probeLift w = true ↔
    ∃ c, channelSide c = side ∧ ShowsLift t c := by
  have hchannel (c : Channel) : (isProbed w c && onLowered w c && shows307 w c) = true ↔ channelSide c = side ∧ ShowsLift t c := by
    rw [h.lifts hbusy, Bool.and_assoc, Bool.and_eq_true, isProbed_iff hside]
  simp only [probeLift, List.any_eq_true, mem_allChannels, true_and, hchannel]

end Tests

/-! ## The outcome of a change of stage -/

/-- The stage entered INTERVENE at the levels `n` (R119). -/
def Intervened (r : StageRec) (n : Channel → Nat) (s t : State) : Prop :=
  t.roll.stage = { r with
    stage := .intervene, probed := none, probeTimer := 0, minTimer := 0, ramp := 0, calm := none, level := everyLevel n } ∧
  (∀ c, entryOf t c .roll = some ⟨min 1000 (n c), none, some (.stage .intervene)⟩) ∧
  t.tests.holder ≠ .probe ∧ EventQueued s t

section Outcome
variable {s w t : State} (h : StageTurn s w t)
include h

theorem StageTurn.stage_after : t.roll.stage = (stageTests w).roll.stage := h.ends .stage (by decide +kernel)

theorem StageTurn.entry_after (c : Channel) : entryOf t c .roll = entryOf (stageTests w) c .roll :=
  h.ends (.entry c .roll) (by cases c <;> decide +kernel)

theorem StageTurn.interveneLevel_eq : interveneLevel w = fun c =>
    if channelSide c = t.roll.inner then calIntervene s.cal.active / 2 else calIntervene s.cal.active := by
  funext c
  simp [interveneLevel, onSide, h.inner, h.active]

variable {u : State} {r : StageRec}

theorem StageTurn.event (hstep : stageTests w = queueEvent u) (hport : samePart w u (.linkPort .up)) : EventQueued s t := by
  have hqueued : EventQueued s (stageTests w) := by
    intro hactive
    rw [hstep]
    exact queueEvent_queued ((congrArg PortRec.state (h.port.trans hport)).trans hactive)
  exact hqueued.after h.waits

theorem StageTurn.plain {g : Stage} (hstep : stageTests w = plainStage g w) :
    t.roll.stage = { w.roll.stage with stage := g, calm := none } ∧ EventQueued s t :=
  ⟨by rw [h.stage_after, hstep]; exact stage_event _, h.event hstep rfl⟩

theorem StageTurn.intervened (hstep : stageTests w = enterIntervene (setStage r w))
    (hrec : interveneRec r = interveneRec w.roll.stage) : Intervened w.roll.stage (interveneLevel w) s t := by
  have hposted := intervening_posted (setStage r w)
  have hlevel : interveneLevel (setStage r w) = interveneLevel w := rfl
  have hstage : (setStage r w).roll.stage = r := rfl
  rw [hlevel, hstage, hrec] at hposted
  rw [enterIntervene_eq] at hstep
  refine ⟨?_, fun c => ?_, h.holder.ne_probe ?_, h.event hstep (hposted.frame _ movedParts_link.1)⟩
  · rw [h.stage_after, hstep, stage_event, hposted.stage]
    rfl
  · rw [h.entry_after, hstep, rollEntry_event]
    exact (hposted.posted c).entry
  · rw [hstep, holder_event]
    exact intervening_released _

theorem StageTurn.left (hstep : stageTests w = probeToWatch (setStage r w))
    (hr : r = { w.roll.stage with probeTimer := r.probeTimer }) :
    t.roll.stage = { w.roll.stage with
      stage := .watch, probed := none, probeTimer := 0, holdOff := 1000, calm := none, level := .const none } ∧
    (∀ c, entryOf t c .roll = none) ∧ t.tests.holder ≠ .probe ∧ EventQueued s t := by
  have hleft := leftStage_left { r with stage := .watch, probed := none, probeTimer := 0, holdOff := 1000, calm := none }
    (setStage r w)
  rw [probeToWatch_eq] at hstep
  refine ⟨?_, fun c => ?_, h.holder.ne_probe ?_, h.event hstep (hleft.frame _ movedParts_link.1)⟩
  · rw [h.stage_after, hstep, stage_event]
    refine hleft.stage.trans ?_
    rw [hr]
  · rw [h.entry_after, hstep, rollEntry_event]
    exact hleft.entries c
  · rw [hstep, holder_event]
    exact hleft.released

end Outcome

/-! ## Stage by stage -/

section Stages
variable {s w t : State}

theorem stageTests_off (hstage : w.roll.stage.stage = .off) : stageTests w = plainStage .quiet w := by
  simp only [stageTests, hstage]

theorem stageTests_quiet (hstage : w.roll.stage.stage = .quiet) :
    stageTests w = if 716 ≤ riskNow w then plainStage .watch w else w := by
  simp only [stageTests, hstage]

/-- The state in which a stage is left from WATCH (R113). -/
def watching (w : State) : State := setStage { w.roll.stage with calm := calmAfter w } w

theorem stageTests_watch (hstage : w.roll.stage.stage = .watch) : stageTests w =
    if riskAtLimit w = true ∨ brakedLift w = true then enterIntervene (watching w)
    else if mayProbe w then enterProbe (watching w) else watching w := by
  simp only [stageTests, hstage, watching]
  cases riskAtLimit w <;> simp

/-- The state in which a stage is left from PROBE (R117). -/
def timingProbe (w : State) : State := setStage { w.roll.stage with probeTimer := min 300 (w.roll.stage.probeTimer + 10) } w

theorem stageTests_probe (hstage : w.roll.stage.stage = .probe) : stageTests w =
    if probeLift w = true ∨ riskAtLimit w = true then enterIntervene (timingProbe w)
    else if probeSpoiled w then probeToWatch (timingProbe w) else timingProbe w := by
  simp only [stageTests, hstage, timingProbe]
  cases probeLift w <;> simp

/-- INTERVENE with its timers run on (R120). -/
def timingIntervene (w : State) : State :=
  setStage { w.roll.stage with minTimer := min 500 (w.roll.stage.minTimer + 10), calm := calmAfter w } w

theorem stageTests_intervene (hstage : w.roll.stage.stage = .intervene) :
    stageTests w = forChannels followSide (timingIntervene w) := by
  simp only [stageTests, hstage, timingIntervene]

theorem stageTests_recover (hstage : w.roll.stage.stage = .recover) : stageTests w =
    if riskAtLimit w then enterIntervene w
    else setStage { w.roll.stage with ramp := min 100 (w.roll.stage.ramp + 10) } w := by
  simp only [stageTests, hstage]

theorem enterIntervene_stage (u : State) : (enterIntervene u).roll.stage.stage = .intervene := by
  rw [enterIntervene_eq, stage_event, (intervening_posted u).stage]
  rfl

theorem probeToWatch_stage (u : State) : (probeToWatch u).roll.stage.stage = .watch := by
  rw [probeToWatch_eq, stage_event, (leftStage_left _ u).stage]

/-- Beyond QUIET the tests of the stage leave no calm stage, so that no set is applied (R113, R163). -/
theorem StageTurn.busy (h : StageTurn s w t) (hoff : w.roll.stage.stage ≠ .off) (hquiet : w.roll.stage.stage ≠ .quiet) : stageCalm t = false := by
  rw [stageCalm_same h.stage_after]
  have hbusy {u : State} (hu : u.roll.stage.stage ≠ .off ∧ u.roll.stage.stage ≠ .quiet) : stageCalm u = false := by
    simp [stageCalm, hu]
  apply hbusy
  cases hstage : w.roll.stage.stage with
  | off => exact absurd hstage hoff
  | quiet => exact absurd hstage hquiet
  | watch =>
    rw [stageTests_watch hstage]
    split_ifs
    · simp [enterIntervene_stage]
    · simp [enterProbe_stage]
    · simp [watching, setStage, hstage]
  | probe =>
    rw [stageTests_probe hstage]
    split_ifs
    · simp [enterIntervene_stage]
    · simp [probeToWatch_stage]
    · simp [timingProbe, setStage, hstage]
  | intervene =>
    rw [stageTests_intervene hstage, followSides_stage]
    simp [timingIntervene, setStage, hstage]
  | recover =>
    rw [stageTests_recover hstage]
    split_ifs
    · simp [enterIntervene_stage]
    · simp [setStage, hstage]

/-- WATCH at a sample (R115). -/
theorem StageTurn.watch (h : StageTurn s w t) (hstage : w.roll.stage.stage = .watch) :
    (riskAtLimit w = true ∨ brakedLift w = true → Intervened w.roll.stage (interveneLevel w) s t) ∧
    (¬ (riskAtLimit w = true ∨ brakedLift w = true) →
      (mayProbe w = true → stageTests w = enterProbe (watching w)) ∧
      (¬ mayProbe w = true → t.roll.stage = { w.roll.stage with calm := calmAfter w })) := by
  have hstep := stageTests_watch hstage
  refine ⟨fun hleave => ?_, fun hstay => ?_⟩
  · rw [if_pos hleave] at hstep
    exact h.intervened hstep rfl
  · rw [if_neg hstay] at hstep
    refine ⟨fun hmay => hstep.trans (if_pos hmay), fun hmay => ?_⟩
    rw [h.stage_after, hstep, if_neg hmay]
    rfl

/-- PROBE at a sample (R117, R118). -/
theorem StageTurn.probe (h : StageTurn s w t) (hstage : w.roll.stage.stage = .probe) :
    (probeLift w = true ∨ riskAtLimit w = true → Intervened w.roll.stage (interveneLevel w) s t) ∧
    (¬ (probeLift w = true ∨ riskAtLimit w = true) →
      (probeSpoiled w = true → t.roll.stage = { w.roll.stage with
          stage := .watch, probed := none, probeTimer := 0, holdOff := 1000, calm := none, level := .const none } ∧
        (∀ c, entryOf t c .roll = none) ∧ t.tests.holder ≠ .probe ∧ EventQueued s t) ∧
      (¬ probeSpoiled w = true → t.roll.stage = { w.roll.stage with probeTimer := min 300 (w.roll.stage.probeTimer + 10) })) := by
  have hstep := stageTests_probe hstage
  refine ⟨fun hleave => ?_, fun hstay => ?_⟩
  · rw [if_pos hleave] at hstep
    exact h.intervened hstep rfl
  · rw [if_neg hstay] at hstep
    refine ⟨fun hspoiled => h.left (hstep.trans (if_pos hspoiled)) rfl, fun hspoiled => ?_⟩
    rw [h.stage_after, hstep, if_neg hspoiled]
    rfl

/-- INTERVENE at a sample (R120). -/
theorem StageTurn.intervene (h : StageTurn s w t) (hstage : w.roll.stage.stage = .intervene) :
    t.roll.stage = { w.roll.stage with
      minTimer := min 500 (w.roll.stage.minTimer + 10), calm := calmAfter w, level := everyLevel (interveneLevel w) } ∧
    ∀ c, (w.roll.stage.level.get c = some (interveneLevel w c) → samePart s t (.entry c .roll)) ∧
      (w.roll.stage.level.get c ≠ some (interveneLevel w c) →
        entryOf t c .roll = some ⟨min 1000 (interveneLevel w c), none, some (.stage .intervene)⟩) := by
  have hstep := stageTests_intervene hstage
  refine ⟨?_, fun c => ?_⟩
  · rw [h.stage_after, hstep, followSides_stage]
    rfl
  · obtain ⟨hkept, hposted⟩ := followSide_posts.outcome (timingIntervene w) c
    rw [← hstep] at hkept hposted
    refine ⟨fun hsame => ?_, fun hne => (h.entry_after c).trans (hposted hne).entry⟩
    have hkeep : entryOf t c .roll = entryOf w c .roll := (h.entry_after c).trans (hkept hsame).entry
    exact (h.entries c).trans hkeep

/-- RECOVER at a sample (R121). -/
theorem StageTurn.recover (h : StageTurn s w t) (hstage : w.roll.stage.stage = .recover) :
    (riskAtLimit w = true → Intervened w.roll.stage (interveneLevel w) s t) ∧
    (¬ riskAtLimit w = true → t.roll.stage = { w.roll.stage with ramp := min 100 (w.roll.stage.ramp + 10) }) := by
  have hstep := stageTests_recover hstage
  refine ⟨fun hlimit => ?_, fun hlimit => ?_⟩
  · rw [if_pos hlimit] at hstep
    exact h.intervened (r := w.roll.stage) hstep rfl
  · rw [h.stage_after, hstep, if_neg hlimit]
    rfl

end Stages

/-! ## The entry into PROBE (R56, R116, R129) -/

section Probe
variable {s w t : State} (h : StageTurn s w t) (hbusy : stageCalm t = false) (hstep : stageTests w = enterProbe (watching w))
include h hstep

theorem StageTurn.probe_record : t.roll.stage.stage = .probe ∧ t.roll.stage.probed = some t.roll.inner ∧
    t.roll.stage.probeTimer = 0 ∧ t.roll.stage.calm = none := by
  have hrecord := (probeChannels_entered (watching w)).record
  rw [LevelsOnly, probing_stage] at hrecord
  have hinner : (watching w).roll.inner = t.roll.inner := h.inner.symm
  rw [h.stage_after, hstep, enterProbe_eq, stage_event, hrecord, hinner]
  exact ⟨rfl, rfl, rfl, rfl⟩

theorem StageTurn.probe_event : EventQueued s t := by
  have hset : samePart w (watching w) (.linkPort .up) := setStage_frame _ w _ (by simp)
  have hprobing : samePart (watching w) (probing (watching w)) (.linkPort .up) := probing_frame _ _ (by decide +kernel)
  have hchannels : samePart (probing (watching w)) (forChannels probeChannel (probing (watching w))) (.linkPort .up) :=
    forChannels_frame probeChannel_frame _ _ (by decide +kernel)
  exact h.event (hstep.trans (enterProbe_eq _)) ((hset.trans hprobing).trans hchannels)

theorem StageTurn.probe_outer (c : Channel) (hc : channelSide c ≠ t.roll.inner) :
    t.roll.stage.level.get c = s.roll.stage.level.get c ∧ samePart s t (.entry c .roll) := by
  rw [h.inner] at hc
  have hspared := (probeChannels_entered (watching w)).outer c hc
  refine ⟨?_, ?_⟩
  · rw [h.stage_after, hstep, enterProbe_eq, stage_event, hspared.level]
    have hlevel : (watching w).roll.stage.level = w.roll.stage.level := rfl
    rw [hlevel, h.stage]
  · have hentry : entryOf t c .roll = entryOf w c .roll := by
      rw [h.entry_after, hstep, enterProbe_eq, rollEntry_event]
      exact hspared.entry
    exact (h.entries c).trans hentry

theorem StageTurn.probe_inner (c : Channel) (hc : channelSide c = t.roll.inner) : Probed (calProbe s.cal.active) c t := by
  rw [h.inner] at hc
  have hprobed := (probeChannels_entered (watching w)).inner c hc
  have hactive : (watching w).cal.active = s.cal.active := h.active
  have hskid : t.skid.get c = (stageTests w).skid.get c := h.ends (.skid c) (by cases c <;> decide +kernel)
  have hevent (u : State) : (queueEvent u).skid.get c = u.skid.get c :=
    queueEvent_frame u (.skid c) (by simp [eventParts, noticeParts])
  rw [hactive] at hprobed
  refine ⟨?_, ?_, ?_⟩
  · rw [h.stage_after, hstep, enterProbe_eq, stage_event]
    exact hprobed.level
  · rw [hskid, hstep, enterProbe_eq, hevent]
    exact hprobed.free
  · rw [h.entry_after, hstep, enterProbe_eq, rollEntry_event]
    exact hprobed.entry

include hbusy

theorem StageTurn.probe_holder : t.tests.holder = .probe := by
  have hclosed : t.tests.holder = (stageTests w).tests.holder := h.closes hbusy .holder (by decide +kernel)
  rw [hclosed, hstep, enterProbe_eq, holder_event]
  exact (probeChannels_entered (watching w)).holder

/-- The test that ran is found aborted (R129). -/
theorem StageTurn.probe_aborts {q : RunningTest} (hqueue : QueueInv s) (hq : s.tests.holder = .test q) :
    (t.tests.result.get q.channel).outcome = some .aborted := by
  have hwatching : TestPending q.channel (watching w) := (h.pending hqueue hq).frame (setStage_frame _ w) rfl
  obtain ⟨-, -, hnone⟩ := hqueue
  have hentered := hwatching.enterProbe
  rw [← hstep] at hentered
  exact (h.settled hbusy (hnone q hq) hentered).outcome (by simp [underTest, runningTest, h.probe_holder hbusy hstep])

end Probe

/-- Settles O14: the state after a sample reads as the one in which the stage was tested, since no set is applied in a stage that tests
slips or levels. -/
theorem sampleStepsTheStage : Obligations.SampleStepsTheStage := by
  intro s x hrun henabled
  refine ⟨pressureSample x s, rfl, fun n hrisk => ?_⟩
  have h := sample_stageTurn hrun henabled hrisk
  generalize pressureSample x s = t at *
  generalize indicated (rolloverTurn x s) = w at *
  intro r inner lowered lifts braked limit calm full level levels intervenes lift probes
  have hrec : w.roll.stage = r := h.stage
  have hlevel : interveneLevel w = level := h.interveneLevel_eq
  have hcalm : calmAfter w = calm := by
    have heq := h.calm_eq hrisk
    rwa [hrec] at heq
  have hlimit : riskAtLimit w = true ↔ limit := h.limit_iff hrisk
  have hintervened : Intervened w.roll.stage (interveneLevel w) s t → intervenes := by
    rw [hrec, hlevel]
    exact id
  refine ⟨fun hoff => ?off, fun hquiet => ?quiet, fun hwatch => ?watch, fun hprobe side hside => ?probe, fun hintervene => ?intervene,
    fun hrecover => ?recover⟩
  case off =>
    rw [← hrec] at hoff ⊢
    exact h.plain (stageTests_off hoff)
  case quiet =>
    rw [← hrec] at hquiet ⊢
    have hstep := stageTests_quiet hquiet
    rw [h.riskNow_eq hrisk] at hstep
    refine ⟨fun hn => h.plain (hstep.trans (if_pos hn)), fun hn => ?_⟩
    rw [h.stage_after, hstep, if_neg (by omega)]
  case watch =>
    rw [← hrec] at hwatch
    have hbusy : stageCalm t = false := h.busy (by simp [hwatch]) (by simp [hwatch])
    have hlift : brakedLift w = true ↔ 870 ≤ n ∧ 200 ≤ t.wheels.gating ∧ lift := h.brakedLift_iff hrisk hbusy
    have hprobes : mayProbe w = true ↔ probes := by
      have hiff := h.mayProbe_iff hrisk
      rwa [hrec] at hiff
    obtain ⟨hleave, hstay⟩ := h.watch hwatch
    rw [hlimit, hlift] at hleave hstay
    rw [hprobes, hrec, hcalm] at hstay
    refine ⟨fun hi => hintervened (hleave hi), fun hl hb hp => ?_, fun hl hb hp => (hstay (not_or.mpr ⟨hl, hb⟩)).2 hp⟩
    have hstep := (hstay (not_or.mpr ⟨hl, hb⟩)).1 hp
    obtain ⟨hstage, hprobed, htimer, hnone⟩ := h.probe_record hstep
    refine ⟨hstage, hprobed, htimer, hnone, h.probe_holder hbusy hstep, h.probe_event hstep,
      fun hqueue _ q hq => h.probe_aborts hbusy hstep hqueue hq, fun c => ⟨fun hc => ?_, h.probe_outer hstep c⟩⟩
    have hinner := h.probe_inner hstep c hc
    exact ⟨hinner.level, hinner.free, hinner.entry⟩
  case probe =>
    rw [← hrec] at hprobe hside
    have hbusy : stageCalm t = false := h.busy (by simp [hprobe]) (by simp [hprobe])
    intro probed spoiled found
    have hfound : probeLift w = true ∨ riskAtLimit w = true ↔ found := or_congr (h.probeLift_iff hbusy hside) hlimit
    have hspoiled : probeSpoiled w = true ↔ spoiled := h.spoiled_iff hrisk hside
    obtain ⟨hleave, hstay⟩ := h.probe hprobe
    rw [hfound] at hleave hstay
    rw [hspoiled, hrec] at hstay
    exact ⟨fun hf => hintervened (hleave hf), fun hf hs => (hstay hf).1 hs, fun hf hs => (hstay hf).2 hs⟩
  case intervene =>
    rw [← hrec] at hintervene
    have hfollow := h.intervene hintervene
    rw [hrec, hlevel, hcalm] at hfollow
    exact hfollow
  case recover =>
    rw [← hrec] at hrecover
    obtain ⟨hleave, hstay⟩ := h.recover hrecover
    rw [hlimit] at hleave hstay
    rw [hrec] at hstay
    exact ⟨fun hl => hintervened (hleave hl), hstay⟩

end Sys2Proof
end
